-- ==== Sys2Proof/Word.lean ====
section
/-! DEFINITION. The machine's plain words and numbers, and the names of tiles, clusters and contexts. -/
namespace Sys2Proof

abbrev Byte := BitVec 8
abbrev Word := BitVec 64

/-- Tile number (R13). -/
abbrev Tid := Fin 72

/-- Cluster number (R14). -/
abbrev Cid := Fin 18

/-- Context number CTXID = 2 × tile number + context number (R374). -/
abbrev Who := Fin 144

end Sys2Proof
end

