-- ==== Sys2Proof/Syntax.lean ====
section
/-! DEFINITION. The instruction type: one constructor for each row of the opcode table. A word of the
instruction set keeps every bit of its header and body (R30, R36, R48); an event carries what it concerns. -/
namespace Sys2Proof

/-- The common fields of a word below OP (R30): token bits, guard negation, guard predicate. -/
structure Hdr where
  tk : BitVec 4
  gn : BitVec 1
  gp : BitVec 3
deriving DecidableEq, Repr

/-- Body format FS (R36). -/
structure FS where
  d : BitVec 5
  a : BitVec 5
  b : BitVec 5
  fn : BitVec 17
deriving DecidableEq, Repr

/-- Body format FK (R36). -/
structure FK where
  a : BitVec 5
  b : BitVec 5
  c : BitVec 5
  imm : BitVec 17
deriving DecidableEq, Repr

/-- Body format FI (R36). -/
structure FI where
  d : BitVec 5
  a : BitVec 5
  imm : BitVec 22
deriving DecidableEq, Repr

/-- Body format FL (R36). -/
structure FL where
  d : BitVec 5
  imm : BitVec 27
deriving DecidableEq, Repr

/-- Body format FB (R36): condition or level, packet offset, slot. -/
structure FB where
  cond : BitVec 3
  off : BitVec 26
  slot : BitVec 3
deriving DecidableEq, Repr

/-- Body format FV (R36, R38). -/
structure FV where
  wn : BitVec 1
  nd : BitVec 4
  sa : BitVec 5
  sb : BitVec 5
  sc : BitVec 5
  me : BitVec 1
  mr : BitVec 3
  var : BitVec 4
  fmt : BitVec 4
deriving DecidableEq, Repr

/-- Body format FM (R36, R40). -/
structure FM where
  hnd : BitVec 4
  ofs : BitVec 5
  spa : BitVec 5
  len : BitVec 6
  rep : BitVec 8
  flg : BitVec 4
deriving DecidableEq, Repr

/-- Body format FT (R36, R42). -/
structure FT where
  z : BitVec 4
  da : BitVec 5
  db : BitVec 5
  kc : BitVec 8
  var : BitVec 4
  flg : BitVec 6
deriving DecidableEq, Repr

/-- The three queues of a context (R33, R43). -/
inductive QName where
  | l | c | s
deriving DecidableEq, Repr

/-- The four mesh directions (R393). -/
inductive Dir where
  | north | east | south | west
deriving DecidableEq, Repr

/-- The two mailboxes (R443). -/
inductive Mailbox where
  | host | device
deriving DecidableEq, Repr

/-- What a trigger watches (R355). -/
inductive TriggerSource where
  /-- a monitor or performance counter, by its identifier (R435), compared at least or at most -/
  | counter (id : BitVec 8) (atLeast : Bool)
  /-- a queue whose ring stays empty, with no node of it in the table -/
  | idleQueue (q : Fin 1024)
deriving DecidableEq, Repr

/-- One entry of the trigger table (R355). -/
structure Trigger where
  src : TriggerSource
  threshold : Int
  node : BitVec 64
  queue : Fin 1024
  armed : Bool
deriving DecidableEq, Repr

/-- A register that REGISTER_WRITE names: a CSR by number (R340) or a hub register by physical address (R82, R413, R435). -/
inductive RegAddr where
  | csr (n : BitVec 12)
  | hub (a : BitVec 52)
deriving DecidableEq, Repr

/-- Every row of the opcode table: the 183 instructions, the hints, the unassigned opcodes, and the events of the part. -/
inductive Instr where
  /-- `nop`, OP 0x00 (R47). -/
  | nop (h : Hdr) (x : BitVec 32)
  /-- `add`, OP 0x01 (R47). -/
  | add (h : Hdr) (f : FS)
  /-- `sub`, OP 0x02 (R47). -/
  | sub (h : Hdr) (f : FS)
  /-- `and`, OP 0x03 (R47). -/
  | andR (h : Hdr) (f : FS)
  /-- `or`, OP 0x04 (R47). -/
  | orR (h : Hdr) (f : FS)
  /-- `xor`, OP 0x05 (R47). -/
  | xorR (h : Hdr) (f : FS)
  /-- `shl`, OP 0x06 (R47). -/
  | shl (h : Hdr) (f : FS)
  /-- `shr`, OP 0x07 (R47). -/
  | shr (h : Hdr) (f : FS)
  /-- `sra`, OP 0x08 (R47). -/
  | sra (h : Hdr) (f : FS)
  /-- `mul`, OP 0x09 (R47). -/
  | mul (h : Hdr) (f : FS)
  /-- `mulh`, OP 0x0A (R47). -/
  | mulh (h : Hdr) (f : FS)
  /-- `div`, OP 0x0B (R47). -/
  | div (h : Hdr) (f : FS)
  /-- `rem`, OP 0x0C (R47). -/
  | rem (h : Hdr) (f : FS)
  /-- `minmax`, OP 0x0D (R47). -/
  | minmax (h : Hdr) (f : FS)
  /-- `spset`, OP 0x0E (R47). -/
  | spset (h : Hdr) (f : FS)
  /-- `spinv`, OP 0x0F (R47). -/
  | spinv (h : Hdr) (f : FS)
  /-- `spq`, OP 0x10 (R47). -/
  | spq (h : Hdr) (f : FS)
  /-- `addi`, OP 0x11 (R47). -/
  | addi (h : Hdr) (f : FI)
  /-- `andi`, OP 0x12 (R47). -/
  | andi (h : Hdr) (f : FI)
  /-- `ori`, OP 0x13 (R47). -/
  | ori (h : Hdr) (f : FI)
  /-- `xori`, OP 0x14 (R47). -/
  | xori (h : Hdr) (f : FI)
  /-- `shli`, OP 0x15 (R47). -/
  | shli (h : Hdr) (f : FI)
  /-- `shri`, OP 0x16 (R47). -/
  | shri (h : Hdr) (f : FI)
  /-- `srai`, OP 0x17 (R47). -/
  | srai (h : Hdr) (f : FI)
  /-- `li`, OP 0x18 (R47). -/
  | li (h : Hdr) (f : FL)
  /-- `lsh`, OP 0x19 (R47). -/
  | lsh (h : Hdr) (f : FI)
  /-- `bitop`, OP 0x1A (R47). -/
  | bitop (h : Hdr) (f : FS)
  /-- `sptag`, OP 0x1B (R47). -/
  | sptag (h : Hdr) (f : FS)
  /-- `bfx`, OP 0x1C (R47). -/
  | bfx (h : Hdr) (f : FS)
  /-- `bfi`, OP 0x1D (R47). -/
  | bfi (h : Hdr) (f : FS)
  /-- `cmp`, OP 0x1E (R47). -/
  | cmp (h : Hdr) (f : FS)
  /-- `cmpi`, OP 0x1F (R47). -/
  | cmpi (h : Hdr) (f : FI)
  /-- `plog`, OP 0x20 (R47). -/
  | plog (h : Hdr) (f : FS)
  /-- `br`, OP 0x21 (R47). -/
  | br (h : Hdr) (f : FB)
  /-- `call`, OP 0x22 (R47). -/
  | call (h : Hdr) (f : FB)
  /-- `jr`, OP 0x23 (R47). -/
  | jr (h : Hdr) (f : FS)
  /-- `ret`, OP 0x24 (R47). -/
  | retR (h : Hdr) (f : FS)
  /-- `loop`, OP 0x25 (R47). -/
  | loopLc (h : Hdr) (f : FB)
  /-- `lpbrk`, OP 0x26 (R47). -/
  | lpbrk (h : Hdr) (f : FB)
  /-- `ld`, OP 0x27 (R47). -/
  | ld (h : Hdr) (f : FS)
  /-- `st`, OP 0x28 (R47). -/
  | st (h : Hdr) (f : FS)
  /-- `amo`, OP 0x29 (R47). -/
  | amo (h : Hdr) (f : FS)
  /-- `cas`, OP 0x2A (R47). -/
  | cas (h : Hdr) (f : FS)
  /-- `fence`, OP 0x2B (R47). -/
  | fence (h : Hdr) (f : FS)
  /-- `xfence`, OP 0x2C (R47). -/
  | xfence (h : Hdr) (f : FS)
  /-- `xlat`, OP 0x2D (R47). -/
  | xlat (h : Hdr) (f : FS)
  /-- `hfree`, OP 0x2E (R47). -/
  | hfree (h : Hdr) (f : FS)
  /-- `hinfo`, OP 0x2F (R47). -/
  | hinfo (h : Hdr) (f : FS)
  /-- `qsync`, OP 0x30 (R47). -/
  | qsync (h : Hdr) (f : FS)
  /-- `sel`, OP 0x31 (R47). -/
  | selR (h : Hdr) (f : FS)
  /-- `adr`, OP 0x32 (R47). -/
  | adr (h : Hdr) (f : FL)
  /-- `task.post`, OP 0x33 (R47). -/
  | taskPost (h : Hdr) (f : FS)
  /-- `task.end`, OP 0x34 (R47). -/
  | taskEnd (h : Hdr) (f : FS)
  /-- `evt.sig`, OP 0x35 (R47). -/
  | evtSig (h : Hdr) (f : FS)
  /-- `evt.wait`, OP 0x36 (R47). -/
  | evtWait (h : Hdr) (f : FS)
  /-- `task.yield`, OP 0x37 (R47). -/
  | taskYield (h : Hdr) (f : FS)
  /-- `apx.inv`, OP 0x38 (R47). -/
  | apxInv (h : Hdr) (f : FS)
  /-- `hunpin`, OP 0x39 (R47). -/
  | hunpin (h : Hdr) (f : FS)
  /-- `csrr`, OP 0x3B (R47). -/
  | csrr (h : Hdr) (f : FI)
  /-- `csrw`, OP 0x3C (R47). -/
  | csrw (h : Hdr) (f : FI)
  /-- `csrs`, OP 0x3D (R47). -/
  | csrs (h : Hdr) (f : FI)
  /-- `csrc`, OP 0x3E (R47). -/
  | csrc (h : Hdr) (f : FI)
  /-- `fop`, OP 0x3F (R47). -/
  | fop (h : Hdr) (f : FS)
  /-- `ldsp`, OP 0x40 (R47). -/
  | ldsp (h : Hdr) (f : FM)
  /-- `ldsp.g`, OP 0x41 (R47). -/
  | ldspG (h : Hdr) (f : FM)
  /-- `ldsp.t`, OP 0x42 (R47). -/
  | ldspT (h : Hdr) (f : FM)
  /-- `spfill`, OP 0x43 (R47). -/
  | spfill (h : Hdr) (f : FM)
  /-- `cp.launch`, OP 0x44 (R47). -/
  | cpLaunch (h : Hdr) (f : FK)
  /-- `cp.adv`, OP 0x45 (R47). -/
  | cpAdv (h : Hdr) (f : FK)
  /-- `cp.arm`, OP 0x46 (R47). -/
  | cpArm (h : Hdr) (f : FK)
  /-- `cp.cancel`, OP 0x47 (R47). -/
  | cpCancel (h : Hdr) (f : FK)
  /-- `kv.get`, OP 0x48 (R47). -/
  | kvGet (h : Hdr) (f : FK)
  /-- `pim.mv`, OP 0x49 (R47). -/
  | pimMv (h : Hdr) (f : FK)
  /-- `pim.cfg`, OP 0x4A (R47). -/
  | pimCfg (h : Hdr) (f : FK)
  /-- `coll.bsum`, OP 0x4B (R47). -/
  | collBsum (h : Hdr) (f : FK)
  /-- `coll.bar`, OP 0x4C (R47). -/
  | collBar (h : Hdr) (f : FK)
  /-- `prf`, OP 0x4D (R47). -/
  | prf (h : Hdr) (f : FM)
  /-- `kv.press`, OP 0x4E (R47). -/
  | kvPress (h : Hdr) (f : FK)
  /-- `kv.fold`, OP 0x4F (R47). -/
  | kvFold (h : Hdr) (f : FK)
  /-- `qz.run`, OP 0x50 (R47). -/
  | qzRun (h : Hdr) (f : FK)
  /-- `spcopy`, OP 0x51 (R47). -/
  | spcopy (h : Hdr) (f : FM)
  /-- `lnop`, OP 0x52 (R47). -/
  | lnop (h : Hdr) (x : BitVec 32)
  /-- `stsp`, OP 0x60 (R47). -/
  | stsp (h : Hdr) (f : FM)
  /-- `stsp.s`, OP 0x61 (R47). -/
  | stspS (h : Hdr) (f : FM)
  /-- `stsp.t`, OP 0x62 (R47). -/
  | stspT (h : Hdr) (f : FM)
  /-- `cp.advs`, OP 0x63 (R47). -/
  | cpAdvs (h : Hdr) (f : FK)
  /-- `kv.put`, OP 0x64 (R47). -/
  | kvPut (h : Hdr) (f : FK)
  /-- `kv.commit`, OP 0x65 (R47). -/
  | kvCommit (h : Hdr) (f : FK)
  /-- `kv.squash`, OP 0x66 (R47). -/
  | kvSquash (h : Hdr) (f : FK)
  /-- `stsp.add`, OP 0x67 (R47). -/
  | stspAdd (h : Hdr) (f : FM)
  /-- `evt.sigs`, OP 0x68 (R47). -/
  | evtSigs (h : Hdr) (f : FK)
  /-- `task.posts`, OP 0x69 (R47). -/
  | taskPosts (h : Hdr) (f : FK)
  /-- `snop`, OP 0x6A (R47). -/
  | snop (h : Hdr) (x : BitVec 32)
  /-- `vfetch`, OP 0x70 (R47). -/
  | vfetch (h : Hdr) (f : FV)
  /-- `vput`, OP 0x71 (R47). -/
  | vput (h : Hdr) (f : FV)
  /-- `vmov`, OP 0x72 (R47). -/
  | vmov (h : Hdr) (f : FV)
  /-- `vpop`, OP 0x73 (R47). -/
  | vpop (h : Hdr) (f : FV)
  /-- `vbcast`, OP 0x74 (R47). -/
  | vbcast (h : Hdr) (f : FV)
  /-- `vimm`, OP 0x75 (R47). -/
  | vimm (h : Hdr) (f : FV)
  /-- `vperm`, OP 0x76 (R47). -/
  | vperm (h : Hdr) (f : FV)
  /-- `vshuf`, OP 0x77 (R47). -/
  | vshuf (h : Hdr) (f : FV)
  /-- `vsel`, OP 0x78 (R47). -/
  | vsel (h : Hdr) (f : FV)
  /-- `mset`, OP 0x79 (R47). -/
  | mset (h : Hdr) (f : FV)
  /-- `vadd`, OP 0x7A (R47). -/
  | vadd (h : Hdr) (f : FV)
  /-- `vsub`, OP 0x7B (R47). -/
  | vsub (h : Hdr) (f : FV)
  /-- `vmul`, OP 0x7C (R47). -/
  | vmul (h : Hdr) (f : FV)
  /-- `vfma`, OP 0x7D (R47). -/
  | vfma (h : Hdr) (f : FV)
  /-- `vmin`, OP 0x7E (R47). -/
  | vmin (h : Hdr) (f : FV)
  /-- `vmax`, OP 0x7F (R47). -/
  | vmax (h : Hdr) (f : FV)
  /-- `vabs`, OP 0x80 (R47). -/
  | vabs (h : Hdr) (f : FV)
  /-- `vneg`, OP 0x81 (R47). -/
  | vneg (h : Hdr) (f : FV)
  /-- `vcmp`, OP 0x82 (R47). -/
  | vcmp (h : Hdr) (f : FV)
  /-- `vrcp`, OP 0x83 (R47). -/
  | vrcp (h : Hdr) (f : FV)
  /-- `vrsqrt`, OP 0x84 (R47). -/
  | vrsqrt (h : Hdr) (f : FV)
  /-- `vsqrt`, OP 0x85 (R47). -/
  | vsqrt (h : Hdr) (f : FV)
  /-- `vexp2`, OP 0x86 (R47). -/
  | vexp2 (h : Hdr) (f : FV)
  /-- `vlog2`, OP 0x87 (R47). -/
  | vlog2 (h : Hdr) (f : FV)
  /-- `vsig`, OP 0x88 (R47). -/
  | vsig (h : Hdr) (f : FV)
  /-- `vtanh`, OP 0x89 (R47). -/
  | vtanh (h : Hdr) (f : FV)
  /-- `vcvt`, OP 0x8A (R47). -/
  | vcvt (h : Hdr) (f : FV)
  /-- `vscale`, OP 0x8B (R47). -/
  | vscale (h : Hdr) (f : FV)
  /-- `vand`, OP 0x8C (R47). -/
  | vand (h : Hdr) (f : FV)
  /-- `vor`, OP 0x8D (R47). -/
  | vor (h : Hdr) (f : FV)
  /-- `vxor`, OP 0x8E (R47). -/
  | vxor (h : Hdr) (f : FV)
  /-- `vshl`, OP 0x8F (R47). -/
  | vshl (h : Hdr) (f : FV)
  /-- `vshr`, OP 0x90 (R47). -/
  | vshr (h : Hdr) (f : FV)
  /-- `vsra`, OP 0x91 (R47). -/
  | vsra (h : Hdr) (f : FV)
  /-- `vredsum`, OP 0x92 (R47). -/
  | vredsum (h : Hdr) (f : FV)
  /-- `vredmax`, OP 0x93 (R47). -/
  | vredmax (h : Hdr) (f : FV)
  /-- `vredmin`, OP 0x94 (R47). -/
  | vredmin (h : Hdr) (f : FV)
  /-- `vscan`, OP 0x95 (R47). -/
  | vscan (h : Hdr) (f : FV)
  /-- `vpack`, OP 0x96 (R47). -/
  | vpack (h : Hdr) (f : FV)
  /-- `vunpk`, OP 0x97 (R47). -/
  | vunpk (h : Hdr) (f : FV)
  /-- `vclass`, OP 0x98 (R47). -/
  | vclass (h : Hdr) (f : FV)
  /-- `vrnd`, OP 0x99 (R47). -/
  | vrnd (h : Hdr) (f : FV)
  /-- `vclamp`, OP 0x9A (R47). -/
  | vclamp (h : Hdr) (f : FV)
  /-- `vdot4`, OP 0x9B (R47). -/
  | vdot4 (h : Hdr) (f : FV)
  /-- `vnop`, OP 0x9C (R47). -/
  | vnop (h : Hdr) (f : FL)
  /-- `cnop`, OP 0x9D (R47). -/
  | cnop (h : Hdr) (x : BitVec 32)
  /-- `tcfg`, OP 0xA0 (R47). -/
  | tcfg (h : Hdr) (f : FK)
  /-- `acc.alloc`, OP 0xA1 (R47). -/
  | accAlloc (h : Hdr) (f : FK)
  /-- `acc.free`, OP 0xA2 (R47). -/
  | accFree (h : Hdr) (f : FK)
  /-- `acc.zero`, OP 0xA3 (R47). -/
  | accZero (h : Hdr) (f : FK)
  /-- `mma`, OP 0xA4 (R47). -/
  | mma (h : Hdr) (f : FT)
  /-- `mma.sp`, OP 0xA5 (R47). -/
  | mmaSp (h : Hdr) (f : FT)
  /-- `mma.bp`, OP 0xA6 (R47). -/
  | mmaBp (h : Hdr) (f : FT)
  /-- `vld.acc`, OP 0xA7 (R47). -/
  | vldAcc (h : Hdr) (f : FV)
  /-- `vst.acc`, OP 0xA8 (R47). -/
  | vstAcc (h : Hdr) (f : FV)
  /-- `tmark`, OP 0xA9 (R47). -/
  | tmark (h : Hdr) (f : FK)
  /-- `kat`, OP 0xAA (R47). -/
  | kat (h : Hdr) (f : FK)
  /-- `katcmp`, OP 0xAB (R47). -/
  | katcmp (h : Hdr) (x : BitVec 32)
  /-- `acc.out`, OP 0xAC (R47). -/
  | accOut (h : Hdr) (f : FK)
  /-- `mprio`, OP 0xAD (R47). -/
  | mprio (h : Hdr) (f : FK)
  /-- `tmask`, OP 0xB0 (R47). -/
  | tmask (h : Hdr) (f : FV)
  /-- `smx.max`, OP 0xB1 (R47). -/
  | smxMax (h : Hdr) (f : FV)
  /-- `smx.exp`, OP 0xB2 (R47). -/
  | smxExp (h : Hdr) (f : FV)
  /-- `smx.resc`, OP 0xB3 (R47). -/
  | smxResc (h : Hdr) (f : FV)
  /-- `smx.merge`, OP 0xB4 (R47). -/
  | smxMerge (h : Hdr) (f : FV)
  /-- `lin.feat`, OP 0xB5 (R47). -/
  | linFeat (h : Hdr) (f : FV)
  /-- `lin.part`, OP 0xB6 (R47). -/
  | linPart (h : Hdr) (f : FV)
  /-- `rope`, OP 0xB7 (R47). -/
  | rope (h : Hdr) (f : FV)
  /-- `vrms`, OP 0xB8 (R47). -/
  | vrms (h : Hdr) (f : FV)
  /-- `argmax`, OP 0xC0 (R47). -/
  | argmax (h : Hdr) (f : FV)
  /-- `topk`, OP 0xC1 (R47). -/
  | topk (h : Hdr) (f : FV)
  /-- `topk.mrg`, OP 0xC2 (R47). -/
  | topkMrg (h : Hdr) (f : FV)
  /-- `topk.rd`, OP 0xC3 (R47). -/
  | topkRd (h : Hdr) (f : FV)
  /-- `smp.cfg`, OP 0xC4 (R47). -/
  | smpCfg (h : Hdr) (f : FK)
  /-- `smp.draw`, OP 0xC5 (R47). -/
  | smpDraw (h : Hdr) (f : FV)
  /-- `smp.acc`, OP 0xC6 (R47). -/
  | smpAcc (h : Hdr) (f : FV)
  /-- `rng`, OP 0xC7 (R47). -/
  | rng (h : Hdr) (f : FV)
  /-- `apx.beg`, OP 0xD0 (R47). -/
  | apxBeg (h : Hdr) (f : FK)
  /-- `apx.end`, OP 0xD1 (R47). -/
  | apxEnd (h : Hdr) (x : BitVec 32)
  /-- `trap`, OP 0xE0 (R47). -/
  | trapN (h : Hdr) (f : FL)
  /-- `eret`, OP 0xE1 (R47). -/
  | eret (h : Hdr) (x : BitVec 32)
  /-- `ctx.swap`, OP 0xE2 (R47). -/
  | ctxSwap (h : Hdr) (f : FS)
  /-- `ctx.save`, OP 0xE3 (R47). -/
  | ctxSave (h : Hdr) (f : FS)
  /-- `ctx.load`, OP 0xE4 (R47). -/
  | ctxLoad (h : Hdr) (f : FS)
  /-- `halt`, OP 0xE5 (R47). -/
  | halt (h : Hdr) (x : BitVec 32)
  /-- `brk`, OP 0xE6 (R47). -/
  | brk (h : Hdr) (f : FL)
  /-- `wfe`, OP 0xE7 (R47). -/
  | wfe (h : Hdr) (f : FS)
  /-- `tlb.inv`, OP 0xE8 (R47). -/
  | tlbInv (h : Hdr) (f : FS)
  /-- `pwr.req`, OP 0xE9 (R47). -/
  | pwrReq (h : Hdr) (f : FK)
  /-- `mchk.ack`, OP 0xEA (R47). -/
  | mchkAck (h : Hdr) (f : FS)
  /-- `hint.pf`, OP 0xF0 (R47). -/
  | hintPf (h : Hdr) (x : BitVec 32)
  /-- `hint.hot`, OP 0xF1 (R47). -/
  | hintHot (h : Hdr) (x : BitVec 32)
  /-- `hint.loop`, OP 0xF2 (R47). -/
  | hintLoop (h : Hdr) (x : BitVec 32)
  /-- A word whose opcode is unassigned (R45). -/
  | unassignedOpcode (w : BitVec 48)
  /-- An undefined hint, OP 0xF3 to 0xFF (R46). -/
  | undefinedHint (w : BitVec 48)
  /-- A `kv.put`, OP 0x64, whose NODE field is not 0: a provisional put (R284). -/
  | kvPutProvisional (h : Hdr) (f : FK)
  /-- Decode of the packet that the current context enters (R25, R26). -/
  | packetDecode
  /-- The queue word at which the front end of `w` is held dispatches (R323). -/
  | queueDispatch (w : Who)
  /-- The oldest finished word of queue `q` of `w` retires (R35). -/
  | queueWordRetire (w : Who) (q : QName)
  /-- The oldest waiting token push of `w` completes (R34). -/
  | tokenPush (w : Who)
  /-- A C-cycle of `w` passes in which no word issues; results due drop (R190, R193). -/
  | beltDrop (w : Who)
  /-- The oldest posted store of `w` reaches its home slice (R136). -/
  | postedStorePerform (w : Who)
  /-- The fill of `line` from memory arrives (R126). -/
  | homeSliceFill (line : BitVec 46)
  /-- The oldest queued write-through of `line` reaches memory (R126). -/
  | homeWriteThrough (line : BitVec 46)
  /-- The patrol scrub reads `line` (R83). -/
  | patrolScrubRead (line : BitVec 46)
  /-- 64 tile cycles pass at tile `t` (R131). -/
  | ltTick (t : Tid)
  /-- A host snoop demands the host line `line` (R127). -/
  | hostSnoop (line : BitVec 46)
  /-- The slice answers the snoop; the host leaves `data` in its memory (R127). -/
  | hostSnoopResponse (line : BitVec 46) (data : BitVec 512)
  /-- The host writes the masked bytes of an LP6 line (R127). -/
  | hostCxlMemWrite (line : BitVec 46) (mask : BitVec 64) (data : BitVec 512)
  /-- The host reads an LP6 line and may cache it (R127, R85). -/
  | hostCxlMemRead (line : BitVec 46)
  /-- The host answers a back-invalidation snoop (R85). -/
  | backInvalidationResponse (line : BitVec 46)
  /-- 2^21 scheduler cycles pass without the answer (R85). -/
  | backInvalidationTimeout (line : BitVec 46)
  /-- All migration counts reset (R87). -/
  | migrationCountWindow
  /-- The move of page `id` commits or is abandoned (R119). -/
  | migrationCommit (id : BitVec 49)
  /-- A shoot-down of page `id` reaches tile `t` (R120). -/
  | shootDown (t : Tid) (id : BitVec 49)
  /-- Tile `t` acknowledges the shoot-down (R120). -/
  | shootDownAck (t : Tid) (id : BitVec 49)
  /-- The engine recopies and writes the new entry (R119). -/
  | migrationPublish (id : BitVec 49)
  /-- The lookup at which the front end of `w` stalls ends (R109). -/
  | pageWalkDone (w : Who)
  /-- Firmware reports the oldest page-in (R123). -/
  | pageInComplete (ok : Bool)
  /-- The next entry of a copy channel is released (R177). -/
  | copyEntryRelease (t : Tid) (ch : Fin 8)
  /-- Entry `k` of a copy channel completes (R178). -/
  | copyEntryComplete (t : Tid) (ch : Fin 8) (k : Nat)
  /-- A C-cycle of `w` passes and the chunk due folds (R258). -/
  | matrixChunkFold (w : Who)
  /-- An uncorrectable error of tile `z`, or of an operand of its word, is consumed (R271). -/
  | accUncorrectableError (w : Who) (z : BitVec 4) (operand : Bool)
  /-- The next row of the oldest `pim.mv` of `w` is written and retired (R96). -/
  | pimRowComplete (w : Who)
  /-- The governor of cluster `c` serves the head of class `k` (R430). -/
  | grant (c : Cid) (k : Fin 5)
  /-- The held power window of `w` runs out (R431). -/
  | pwrWindowExpiry (w : Who)
  /-- The sampling unit serves the oldest request of `w` (R306). -/
  | smpRequestServe (w : Who)
  /-- The oldest waiting `topk.rd` of `w` pushes its entries (R302). -/
  | topkRdPush (w : Who)
  /-- The oldest hidden copy entry of tile `t` lands (R284). -/
  | kvHiddenLanding (t : Tid)
  /-- The commit or squash of `w` finds PEND = 0 and goes on (R285). -/
  | kvCommitResume (w : Who)
  /-- The press of `w` publishes its wheel (R287). -/
  | kvPressPublish (w : Who)
  /-- The fold of `w` publishes the advanced FW (R288). -/
  | kvFoldPublish (w : Who)
  /-- The oldest `kv.get` of `w` finishes (R281). -/
  | kvGetComplete (w : Who)
  /-- The oldest quantisation command of tile `t` completes (R311). -/
  | qzCommandComplete (t : Tid)
  /-- The collective member of `w` arrives at the record's home (R319). -/
  | collArrival (w : Who)
  /-- The timeout of the collective member of `w` expires (R319). -/
  | collTimeout (w : Who)
  /-- A fitting-engine slot ends its training phase (R424). -/
  | apxTrainDone (c : Cid) (k : Fin 16)
  /-- The network's result arrives (R425). -/
  | apxSubstituteResult (w : Who)
  /-- No result has arrived by t + 64 (R425). -/
  | apxSubstituteWithdraw (w : Who)
  /-- The timer count of `w` reaches the tile's period (R375). -/
  | timerExpiry (w : Who)
  /-- A pending interrupt of `w` is recognised (R375, R376). -/
  | interruptEntry (w : Who)
  /-- The trap of `w` whose queues have drained enters its handler (R376). -/
  | trapEntry (w : Who)
  /-- The host writes TAIL of queue `q` (R348). -/
  | hostTailWrite (q : Fin 1024) (tail : BitVec 32)
  /-- The flags byte of queue descriptor `q` is written (R349). -/
  | queueEnWrite (q : Fin 1024) (flags : BitVec 8)
  /-- The scheduler takes the kick bit of queue `q` (R349). -/
  | kickParse (q : Fin 1024)
  /-- The oldest finished version of rename `k` is copied home (R351). -/
  | renameCopyHome (k : Nat)
  /-- Control node `n` reads its control word (R353). -/
  | controlEval (n : Nat)
  /-- Bank node `n` runs on the bank engines (R354). -/
  | bankNodeExec (n : Nat)
  /-- Sample node `n` draws on its cluster's sampling unit (R354). -/
  | sampleNodeExec (n : Nat)
  /-- Hostsig node `n` writes the host word (R354). -/
  | hostsigNodeExec (n : Nat)
  /-- Trigger `k` posts its node and disarms (R355). -/
  | triggerFire (k : Fin 64)
  /-- The scheduler places the best ready instance on context `w` (R356, R357). -/
  | placeInstance (w : Who)
  /-- The scheduler pre-empts the instance of `w` (R357). -/
  | preempt (w : Who)
  /-- The active scheduler core fails and the standby takes over (R369). -/
  | schedCoreFailover
  /-- Tile `t` sends its heartbeats of the period (R393). -/
  | heartbeatSend (t : Tid)
  /-- A heartbeat flit arrives at tile `t` from direction `d` (R394). -/
  | heartbeat (t : Tid) (d : Dir) (flit : BitVec 128)
  /-- Tile `t` ends a period and judges its neighbours (R396). -/
  | periodEndJudgement (t : Tid)
  /-- An ACCUSE flit arrives at tile `t` (R399, R400). -/
  | accuse (t : Tid) (flit : BitVec 128)
  /-- A WITHDRAW flit arrives at tile `t` (R398). -/
  | withdraw (t : Tid) (flit : BitVec 128)
  /-- The accusation of `subj` by `src` expires at tile `t` (R398). -/
  | accusationExpiry (t : Tid) (subj : Tid) (src : Tid)
  /-- A FENCE notice reaches a tile, or the hub (R402). -/
  | fenceNotice (dst : Option Tid) (flit : BitVec 128)
  /-- Every live tile has acknowledged the fence of `t` (R405). -/
  | fenceRemap (t : Tid)
  /-- Tile `t` receives FENCE and starts its self-test (R406). -/
  | fenceReceived (t : Tid)
  /-- The self-test of tile `t` ends (R406). -/
  | selfTestDone (t : Tid) (pass : Bool)
  /-- An APPEAL flit arrives at neighbour `t` (R406). -/
  | appeal (t : Tid) (flit : BitVec 128)
  /-- A READMIT flit arrives at tile `t` (R406). -/
  | readmit (t : Tid) (flit : BitVec 128)
  /-- A RETIRE flit arrives at tile `t` (R408). -/
  | retire (t : Tid) (flit : BitVec 128)
  /-- The signatures of the pair led by `w` differ (R410). -/
  | lockstepMismatch (w : Who) (lead trail : BitVec 32)
  /-- The monitor `id` crosses a threshold (R436). -/
  | monitorEvent (id : BitVec 8) (reading : BitVec 64)
  /-- A privileged read of MONST of cluster `c` into s[d] (R435). -/
  | monstRead (w : Who) (c : Cid) (d : BitVec 5)
  /-- A sensor of cluster `c` reads 110 degrees or more (R434). -/
  | thermalThrottle (c : Cid)
  /-- Both sensors of cluster `c` read 100 degrees or less (R434). -/
  | thermalRelease (c : Cid)
  /-- A sensor reads 125 degrees or more (R434). -/
  | thermalTrip
  /-- Power-good or a device reset (R440). -/
  | deviceReset
  /-- A function-level reset (R437). -/
  | functionLevelReset
  /-- The host requests D3hot (R438). -/
  | d3hotEntry
  /-- The host requests D0 (R438). -/
  | d0Return
  /-- The pair link is lost (R439). -/
  | pairLinkLost
  /-- SPDM GET_VERSION (R442). -/
  | getVersion
  /-- SPDM GET_CAPABILITIES (R442). -/
  | getCapabilities
  /-- SPDM NEGOTIATE_ALGORITHMS (R442). -/
  | negotiateAlgorithms
  /-- SPDM GET_DIGESTS (R442). -/
  | getDigests
  /-- SPDM GET_CERTIFICATE (R442). -/
  | getCertificate (slot : BitVec 4)
  /-- SPDM CHALLENGE (R442). -/
  | challenge (nonce : BitVec 256)
  /-- SPDM GET_MEASUREMENTS (R442). -/
  | getMeasurements (index : BitVec 8)
  /-- Mailbox 0x01 (R370). -/
  | resync (mb : Mailbox) (buf : BitVec 52)
  /-- Mailbox 0x02, map (R105). -/
  | pageMap (mb : Mailbox) (leaf : BitVec 49) (pte : BitVec 64)
  /-- Mailbox 0x02, remap (R105). -/
  | pageRemap (mb : Mailbox) (leaf : BitVec 49) (pte : BitVec 64)
  /-- Mailbox 0x02, unmap (R105). -/
  | pageUnmap (mb : Mailbox) (leaf : BitVec 49)
  /-- Mailbox 0x02, collapse (R89). -/
  | collapseReplicas (mb : Mailbox) (leaf : BitVec 49)
  /-- Mailbox 0x03, protection mode (R159). -/
  | sramProtectionMode (mb : Mailbox) (t : Tid) (bankCode : Bool)
  /-- Mailbox 0x03, failed bank (R414). -/
  | markBankFailed (mb : Mailbox) (t : Tid) (bank : BitVec 7)
  /-- Mailbox 0x04 (R129). -/
  | kvResidentReservation (mb : Mailbox) (t : Tid) (ways : BitVec 8)
  /-- Mailbox 0x05 (R375). -/
  | tileTimerPeriod (mb : Mailbox) (t : Tid) (period : BitVec 64)
  /-- Mailbox 0x06 (R355). -/
  | triggerEntry (mb : Mailbox) (k : Fin 64) (tr : Trigger)
  /-- Mailbox 0x07 (R430). -/
  | governorBudgets (mb : Mailbox) (c : Cid) (k : Fin 5) (b : BitVec 8)
  /-- Mailbox 0x08, readmit (R406). -/
  | readmitTile (mb : Mailbox) (t : Tid)
  /-- Mailbox 0x08, keep fenced (R406). -/
  | keepFenced (mb : Mailbox) (t : Tid)
  /-- Mailbox 0x08, known-answer task (R407). -/
  | postKatTask (mb : Mailbox) (t : Tid) (node : BitVec 64) (q : Fin 1024)
  /-- Mailbox 0x09 (R369). -/
  | coreReloadSelftest (mb : Mailbox) (pass : Bool)
  /-- Mailbox 0x0A, resume (R378). -/
  | resumeContext (mb : Mailbox) (w : Who)
  /-- Mailbox 0x0A, discard (R378). -/
  | discardContext (mb : Mailbox) (w : Who)
  /-- Mailbox 0x0A, discard an image (R117). -/
  | discardImage (mb : Mailbox) (pa : BitVec 52)
  /-- Mailbox 0x0B (R439). -/
  | pairLinkRetrain (mb : Mailbox)
  /-- Mailbox 0x0F (R441). -/
  | imageLoad (mb : Mailbox) (img : List Byte)
  /-- A write of ERRINJ of tile `t` (R414). -/
  | errinjWrite (t : Tid) (v : BitVec 64)
  /-- A write of HBCFG by `w` (R397). -/
  | hbcfgWrite (w : Who) (v : BitVec 64)
  /-- A write of SPQUOTA by `w` (R161). -/
  | spquotaWrite (w : Who) (v : BitVec 64)
  /-- A write of TRAPVEC by `w` (R374). -/
  | trapvecWrite (w : Who) (v : BitVec 64)
  /-- A write of LEASE by `w` (R133). -/
  | leaseWrite (w : Who) (v : BitVec 64)
  /-- A write of QSLIP by `w` (R324). -/
  | qslipWrite (w : Who) (v : BitVec 64)
  /-- A write of PTROOT by `w` (R103). -/
  | ptrootWrite (w : Who) (v : BitVec 64)
  /-- A write of APXSAMP by `w` (R426). -/
  | apxsampWrite (w : Who) (v : BitVec 64)
  /-- A write of any other register by `w` (R339). -/
  | registerWrite (w : Who) (r : RegAddr) (v : BitVec 64)
  /-- The sleeping `evt.wait` of `w` wakes (R363). -/
  | evtWaitWake (w : Who)
  /-- The sleeping `wfe` of `w` wakes (R386). -/
  | wfeWake (w : Who)
  /-- The 96-cycle bank exchange of `w` completes (R389). -/
  | shadowSwapDone (w : Who)
  /-- The pair link is trained (R439). -/
  | pairLinkTrained
  /-- An access of the partner to an LP6 line; an empty mask is a read (R142). -/
  | partnerAccessArrival (line : BitVec 46) (mask : BitVec 64) (data : BitVec 512)
  /-- The partner acknowledges the oldest PAIR access of `w` (R150). -/
  | pairAcknowledgement (w : Who)
  /-- The signatures of the pair led by `w` match (R409). -/
  | lockstepSignatureMatch (w : Who)
  /-- 2^24 scheduler cycles after a D3hot request pass (R438). -/
  | d3hotRunLimitExpiry
  /-- Power is removed (R434). -/
  | powerRemoval
deriving DecidableEq, Repr

end Sys2Proof
end

