-- ==== Sys2Proof/Config.lean ====
section
/-! DEFINITION. What an implementation fixes and the spec leaves open: constants with no body (log 3). -/
namespace Sys2Proof

/-- The value of draw `n`: a value that the spec does not state. Nothing constrains it. -/
opaque Config.freeValue : Nat → Word

/-- Weight or bias `i` of a fitting-engine network after training phase `n`, which R422 leaves open: FP32 patterns, W1, W2 and W3 in
row-major order and then the biases. -/
opaque Config.trainedWeight : Nat → Nat → BitVec 32

/-- What the configuration of a firmware image names: tiles in bank-code mode, and KV-resident ways of each tile (R440). -/
opaque Config.bootBankCode : List Byte → Nat → Bool
opaque Config.bootKvWays : List Byte → Nat → BitVec 8

/-- The versions of the ROM, the scheduler firmware and the management firmware (R370). -/
opaque Config.firmwareVersions : List Byte → BitVec 96

/-- Which row of the power table the configuration of a firmware image selects: 0 for 450 W, 1 for 300 W, 2 for 150 W (R433, R440). -/
opaque Config.bootPower : List Byte → BitVec 2

/-- The SECDED syndrome of an error in a word of an array, by its byte address and whether it is uncorrectable, and the rebuild symbols of
a line: the spec does not give the codes (R128, R159, R160, R412). -/
opaque Config.secdedSyndrome : Nat → Bool → BitVec 8
opaque Config.rebuildSymbols : Nat → BitVec 16

/-- The 64 KiB frame of local LP6 at which the image area `k` of firmware begins (R389, R438). -/
opaque Config.imageArea : Nat → Nat

/-- The bytes that the ROM holds, and those of the boot configuration in a firmware image, which the measurements cover (R442). -/
opaque Config.romImage : List Byte
opaque Config.bootConfiguration : List Byte → List Byte

/-- The certificate chain of SPDM slot 0, and the signature (r, s) of a message by the identity key, which never leaves the management
controller (R442). -/
opaque Config.slot0Chain : List Byte
opaque Config.identitySignature : List Byte → List Byte

/-- The bytes of the answer to an SPDM request, in the conversation so far, with the content that it is to give (R442). -/
opaque Config.spdmAnswer : List (List Byte) → List Byte → List Byte → List Byte

/-- A command of a management mailbox with its arguments (R443). -/
inductive MbCommand where
  | resync (buf : BitVec 52)
  | pageMap (leaf : BitVec 49) (pte : BitVec 64)
  | pageRemap (leaf : BitVec 49) (pte : BitVec 64)
  | pageUnmap (leaf : BitVec 49)
  | collapseReplicas (leaf : BitVec 49)
  | sramProtectionMode (t : Tid) (bankCode : Bool)
  | markBankFailed (t : Tid) (bank : BitVec 7)
  | kvResidentReservation (t : Tid) (ways : BitVec 8)
  | tileTimerPeriod (t : Tid) (period : BitVec 64)
  | triggerEntry (k : Fin 64) (tr : Trigger)
  | governorBudgets (c : Cid) (k : Fin 5) (b : BitVec 8)
  | readmitTile (t : Tid)
  | keepFenced (t : Tid)
  | postKatTask (t : Tid) (node : BitVec 64) (q : Fin 1024)
  | coreReloadSelftest (pass : Bool)
  | resumeContext (w : Who)
  | discardContext (w : Who)
  | discardImage (pa : BitVec 52)
  | pairLinkRetrain
  | imageLoad (img : List Byte)
deriving DecidableEq, Repr, Inhabited

/-- The command that the first 256 bytes of a mailbox hold: a code and arguments, whose layout the spec does not give (R443, log 19). -/
opaque Config.mailboxCommand : List Byte → Option MbCommand

end Sys2Proof
end

