-- ==== Sys2Proof/WellFormed.lean ====
section
/-! DEFINITION. Which terms of Instr stand for a word or an event of the part. -/
namespace Sys2Proof

/-- The NODE field of a `kv.put` (R282): imm17[9:4]. -/
def kvNode (f : FK) : BitVec 6 := BitVec.ofNat 6 (f.imm.toNat / 2 ^ 4)

/-- The opcode of a word. -/
def rawOp (w : BitVec 48) : Nat := w.toNat / 2 ^ 40

/-- The opcodes that R45 leaves unassigned. -/
def unassignedOp (o : Nat) : Bool :=
  o == 0x3A || (0x53 ≤ o && o ≤ 0x5F) || (0x6B ≤ o && o ≤ 0x6F) || (0x9E ≤ o && o ≤ 0x9F) || (0xAE ≤ o && o ≤ 0xAF) ||
    (0xB9 ≤ o && o ≤ 0xBF) || (0xC8 ≤ o && o ≤ 0xCF) || (0xD2 ≤ o && o ≤ 0xDF) || (0xEB ≤ o && o ≤ 0xEF)

/-- A word or event of the part: a `kv.put` has NODE 0 and its provisional form another NODE (R284), a raw word has an opcode
of its kind (R45, R46), scratchpad bank and SRAM numbers exist (R158), and a trap vector or address fits its field. -/
def Instr.wf : Instr → Bool
  | .kvPut _ f => kvNode f == 0
  | .kvPutProvisional _ f => kvNode f != 0
  | .unassignedOpcode w => unassignedOp (rawOp w)
  | .undefinedHint w => 0xF3 ≤ rawOp w
  | .markBankFailed _ _ bank => bank.toNat < 96
  | .kvResidentReservation _ _ ways => ways.toNat ≤ 8
  | .registerWrite _ (.hub a) _ => 0x20000000000 ≤ a.toNat && a.toNat ≤ 0x200FFFFFFFF
  | .registerWrite _ (.csr _) _
  | .nop _ _ | .add _ _ | .sub _ _ | .andR _ _ | .orR _ _ | .xorR _ _ | .shl _ _ | .shr _ _ | .sra _ _ | .mul _ _
  | .mulh _ _ | .div _ _ | .rem _ _ | .minmax _ _ | .spset _ _ | .spinv _ _ | .spq _ _ | .addi _ _ | .andi _ _
  | .ori _ _ | .xori _ _ | .shli _ _ | .shri _ _ | .srai _ _ | .li _ _ | .lsh _ _ | .bitop _ _ | .sptag _ _ | .bfx _ _
  | .bfi _ _ | .cmp _ _ | .cmpi _ _ | .plog _ _ | .br _ _ | .call _ _ | .jr _ _ | .retR _ _ | .loopLc _ _ | .lpbrk _ _
  | .ld _ _ | .st _ _ | .amo _ _ | .cas _ _ | .fence _ _ | .xfence _ _ | .xlat _ _ | .hfree _ _ | .hinfo _ _
  | .qsync _ _ | .selR _ _ | .adr _ _ | .taskPost _ _ | .taskEnd _ _ | .evtSig _ _ | .evtWait _ _ | .taskYield _ _
  | .apxInv _ _ | .hunpin _ _ | .csrr _ _ | .csrw _ _ | .csrs _ _ | .csrc _ _ | .fop _ _ | .ldsp _ _ | .ldspG _ _
  | .ldspT _ _ | .spfill _ _ | .cpLaunch _ _ | .cpAdv _ _ | .cpArm _ _ | .cpCancel _ _ | .kvGet _ _ | .pimMv _ _
  | .pimCfg _ _ | .collBsum _ _ | .collBar _ _ | .prf _ _ | .kvPress _ _ | .kvFold _ _ | .qzRun _ _ | .spcopy _ _
  | .lnop _ _ | .stsp _ _ | .stspS _ _ | .stspT _ _ | .cpAdvs _ _ | .kvCommit _ _ | .kvSquash _ _ | .stspAdd _ _
  | .evtSigs _ _ | .taskPosts _ _ | .snop _ _ | .vfetch _ _ | .vput _ _ | .vmov _ _ | .vpop _ _ | .vbcast _ _
  | .vimm _ _ | .vperm _ _ | .vshuf _ _ | .vsel _ _ | .mset _ _ | .vadd _ _ | .vsub _ _ | .vmul _ _ | .vfma _ _
  | .vmin _ _ | .vmax _ _ | .vabs _ _ | .vneg _ _ | .vcmp _ _ | .vrcp _ _ | .vrsqrt _ _ | .vsqrt _ _ | .vexp2 _ _
  | .vlog2 _ _ | .vsig _ _ | .vtanh _ _ | .vcvt _ _ | .vscale _ _ | .vand _ _ | .vor _ _ | .vxor _ _ | .vshl _ _
  | .vshr _ _ | .vsra _ _ | .vredsum _ _ | .vredmax _ _ | .vredmin _ _ | .vscan _ _ | .vpack _ _ | .vunpk _ _
  | .vclass _ _ | .vrnd _ _ | .vclamp _ _ | .vdot4 _ _ | .vnop _ _ | .cnop _ _ | .tcfg _ _ | .accAlloc _ _
  | .accFree _ _ | .accZero _ _ | .mma _ _ | .mmaSp _ _ | .mmaBp _ _ | .vldAcc _ _ | .vstAcc _ _ | .tmark _ _ | .kat _ _
  | .katcmp _ _ | .accOut _ _ | .mprio _ _ | .tmask _ _ | .smxMax _ _ | .smxExp _ _ | .smxResc _ _ | .smxMerge _ _
  | .linFeat _ _ | .linPart _ _ | .rope _ _ | .vrms _ _ | .argmax _ _ | .topk _ _ | .topkMrg _ _ | .topkRd _ _
  | .smpCfg _ _ | .smpDraw _ _ | .smpAcc _ _ | .rng _ _ | .apxBeg _ _ | .apxEnd _ _ | .trapN _ _ | .eret _ _
  | .ctxSwap _ _ | .ctxSave _ _ | .ctxLoad _ _ | .halt _ _ | .brk _ _ | .wfe _ _ | .tlbInv _ _ | .pwrReq _ _
  | .mchkAck _ _ | .hintPf _ _ | .hintHot _ _ | .hintLoop _ _ | .packetDecode | .queueDispatch _ | .queueWordRetire _ _
  | .tokenPush _ | .beltDrop _ | .postedStorePerform _ | .homeSliceFill _ | .homeWriteThrough _ | .patrolScrubRead _
  | .ltTick _ | .hostSnoop _ | .hostSnoopResponse _ _ | .hostCxlMemWrite _ _ _ | .hostCxlMemRead _
  | .backInvalidationResponse _ | .backInvalidationTimeout _ | .migrationCountWindow | .migrationCommit _
  | .shootDown _ _ | .shootDownAck _ _ | .migrationPublish _ | .pageWalkDone _ | .pageInComplete _
  | .copyEntryRelease _ _ | .copyEntryComplete _ _ _ | .matrixChunkFold _ | .accUncorrectableError _ _ _
  | .pimRowComplete _ | .grant _ _ | .pwrWindowExpiry _ | .smpRequestServe _ | .topkRdPush _ | .kvHiddenLanding _
  | .kvCommitResume _ | .kvPressPublish _ | .kvFoldPublish _ | .kvGetComplete _ | .qzCommandComplete _ | .collArrival _
  | .collTimeout _ | .apxTrainDone _ _ | .apxSubstituteResult _ | .apxSubstituteWithdraw _ | .timerExpiry _
  | .interruptEntry _ | .trapEntry _ | .hostTailWrite _ _ | .queueEnWrite _ _ | .kickParse _ | .renameCopyHome _
  | .controlEval _ | .bankNodeExec _ | .sampleNodeExec _ | .hostsigNodeExec _ | .triggerFire _ | .placeInstance _
  | .preempt _ | .schedCoreFailover | .heartbeatSend _ | .heartbeat _ _ _ | .periodEndJudgement _ | .accuse _ _
  | .withdraw _ _ | .accusationExpiry _ _ _ | .fenceNotice _ _ | .fenceRemap _ | .fenceReceived _ | .selfTestDone _ _
  | .appeal _ _ | .readmit _ _ | .retire _ _ | .lockstepMismatch _ _ _ | .monitorEvent _ _ | .monstRead _ _ _
  | .thermalThrottle _ | .thermalRelease _ | .thermalTrip | .deviceReset | .functionLevelReset | .d3hotEntry | .d0Return
  | .pairLinkLost | .getVersion | .getCapabilities | .negotiateAlgorithms | .getDigests | .getCertificate _
  | .challenge _ | .getMeasurements _ | .resync _ _ | .pageMap _ _ _ | .pageRemap _ _ _ | .pageUnmap _ _
  | .collapseReplicas _ _ | .sramProtectionMode _ _ _ | .tileTimerPeriod _ _ _ | .triggerEntry _ _ _
  | .governorBudgets _ _ _ _ | .readmitTile _ _ | .keepFenced _ _ | .postKatTask _ _ _ _ | .coreReloadSelftest _ _
  | .resumeContext _ _ | .discardContext _ _ | .discardImage _ _ | .pairLinkRetrain _ | .imageLoad _ _
  | .errinjWrite _ _ | .hbcfgWrite _ _ | .spquotaWrite _ _ | .trapvecWrite _ _ | .leaseWrite _ _ | .qslipWrite _ _
  | .ptrootWrite _ _ | .apxsampWrite _ _ | .evtWaitWake _ | .wfeWake _ | .shadowSwapDone _ | .pairLinkTrained
  | .partnerAccessArrival _ _ _ | .pairAcknowledgement _ | .lockstepSignatureMatch _ | .d3hotRunLimitExpiry
  | .powerRemoval => true

end Sys2Proof
end

