-- ==== Sys2Proof/Decode.lean ====
section
/-! DEFINITION. Decoding of 48-bit words (R30, R36, R45 to R48) and the encoder, written from the same tables. -/
namespace Sys2Proof

/-- Field of `w` bits starting at bit `lo` of an `n`-bit word. -/
def bitsAt {n : Nat} (x : BitVec n) (lo w : Nat) : BitVec w := BitVec.ofNat w (x.toNat / 2 ^ lo)

def FS.ofBody (b : BitVec 32) : FS := ⟨bitsAt b 27 5, bitsAt b 22 5, bitsAt b 17 5, bitsAt b 0 17⟩
def FS.toBody (f : FS) : BitVec 32 :=
  BitVec.ofNat 32 (f.d.toNat * 2 ^ 27 + f.a.toNat * 2 ^ 22 + f.b.toNat * 2 ^ 17 + f.fn.toNat)
def FK.ofBody (b : BitVec 32) : FK := ⟨bitsAt b 27 5, bitsAt b 22 5, bitsAt b 17 5, bitsAt b 0 17⟩
def FK.toBody (f : FK) : BitVec 32 :=
  BitVec.ofNat 32 (f.a.toNat * 2 ^ 27 + f.b.toNat * 2 ^ 22 + f.c.toNat * 2 ^ 17 + f.imm.toNat)
def FI.ofBody (b : BitVec 32) : FI := ⟨bitsAt b 27 5, bitsAt b 22 5, bitsAt b 0 22⟩
def FI.toBody (f : FI) : BitVec 32 :=
  BitVec.ofNat 32 (f.d.toNat * 2 ^ 27 + f.a.toNat * 2 ^ 22 + f.imm.toNat)
def FL.ofBody (b : BitVec 32) : FL := ⟨bitsAt b 27 5, bitsAt b 0 27⟩
def FL.toBody (f : FL) : BitVec 32 :=
  BitVec.ofNat 32 (f.d.toNat * 2 ^ 27 + f.imm.toNat)
def FB.ofBody (b : BitVec 32) : FB := ⟨bitsAt b 29 3, bitsAt b 3 26, bitsAt b 0 3⟩
def FB.toBody (f : FB) : BitVec 32 :=
  BitVec.ofNat 32 (f.cond.toNat * 2 ^ 29 + f.off.toNat * 2 ^ 3 + f.slot.toNat)
def FV.ofBody (b : BitVec 32) : FV :=
  ⟨bitsAt b 31 1, bitsAt b 27 4, bitsAt b 22 5, bitsAt b 17 5, bitsAt b 12 5, bitsAt b 11 1, bitsAt b 8 3, bitsAt b 4 4,
    bitsAt b 0 4⟩
def FV.toBody (f : FV) : BitVec 32 :=
  BitVec.ofNat 32 (f.wn.toNat * 2 ^ 31 + f.nd.toNat * 2 ^ 27 + f.sa.toNat * 2 ^ 22 + f.sb.toNat * 2 ^ 17 +
    f.sc.toNat * 2 ^ 12 + f.me.toNat * 2 ^ 11 + f.mr.toNat * 2 ^ 8 + f.var.toNat * 2 ^ 4 + f.fmt.toNat)
def FM.ofBody (b : BitVec 32) : FM :=
  ⟨bitsAt b 28 4, bitsAt b 23 5, bitsAt b 18 5, bitsAt b 12 6, bitsAt b 4 8, bitsAt b 0 4⟩
def FM.toBody (f : FM) : BitVec 32 :=
  BitVec.ofNat 32 (f.hnd.toNat * 2 ^ 28 + f.ofs.toNat * 2 ^ 23 + f.spa.toNat * 2 ^ 18 + f.len.toNat * 2 ^ 12 + f.rep.toNat * 2 ^ 4 + f.flg.toNat)
def FT.ofBody (b : BitVec 32) : FT :=
  ⟨bitsAt b 28 4, bitsAt b 23 5, bitsAt b 18 5, bitsAt b 10 8, bitsAt b 6 4, bitsAt b 0 6⟩
def FT.toBody (f : FT) : BitVec 32 :=
  BitVec.ofNat 32 (f.z.toNat * 2 ^ 28 + f.da.toNat * 2 ^ 23 + f.db.toNat * 2 ^ 18 + f.kc.toNat * 2 ^ 10 + f.var.toNat * 2 ^ 6 + f.flg.toNat)

/-- The fields of a word (R30). -/
def opOf (w : BitVec 48) : BitVec 8 := bitsAt w 40 8
def hdrOf (w : BitVec 48) : Hdr := ⟨bitsAt w 36 4, bitsAt w 35 1, bitsAt w 32 3⟩
def bodyOf (w : BitVec 48) : BitVec 32 := bitsAt w 0 32
def wordOf (op : BitVec 8) (h : Hdr) (body : BitVec 32) : BitVec 48 :=
  BitVec.ofNat 48 (op.toNat * 2 ^ 40 + h.tk.toNat * 2 ^ 36 + h.gn.toNat * 2 ^ 35 + h.gp.toNat * 2 ^ 32 + body.toNat)

/-- The instruction of an opcode, header and body (R47). A `kv.put` with NODE other than 0 is the provisional form (R282, R284). -/
def decodeOp (w : BitVec 48) (op : Nat) (h : Hdr) (x : BitVec 32) : Instr :=
  match op with
  | 0x00 => .nop h x
  | 0x01 => .add h (.ofBody x)
  | 0x02 => .sub h (.ofBody x)
  | 0x03 => .andR h (.ofBody x)
  | 0x04 => .orR h (.ofBody x)
  | 0x05 => .xorR h (.ofBody x)
  | 0x06 => .shl h (.ofBody x)
  | 0x07 => .shr h (.ofBody x)
  | 0x08 => .sra h (.ofBody x)
  | 0x09 => .mul h (.ofBody x)
  | 0x0A => .mulh h (.ofBody x)
  | 0x0B => .div h (.ofBody x)
  | 0x0C => .rem h (.ofBody x)
  | 0x0D => .minmax h (.ofBody x)
  | 0x0E => .spset h (.ofBody x)
  | 0x0F => .spinv h (.ofBody x)
  | 0x10 => .spq h (.ofBody x)
  | 0x11 => .addi h (.ofBody x)
  | 0x12 => .andi h (.ofBody x)
  | 0x13 => .ori h (.ofBody x)
  | 0x14 => .xori h (.ofBody x)
  | 0x15 => .shli h (.ofBody x)
  | 0x16 => .shri h (.ofBody x)
  | 0x17 => .srai h (.ofBody x)
  | 0x18 => .li h (.ofBody x)
  | 0x19 => .lsh h (.ofBody x)
  | 0x1A => .bitop h (.ofBody x)
  | 0x1B => .sptag h (.ofBody x)
  | 0x1C => .bfx h (.ofBody x)
  | 0x1D => .bfi h (.ofBody x)
  | 0x1E => .cmp h (.ofBody x)
  | 0x1F => .cmpi h (.ofBody x)
  | 0x20 => .plog h (.ofBody x)
  | 0x21 => .br h (.ofBody x)
  | 0x22 => .call h (.ofBody x)
  | 0x23 => .jr h (.ofBody x)
  | 0x24 => .retR h (.ofBody x)
  | 0x25 => .loopLc h (.ofBody x)
  | 0x26 => .lpbrk h (.ofBody x)
  | 0x27 => .ld h (.ofBody x)
  | 0x28 => .st h (.ofBody x)
  | 0x29 => .amo h (.ofBody x)
  | 0x2A => .cas h (.ofBody x)
  | 0x2B => .fence h (.ofBody x)
  | 0x2C => .xfence h (.ofBody x)
  | 0x2D => .xlat h (.ofBody x)
  | 0x2E => .hfree h (.ofBody x)
  | 0x2F => .hinfo h (.ofBody x)
  | 0x30 => .qsync h (.ofBody x)
  | 0x31 => .selR h (.ofBody x)
  | 0x32 => .adr h (.ofBody x)
  | 0x33 => .taskPost h (.ofBody x)
  | 0x34 => .taskEnd h (.ofBody x)
  | 0x35 => .evtSig h (.ofBody x)
  | 0x36 => .evtWait h (.ofBody x)
  | 0x37 => .taskYield h (.ofBody x)
  | 0x38 => .apxInv h (.ofBody x)
  | 0x39 => .hunpin h (.ofBody x)
  | 0x3B => .csrr h (.ofBody x)
  | 0x3C => .csrw h (.ofBody x)
  | 0x3D => .csrs h (.ofBody x)
  | 0x3E => .csrc h (.ofBody x)
  | 0x3F => .fop h (.ofBody x)
  | 0x40 => .ldsp h (.ofBody x)
  | 0x41 => .ldspG h (.ofBody x)
  | 0x42 => .ldspT h (.ofBody x)
  | 0x43 => .spfill h (.ofBody x)
  | 0x44 => .cpLaunch h (.ofBody x)
  | 0x45 => .cpAdv h (.ofBody x)
  | 0x46 => .cpArm h (.ofBody x)
  | 0x47 => .cpCancel h (.ofBody x)
  | 0x48 => .kvGet h (.ofBody x)
  | 0x49 => .pimMv h (.ofBody x)
  | 0x4A => .pimCfg h (.ofBody x)
  | 0x4B => .collBsum h (.ofBody x)
  | 0x4C => .collBar h (.ofBody x)
  | 0x4D => .prf h (.ofBody x)
  | 0x4E => .kvPress h (.ofBody x)
  | 0x4F => .kvFold h (.ofBody x)
  | 0x50 => .qzRun h (.ofBody x)
  | 0x51 => .spcopy h (.ofBody x)
  | 0x52 => .lnop h x
  | 0x60 => .stsp h (.ofBody x)
  | 0x61 => .stspS h (.ofBody x)
  | 0x62 => .stspT h (.ofBody x)
  | 0x63 => .cpAdvs h (.ofBody x)
  | 0x64 => if kvNode (.ofBody x) = 0 then .kvPut h (.ofBody x) else .kvPutProvisional h (.ofBody x)
  | 0x65 => .kvCommit h (.ofBody x)
  | 0x66 => .kvSquash h (.ofBody x)
  | 0x67 => .stspAdd h (.ofBody x)
  | 0x68 => .evtSigs h (.ofBody x)
  | 0x69 => .taskPosts h (.ofBody x)
  | 0x6A => .snop h x
  | 0x70 => .vfetch h (.ofBody x)
  | 0x71 => .vput h (.ofBody x)
  | 0x72 => .vmov h (.ofBody x)
  | 0x73 => .vpop h (.ofBody x)
  | 0x74 => .vbcast h (.ofBody x)
  | 0x75 => .vimm h (.ofBody x)
  | 0x76 => .vperm h (.ofBody x)
  | 0x77 => .vshuf h (.ofBody x)
  | 0x78 => .vsel h (.ofBody x)
  | 0x79 => .mset h (.ofBody x)
  | 0x7A => .vadd h (.ofBody x)
  | 0x7B => .vsub h (.ofBody x)
  | 0x7C => .vmul h (.ofBody x)
  | 0x7D => .vfma h (.ofBody x)
  | 0x7E => .vmin h (.ofBody x)
  | 0x7F => .vmax h (.ofBody x)
  | 0x80 => .vabs h (.ofBody x)
  | 0x81 => .vneg h (.ofBody x)
  | 0x82 => .vcmp h (.ofBody x)
  | 0x83 => .vrcp h (.ofBody x)
  | 0x84 => .vrsqrt h (.ofBody x)
  | 0x85 => .vsqrt h (.ofBody x)
  | 0x86 => .vexp2 h (.ofBody x)
  | 0x87 => .vlog2 h (.ofBody x)
  | 0x88 => .vsig h (.ofBody x)
  | 0x89 => .vtanh h (.ofBody x)
  | 0x8A => .vcvt h (.ofBody x)
  | 0x8B => .vscale h (.ofBody x)
  | 0x8C => .vand h (.ofBody x)
  | 0x8D => .vor h (.ofBody x)
  | 0x8E => .vxor h (.ofBody x)
  | 0x8F => .vshl h (.ofBody x)
  | 0x90 => .vshr h (.ofBody x)
  | 0x91 => .vsra h (.ofBody x)
  | 0x92 => .vredsum h (.ofBody x)
  | 0x93 => .vredmax h (.ofBody x)
  | 0x94 => .vredmin h (.ofBody x)
  | 0x95 => .vscan h (.ofBody x)
  | 0x96 => .vpack h (.ofBody x)
  | 0x97 => .vunpk h (.ofBody x)
  | 0x98 => .vclass h (.ofBody x)
  | 0x99 => .vrnd h (.ofBody x)
  | 0x9A => .vclamp h (.ofBody x)
  | 0x9B => .vdot4 h (.ofBody x)
  | 0x9C => .vnop h (.ofBody x)
  | 0x9D => .cnop h x
  | 0xA0 => .tcfg h (.ofBody x)
  | 0xA1 => .accAlloc h (.ofBody x)
  | 0xA2 => .accFree h (.ofBody x)
  | 0xA3 => .accZero h (.ofBody x)
  | 0xA4 => .mma h (.ofBody x)
  | 0xA5 => .mmaSp h (.ofBody x)
  | 0xA6 => .mmaBp h (.ofBody x)
  | 0xA7 => .vldAcc h (.ofBody x)
  | 0xA8 => .vstAcc h (.ofBody x)
  | 0xA9 => .tmark h (.ofBody x)
  | 0xAA => .kat h (.ofBody x)
  | 0xAB => .katcmp h x
  | 0xAC => .accOut h (.ofBody x)
  | 0xAD => .mprio h (.ofBody x)
  | 0xB0 => .tmask h (.ofBody x)
  | 0xB1 => .smxMax h (.ofBody x)
  | 0xB2 => .smxExp h (.ofBody x)
  | 0xB3 => .smxResc h (.ofBody x)
  | 0xB4 => .smxMerge h (.ofBody x)
  | 0xB5 => .linFeat h (.ofBody x)
  | 0xB6 => .linPart h (.ofBody x)
  | 0xB7 => .rope h (.ofBody x)
  | 0xB8 => .vrms h (.ofBody x)
  | 0xC0 => .argmax h (.ofBody x)
  | 0xC1 => .topk h (.ofBody x)
  | 0xC2 => .topkMrg h (.ofBody x)
  | 0xC3 => .topkRd h (.ofBody x)
  | 0xC4 => .smpCfg h (.ofBody x)
  | 0xC5 => .smpDraw h (.ofBody x)
  | 0xC6 => .smpAcc h (.ofBody x)
  | 0xC7 => .rng h (.ofBody x)
  | 0xD0 => .apxBeg h (.ofBody x)
  | 0xD1 => .apxEnd h x
  | 0xE0 => .trapN h (.ofBody x)
  | 0xE1 => .eret h x
  | 0xE2 => .ctxSwap h (.ofBody x)
  | 0xE3 => .ctxSave h (.ofBody x)
  | 0xE4 => .ctxLoad h (.ofBody x)
  | 0xE5 => .halt h x
  | 0xE6 => .brk h (.ofBody x)
  | 0xE7 => .wfe h (.ofBody x)
  | 0xE8 => .tlbInv h (.ofBody x)
  | 0xE9 => .pwrReq h (.ofBody x)
  | 0xEA => .mchkAck h (.ofBody x)
  | 0xF0 => .hintPf h x
  | 0xF1 => .hintHot h x
  | 0xF2 => .hintLoop h x
  | op => if 0xF3 ≤ op then .undefinedHint w else .unassignedOpcode w

/-- Decoding is total: every 48-bit word is some instruction, an unassigned opcode or a hint (R45, R46). -/
def decodeWord (w : BitVec 48) : Instr := decodeOp w (opOf w).toNat (hdrOf w) (bodyOf w)

/-- Why bytes are not one instruction. -/
inductive DecodeError where
  /-- fewer than the six bytes of a word are there -/
  | tooShort
deriving DecidableEq, Repr

/-- The number whose little-endian bytes are listed (R3). -/
def leNat : List Byte → Nat
  | [] => 0
  | b :: bs => b.toNat + 256 * leNat bs

/-- A word from six bytes, least significant first (R24), with the bytes that follow it. -/
def decode : List Byte → Except DecodeError (Instr × List Byte)
  | b0 :: b1 :: b2 :: b3 :: b4 :: b5 :: rest => .ok (decodeWord (BitVec.ofNat 48 (leNat [b0, b1, b2, b3, b4, b5])), rest)
  | _ => .error .tooShort

/-- The opcode, header and body of an instruction word; an event has none. -/
def encodeParts : Instr → Option (BitVec 8 × Hdr × BitVec 32)
  | .nop h x => some (0x00#8, h, x)
  | .add h f => some (0x01#8, h, f.toBody)
  | .sub h f => some (0x02#8, h, f.toBody)
  | .andR h f => some (0x03#8, h, f.toBody)
  | .orR h f => some (0x04#8, h, f.toBody)
  | .xorR h f => some (0x05#8, h, f.toBody)
  | .shl h f => some (0x06#8, h, f.toBody)
  | .shr h f => some (0x07#8, h, f.toBody)
  | .sra h f => some (0x08#8, h, f.toBody)
  | .mul h f => some (0x09#8, h, f.toBody)
  | .mulh h f => some (0x0A#8, h, f.toBody)
  | .div h f => some (0x0B#8, h, f.toBody)
  | .rem h f => some (0x0C#8, h, f.toBody)
  | .minmax h f => some (0x0D#8, h, f.toBody)
  | .spset h f => some (0x0E#8, h, f.toBody)
  | .spinv h f => some (0x0F#8, h, f.toBody)
  | .spq h f => some (0x10#8, h, f.toBody)
  | .addi h f => some (0x11#8, h, f.toBody)
  | .andi h f => some (0x12#8, h, f.toBody)
  | .ori h f => some (0x13#8, h, f.toBody)
  | .xori h f => some (0x14#8, h, f.toBody)
  | .shli h f => some (0x15#8, h, f.toBody)
  | .shri h f => some (0x16#8, h, f.toBody)
  | .srai h f => some (0x17#8, h, f.toBody)
  | .li h f => some (0x18#8, h, f.toBody)
  | .lsh h f => some (0x19#8, h, f.toBody)
  | .bitop h f => some (0x1A#8, h, f.toBody)
  | .sptag h f => some (0x1B#8, h, f.toBody)
  | .bfx h f => some (0x1C#8, h, f.toBody)
  | .bfi h f => some (0x1D#8, h, f.toBody)
  | .cmp h f => some (0x1E#8, h, f.toBody)
  | .cmpi h f => some (0x1F#8, h, f.toBody)
  | .plog h f => some (0x20#8, h, f.toBody)
  | .br h f => some (0x21#8, h, f.toBody)
  | .call h f => some (0x22#8, h, f.toBody)
  | .jr h f => some (0x23#8, h, f.toBody)
  | .retR h f => some (0x24#8, h, f.toBody)
  | .loopLc h f => some (0x25#8, h, f.toBody)
  | .lpbrk h f => some (0x26#8, h, f.toBody)
  | .ld h f => some (0x27#8, h, f.toBody)
  | .st h f => some (0x28#8, h, f.toBody)
  | .amo h f => some (0x29#8, h, f.toBody)
  | .cas h f => some (0x2A#8, h, f.toBody)
  | .fence h f => some (0x2B#8, h, f.toBody)
  | .xfence h f => some (0x2C#8, h, f.toBody)
  | .xlat h f => some (0x2D#8, h, f.toBody)
  | .hfree h f => some (0x2E#8, h, f.toBody)
  | .hinfo h f => some (0x2F#8, h, f.toBody)
  | .qsync h f => some (0x30#8, h, f.toBody)
  | .selR h f => some (0x31#8, h, f.toBody)
  | .adr h f => some (0x32#8, h, f.toBody)
  | .taskPost h f => some (0x33#8, h, f.toBody)
  | .taskEnd h f => some (0x34#8, h, f.toBody)
  | .evtSig h f => some (0x35#8, h, f.toBody)
  | .evtWait h f => some (0x36#8, h, f.toBody)
  | .taskYield h f => some (0x37#8, h, f.toBody)
  | .apxInv h f => some (0x38#8, h, f.toBody)
  | .hunpin h f => some (0x39#8, h, f.toBody)
  | .csrr h f => some (0x3B#8, h, f.toBody)
  | .csrw h f => some (0x3C#8, h, f.toBody)
  | .csrs h f => some (0x3D#8, h, f.toBody)
  | .csrc h f => some (0x3E#8, h, f.toBody)
  | .fop h f => some (0x3F#8, h, f.toBody)
  | .ldsp h f => some (0x40#8, h, f.toBody)
  | .ldspG h f => some (0x41#8, h, f.toBody)
  | .ldspT h f => some (0x42#8, h, f.toBody)
  | .spfill h f => some (0x43#8, h, f.toBody)
  | .cpLaunch h f => some (0x44#8, h, f.toBody)
  | .cpAdv h f => some (0x45#8, h, f.toBody)
  | .cpArm h f => some (0x46#8, h, f.toBody)
  | .cpCancel h f => some (0x47#8, h, f.toBody)
  | .kvGet h f => some (0x48#8, h, f.toBody)
  | .pimMv h f => some (0x49#8, h, f.toBody)
  | .pimCfg h f => some (0x4A#8, h, f.toBody)
  | .collBsum h f => some (0x4B#8, h, f.toBody)
  | .collBar h f => some (0x4C#8, h, f.toBody)
  | .prf h f => some (0x4D#8, h, f.toBody)
  | .kvPress h f => some (0x4E#8, h, f.toBody)
  | .kvFold h f => some (0x4F#8, h, f.toBody)
  | .qzRun h f => some (0x50#8, h, f.toBody)
  | .spcopy h f => some (0x51#8, h, f.toBody)
  | .lnop h x => some (0x52#8, h, x)
  | .stsp h f => some (0x60#8, h, f.toBody)
  | .stspS h f => some (0x61#8, h, f.toBody)
  | .stspT h f => some (0x62#8, h, f.toBody)
  | .cpAdvs h f => some (0x63#8, h, f.toBody)
  | .kvPut h f => some (0x64#8, h, f.toBody)
  | .kvCommit h f => some (0x65#8, h, f.toBody)
  | .kvSquash h f => some (0x66#8, h, f.toBody)
  | .stspAdd h f => some (0x67#8, h, f.toBody)
  | .evtSigs h f => some (0x68#8, h, f.toBody)
  | .taskPosts h f => some (0x69#8, h, f.toBody)
  | .snop h x => some (0x6A#8, h, x)
  | .vfetch h f => some (0x70#8, h, f.toBody)
  | .vput h f => some (0x71#8, h, f.toBody)
  | .vmov h f => some (0x72#8, h, f.toBody)
  | .vpop h f => some (0x73#8, h, f.toBody)
  | .vbcast h f => some (0x74#8, h, f.toBody)
  | .vimm h f => some (0x75#8, h, f.toBody)
  | .vperm h f => some (0x76#8, h, f.toBody)
  | .vshuf h f => some (0x77#8, h, f.toBody)
  | .vsel h f => some (0x78#8, h, f.toBody)
  | .mset h f => some (0x79#8, h, f.toBody)
  | .vadd h f => some (0x7A#8, h, f.toBody)
  | .vsub h f => some (0x7B#8, h, f.toBody)
  | .vmul h f => some (0x7C#8, h, f.toBody)
  | .vfma h f => some (0x7D#8, h, f.toBody)
  | .vmin h f => some (0x7E#8, h, f.toBody)
  | .vmax h f => some (0x7F#8, h, f.toBody)
  | .vabs h f => some (0x80#8, h, f.toBody)
  | .vneg h f => some (0x81#8, h, f.toBody)
  | .vcmp h f => some (0x82#8, h, f.toBody)
  | .vrcp h f => some (0x83#8, h, f.toBody)
  | .vrsqrt h f => some (0x84#8, h, f.toBody)
  | .vsqrt h f => some (0x85#8, h, f.toBody)
  | .vexp2 h f => some (0x86#8, h, f.toBody)
  | .vlog2 h f => some (0x87#8, h, f.toBody)
  | .vsig h f => some (0x88#8, h, f.toBody)
  | .vtanh h f => some (0x89#8, h, f.toBody)
  | .vcvt h f => some (0x8A#8, h, f.toBody)
  | .vscale h f => some (0x8B#8, h, f.toBody)
  | .vand h f => some (0x8C#8, h, f.toBody)
  | .vor h f => some (0x8D#8, h, f.toBody)
  | .vxor h f => some (0x8E#8, h, f.toBody)
  | .vshl h f => some (0x8F#8, h, f.toBody)
  | .vshr h f => some (0x90#8, h, f.toBody)
  | .vsra h f => some (0x91#8, h, f.toBody)
  | .vredsum h f => some (0x92#8, h, f.toBody)
  | .vredmax h f => some (0x93#8, h, f.toBody)
  | .vredmin h f => some (0x94#8, h, f.toBody)
  | .vscan h f => some (0x95#8, h, f.toBody)
  | .vpack h f => some (0x96#8, h, f.toBody)
  | .vunpk h f => some (0x97#8, h, f.toBody)
  | .vclass h f => some (0x98#8, h, f.toBody)
  | .vrnd h f => some (0x99#8, h, f.toBody)
  | .vclamp h f => some (0x9A#8, h, f.toBody)
  | .vdot4 h f => some (0x9B#8, h, f.toBody)
  | .vnop h f => some (0x9C#8, h, f.toBody)
  | .cnop h x => some (0x9D#8, h, x)
  | .tcfg h f => some (0xA0#8, h, f.toBody)
  | .accAlloc h f => some (0xA1#8, h, f.toBody)
  | .accFree h f => some (0xA2#8, h, f.toBody)
  | .accZero h f => some (0xA3#8, h, f.toBody)
  | .mma h f => some (0xA4#8, h, f.toBody)
  | .mmaSp h f => some (0xA5#8, h, f.toBody)
  | .mmaBp h f => some (0xA6#8, h, f.toBody)
  | .vldAcc h f => some (0xA7#8, h, f.toBody)
  | .vstAcc h f => some (0xA8#8, h, f.toBody)
  | .tmark h f => some (0xA9#8, h, f.toBody)
  | .kat h f => some (0xAA#8, h, f.toBody)
  | .katcmp h x => some (0xAB#8, h, x)
  | .accOut h f => some (0xAC#8, h, f.toBody)
  | .mprio h f => some (0xAD#8, h, f.toBody)
  | .tmask h f => some (0xB0#8, h, f.toBody)
  | .smxMax h f => some (0xB1#8, h, f.toBody)
  | .smxExp h f => some (0xB2#8, h, f.toBody)
  | .smxResc h f => some (0xB3#8, h, f.toBody)
  | .smxMerge h f => some (0xB4#8, h, f.toBody)
  | .linFeat h f => some (0xB5#8, h, f.toBody)
  | .linPart h f => some (0xB6#8, h, f.toBody)
  | .rope h f => some (0xB7#8, h, f.toBody)
  | .vrms h f => some (0xB8#8, h, f.toBody)
  | .argmax h f => some (0xC0#8, h, f.toBody)
  | .topk h f => some (0xC1#8, h, f.toBody)
  | .topkMrg h f => some (0xC2#8, h, f.toBody)
  | .topkRd h f => some (0xC3#8, h, f.toBody)
  | .smpCfg h f => some (0xC4#8, h, f.toBody)
  | .smpDraw h f => some (0xC5#8, h, f.toBody)
  | .smpAcc h f => some (0xC6#8, h, f.toBody)
  | .rng h f => some (0xC7#8, h, f.toBody)
  | .apxBeg h f => some (0xD0#8, h, f.toBody)
  | .apxEnd h x => some (0xD1#8, h, x)
  | .trapN h f => some (0xE0#8, h, f.toBody)
  | .eret h x => some (0xE1#8, h, x)
  | .ctxSwap h f => some (0xE2#8, h, f.toBody)
  | .ctxSave h f => some (0xE3#8, h, f.toBody)
  | .ctxLoad h f => some (0xE4#8, h, f.toBody)
  | .halt h x => some (0xE5#8, h, x)
  | .brk h f => some (0xE6#8, h, f.toBody)
  | .wfe h f => some (0xE7#8, h, f.toBody)
  | .tlbInv h f => some (0xE8#8, h, f.toBody)
  | .pwrReq h f => some (0xE9#8, h, f.toBody)
  | .mchkAck h f => some (0xEA#8, h, f.toBody)
  | .hintPf h x => some (0xF0#8, h, x)
  | .hintHot h x => some (0xF1#8, h, x)
  | .hintLoop h x => some (0xF2#8, h, x)
  | .kvPutProvisional h f => some (0x64#8, h, f.toBody)
  | .unassignedOpcode w => some (opOf w, hdrOf w, bodyOf w)
  | .undefinedHint w => some (opOf w, hdrOf w, bodyOf w)
  | .packetDecode => none
  | .queueDispatch _ => none
  | .queueWordRetire _ _ => none
  | .tokenPush _ => none
  | .beltDrop _ => none
  | .postedStorePerform _ => none
  | .homeSliceFill _ => none
  | .homeWriteThrough _ => none
  | .patrolScrubRead _ => none
  | .ltTick _ => none
  | .hostSnoop _ => none
  | .hostSnoopResponse _ _ => none
  | .hostCxlMemWrite _ _ _ => none
  | .hostCxlMemRead _ => none
  | .backInvalidationResponse _ => none
  | .backInvalidationTimeout _ => none
  | .migrationCountWindow => none
  | .migrationCommit _ => none
  | .shootDown _ _ => none
  | .shootDownAck _ _ => none
  | .migrationPublish _ => none
  | .pageWalkDone _ => none
  | .pageInComplete _ => none
  | .copyEntryRelease _ _ => none
  | .copyEntryComplete _ _ _ => none
  | .matrixChunkFold _ => none
  | .accUncorrectableError _ _ _ => none
  | .pimRowComplete _ => none
  | .grant _ _ => none
  | .pwrWindowExpiry _ => none
  | .smpRequestServe _ => none
  | .topkRdPush _ => none
  | .kvHiddenLanding _ => none
  | .kvCommitResume _ => none
  | .kvPressPublish _ => none
  | .kvFoldPublish _ => none
  | .kvGetComplete _ => none
  | .qzCommandComplete _ => none
  | .collArrival _ => none
  | .collTimeout _ => none
  | .apxTrainDone _ _ => none
  | .apxSubstituteResult _ => none
  | .apxSubstituteWithdraw _ => none
  | .timerExpiry _ => none
  | .interruptEntry _ => none
  | .trapEntry _ => none
  | .hostTailWrite _ _ => none
  | .queueEnWrite _ _ => none
  | .kickParse _ => none
  | .renameCopyHome _ => none
  | .controlEval _ => none
  | .bankNodeExec _ => none
  | .sampleNodeExec _ => none
  | .hostsigNodeExec _ => none
  | .triggerFire _ => none
  | .placeInstance _ => none
  | .preempt _ => none
  | .schedCoreFailover => none
  | .heartbeatSend _ => none
  | .heartbeat _ _ _ => none
  | .periodEndJudgement _ => none
  | .accuse _ _ => none
  | .withdraw _ _ => none
  | .accusationExpiry _ _ _ => none
  | .fenceNotice _ _ => none
  | .fenceRemap _ => none
  | .fenceReceived _ => none
  | .selfTestDone _ _ => none
  | .appeal _ _ => none
  | .readmit _ _ => none
  | .retire _ _ => none
  | .lockstepMismatch _ _ _ => none
  | .monitorEvent _ _ => none
  | .monstRead _ _ _ => none
  | .thermalThrottle _ => none
  | .thermalRelease _ => none
  | .thermalTrip => none
  | .deviceReset => none
  | .functionLevelReset => none
  | .d3hotEntry => none
  | .d0Return => none
  | .pairLinkLost => none
  | .getVersion => none
  | .getCapabilities => none
  | .negotiateAlgorithms => none
  | .getDigests => none
  | .getCertificate _ => none
  | .challenge _ => none
  | .getMeasurements _ => none
  | .resync _ _ => none
  | .pageMap _ _ _ => none
  | .pageRemap _ _ _ => none
  | .pageUnmap _ _ => none
  | .collapseReplicas _ _ => none
  | .sramProtectionMode _ _ _ => none
  | .markBankFailed _ _ _ => none
  | .kvResidentReservation _ _ _ => none
  | .tileTimerPeriod _ _ _ => none
  | .triggerEntry _ _ _ => none
  | .governorBudgets _ _ _ _ => none
  | .readmitTile _ _ => none
  | .keepFenced _ _ => none
  | .postKatTask _ _ _ _ => none
  | .coreReloadSelftest _ _ => none
  | .resumeContext _ _ => none
  | .discardContext _ _ => none
  | .discardImage _ _ => none
  | .pairLinkRetrain _ => none
  | .imageLoad _ _ => none
  | .errinjWrite _ _ => none
  | .hbcfgWrite _ _ => none
  | .spquotaWrite _ _ => none
  | .trapvecWrite _ _ => none
  | .leaseWrite _ _ => none
  | .qslipWrite _ _ => none
  | .ptrootWrite _ _ => none
  | .apxsampWrite _ _ => none
  | .registerWrite _ _ _ => none
  | .evtWaitWake _ => none
  | .wfeWake _ => none
  | .shadowSwapDone _ => none
  | .pairLinkTrained => none
  | .partnerAccessArrival _ _ _ => none
  | .pairAcknowledgement _ => none
  | .lockstepSignatureMatch _ => none
  | .d3hotRunLimitExpiry => none
  | .powerRemoval => none

/-- The 48-bit word of an instruction (R30); an event has no word. -/
def encodeWord (i : Instr) : Option (BitVec 48) := (encodeParts i).map fun p => wordOf p.1 p.2.1 p.2.2

/-- The six bytes of a word, least significant first (R24). -/
def wordBytes (w : BitVec 48) : List Byte := (List.range 6).map fun k => bitsAt w (8 * k) 8

/-- The host's reading of a table word: the low 48 bits, laid out as bytes and decoded. -/
def decodeTableWord (_nbits w : Nat) : Option Instr :=
  match decode (wordBytes (BitVec.ofNat 48 w)) with
  | .ok (i, _) => some i
  | .error _ => none

end Sys2Proof
end

