-- ==== Sys2Proof/Machine/State.lean ====
section
/-! DEFINITION. The state of the whole part: contexts, tiles, clusters, hub, memories, and the schedule of what moves next. -/
namespace Sys2Proof.Machine

/-! ## Plain data -/

/-- Byte memory in canonical form: addresses strictly rising, no entry equal to 0, what an unlisted address reads as (log 1). -/
abbrev Mem := List Host.Cell

/-- A finite map from numbers, keys strictly rising. -/
abbrev KV (α : Type) := List (Nat × α)

/-- The format tags of R187. -/
inductive Tag where
  | empty | fp32 | fp16 | bf16 | fp8e4 | fp8e5 | int32 | int16 | int8 | uint8 | idx | poison
deriving DecidableEq, Repr

/-- A belt entry, named register or result-queue entry (R6, R187). -/
structure Vec where
  bits : BitVec 2048 := 0
  tag : Tag := .empty
deriving DecidableEq, Repr

/-- A handle register or a captured copy of one (R111, R116). -/
structure Handle where
  valid : Bool := false
  va : BitVec 60 := 0
  base : BitVec 52 := 0
  /-- 0 64 KiB, 1 512 MiB, 2 4 TiB -/
  size : BitVec 2 := 0
  rd : Bool := false
  w : Bool := false
  x : Bool := false
  prv : Bool := false
  rep : Bool := false
  /-- the M bit of its entry, which migration counting reads (R87) -/
  mig : Bool := false
  kind : BitVec 2 := 0
  id : BitVec 49 := 0
  pinned : Bool := false
  /-- a register that has been translated; a handle record holds it (R109) -/
  ready : Bool := false
  /-- the tile cycle from which the handle is usable (R109) -/
  readyAt : Nat := 0
deriving DecidableEq, Repr

/-! ## Registers of a context -/

/-- The register families of R6, but for accumulator tiles and CSRs. -/
structure Regs where
  s : Vector Word 32 := Vector.replicate 32 0
  p : Vector Bool 8 := Vector.replicate 8 false
  h : Vector Handle 16 := Vector.replicate 16 {}
  /-- by age, b0 first (R190) -/
  belt : Vector Vec 16 := Vector.replicate 16 {}
  n : Vector Vec 16 := Vector.replicate 16 {}
  m : Vector (BitVec 256) 8 := Vector.replicate 8 (BitVec.allOnes 256)
  lc : Vector (BitVec 32) 4 := Vector.replicate 4 0
deriving DecidableEq, Repr

/-- What hardware has set in FPFLAGS and SPDISC and added to ATTZ in the latest tile cycle in which it did: `stamp` is that cycle plus 1 (R339). -/
structure HwUpdate where
  stamp : Nat := 0
  flags : BitVec 6 := 0
  attz : Nat := 0
  /-- ATTZ before it -/
  attz0 : BitVec 64 := 0
  /-- it set SPDISC -/
  disc : Bool := false
deriving DecidableEq, Repr

/-- The CSRs that are plain fields of a bank (R340, R374). -/
structure Csrs where
  fpflags : BitVec 6 := 0
  attz : BitVec 64 := 0
  lease : BitVec 8 := 64
  qslip : BitVec 7 := 64
  spdisc : Bool := false
  apxthr : BitVec 64 := 0x3C0000003C800000
  apxsamp : BitVec 64 := 32
  asid : BitVec 16 := 0
  /-- PA[51:16] of the root table (R103) -/
  ptroot : BitVec 36 := 0
  spFirst : BitVec 9 := 0
  spCount : BitVec 9 := 0
  trapvec : BitVec 60 := 0
  /-- VA[59:16] of the frame page -/
  framebase : BitVec 44 := 0
  inh : Bool := false
  mck : Bool := false
  trapClass : BitVec 8 := 0
  trapCode : BitVec 8 := 0
  trapinfo : Word := 0
deriving DecidableEq, Repr

/-- Why a front end waits at its word. -/
inductive WaitKind where
  /-- running -/
  | none
  /-- a word that drains the C queue (R193) -/
  | drain
  /-- dispatch of an L or S word held by a full queue or the slip limit (R323) -/
  | dispatch
  /-- dispatch of a C word held so -/
  | dispatchC
  /-- a full ring (R361), at which an interrupt is recognised -/
  | ring
  /-- sleep of `evt.wait` or `wfe` -/
  | sleep
  /-- a lookup (R109) -/
  | walk
  /-- anything else: a handle not ready, posted stores, a watermark -/
  | other
deriving DecidableEq, Repr

/-- A sleep of `evt.wait` or `wfe` (R363, R386). -/
structure Sleep where
  /-- physical address watched -/
  pa : BitVec 52
  /-- the tile cycle at which the sleep began -/
  since : Nat
  /-- the tile cycle of the latest check -/
  checked : Nat
  /-- `wfe` watches the whole line, `evt.wait` its eight bytes -/
  line : Bool
  /-- a write to what it watches was performed since, or an interrupt that became pending was discarded at the `wfe` -/
  written : Bool := false
deriving DecidableEq, Repr

/-- The front end of a context (R26, R322). -/
structure Front where
  pc : BitVec 60 := 0
  /-- the packet entered, by address, with its bytes; none when the next word enters a packet -/
  packet : Option (BitVec 60 × BitVec 256) := none
  /-- the slot at which the packet was entered (R28) -/
  entry : Nat := 0
  wait : WaitKind := .none
  /-- why the word at the PC waited when it was tried last; none while it has not been tried (R375) -/
  waited : WaitKind := .none
  sleep : Option Sleep := none
  /-- the lookup that an `xlat` waits for has ended; the next execution reads it at once (R109) -/
  walked : Bool := false
  /-- packets entered since `eret`, up to 2 (R375) -/
  sinceEret : Nat := 2
  /-- next dispatch position (R323) -/
  nextPos : Nat := 0
deriving DecidableEq, Repr

/-! ## Queues -/

/-- A queue entry (R381). -/
structure Entry where
  word : BitVec 48
  guard : Bool
  co : Bool := false
  issued : Bool := false
  recap : Bool := false
  skip : Bool := false
  popped : Bool := false
  pf : BitVec 8 := 0
  pfInfo : Word := 0
  pc : BitVec 60 := 0
  pos : Nat := 0
  mpc : Nat := 0
  sc : Vector Word 4 := Vector.replicate 4 0
  /-- captured handle copies with the numbers they were read from -/
  cp : List (BitVec 4 × Handle) := []
  /-- the head was tried and waits -/
  waits : Bool := false
  /-- its pushes were made before a replay (R270) -/
  pushed : Bool := false
  /-- flags that the repeats done have set, for the word's retirement (R214) -/
  flags : BitVec 6 := 0
  /-- QSLIP as it stood at its dispatch, which limits its region (R417) -/
  slip : BitVec 7 := 64
  /-- C-cycles to the last fold of a matrix word frozen with every chunk folded (R262) -/
  foldIn : Nat := 0
deriving DecidableEq, Repr

/-- Token pushes that a word makes when it retires (R33, R34): downstream and release. -/
structure Push where
  down : Bool := false
  up : Bool := false
  /-- the word that retires, which the tile's signature covers (R395) -/
  word : BitVec 48 := 0
deriving DecidableEq, Repr

/-- A word issued and not yet retired in the L or S queue. -/
structure Fly where
  q : QName
  pos : Nat
  push : Push := {}
  done : Bool := true
  /-- FPFLAGS bits set at retirement (R214) -/
  flags : BitVec 6 := 0
  /-- the scratchpad range whose slots lose F at retirement (R172) -/
  cf : Option (Nat × Nat) := none
  /-- its number among the L and S words of its context, in order of issue (R143, R153) -/
  ser : Nat := 0
deriving DecidableEq, Repr

/-- A latch (R380): a result in flight. -/
structure Latch where
  rem : Nat
  val : Vec
  wn : Bool := false
  nd : BitVec 4 := 0
  maskK : BitVec 3 := 0
  /-- 0 none, 1 element ≠ 0, 2 all ones, 3 all zeros -/
  maskMode : BitVec 2 := 0
  flags : BitVec 6 := 0
  /-- pair destination k with hi and lo values -/
  pair : Option (BitVec 3 × Vec × Vec) := none
  attz : BitVec 32 := 0
  /-- pushes at the drop, with the queue position of the word -/
  push : Push := {}
  pos : Nat := 0
deriving DecidableEq, Repr

/-- Queues and token FIFOs of a context (R33, R34). -/
structure Queues where
  l : List Entry := []
  c : List Entry := []
  s : List Entry := []
  lc : Nat := 0
  cl : Nat := 0
  cs : Nat := 0
  sc : Nat := 0
  fly : List Fly := []
  /-- pushes of retired words that wait for room, oldest first -/
  pend : List (QName × Push) := []
deriving DecidableEq, Repr

/-! ## The C side: matrix words, accumulator tiles, selection -/

/-- Units granted for one operation (R429): its class, the units, and the window they come from, 0 for none (R431). -/
structure Grant where
  cls : Nat
  units : Nat
  win : Nat := 0
deriving DecidableEq, Repr

/-- A `pwr.req` window (R431, R432). -/
structure PwrWin where
  serial : Nat
  cls : Nat
  n : Nat
  len : Nat
  held : Bool := false
  /-- the tile cycle at which a held window runs out -/
  ends : Nat := 0
  inUse : Nat := 0
deriving DecidableEq, Repr

/-- One chunk whose lines are read and whose fold is due in `rem` C-cycles (R258). -/
structure ChunkFold where
  rem : Nat
  idx : Nat
  a : List (BitVec 512)
  b : List (BitVec 512)
deriving DecidableEq, Repr

/-- A matrix word in flight, from issue to its last fold (R252, R258); `kat` is one too (R267). -/
structure MatRun where
  word : BitVec 48
  da : Word := 0
  db : Word := 0
  /-- the chunk now streaming, and the C-cycles of it that have passed -/
  chunk : Nat := 0
  u : Nat := 0
  /-- index lists or scales, pre-read (R257): one number a byte or a BF16 element -/
  aux : List Nat := []
  bufA : List (BitVec 512) := []
  bufB : List (BitVec 512) := []
  folds : List ChunkFold := []
  flags : BitVec 6 := 0
  poisoned : Bool := false
  grant : Option Grant := none
  prio : Nat := 0
  push : Push := {}
  pos : Nat := 0
  pc : BitVec 60 := 0
deriving DecidableEq, Repr

/-- Where a context's accesses wait on watermarks (R152): its front end, the heads of its queues, its matrix stream, its `acc.out`, and the
rows of its `pim.mv`. -/
inductive Site where
  | front | l | c | s | stream | accOut | pim
deriving DecidableEq, Repr

/-- A wait on the watermark of a copy channel; one that has been ended holds its access no more (R152, R183). -/
structure WmWait where
  site : Site
  ch : Fin 8
  ended : Bool := false
deriving DecidableEq, Repr

/-- An accumulator tile of a context (R205, R246, R250). -/
structure AccTile where
  int : Bool := false
  /-- the COLS and ROWS codes of its configuration byte -/
  cols : BitVec 2 := 0
  rows : BitVec 2 := 0
  banks : Nat := 0
  disc : Bool := false
  tag : Tag := .empty
  /-- element patterns by row × 64 + column; unlisted ones are 0 -/
  elems : KV (BitVec 32) := []
deriving DecidableEq, Repr

/-- An `acc.out` that is writing its rows (R266). -/
structure AccOutRun where
  entry : Entry
  row : Nat
  flags : BitVec 6
  push : Push := {}
  pos : Nat := 0
deriving DecidableEq, Repr

/-- A command window (R269): the tiles named, the checkpoint, the entries issued since with their C-cycle offsets. -/
structure Window where
  mask : BitVec 16
  belt : Vector Vec 16
  n : Vector Vec 16
  m : Vector (BitVec 256) 8
  /-- C-cycle of the first entry -/
  start : Nat
  entries : List (Nat × Entry) := []
  replayable : Bool := true
  replaying : Bool := false
  /-- entries still to issue again -/
  left : List (Nat × Entry) := []
deriving DecidableEq, Repr

/-- The phase of a word of a pair while the step runs both (R29). -/
inductive PairPhase where
  | alone | first | second
deriving DecidableEq, Repr

/-- Why a C word does not issue: the queue freezes, the word holds, or it traps or meets a machine check. -/
inductive CStop where
  | freeze
  | hold
  | trap (code : BitVec 8) (info : Word)
  | mcheck (code : BitVec 8) (info : Word) (log : Word) (array : Nat)
deriving DecidableEq, Repr

/-- The execution side of a C queue (R190 to R193, R252, R258). -/
structure CState where
  /-- C-cycles passed since the instance started: CCYCLE reads one less, and 0 before the first -/
  cc : Nat := 0
  /-- the tile cycle of the latest C-cycle, plus 1; 0 before the first: one C-cycle in a tile cycle (R4, R16) -/
  lastC : Nat := 0
  /-- units of words that retire in the C-cycle under way, which return at its end (R430) -/
  owed : List Grant := []
  latches : List Latch := []
  /-- words without a belt result that retire at the next C-cycle: push, position, flags -/
  rets : List (Push × Nat × BitVec 6) := []
  /-- a drain has begun and not ended (R193) -/
  draining : Bool := false
  /-- C-cycles for which no word issues: `vnop` and pre-reads -/
  vhold : Nat := 0
  /-- C-cycles of a finished chunk still ahead after a return (R262) -/
  mskip : Nat := 0
  mprio : BitVec 3 := 0
  mats : List MatRun := []
  accOut : Option AccOutRun := none
  /-- the matrix word or `apx.beg` at the head has passed its checks, and the AUX lines it has pre-read, with P (R257, R419) -/
  prep : Option (List (BitVec 512 × Bool)) := none
  /-- the CRC of the latest `kat` that has retired -/
  katCrc : Option (BitVec 32) := none
  /-- the seed of that `kat` -/
  katSeed : BitVec 16 := 0
  window : Option Window := none
  /-- tiles in which an uncorrectable error was met, for the C-cycle's end (R270, R271) -/
  accErr : List (BitVec 4) := []
  /-- an operand error that aborts the instance was folded (R271) -/
  abortReq : Bool := false
  /-- the tile cycle since which a matrix word waits for the other context's engine, and since which the next one waits behind the
  context's own stream (R261) -/
  engSince : Option Nat := none
  nextSince : Option Nat := none
  phase : PairPhase := .alone
  /-- units given to the matrix word at the head, which waits for the engine -/
  grant : Option Grant := none
  /-- why a word of a pair has not issued, while the step runs both -/
  stopped : Option CStop := none
deriving DecidableEq, Repr

/-- The top-k list of a context (R300): values and indices, best first. -/
structure TopkList where
  tag : Tag := .empty
  k : Nat := 0
  entries : List (BitVec 32 × BitVec 32) := []
deriving DecidableEq, Repr

/-- The bank-engine configuration of a context (R92). -/
structure PimCfg where
  valid : Bool := false
  k : Nat := 0
  wf : Nat := 0
  p : Nat := 0
  q : Nat := 0
  /-- the 4,096 vector elements by index; unlisted ones are 0 -/
  vec : KV (BitVec 16) := []
deriving DecidableEq, Repr

/-- A `pim.mv` that has issued and is not released (R96), with the configuration it issued with. -/
structure PimRun where
  cfg : PimCfg
  acc : Bool
  mem : Bool
  hw : Handle
  hd : Handle
  base : Word
  dst : Word
  rows : Nat
  mpc : Nat := 0
  flags : BitVec 6 := 0
  /-- host writes that the device was aware of when it issued (R100) -/
  seen : Nat := 0
  /-- none while its request waits -/
  grant : Option Grant := none
  push : Push := {}
  pos : Nat := 0
  pc : BitVec 60 := 0
  /-- the number of its word in issue order (R153) -/
  ser : Nat := 0
deriving DecidableEq, Repr

/-- A request to the sampling unit (R306 to R310). -/
inductive SmpReq where
  | cfg (slot : BitVec 6) (key ctr temp topp : BitVec 32) (keep : Bool)
  | draw (slot : BitVec 6) (weights : Bool) (active : BitVec 256) (vals idxs : BitVec 2048)
  | acc (slot : BitVec 6) (p q : BitVec 2048) (active : BitVec 256) (lanes : List Nat)
deriving DecidableEq, Repr

/-- A slot of the sampling unit (R305). -/
structure SmpSlot where
  key : BitVec 32 := 0
  ctr : BitVec 32 := 0
  temp : BitVec 32 := 0x3F800000
  topp : BitVec 32 := 0x3F800000
deriving DecidableEq, Repr

/-- A collective member that has issued (R319). -/
structure CollRun where
  bsum : Bool
  pa : BitVec 52
  dst : Nat := 0
  n : Nat := 0
  timeout : BitVec 32 := 0
  since : Nat := 0
  grant : Option Grant := none
  arrived : Bool := false
  /-- its contribution, block elements in order -/
  data : List (BitVec 32) := []
  entry : Entry
deriving DecidableEq, Repr

/-- A key-value word that the engine has accepted and not finished (R281, R285, R287, R288). -/
structure KvRun where
  word : BitVec 48
  entry : Entry
  /-- physical address of the descriptor -/
  desc : BitVec 52
  grant : Option Grant := none
  /-- stages done -/
  stage : Nat := 0
  /-- what the sampling step took: state word and block entries (R281) -/
  samp : List Nat := []
  /-- scratchpad ranges that it writes: address and bytes (R153) -/
  spad : List (Nat × Nat) := []
  push : Push := {}
  /-- the number of its word in issue order (R153) -/
  ser : Nat := 0
deriving DecidableEq, Repr

/-! ## Traps, instances, banks -/

/-- A trap raised and not yet delivered (R376, R377). -/
structure TrapPend where
  cls : BitVec 8
  code : BitVec 8
  info : Word
  fq : BitVec 8
  fidx : Nat
  fpc : BitVec 60
  pc : BitVec 60
  /-- the tile cycle at which it was raised -/
  time : Nat := 0
deriving DecidableEq, Repr

/-- The weights of a fitting-engine network: those of a fresh network with key F, or the outcome of some number of training
phases, which R422 leaves open. -/
inductive Net where
  | fresh (f : BitVec 32)
  | trained (n : Nat)
deriving DecidableEq, Repr

/-- An approximable region that runs: its `apx.beg` has looked its slot up (R418 to R421, R425). -/
structure Apx where
  slot : Option (Fin 16) := none
  id : BitVec 16 := 0
  /-- the fingerprint -/
  f : BitVec 32 := 0
  /-- the body waits while the network runs in its place; else it runs truly -/
  subst : Bool := false
  /-- the execution records a sample; it is compared -/
  samples : Bool := false
  compares : Bool := false
  /-- nothing has interrupted it -/
  whole : Bool := true
  outN : BitVec 4 := 0
  ol : Nat := 1
  input : BitVec 2048 := 0
  thr : BitVec 32 := 0
  /-- C-cycle of the `apx.beg` -/
  start : Nat := 0
  /-- the network of a substituted execution -/
  net : Net := .fresh 0
deriving DecidableEq, Repr

/-- What the tile keeps between a trap entry and its `eret`: captured copies (R382), pushes still to come, the log number. -/
structure TfSave where
  copies : List (QName × Nat × BitVec 4 × Handle) := []
  latchPush : List (Push × Nat) := []
  rets : List (Push × Nat × BitVec 6) := []
  pend : List (QName × Push) := []
  /-- positions of entries whose pushes were made before a replay -/
  pushed : List Nat := []
  /-- QSLIP as it stood when each entry of the C queue dispatched, by position (R417) -/
  slips : List (Nat × BitVec 7) := []
  /-- no C-cycle had passed -/
  unstarted : Bool := false
  /-- units held by matrix words that the frame records as issued, in order -/
  grants : List Grant := []
  /-- positions of those whose chunks have all folded, with the C-cycles to their last fold (R262) -/
  foldsIn : List (Nat × Nat) := []
  /-- the command window of a replay under way -/
  window : Option Window := none
  /-- the region that the trap fell in -/
  apx : Option Apx := none
deriving DecidableEq, Repr

/-- A posted store (R136). -/
structure Posted where
  pa : BitVec 52
  bytes : List (BitVec 8)
  /-- its line is being filled -/
  waitFill : Bool := false
  /-- its mapping is privileged, as the hub's registers need (R73) -/
  prv : Bool := false
deriving DecidableEq, Repr

/-- An access to a pair-window line that the partner has not acknowledged (R150). -/
structure PairWait where
  pa : BitVec 52
deriving DecidableEq, Repr

/-- Pending interrupts of a context (R375). -/
structure Irq where
  timer : Bool := false
  copyFault : List (Fin 8) := []
  monitor : List (BitVec 8) := []
  vote : Bool := false
deriving DecidableEq, Repr

/-- A count of tile cycles that runs or stands (R375). -/
inductive TimerCount where
  | stands (n : Nat)
  | runsFrom (t : Nat)
deriving DecidableEq, Repr

/-- The instance that a bank holds (R346, R359). -/
structure Inst where
  /-- number of its node in the dependence table -/
  node : Nat
  record : BitVec 64 := 0
  index : Nat := 0
  queue : Fin 1024 := 0
  att : Nat := 0
  coop : Bool := false
  lstep : Bool := false
  priv : Bool := false
  abt : Bool := true
  prio : Nat := 0
deriving DecidableEq, Repr

/-- Everything that a swap moves with a context's program (R389). -/
structure Bank where
  r : Regs := {}
  csr : Csrs := {}
  hw : HwUpdate := {}
  f : Front := {}
  q : Queues := {}
  c : CState := {}
  z : Vector AccTile 16 := Vector.replicate 16 {}
  pim : PimCfg := {}
  pimRuns : List PimRun := []
  coll : Option CollRun := none
  kvRuns : List KvRun := []
  topk : TopkList := {}
  topkQ : List Vec := []
  smpQ : List Vec := []
  /-- sampling requests outstanding, oldest first -/
  smpOut : List SmpReq := []
  /-- `topk.rd` words that wait for room in the TOPK queue: whether each clears the list -/
  topkRd : List Bool := []
  inst : Option Inst := none
  pts : Nat := 0
  /-- the latest host write that the context has observed, or that submitted its node (R100) -/
  hostSeen : Nat := 0
  /-- the number that the next L or S word to issue takes: the order of a queue's engine work (R143, R153, R177) -/
  ser : Nat := 1
  h15save : Handle := {}
  posted : List Posted := []
  pairWait : List PairWait := []
  /-- waits on watermarks (R152) -/
  wm : List WmWait := []
  trap : Option TrapPend := none
  tf : Option TfSave := none
  irq : Irq := {}
  timer : TimerCount := .stands 0
  /-- sequence number of the latest machine-check log entry (R388) -/
  mckSeq : Word := 0
  apx : Option Apx := none
  pwr : Option PwrWin := none
  /-- windows opened so far -/
  pwrSerial : Nat := 0
  /-- lockstep: outbound effects the leading context may still make (R409) -/
  credit : Nat := 0
  /-- the tile cycle in which the comparator was given the signature of the effect held (R409) -/
  cmpFrom : Option Nat := none
  /-- the signature that this copy formed of the effect held (R409) -/
  effSig : Option (BitVec 32) := none
deriving DecidableEq, Repr

/-- What a context is doing (R359, R370, R378). -/
inductive Status where
  | idle
  | running
  /-- a trap is raised and the queues drain (R376) -/
  | trapping
  /-- stopped by BREAK without a handler, or `halt` (R378) -/
  | stopped
  /-- the exchange of banks that began at a tile cycle (R389) -/
  | swapping (since : Nat)
  | fenced
  /-- the trailing context of a lockstep pair: it mirrors the leading one (R409) -/
  | mirror (lead : Who)
deriving DecidableEq, Repr

/-- A scratchpad slot's tag entry (R162) with its hidden recency stamp. -/
structure SlotTag where
  v : Bool := false
  f : Bool := false
  d : Bool := false
  p : Bool := false
  vtag : BitVec 48 := 0
  x : Bool := false
  own : Bool := false
  lay : BitVec 3 := 0
  fmt : BitVec 4 := 0
  stamp : Nat := 0
deriving DecidableEq, Repr

/-- A point that the leading copy of a lockstep pair has passed and the trailing one reaches at cycle `due`: its bank, and the tags and
the bytes of its scratchpad slots (R409). -/
structure Trail where
  due : Nat
  /-- an effect is held there -/
  held : Bool := false
  b : Bank
  tags : List (Nat × SlotTag)
  sp : Mem
deriving DecidableEq, Repr

/-- A context: its active bank, its shadow bank, and what it is doing (R389). -/
structure Ctx where
  status : Status := .idle
  b : Bank := {}
  shadow : Option Bank := none
  /-- the scheduler asks for its pre-emption (R357) -/
  preempt : Bool := false
  /-- the state that leaves was stopped (R438) -/
  halted : Bool := false
  /-- a trailing copy: the points it has to pass, and the words it has to retire with their cycles (R409) -/
  trail : List Trail := []
  signs : List (Nat × BitVec 48) := []
deriving DecidableEq, Repr

/-! ## Tiles -/

/-- A first-level copy (R130). -/
structure L1Line where
  data : BitVec 512
  wts : Nat
  rts : Nat
  poison : Bool := false
  /-- the latest host write merged into it (R100) -/
  host : Nat := 0
  /-- when it was used last, on its tile's `l1Clock` -/
  used : Nat := 0
  /-- the way of its set that it stands in -/
  way : Nat := 0
  /-- the tile cycle at which the lease ends at the latest, LEASE × 64 after the read that granted or renewed it (R134) -/
  ends : Nat
deriving DecidableEq, Repr

/-- A cached translation, in a first-level TLB or a second-level slice (R107). -/
structure TlbEntry where
  asid : BitVec 16
  /-- VA[59:16] of the page or sub-page it serves -/
  vpn : BitVec 44
  /-- leaf level: 1, 2 or 3 (R102) -/
  level : Nat
  leaf : BitVec 64
  id : BitVec 49
deriving DecidableEq, Repr

/-- A copy entry released and not completed (R177, R178): the physical rows translated at release. -/
structure CopyFly where
  idx : Nat
  /-- physical address of each memory row; a row in order -/
  rows : List (BitVec 52)
  /-- the queue of the word that let it be released (R177) -/
  q : QName := .l
  /-- the number of that word in issue order -/
  ser : Nat := 0
deriving DecidableEq, Repr

/-- A value that SC has taken since the launch, with the queue and the number of the word that gave it (R177). -/
structure Adv where
  sc : Nat
  q : QName := .l
  ser : Nat := 0
deriving DecidableEq, Repr

/-- The states of a copy channel (R185). -/
inductive ChanState where
  | idle | run | fault | done
deriving DecidableEq, Repr

/-- A copy channel (R174, R179, R185). -/
structure CopyChan where
  st : ChanState := .idle
  owner : Fin 2 := 0
  /-- the owning instance stands in the shadow bank of its context (R389) -/
  away : Bool := false
  sc : Nat := 0
  next : Nat := 0
  cnt : Nat := 0
  fcause : BitVec 8 := 0
  /-- header and entry records as read at launch: 64 bytes and 32 bytes each, little-endian numbers -/
  header : BitVec 512 := 0
  entries : List (BitVec 256) := []
  /-- VA of the record -/
  recVa : BitVec 60 := 0
  caps : Vector Handle 16 := Vector.replicate 16 {}
  fly : List CopyFly := []
  /-- the values that SC has taken since the launch (R177) -/
  advs : List Adv := []
  /-- entries completed, by index -/
  compl : List Nat := []
  /-- entries below this index have all completed and have been counted in WM -/
  counted : Nat := 0
  armed : Bool := false
  armMem : Bool := false
  lo : Nat := 0
  hi : Nat := 0
  wm : Nat := 0
  grant : Option Grant := none
  /-- it came back from an image without the unit that its copy needs, and asks again (R430, log 57) -/
  again : Bool := false
deriving DecidableEq, Repr

/-- What the key-value engine still does for an instance that is gone: the last step of a word, or the end of a hidden entry
(R281, R284 to R287). -/
inductive KvOrphan where
  | run (w : Who) (r : KvRun)
  | pend (w : Who) (desc : BitVec 52)
  /-- an arrival at a collective's record that is to be withdrawn (R319, R405) -/
  | arrival (w : Who) (pa : BitVec 52)
deriving DecidableEq, Repr

/-- A hidden copy entry of a provisional `kv.put` (R284). -/
structure HiddenCopy where
  who : Who
  desc : BitVec 52
  sid : BitVec 32
  node : BitVec 6
  layer : BitVec 16
  data : List (BitVec 8)
  released : Bool := false
  /-- the word's position, while its instance holds it -/
  pos : Option Nat := none
deriving DecidableEq, Repr

/-- A command of the quantisation engine (R311). -/
structure QzCmd where
  who : Who
  desc : BitVec 512
  /-- the scratchpad source has FP32 elements, else BF16 -/
  fp32 : Bool := false
  /-- scratchpad or physical addresses of the data, the scales and the event word -/
  data : Nat
  scale : Nat
  event : BitVec 52 := 0
  /-- the captured handles of the destinations and of the event word (R311, R87) -/
  hand : Handle := {}
  evHand : Handle := {}
  /-- its instance stands in the shadow bank -/
  away : Bool := false
  /-- rows of the source read so far, with their format and POISON, and whether they are all of them (R314) -/
  rows : List (Tag × List Nat × Bool) := []
  full : Bool := false
  /-- scratchpad ranges that it reads or writes: address and bytes (R153) -/
  spad : List (Nat × Nat) := []
  wait : Bool
  /-- the number of its word in issue order (R153) -/
  ser : Nat := 0
  grant : Option Grant := none
  push : Push := {}
  pos : Nat := 0
deriving DecidableEq, Repr

/-- The states of a neighbour's view (R398, R401). -/
inductive ViewSt where
  | ok | suspect | accused | fenced | probation | none | retired
deriving DecidableEq, Repr

/-- A tile's view of one neighbour and what it counted in the running period (R396, R398). -/
structure View where
  st : ViewSt := .ok
  missed : Nat := 0
  /-- periods in sequence that were not missed -/
  good : Nat := 0
  /-- the reason of this tile's own standing judgement; 0 none -/
  judged : BitVec 8 := 0
  beats : Nat := 0
  goodBeat : Bool := false
  badRun : Nat := 0
  flits : Nat := 0
  /-- signature of the latest heartbeat -/
  sig : BitVec 24 := 0
  /-- the running period began before the neighbour was readmitted: it is not judged (R407) -/
  partly : Bool := false
deriving DecidableEq, Repr

/-- An accusation received (R398): subject, sender, and the mesh cycle until which it is in force. -/
structure Accusation where
  subj : Tid
  src : Tid
  ends : Nat
deriving DecidableEq, Repr

/-- An entry of an error log (R412). -/
structure LogEntry where
  seq : Word
  time : Word
  addr : Word
  synd : BitVec 16 := 0
  array : BitVec 8 := 8
  type : BitVec 8
  ctxid : BitVec 16 := 0xFFFF
  detail : BitVec 8 := 0
deriving DecidableEq, Repr

/-- An error log: its status register's counts and its ring, newest last (R412, R413). -/
structure ErrLog where
  ue : BitVec 16 := 0
  ce : BitVec 16 := 0
  ovf : BitVec 8 := 0
  head : Nat := 0
  ring : KV LogEntry := []
  /-- ring indices written and not read since -/
  unread : List Nat := []
deriving DecidableEq, Repr

/-- An error that stands in an array of a tile: the array's code, the address of its word, and whether it is uncorrectable (R412, R414). -/
structure ArrErr where
  arr : Nat
  addr : Nat
  ue : Bool
deriving DecidableEq, Repr

/-- The self-check bits of a heartbeat (R395). -/
structure Health where
  kat : Bool := true
  vmon : Bool := true
  clk : Bool := true
  arr : Bool := true
  /-- uncorrectable accumulator errors that a replay of the context may still repair (R416) -/
  acc : Vector Bool 2 := Vector.replicate 2 false
deriving DecidableEq, Repr

/-- A tile (R17, R20). -/
structure Tile where
  sp : Mem := []
  tags : Vector SlotTag 384 := Vector.replicate 384 {}
  /-- the recency counter of each context (R162) -/
  stamps : Vector Nat 2 := Vector.replicate 2 0
  bankCode : Bool := false
  /-- scratchpad banks marked failed: bank `b` of group `g` has number 32 g + b (R160) -/
  failedBanks : List (BitVec 7) := []
  accFree : Nat := 256
  l1 : KV L1Line := []
  /-- uses of copies so far, which order them for replacement -/
  l1Clock : Nat := 0
  tlb1 : List TlbEntry := []
  tlb2 : List TlbEntry := []
  lt : Nat := 0
  /-- spans of 64 tile cycles since power-good for which LT has advanced -/
  ticked : Nat := 0
  resetAt : Nat := 0
  timerPeriod : Word := 0
  kvWays : Nat := 0
  /-- KV-resident bytes, and the lines of the region marked POISON -/
  kvMem : Mem := []
  kvPoison : List Nat := []
  chans : Vector CopyChan 8 := Vector.replicate 8 {}
  /-- the channel that the copy engine serves next (R174) -/
  chanTurn : Fin 8 := 0
  hidden : List HiddenCopy := []
  qz : List QzCmd := []
  /-- the context whose matrix word holds the engine (R259) -/
  engine : Option (Fin 2) := none
  /-- views of the north, east, south and west neighbours -/
  views : Vector View 4 := Vector.replicate 4 {}
  accs : List Accusation := []
  /-- tiles that this tile holds fenced or retired -/
  knownFenced : List Tid := []
  fcnt : Nat := 0
  prob : Bool := false
  selfTest : Bool := false
  /-- the self-test of the present fence has been started (R406) -/
  tested : Bool := false
  /-- signatures recorded at its accusations: subject and SIG, newest first (R395, log 114) -/
  accuseSigs : List (Tid × BitVec 24) := []
  health : Health := {}
  hbSeq : BitVec 16 := 0
  /-- ends of the latest period judged and of the latest period for which a HEARTBEAT was sent -/
  judgedAt : Nat := 0
  sentFor : Nat := 0
  /-- running CRC-32 over the words retired (R395) -/
  sig : BitVec 32 := 0xFFFFFFFF
  /-- a context dispatched a word, or both were idle, since the last heartbeat -/
  fewSeen : Bool := true
  log : ErrLog := {}
  errinj : Word := 0
  /-- injected errors that stand in the scratchpad: word address and whether uncorrectable (R414) -/
  bad : List (Nat × Bool) := []
  /-- the same in the other arrays (R128, R414, log 104) -/
  errs : List ArrErr := []
  /-- the instruction cache: the line at each index of 64 bytes (R20, log 120) -/
  icode : KV Nat := []
  /-- shoot-downs received and not acknowledged (R120) -/
  shots : List (BitVec 49) := []
  /-- a fault stalls its logic (R456) -/
  stalled : Bool := false
deriving DecidableEq, Repr

/-! ## Clusters -/

/-- What a request to a governor is for (R429, R430). -/
structure GrantReq where
  who : Who
  units : Nat
  /-- the serial of the `pwr.req` window that asks; 0 for an operation -/
  win : Nat := 0
  /-- the bank node that asks, in place of a context -/
  node : Option Nat := none
deriving DecidableEq, Repr

/-- One cost class of a governor (R430). -/
structure GovClass where
  budget : Nat
  used : Nat := 0
  reqs : List GrantReq := []
  /-- operations granted and not yet started: their contexts -/
  ready : List GrantReq := []
deriving DecidableEq, Repr

/-- The states of a fitting-engine slot (R424). -/
inductive FitSt where
  | empty | observe | train | shadow | substitute | fallback | invalid
deriving DecidableEq, Repr

/-- A fitting-engine slot (R421). -/
structure FitSlot where
  st : FitSt := .empty
  id : BitVec 16 := 0
  ctxid : Who := 0
  f : BitVec 32 := 0
  fb : Nat := 0
  dis : Bool := false
  n : Nat := 0
  /-- moving error, an FP32 pattern -/
  e : BitVec 32 := 0
  eValid : Bool := false
  net : Net := .fresh 0
  /-- OL and LR of the latest lookup -/
  ol : Nat := 1
  lr : BitVec 32 := 0
  samples : List (BitVec 2048 × BitVec 512) := []
  compared : Nat := 0
  used : Nat := 0
deriving DecidableEq, Repr

/-- A cluster's sampling unit, fitting engine, governor and monitors. -/
structure Cluster where
  smp : Vector SmpSlot 64 := Vector.replicate 64 {}
  fit : Vector FitSlot 16 := Vector.replicate 16 {}
  fitClock : Nat := 0
  gov : Vector GovClass 5
  throttled : Bool := false
  proc : BitVec 16 := 0
  vmin : BitVec 16 := 650
  vnow : BitVec 16 := 650
  t1 : BitVec 16 := 0
  t0 : BitVec 16 := 0
  thi : BitVec 16 := 0x0170
  tlo : BitVec 16 := 0x0140
  vlo : BitVec 16 := 600
  /-- crossings that have fired and not re-armed: sensor 0, sensor 1, supply (R436) -/
  fired : Vector Bool 3 := Vector.replicate 3 false
deriving DecidableEq, Repr

/-! ## The hub: memory, host, scheduler -/

/-- A line held in its home slice (R126, R132). -/
structure HomeLine where
  data : BitVec 512
  wts : Nat := 0
  rts : Nat := 0
  poison : Bool := false
  /-- the latest host write merged into it, by number; 0 none (R100) -/
  host : Nat := 0
  /-- a host snoop holds the line (R127) -/
  snoop : Bool := false
  /-- the line is held exclusive from the host (R84) -/
  excl : Bool := false
  /-- the tile cycle at which the last lease granted on the line ends at the latest (R134) -/
  leaseEnd : Nat := 0
  /-- the way of its set that it stands in; 16 only within the move that fills it (R126) -/
  way : Nat := 0
deriving DecidableEq, Repr

/-- What still orders accesses to a line that its slice has dropped: its times, the end of its leases, a host snoop (R84, R144, log 109). -/
structure LineTimes where
  wts : Nat := 0
  rts : Nat := 0
  leaseEnd : Nat := 0
  snoop : Bool := false
deriving DecidableEq, Repr

/-- A performed write queued for write-through (R126): the whole merged line. -/
structure WriteThrough where
  line : Nat
  data : BitVec 512
  poison : Bool := false
  /-- the host write that it performs, by number; 0 for any other (R100) -/
  host : Nat := 0
  /-- its two 32-byte atoms: bit k set when atom k is in LP6 already (R99) -/
  landed : BitVec 2 := 0
deriving DecidableEq, Repr

/-- An LP6 channel's status register and ring (R81, R82). -/
structure Lp6Err where
  ue : BitVec 16 := 0
  ce : BitVec 16 := 0
  ovf : BitVec 8 := 0
  head : Nat := 0
  scrub : BitVec 8 := 24
  ring : KV (BitVec 256) := []
  unread : List Nat := []
deriving DecidableEq, Repr

/-- An access of a context to a line in the snoop filter that waits for the host's answer (R85). -/
structure BackInv where
  line : Nat
  since : Nat
deriving DecidableEq, Repr

/-- A move of the migration engine (R119). -/
structure Move where
  id : BitVec 49
  repl : Bool
  /-- the frame that the page leaves -/
  oldBase : BitVec 52
  newBase : BitVec 52
  /-- the line map: lines of the page written since the copy -/
  lines : List Nat := []
  copied : Bool := false
  committed : Bool := false
  /-- the mailbox whose page operation this is, and the entry it writes; none for the engine's own moves -/
  who : Option Mailbox := none
  pte : Option (BitVec 64) := none
deriving DecidableEq, Repr

/-- A queue descriptor (R347). -/
structure QDesc where
  ring : BitVec 64 := 0
  size : BitVec 8 := 0
  en : Bool := false
  priv : Bool := false
  devok : Bool := false
  asid : BitVec 16 := 0
  head : BitVec 32 := 0
  tail : BitVec 32 := 0
  err : BitVec 32 := 0
  ptroot : BitVec 64 := 0
  trapvec : BitVec 64 := 0
  framebase : BitVec 64 := 0
  pool : BitVec 64 := 0
  psize : BitVec 32 := 0
  /-- host writes completed when the host last wrote TAIL (R100) -/
  submitted : Nat := 0
deriving DecidableEq, Repr

/-- The states of a node entry (R352). -/
inductive NodeSt where
  | arriving | waitEvt | waitRange | eval | ready | running | done | failed
deriving DecidableEq, Repr

/-- A range of 4 KiB pages (R344): VA[59:12] and the page count. -/
structure Range where
  page : Nat
  npg : Nat
deriving DecidableEq, Repr

/-- An entry of the dependence table (R349 to R352). -/
structure NodeEnt where
  id : Nat
  record : BitVec 64
  queue : Fin 1024
  /-- the 128-byte record as read -/
  body : BitVec 1024
  aovr : BitVec 64 := 0
  evw : BitVec 64 := 0
  /-- physical address of the event word, when it has one -/
  evPa : Option (BitVec 52) := none
  thr : BitVec 64 := 0
  asid : BitVec 16 := 0
  arrivals : Nat := 0
  st : NodeSt := .arriving
  readyAt : Nat := 0
  total : Nat := 1
  extents : List (Nat × Nat) := []
  placed : Nat := 0
  ended : Nat := 0
  mism : Nat := 0
  /-- the loop node whose body this is -/
  loopOf : Option Nat := none
  /-- a known-answer task's tile (R407) -/
  katTile : Option Tid := none
  /-- write ranges that were renamed, and read ranges that read a renamed version: index and chunk address (R351) -/
  renamed : List (Nat × BitVec 64) := []
  versions : List (Nat × BitVec 64) := []
  /-- successors that are still to arrive, of a node that is DONE -/
  succs : List Nat := []
  /-- the logical time that its instances come after, and the latest end of one (R154, R155) -/
  time : Nat := 0
  endTime : Nat := 0
  /-- host writes completed when it was submitted (R100) -/
  hostSeen : Nat := 0
deriving DecidableEq, Repr

/-- A newest renamed version of a range (R351). -/
structure Rename where
  queue : Fin 1024
  asid : BitVec 16
  node : Nat
  range : Range
  chunk : BitVec 64
  chunks : Nat
  /-- the version has been copied home; its chunks stay until its last reader is DONE -/
  home : Bool := false
deriving DecidableEq, Repr

/-- A saved instance: its bank and what its quota slots and tiles hold (R390, R392). -/
structure Saved where
  bank : Bank
  slots : List (Nat × SlotTag × List (BitVec 8)) := []
  /-- its copy channels with their numbers -/
  chans : List (Fin 8 × CopyChan) := []
  /-- a pre-emption saved it: its image records PREEMPT (R389), and stands in this image area of firmware (log 62) -/
  preempted : Bool := false
  area : Nat := 0
  /-- it was stopped when it was saved, and is stopped again when it comes back (R378, R438, log 141) -/
  stopped : Bool := false
deriving DecidableEq, Repr

/-- An instance in the ready pool (R356). -/
structure PoolEnt where
  node : Nat
  index : Nat
  att : Nat := 0
  since : Nat
  first : Bool := false
  saved : Option Saved := none
deriving DecidableEq, Repr

/-- A page-in that firmware works on (R123). -/
structure PageIn where
  va : BitVec 64
  asid : BitVec 16
  pool : PoolEnt
  /-- it was not placed: its wait goes on when it returns to the pool -/
  unplaced : Bool := false
deriving DecidableEq, Repr

/-- What a journal entry records (R368): the new state of a node with what a control decision, a placement or a rename has changed in it, a
node freed, an instance that has become ready or has been taken from the pool, a HEAD, the renamed versions with the chunks in use, a trigger. -/
inductive JAct where
  | node (e : NodeEnt)
  | freed (id : Nat)
  | ready (p : PoolEnt)
  | taken (p : PoolEnt)
  | head (q : Nat) (v : BitVec 32)
  | rename (l : List Rename) (used : List (Fin 1024 × Nat))
  | trigger (k : Nat) (t : Trigger)
deriving DecidableEq, Repr

/-- A journal entry, 32 bytes of hub SRAM: its sequence number and what it records (R368, log 113). -/
structure JEntry where
  seq : Nat
  act : JAct
deriving DecidableEq, Repr

/-- The state of the scheduler that a checkpoint holds: table, pool, renamed versions, triggers, and the queues' HEADs (R368). -/
structure SchedImage where
  table : List NodeEnt := []
  pool : List PoolEnt := []
  renames : List Rename := []
  chunksUsed : List (Fin 1024 × Nat) := []
  triggers : KV Trigger := []
  heads : KV (BitVec 32) := []
deriving DecidableEq, Repr

/-- What waits while no scheduler core is active, in arrival order (R369): the end of an instance with its logical time, a failed node, an
instance ended by a fatal condition, an instance that returns to the pool. -/
inductive Held where
  | ended (node t : Nat)
  | failed (node : Nat)
  | fatal (node : Nat)
  | back (p : PoolEnt)
deriving DecidableEq, Repr

/-- The instruction memory of a scheduler core, 256 KiB of SECDED words: the errors that stand in it, by byte address, uncorrectable or
not (R368). Its contents are the firmware's. -/
structure CoreMem where
  errs : List (Nat × Bool) := []
deriving DecidableEq, Repr

/-- The scheduler cores and their journal (R368, R369). -/
structure Cores where
  imem : Vector CoreMem 2 := Vector.replicate 2 {}
  active : Fin 2 := 0
  standby : Bool := true
  halted : Bool := false
  /-- the standby takes over -/
  taking : Bool := false
  /-- sequence number of the latest journal entry -/
  jseq : Nat := 0
  /-- the entries since the latest checkpoint, oldest first; the number at which the checkpoint stands and what it holds; and the copy of
  the journal in LP6 -/
  journal : List JEntry := []
  checkpoint : Nat := 0
  image : SchedImage := {}
  mirror : List JEntry := []
  /-- what is held while no core is active, in arrival order -/
  held : List Held := []
deriving DecidableEq, Repr

/-- Power and bring-up states (R438, R440, R441). -/
inductive PowerSt where
  | d0 | d3entry (since : Nat) | d3hot | recovery | off
  /-- bring-up trains the pair link (step 4) -/
  | boot
deriving DecidableEq, Repr

/-- The boot image and the fuses (R441), and whether a partner is connected (R440). -/
structure Boot where
  flash : List (BitVec 8) := []
  keyDigest : BitVec 256 := 0
  minVersion : BitVec 32 := 0
  partner : Bool := false
deriving DecidableEq, Repr

/-- What the part has sent to the world: MSI-X vectors, DOE answers, buffers written, the trip output. -/
inductive HostOut where
  | msix (v : BitVec 11)
  | doe (answer : List (BitVec 8))
  | snoop (line : BitVec 46)
  | snoopAnswer (line : BitVec 46) (data : BitVec 512)
  | pairData (line : BitVec 46) (data : BitVec 512) (poison : Bool)
  | readData (line : BitVec 46) (data : BitVec 512) (poison : Bool)
  | memWritten (line : BitVec 46)
  | uncorrectable (line : BitVec 46)
  /-- a host line that a home slice held goes back to the host (R438) -/
  | released (line : BitVec 46) (data : BitVec 512)
  | thermalTrip
deriving DecidableEq, Repr

/-- A vote-class flit in the mesh (R394): destination (none: the hub), content, and the mesh cycle at which it arrives; and the first link
of its way until it has passed it: the sending tile, the next one, and the mesh cycle (R396). -/
structure Flit where
  dst : Option Tid
  bits : BitVec 128
  due : Nat
  link : Option (Tid × Tid × Nat) := none
deriving DecidableEq, Repr

/-- The hub and everything outside the tiles. -/
structure Hub where
  mem : Mem := []
  /-- the tile cycle of the latest device reset, from which scheduler cycles are counted -/
  resetAt : Nat := 0
  /-- lines held in home slices, by line number; a pair-window line is held in a slice of the partner (R86) -/
  home : KV HomeLine := []
  /-- times of dropped lines, from which a later fill goes on (R144, log 109) -/
  times : KV LineTimes := []
  wtq : List WriteThrough := []
  /-- error patterns on stored LP6 lines, 72 symbols each; an unlisted line has none -/
  flips : KV (BitVec 576) := []
  lp6 : Vector Lp6Err 48 := Vector.replicate 48 {}
  /-- lines the host may cache, oldest first (R85) -/
  filter : List Nat := []
  backInv : List BackInv := []
  /-- largest write times given to host and partner writes (R150) -/
  hostWts : Nat := 0
  /-- host writes completed so far (R100) -/
  hostSer : Nat := 0
  pairWts : Nat := 0
  /-- counts per page identifier and die (R87), most recent first -/
  migCnt : List (BitVec 49 × Nat × Nat) := []
  /-- pages for which no pair of free frames was found in this window (R108) -/
  migNone : List (BitVec 49) := []
  /-- counting windows ended since reset (R87) -/
  migWindow : Nat := 0
  migthr : Word := 256
  moves : List Move := []
  /-- pins to be lowered once the host has given back the line of their entry (R85) -/
  unpins : List (BitVec 49) := []
  /-- by descriptor and tree node: the SID under which provisional entries have landed in the slot, and for which layers (R454, log 143) -/
  landed : KV (Nat × List Nat) := []
  /-- free 64 KiB frames of the firmware pool, by base; no frame at reset (log 111) -/
  freeFrames : List (BitVec 52) := []
  shots : List (BitVec 49 × List Tid) := []
  qd : KV QDesc := []
  kick : BitVec 1024 := 0
  /-- the dependence table, in order of entry (R349) -/
  table : List NodeEnt := []
  nextId : Nat := 0
  pool : List PoolEnt := []
  pageIns : List PageIn := []
  renames : List Rename := []
  /-- chunks of a queue's pool in use: queue and chunk number -/
  chunksUsed : List (Fin 1024 × Nat) := []
  /-- lines of page-table entries written in this move in which a node waits for an event word (R352) -/
  touched : List Nat := []
  triggers : KV Trigger := []
  /-- scheduler cycle at which a queue last had an entry to parse or a node in the table, for its trigger (R355) -/
  lastBusy : KV Nat := []
  cores : Cores := {}
  hbcfg : BitVec 24 := 0xC38F01
  hbcfgNext : Option (BitVec 24) := none
  fenced : List Tid := []
  retired : List Tid := []
  probation : List Tid := []
  /-- fences whose notice has not been acknowledged by every live tile: the remap is pending (R405) -/
  remap : List Tid := []
  appealed : List Tid := []
  fcnts : Vector Nat 72 := Vector.replicate 72 0
  log : ErrLog := {}
  seq : Word := 0
  mbox : Vector Word 2 := Vector.replicate 2 0
  /-- command codes and arguments of the mailboxes, by byte; and the commands that wait for the controller, in arrival order (R443) -/
  mbytes : Vector Mem 2 := Vector.replicate 2 []
  mcmds : List (Mailbox × MbCommand) := []
  pair : Bool := false
  /-- the link trains -/
  training : Bool := false
  /-- end of the heartbeat period that runs, in mesh cycles (R393) -/
  periodEnd : Nat := 4096
  power : PowerSt := .d0
  boot : Boot := {}
  /-- SPDM requests of the conversation so far (R442) -/
  spdm : List (List (BitVec 8)) := []
  flits : List Flit := []
  /-- steps of the key-value engines for instances that are gone, oldest first -/
  orphans : List KvOrphan := []
  out : List HostOut := []
  /-- open collective generations: physical addresses of their records (R319) -/
  colls : List (BitVec 52) := []
  /-- the firmware area that D3hot keeps (R438) -/
  d3lt : Nat := 0
  d3kv : List (Tid × Mem × List Nat) := []
  d3saved : List PoolEnt := []
  d3smp : List (Vector SmpSlot 64) := []
  pkgPower : BitVec 64 := 0
  /-- how many training phases have ended: names their free outcomes -/
  trainings : Nat := 0
deriving DecidableEq, Repr

/-! ## The schedule and the state -/

/-- What moves (log 2). -/
inductive What where
  /-- the front end of a context executes or dispatches its word -/
  | front (w : Who)
  /-- the head of a queue issues -/
  | issue (w : Who) (q : QName)
  /-- an event of the table -/
  | event (i : Instr)
  /-- a home slice drops a line; a first-level cache discards the copy of the line's set that was used least lately (R126, R130) -/
  | evictHome (line : Nat)
  | evictL1 (t : Tid) (line : Nat)
  /-- a TLB drops its oldest entries; nothing else happens -/
  | evictTlb (t : Tid)
  /-- a transient or stored error appears in an LP6 line -/
  | flip (line : Nat) (pattern : BitVec 576)
  /-- the quantisation engine of a tile reads a row of its oldest command's source (R314) -/
  | qzRow (t : Tid)
  /-- power returns to a part from which it was removed (R440); whether a partner is connected -/
  | powerGood (partner : Bool)
  /-- the standby scheduler core ends its take-over (R369) -/
  | takeOver
  /-- an error appears in a word of a scheduler core's instruction memory (R368) -/
  | coreError (k : Fin 2) (addr : Nat) (ue : Bool)
  /-- the clock monitor of a tile reports (R395) -/
  | clockMonitor (t : Tid) (ok : Bool)
  /-- a fault stalls the logic of a tile, or is gone: its router goes on, and what is addressed to the tile waits (R456) -/
  | stall (t : Tid) (on : Bool)
  /-- other traffic stamped with a neighbour takes mesh cycles of the link from it (R396) -/
  | traffic (t : Tid) (d : Fin 4) (n : Nat)
  /-- the partner writes a line of its own memory (R157) -/
  | partnerWrite (line : BitVec 46) (mask : BitVec 64) (data : BitVec 512)
deriving DecidableEq, Repr

/-- One move of the schedule: how many tile cycles pass before it, and what it is. -/
structure Mv where
  dt : Nat
  what : What
deriving DecidableEq, Repr

/-- The whole part. -/
structure State where
  /-- tile cycles since power-good -/
  now : Nat
  /-- the context that steps when the schedule is empty, and whose words exec runs -/
  cur : Who
  sched : List Mv
  /-- numbers the free values drawn (log 3) -/
  draws : Nat
  ctxs : Vector Ctx 144
  tiles : Vector Tile 72
  clusters : Vector Cluster 18
  hub : Hub
deriving DecidableEq, Repr

/-- Why the machine stops. -/
inductive Fault where
  /-- Power has been removed and device state is lost (R434). Raised by every step after POWER_REMOVAL; safe. -/
  | poweredOff
deriving DecidableEq, Repr

/-- Why the machine has no meaning for an instruction. -/
inductive Refusal where
  /-- The instruction has no meaning in the model yet. Raised by its arm of exec; safe. -/
  | notModelled (mnemonic : String)
deriving DecidableEq, Repr

/-- The default budgets of a 450 W part (R433, log 4). -/
def defaultGov : Vector GovClass 5 :=
  #v[{ budget := 4 }, { budget := 2 }, { budget := 8 }, { budget := 2 }, { budget := 2 }]

/-- Column and row of a tile (R13). -/
def Tid.col (t : Nat) : Nat := 6 * (t / 36) + t % 6
def Tid.row (t : Nat) : Nat := t % 36 / 6

/-- The tile in direction 0 north, 1 east, 2 south, 3 west of tile `t`, by number, where it exists (R393). -/
def neighbour (t : Nat) (d : Nat) : Option Nat :=
  let x := Tid.col t
  let y := Tid.row t
  let at' (x y : Nat) : Nat := 36 * (x / 6) + 6 * y + x % 6
  match d with
  | 0 => if y = 0 then none else some (at' x (y - 1))
  | 1 => if x = 11 then none else some (at' (x + 1) y)
  | 2 => if y = 5 then none else some (at' x (y + 1))
  | _ => if x = 0 then none else some (at' (x - 1) y)

/-- A view of a neighbour at reset: OK, or NONE where no tile is there (R398). -/
def viewReset (t d : Nat) : View := if (neighbour t d).isSome then {} else { st := .none }

/-- Tile `t` at reset; in error-log mode, since R159 names no mode before firmware selects one (DESIGN CHOICE, log 146). -/
def tileReset (t : Nat) : Tile :=
  { views := #v[viewReset t 0, viewReset t 1, viewReset t 2, viewReset t 3] }

/-- The machine right after reset, at step 5 of bring-up (R440): no instance runs, nothing is cached, memory lists nothing. -/
def State.reset : State where
  now := 0
  cur := 0
  sched := []
  draws := 0
  ctxs := Vector.replicate 144 {}
  tiles := ⟨((List.range 72).map tileReset).toArray, by simp⟩
  clusters := Vector.replicate 18 { gov := defaultGov }
  hub := {}

end Sys2Proof.Machine
end

