-- ==== Sys2Proof/Machine/Base.lean ====
section
/-! DEFINITION. Finite maps, byte memory, number helpers, the monad of the meanings, and access to the parts of the state. -/
namespace Sys2Proof.Machine

/-! ## Finite maps and byte memory -/

/-- The value at key `k`. -/
def kvGet {α : Type} : KV α → Nat → Option α
  | [], _ => none
  | (a, v) :: m, k => if a = k then some v else if k < a then none else kvGet m k

/-- The map with key `k` at `v`; keys stay rising. -/
def kvPut {α : Type} : KV α → Nat → α → KV α
  | [], k, v => [(k, v)]
  | (a, x) :: m, k, v => if a = k then (k, v) :: m else if k < a then (k, v) :: (a, x) :: m else (a, x) :: kvPut m k v

/-- The map without key `k`. -/
def kvDel {α : Type} : KV α → Nat → KV α
  | [], _ => []
  | (a, x) :: m, k => if a = k then m else if k < a then (a, x) :: m else (a, x) :: kvDel m k

/-- What a byte that nothing has written reads as (log 1). -/
def memDefault : Byte := 0

/-- One byte. -/
def memGet (m : Mem) (a : Nat) : Byte := (kvGet m a).getD memDefault

/-- One byte written; writing the default removes the entry. -/
def memSet (m : Mem) (a : Nat) (b : Byte) : Mem := if b = memDefault then kvDel m a else kvPut m a b

/-- Rising keys, all above `lo`. -/
def kvRising {α : Type} : Nat → KV α → Bool
  | _, [] => true
  | lo, (a, _) :: m => lo ≤ a && kvRising (a + 1) m

/-- The canonical form of a memory. -/
def Mem.wf (m : Mem) : Bool := kvRising 0 m && m.all fun c => c.2 != memDefault

/-- `n` bytes from address `a`. -/
def memRead (m : Mem) (a : Nat) : Nat → List Byte
  | 0 => []
  | n + 1 => memGet m a :: memRead m (a + 1) n

/-- The bytes written from address `a`. -/
def memWrite (m : Mem) (a : Nat) : List Byte → Mem
  | [] => m
  | b :: bs => memWrite (memSet m a b) (a + 1) bs

/-! ## Numbers -/

/-- The low `n` bits of `x` as two's complement (R8). -/
def sext (x : Nat) (n : Nat) : Int :=
  let y := x % 2 ^ n
  if y < 2 ^ (n - 1) then (y : Int) else (y : Int) - 2 ^ n

/-- Bits [lo + n − 1 : lo] of `x`. -/
def bits (x lo n : Nat) : Nat := x / 2 ^ lo % 2 ^ n

/-- Bit `k` of `x`. -/
def bit (x k : Nat) : Bool := x / 2 ^ k % 2 = 1

def b2n (b : Bool) : Nat := if b then 1 else 0

/-- The little-endian bytes of a number, `n` of them (R3). -/
def leBytes (x : Nat) : Nat → List Byte
  | 0 => []
  | n + 1 => BitVec.ofNat 8 x :: leBytes (x / 256) n

def w64 (x : Nat) : Word := BitVec.ofNat 64 x
def w64i (x : Int) : Word := BitVec.ofInt 64 x

/-- Sets bit `k` of `x` when `b`. -/
def flag (b : Bool) (k : Nat) : Nat := if b then 2 ^ k else 0

/-! ## Places of tiles and contexts -/

def Who.tile (w : Who) : Tid := ⟨w.val / 2, by omega⟩
def Who.ctx (w : Who) : Fin 2 := ⟨w.val % 2, by omega⟩
def who (t : Tid) (c : Fin 2) : Who := ⟨2 * t.val + c.val, by omega⟩

/-- The other context of the tile. -/
def Who.other (w : Who) : Who := who (Who.tile w) ⟨1 - (Who.ctx w).val, by omega⟩

def Tid.die (t : Tid) : Nat := t.val / 36

/-- The cluster of a tile (R14). -/
def Tid.cluster (t : Tid) : Cid :=
  ⟨9 * (t.val / 36) + 3 * (t.val % 36 / 12) + t.val % 6 / 2, by omega⟩

/-- The position of a tile in its cluster (R14). -/
def Tid.pos (t : Tid) : Nat := Tid.col t % 2 + 2 * (Tid.row t % 2)

/-- The tile at position `q` of cluster `c` (R14). -/
def tileAt (c q : Nat) : Nat :=
  36 * (c / 9) + 6 * (2 * (c % 9 / 3) + q / 2) + 2 * (c % 9 % 3) + q % 2

def tid? (n : Nat) : Option Tid := if h : n < 72 then some ⟨n, h⟩ else none

/-! ## Lockstep pairs (R409) -/

/-- The context of the trailing copy: the same position of cluster c XOR 1 (R409). -/
def partnerOf (w : Who) : Option Who :=
  (tid? (tileAt ((Tid.cluster (Who.tile w)).val ^^^ 1) (Tid.pos (Who.tile w)))).map fun t => who t (Who.ctx w)

/-- D: how many cycles the trailing copy of `w` runs behind it. -/
def lockDelay (w : Who) : Nat := if (Tid.cluster (Who.tile w)).val / 2 = 4 then 40 else 8

/-! ## The monad of the meanings -/

/-- What ends a word without its effect. -/
inductive Stop where
  /-- a precise trap (R373) -/
  | trap (code : BitVec 8) (info : Word)
  /-- a machine check; `log` is the address that its log entry holds, and `array` the code of the array that it came from (R373, R411,
  R412, log 118) -/
  | mcheck (code : BitVec 8) (info : Word) (log : Word) (array : Nat)
  /-- the word waits and is tried again -/
  | wait (k : WaitKind)
  /-- the instance is aborted for a page that is not present (R123) -/
  | abort (va : Word)
deriving DecidableEq, Repr

/-- A state transformer that can stop, keeping the state at the stop. -/
abbrev M := ExceptT Stop (StateM State)

def trap {α : Type} (code : BitVec 8) (info : Word) : M α := throw (.trap code info)
def waitFor {α : Type} (k : WaitKind) : M α := throw (.wait k)

/-- Traps unless the condition holds. -/
def ensure (ok : Bool) (code : BitVec 8) (info : Word) : M Unit := if ok then pure () else trap code info

/-- Runs a transformer that no stop can leave; a stop keeps the state. -/
def runM (m : M Unit) (s : State) : State := (m.run.run s).2

/-! ## Cause codes (R373) -/
namespace Cause
def illegalPacket : BitVec 8 := 0x01
def illegalInstruction : BitVec 8 := 0x02
def misalignedPc : BitVec 8 := 0x03
def misalignedAddr : BitVec 8 := 0x04
def privilege : BitVec 8 := 0x05
def operandRange : BitVec 8 := 0x06
def formatMismatch : BitVec 8 := 0x07
def layout : BitVec 8 := 0x08
def bankConflict : BitVec 8 := 0x09
def spQuota : BitVec 8 := 0x0A
def sparseIndex : BitVec 8 := 0x0B
def staleHandle : BitVec 8 := 0x10
def handleBounds : BitVec 8 := 0x11
def permission : BitVec 8 := 0x12
def vaRange : BitVec 8 := 0x13
def pageNotPresent : BitVec 8 := 0x14
def pageTable : BitVec 8 := 0x15
def pinLimit : BitVec 8 := 0x16
def pimKind : BitVec 8 := 0x17
def fetchFault : BitVec 8 := 0x18
def accFull : BitVec 8 := 0x20
def accShape : BitVec 8 := 0x21
def accLeak : BitVec 8 := 0x22
def copyBusy : BitVec 8 := 0x28
def copyRecord : BitVec 8 := 0x29
def kvDesc : BitVec 8 := 0x30
def kvFull : BitVec 8 := 0x31
def kvNode : BitVec 8 := 0x32
def qzDesc : BitVec 8 := 0x38
def collShape : BitVec 8 := 0x39
def collTimeout : BitVec 8 := 0x3A
def queueState : BitVec 8 := 0x40
def apxWait : BitVec 8 := 0x41
def apxImpure : BitVec 8 := 0x42
def soft : BitVec 8 := 0x48
def brk : BitVec 8 := 0x49
def timer : BitVec 8 := 0x80
def copyFault : BitVec 8 := 0x81
def monitor : BitVec 8 := 0x82
def vote : BitVec 8 := 0x83
def preempt : BitVec 8 := 0x84
def poison : BitVec 8 := 0xC0
def silentError : BitVec 8 := 0xC1
def lockstep : BitVec 8 := 0xC2
def frameFault : BitVec 8 := 0xC3
def frameFormat : BitVec 8 := 0xC4
def nested : BitVec 8 := 0xC5
end Cause

/-! ## Access to the parts of the state -/

def State.ctx (s : State) (w : Who) : Ctx := s.ctxs.get w
def State.setCtx (s : State) (w : Who) (c : Ctx) : State := { s with ctxs := s.ctxs.set w.val c w.isLt }
def State.modCtx (s : State) (w : Who) (f : Ctx → Ctx) : State := s.setCtx w (f (s.ctx w))
def State.bank (s : State) (w : Who) : Bank := (s.ctx w).b
def State.modBank (s : State) (w : Who) (f : Bank → Bank) : State := s.modCtx w fun c => { c with b := f c.b }
def State.tile (s : State) (t : Tid) : Tile := s.tiles.get t
def State.setTile (s : State) (t : Tid) (x : Tile) : State := { s with tiles := s.tiles.set t.val x t.isLt }
def State.modTile (s : State) (t : Tid) (f : Tile → Tile) : State := s.setTile t (f (s.tile t))
def State.cluster (s : State) (c : Cid) : Cluster := s.clusters.get c
def State.modCluster (s : State) (c : Cid) (f : Cluster → Cluster) : State :=
  { s with clusters := s.clusters.set c.val (f (s.cluster c)) c.isLt }
def State.modHub (s : State) (f : Hub → Hub) : State := { s with hub := f s.hub }

def modS (f : State → State) : M Unit := modify f
def getB (w : Who) : M Bank := do return (← get).bank w
def modB (w : Who) (f : Bank → Bank) : M Unit := modS fun s => s.modBank w f
def getT (w : Who) : M Tile := do return (← get).tile (Who.tile w)
def modT (w : Who) (f : Tile → Tile) : M Unit := modS fun s => s.modTile (Who.tile w) f
def modH (f : Hub → Hub) : M Unit := modS fun s => s.modHub f

def Bank.modR (b : Bank) (f : Regs → Regs) : Bank := { b with r := f b.r }
def Bank.modCsr (b : Bank) (f : Csrs → Csrs) : Bank := { b with csr := f b.csr }
/-- Hardware sets flags and adds to ATTZ, which saturates (R206, R339). -/
def Bank.setFlags (b : Bank) (fl : BitVec 6) (az : Nat := 0) : Bank :=
  { b with
    csr := { b.csr with fpflags := b.csr.fpflags ||| fl, attz := if az = 0 then b.csr.attz else BitVec.ofNat 64 (min (b.csr.attz.toNat + az) 0xFFFFFFFF) }
    hw := { b.hw with flags := b.hw.flags ||| fl, attz := b.hw.attz + az } }

/-- The record of such updates is that of the present tile cycle. -/
def Bank.freshHw (b : Bank) (now : Nat) : Bank := if b.hw.stamp = now + 1 then b else { b with hw := { stamp := now + 1, attz0 := b.csr.attz } }

/-- The updates of the present tile cycle: flags and the addition to ATTZ. -/
def Bank.hwNow (b : Bank) (now : Nat) : BitVec 6 × Nat := if b.hw.stamp = now + 1 then (b.hw.flags, b.hw.attz) else (0, 0)
/-- ATTZ before them. -/
def Bank.attzBefore (b : Bank) (now : Nat) : BitVec 64 := if b.hw.stamp = now + 1 then b.hw.attz0 else b.csr.attz
/-- A read of a discarded slot sets SPDISC (R163). -/
def Bank.setDisc (b : Bank) (now : Nat) : Bank :=
  let b := b.freshHw now
  { b with csr := { b.csr with spdisc := true }, hw := { b.hw with disc := true } }

def Bank.modF (b : Bank) (f : Front → Front) : Bank := { b with f := f b.f }
def Bank.modQ (b : Bank) (f : Queues → Queues) : Bank := { b with q := f b.q }
def Bank.modC (b : Bank) (f : CState → CState) : Bank := { b with c := f b.c }

/-- The channel belongs to the instance that the context's active bank holds. -/
def CopyChan.ofCtx (c : CopyChan) (x : Fin 2) : Bool := c.owner == x && !c.away

/-! ## Registers (R6) -/

/-- s[x]: s0 reads zero. -/
def Regs.sreg (r : Regs) (x : BitVec 5) : Word := if x = 0 then 0 else r.s.get x.toFin
/-- s[x] := v: a write to s0 is discarded. -/
def Regs.setS (r : Regs) (x : BitVec 5) (v : Word) : Regs :=
  if x = 0 then r else { r with s := r.s.set x.toNat v x.isLt }
/-- p[x]: p0 reads true. -/
def Regs.preg (r : Regs) (x : BitVec 3) : Bool := if x = 0 then true else r.p.get x.toFin
/-- p[x] := v: a write to p0 is discarded. -/
def Regs.setP (r : Regs) (x : BitVec 3) (v : Bool) : Regs :=
  if x = 0 then r else { r with p := r.p.set x.toNat v x.isLt }
def Regs.hreg (r : Regs) (x : BitVec 4) : Handle := r.h.get x.toFin
def Regs.setH (r : Regs) (x : BitVec 4) (v : Handle) : Regs := { r with h := r.h.set x.toNat v x.isLt }
/-- A belt or named-register selector (R38): 0x00 to 0x0F belt ages, 0x10 to 0x1F named registers. -/
def Regs.vec (r : Regs) (x : BitVec 5) : Vec :=
  let k : BitVec 4 := BitVec.ofNat 4 x.toNat
  if x.toNat < 16 then r.belt.get k.toFin else r.n.get k.toFin
def Regs.setN (r : Regs) (x : BitVec 4) (v : Vec) : Regs := { r with n := r.n.set x.toNat v x.isLt }
def Regs.mreg (r : Regs) (x : BitVec 3) : BitVec 256 := r.m.get x.toFin
def Regs.setM (r : Regs) (x : BitVec 3) (v : BitVec 256) : Regs := { r with m := r.m.set x.toNat v x.isLt }

/-- A result drops onto the belt (R190): it becomes age 0 and the oldest falls off. -/
def pushBelt (b : Vector Vec 16) (v : Vec) : Vector Vec 16 :=
  ⟨(v :: b.toList.dropLast).toArray, by simp⟩

/-- Element `i` of the bank-engine vector (R92). -/
def PimCfg.elem (c : PimCfg) (i : Nat) : BitVec 16 := (kvGet c.vec i).getD 0
def PimCfg.setElem (c : PimCfg) (i : Nat) (v : BitVec 16) : PimCfg := { c with vec := if v = 0 then kvDel c.vec i else kvPut c.vec i v }
/-- The elements from index `i` on. -/
def PimCfg.setVec (c : PimCfg) (i : Nat) : List (BitVec 16) → PimCfg
  | [] => c
  | v :: vs => (c.setElem i v).setVec (i + 1) vs

/-- The guard of a word (R31): p[GP] XOR GN. -/
def guardOf (h : Hdr) (b : Bank) : Bool := b.r.preg h.gp != (h.gn == 1)

/-- The scheduler cycles that have passed since reset (R4): 16 for every 23 tile cycles. -/
def State.sched16 (s : State) : Nat := (s.now - s.hub.resetAt) * 16 / 23

/-- The context's program is privileged (R342). -/
def Bank.priv (b : Bank) : Bool := (b.inst.map (·.priv)).getD false

/-! ## Error logs (R412, R413) -/

/-- An entry is added to a log of `n` entries; the oldest of a full ring is overwritten. -/
def ErrLog.add (l : ErrLog) (n : Nat) (e : LogEntry) (ce ue : Bool) : ErrLog :=
  { ue := if ue && l.ue != 0xFFFF then l.ue + 1 else l.ue
    ce := if ce && l.ce != 0xFFFF then l.ce + 1 else l.ce
    ovf := if l.unread.contains l.head && l.ovf != 0xFF then l.ovf + 1 else l.ovf
    head := (l.head + 1) % n
    ring := kvPut l.ring l.head e
    unread := l.head :: l.unread.filter (· != l.head) }

/-- A hub log entry of a type, with the next device-wide sequence number (R412). -/
def State.hubLog (s : State) (type : Nat) (addr : Word) (ctxid : BitVec 16) (synd : BitVec 16 := 0) (detail : BitVec 8 := 0) :
    State :=
  s.modHub fun h =>
    { h with
      seq := h.seq + 1
      log := h.log.add 256 { seq := h.seq + 1, time := w64 s.sched16, addr, synd, type := BitVec.ofNat 8 type, ctxid, detail }
        false false }

/-- A tile log entry (R412). -/
def State.tileLog (s : State) (t : Tid) (array type : Nat) (addr : Word) (ctxid : BitVec 16) (synd : BitVec 16 := 0)
    (detail : BitVec 8 := 0) : State :=
  (s.modHub fun h => { h with seq := h.seq + 1 }).modTile t fun x =>
    { x with log := x.log.add 32 { seq := s.hub.seq + 1, time := w64 s.sched16, addr, synd, array := BitVec.ofNat 8 array, type := BitVec.ofNat 8 type, ctxid, detail } (type == 1) (type == 2) }

/-! ## Errors in the arrays of a tile (R128, R160, R412, R414) -/

/-- The injection armed at a tile in array `arr` that an access of words in [a, a + n) triggers. -/
def injects (t : Tile) (arr a n : Nat) (read : Bool) : Bool :=
  let v := t.errinj.toNat
  let at' := bits v 0 48 / 8 * 8
  bit v 63 && bits v 59 3 = arr && bit v 58 = read && a ≤ at' + 7 && at' < a + n

/-- A triggered injection disarms. -/
def Tile.disarm (t : Tile) : Tile := { t with errinj := t.errinj &&& 0x7FFFFFFFFFFFFFFF }

/-- The word and the kind of the armed error. -/
def Tile.injected (t : Tile) : Nat × Bool := (bits t.errinj.toNat 0 48 / 8 * 8, bit t.errinj.toNat 62)

/-- A triggered injection puts its error in the scratchpad's word and disarms. -/
def Tile.inject (t : Tile) (a n : Nat) (read : Bool) : Tile :=
  if injects t 0 a n read then { t.disarm with bad := t.injected :: t.bad } else t

/-- The same in another array. -/
def Tile.injectIn (t : Tile) (arr a n : Nat) (read : Bool) : Tile :=
  if injects t arr a n read then { t.disarm with errs := { arr, addr := t.injected.1, ue := t.injected.2 } :: t.errs } else t

/-- The error stands in a word of array `arr` that [a, a + n) meets. -/
def ArrErr.meets (e : ArrErr) (arr a n : Nat) : Bool := e.arr == arr && a ≤ e.addr + 7 && e.addr < a + n

/-- No error is armed or stands outside the scratchpad. -/
def Tile.sound (t : Tile) : Bool := t.errinj == 0 && t.errs.isEmpty

/-- Bytes [a, a + n) of an array are written: errors of the words written whole go, and a write may trigger the armed injection. -/
def Tile.overArray (t : Tile) (arr a n : Nat) : Tile :=
  if t.sound then t
  else ({ t with errs := t.errs.filter fun e => !(e.arr == arr && a ≤ e.addr && e.addr + 8 ≤ a + n) }).injectIn arr a n false

/-- The same for the bytes of a line at address `a` that `mask` has a bit for. -/
def Tile.overMask (t : Tile) (arr a mask : Nat) : Tile :=
  if t.sound then t
  else (List.range 8).foldl (fun t k =>
    let m := bits mask (8 * k) 8
    if m = 0 then t else if m = 255 then t.overArray arr (a + 8 * k) 8 else t.injectIn arr (a + 8 * k) 8 false) t

/-- The errors that a read of [a, a + n) of array `arr` meets: each is logged with its syndrome and stands no longer. One of accumulator memory
may still be repaired by a replay (R416). -/
def State.meetArray (s : State) (t : Tid) (arr a n : Nat) (id : BitVec 16) : List ArrErr × State :=
  if (s.tile t).sound then ([], s)
  else
    let x := (s.tile t).injectIn arr a n true
    let hit := x.errs.filter (·.meets arr a n)
    let s := s.setTile t { x with
      errs := x.errs.filter fun e => !e.meets arr a n
      health := { x.health with arr := x.health.arr && !(arr != 3 && hit.any (·.ue)) } }
    (hit, hit.foldl (fun s e =>
      s.tileLog t arr (if e.ue then 2 else 1) (w64 e.addr) id ((Config.secdedSyndrome e.addr e.ue).zeroExtend 16)) s)

def ctxid16 (w : Who) : BitVec 16 := BitVec.ofNat 16 w.val

end Sys2Proof.Machine
end

