-- ==== Sys2Proof/Machine/Crypto.lean ====
section
/-! DEFINITION. SHA-256 and ECDSA over P-256, by which the ROM checks a firmware image (R441; log 140). -/
namespace Sys2Proof.Machine

/-! ## SHA-256 -/

/-- A number of 32 bits rotated right. -/
def rotr32 (x n : Nat) : Nat := (x / 2 ^ n + x * 2 ^ (32 - n)) % 2 ^ 32

/-- The functions of the rounds and of the message schedule: three rotations, or two and a shift. -/
def shaBig (i j k x : Nat) : Nat := rotr32 x i ^^^ rotr32 x j ^^^ rotr32 x k
def shaSmall (i j k x : Nat) : Nat := rotr32 x i ^^^ rotr32 x j ^^^ x / 2 ^ k

/-- The round constants. -/
def shaConstants : List Nat :=
  [0x428A2F98, 0x71374491, 0xB5C0FBCF, 0xE9B5DBA5, 0x3956C25B, 0x59F111F1, 0x923F82A4, 0xAB1C5ED5] ++
  [0xD807AA98, 0x12835B01, 0x243185BE, 0x550C7DC3, 0x72BE5D74, 0x80DEB1FE, 0x9BDC06A7, 0xC19BF174] ++
  [0xE49B69C1, 0xEFBE4786, 0x0FC19DC6, 0x240CA1CC, 0x2DE92C6F, 0x4A7484AA, 0x5CB0A9DC, 0x76F988DA] ++
  [0x983E5152, 0xA831C66D, 0xB00327C8, 0xBF597FC7, 0xC6E00BF3, 0xD5A79147, 0x06CA6351, 0x14292967] ++
  [0x27B70A85, 0x2E1B2138, 0x4D2C6DFC, 0x53380D13, 0x650A7354, 0x766A0ABB, 0x81C2C92E, 0x92722C85] ++
  [0xA2BFE8A1, 0xA81A664B, 0xC24B8B70, 0xC76C51A3, 0xD192E819, 0xD6990624, 0xF40E3585, 0x106AA070] ++
  [0x19A4C116, 0x1E376C08, 0x2748774C, 0x34B0BCB5, 0x391C0CB3, 0x4ED8AA4A, 0x5B9CCA4F, 0x682E6FF3] ++
  [0x748F82EE, 0x78A5636F, 0x84C87814, 0x8CC70208, 0x90BEFFFA, 0xA4506CEB, 0xBEF9A3F7, 0xC67178F2]

/-- The eight working words. -/
structure ShaState where
  a : Nat
  b : Nat
  c : Nat
  d : Nat
  e : Nat
  f : Nat
  g : Nat
  h : Nat
deriving DecidableEq, Repr

def shaStart : ShaState :=
  { a := 0x6A09E667, b := 0xBB67AE85, c := 0x3C6EF372, d := 0xA54FF53A
    e := 0x510E527F, f := 0x9B05688C, g := 0x1F83D9AB, h := 0x5BE0CD19 }

/-- One round, with the sum of its constant and its word. -/
def ShaState.round (s : ShaState) (kw : Nat) : ShaState :=
  let ch := (s.e &&& s.f) ^^^ ((0xFFFFFFFF - s.e) &&& s.g)
  let maj := (s.a &&& s.b) ^^^ (s.a &&& s.c) ^^^ (s.b &&& s.c)
  let t := s.h + shaBig 6 11 25 s.e + ch + kw
  { a := (t + shaBig 2 13 22 s.a + maj) % 2 ^ 32, b := s.a, c := s.b, d := s.c, e := (s.d + t) % 2 ^ 32, f := s.e, g := s.f, h := s.g }

/-- The message schedule, newest word first, longer by `n` words. -/
def shaSchedule (w : List Nat) : Nat → List Nat
  | 0 => w
  | n + 1 => shaSchedule (((shaSmall 17 19 10 (w.getD 1 0) + w.getD 6 0 + shaSmall 7 18 3 (w.getD 14 0) + w.getD 15 0) % 2 ^ 32) :: w) n

/-- The state after a block of sixteen words. -/
def ShaState.block (s : ShaState) (w : List Nat) : ShaState :=
  let t := (shaConstants.zipWith (· + ·) (shaSchedule w.reverse 48).reverse).foldl ShaState.round s
  let add (x y : Nat) : Nat := (x + y) % 2 ^ 32
  { a := add s.a t.a, b := add s.b t.b, c := add s.c t.c, d := add s.d t.d, e := add s.e t.e, f := add s.f t.f, g := add s.g t.g, h := add s.h t.h }

/-- The number that bytes give, the first one highest. -/
def beNat (bs : List Byte) : Nat := bs.foldl (fun a b => a * 256 + b.toNat) 0

/-- The message padded to whole blocks. -/
def shaPadded (m : List Byte) : List Byte :=
  m ++ 0x80 :: List.replicate ((119 - m.length % 64) % 64) 0 ++ (leBytes (8 * m.length) 8).reverse

/-- SHA-256 of a byte string, its first byte highest. -/
def sha256 (m : List Byte) : BitVec 256 :=
  let p := shaPadded m
  let word (i : Nat) : Nat := beNat ((p.drop (4 * i)).take 4)
  let s := (List.range (p.length / 64)).foldl (fun s k => s.block ((List.range 16).map fun i => word (16 * k + i))) shaStart
  BitVec.ofNat 256 ([s.a, s.b, s.c, s.d, s.e, s.f, s.g, s.h].foldl (fun x y => x * 2 ^ 32 + y) 0)

/-! ## ECDSA over P-256 -/

/-- The field's prime, the coefficient b, the base point, and its order. -/
def p256Prime : Nat := 0xFFFFFFFF00000001000000000000000000000000FFFFFFFFFFFFFFFFFFFFFFFF
def p256B : Nat := 0x5AC635D8AA3A93E7B3EBBD55769886BC651D06B0CC53B0F63BCE3C3E27D2604B
def p256Base : Nat × Nat :=
  (0x6B17D1F2E12C4247F8BCE6E563A440F277037D812DEB33A0F4A13945D898C296, 0x4FE342E2FE1A7F9B8EE7EB4A7C0F9E162BCE33576B315ECECBB6406837BF51F5)
def p256Order : Nat := 0xFFFFFFFF00000000FFFFFFFFFFFFFFFFBCE6FAADA7179E84F3B9CAC2FC632551

/-- `b` to the power of the low `k` bits of `e`, modulo `m`. -/
def powMod (m b e : Nat) : Nat → Nat
  | 0 => 1
  | k + 1 => let r := powMod m (b * b % m) (e / 2) k; if e % 2 = 1 then r * b % m else r

/-- The inverse modulo a prime of 256 bits. -/
def invMod (m x : Nat) : Nat := powMod m x (m - 2) 256

/-- The sum of two points; none is the point at infinity. -/
def p256Add : Option (Nat × Nat) → Option (Nat × Nat) → Option (Nat × Nat)
  | none, q => q
  | p, none => p
  | some (x1, y1), some (x2, y2) =>
    let m := p256Prime
    if x1 = x2 && (y1 + y2) % m = 0 then none
    else
      let l := if x1 = x2 then (3 * x1 * x1 + m - 3) % m * invMod m (2 * y1 % m) % m else (y2 + m - y1) % m * invMod m ((x2 + m - x1) % m) % m
      let x := (l * l + 2 * m - x1 - x2) % m
      some (x, (l * ((x1 + m - x) % m) + m - y1) % m)

/-- A point times the low `k` bits of `e`. -/
def p256Mul (q : Option (Nat × Nat)) (e : Nat) : Nat → Option (Nat × Nat)
  | 0 => none
  | k + 1 => let r := p256Mul (p256Add q q) (e / 2) k; if e % 2 = 1 then p256Add r q else r

/-- The point lies on the curve. -/
def p256On (q : Nat × Nat) : Bool :=
  q.1 < p256Prime && q.2 < p256Prime && q.2 * q.2 % p256Prime = (q.1 * q.1 % p256Prime * q.1 + (p256Prime - 3) * q.1 + p256B) % p256Prime

/-- The signature (r, s) of a digest verifies under a public key. -/
def ecdsaVerifies (key : Nat × Nat) (digest r s : Nat) : Bool :=
  let n := p256Order
  p256On key && 0 < r && r < n && 0 < s && s < n &&
    (let i := invMod n s
     match p256Add (p256Mul (some p256Base) (digest * i % n) 256) (p256Mul (some key) (r * i % n) 256) with
     | some q => q.1 % n == r
     | none => false)

end Sys2Proof.Machine
end

