-- ==== Sys2Proof/Machine/Memory.lean ====
section
/-! DEFINITION. LP6 with its line code, home slices, first-level copies, logical time, and write-through (R72 to R86, R125 to R134). -/
namespace Sys2Proof.Machine

/-! ## The physical address map (R73) -/

inductive Space where
  | die0 | die1 | pair | hubRegs | host | none
deriving DecidableEq, Repr

def spaceOf (pa : Nat) : Space :=
  if pa < 0x3000000000 then .die0
  else if pa < 0x6000000000 then .die1
  else if pa < 0x10000000000 then .none
  else if pa < 0x16000000000 then .pair
  else if pa < 0x20000000000 then .none
  else if pa < 0x20100000000 then .hubRegs
  else if pa < 0x8000000000000 then .none
  else if pa < 0x10000000000000 then .host
  else .none

def isLocal (pa : Nat) : Bool := pa < 0x6000000000

/-- The address reaches memory (R74). -/
def reaches (s : State) (pa : Nat) : Bool :=
  match spaceOf pa with
  | .die0 | .die1 | .host => true
  | .pair => s.hub.pair
  | .hubRegs | .none => false

/-- Channel, bank and bank row of a local address (R75). -/
def channelOf (pa : Nat) : Nat :=
  let d := pa / 0x3000000000
  24 * d + (pa - d * 0x3000000000) / 4096 % 24
def bankOf (pa : Nat) : Nat := (pa - pa / 0x3000000000 * 0x3000000000) / 4096 / 24 % 32
def bankRowOf (pa : Nat) : Nat := (pa - pa / 0x3000000000 * 0x3000000000) / 4096 / 24 / 32

/-! ## Homes (R125, R404) -/

/-- The die whose slices home a line (R125); a pair-window line is homed in the partner's slices and has no local home (R86). -/
def homeDie (line : Nat) : Option Nat :=
  match spaceOf (line * 64) with
  | .die1 => some 1
  | .host => some (line / 64 % 2)
  | .pair => none
  | .die0 | .hubRegs | .none => some 0

/-- The hashed tile of a line, before any fence (R125). -/
def hashHome (line : Nat) : Option Nat :=
  (homeDie line).map fun d => 36 * d + (line ^^^ (line / 2 ^ 11) ^^^ (line / 2 ^ 23)) % 36

/-- The tile neither fenced, retired nor on probation. -/
def serves (s : State) (t : Nat) : Bool :=
  !(s.hub.fenced.any (·.val == t) || s.hub.retired.any (·.val == t) || s.hub.probation.any (·.val == t))

/-- The buddy of tile `t` (R404). -/
def buddyOf (s : State) (t : Nat) : Nat :=
  match tid? t with
  | none => t
  | some x =>
    let q := Tid.pos x
    let c := (Tid.cluster x).val
    let near := [tileAt c (q ^^^ 1), tileAt c (q ^^^ 2), tileAt c (q ^^^ 3)]
    let c1 := c ^^^ 1
    let next := if c1 < 18 then [tileAt c1 q, tileAt c1 (q ^^^ 1), tileAt c1 (q ^^^ 2), tileAt c1 (q ^^^ 3)] else []
    let d := t / 36
    let far := (List.range 36).map (36 * d + ·) ++ (List.range 36).map (36 * (1 - d) + ·)
    ((near ++ next ++ far).find? fun y => y != t && serves s y).getD t

/-- The home of a hashed tile: itself, or its buddy while it serves no homes (R404, R407). -/
def liveHome (s : State) (t : Nat) : Nat := if serves s t then t else buddyOf s t

/-- The local home tile of a line, where it has one. -/
def homeOf (s : State) (line : Nat) : Option Nat := (hashHome line).map (liveHome s)

/-- The tiles that are home to something as they were before the fences that are not yet acknowledged. -/
def beforeFences (s : State) : State :=
  let out := s.hub.remap
  { s with hub := { s.hub with fenced := s.hub.fenced.filter fun t => !out.contains t, retired := s.hub.retired.filter fun t => !out.contains t } }

/-- Requests for the line wait for the remap of a fence that is not yet acknowledged (R405). -/
def remapPending (s : State) (line : Nat) : Bool :=
  !s.hub.remap.isEmpty && s.hub.remap.any fun t => homeOf (beforeFences s) line == some t.val

/-- The home tile of the line is stalled, and requests to it wait in its input buffer (R456). -/
def homeStalls (s : State) (line : Nat) : Bool := ((homeOf s line).bind tid?).any fun t => (s.tile t).stalled

/-- Requests for the line wait (R405, R456). -/
def homeHeld (s : State) (line : Nat) : Bool := remapPending s line || homeStalls s line

/-- The hub's work on a whole page, whose lines lie at every tile, waits. -/
def pagesHeld (s : State) : Bool := !s.hub.remap.isEmpty || s.tiles.any (·.stalled)

/-! ## The line code (R77, R78) -/

/-- Product in GF(2^8) with field polynomial x^8 + x^4 + x^3 + x^2 + 1. -/
def gfMulAux : Nat → Nat → Nat → Nat → Nat
  | 0, _, _, acc => acc
  | k + 1, a, b, acc =>
    let acc' := if b % 2 = 1 then acc ^^^ a else acc
    let a' := if a * 2 ≥ 256 then (a * 2) ^^^ 0x11D else a * 2
    gfMulAux k a' (b / 2) acc'
def gfMul (a b : Nat) : Nat := gfMulAux 8 a b 0

def gfPow (a : Nat) : Nat → Nat
  | 0 => 1
  | k + 1 => gfMul a (gfPow a k)

/-- The inverse: a^254. -/
def gfInv (a : Nat) : Nat :=
  let a2 := gfMul a a; let a4 := gfMul a2 a2; let a8 := gfMul a4 a4; let a16 := gfMul a8 a8
  let a32 := gfMul a16 a16; let a64 := gfMul a32 a32; let a128 := gfMul a64 a64
  gfMul a128 (gfMul a64 (gfMul a32 (gfMul a16 (gfMul a8 (gfMul a4 a2)))))

/-- α^k. -/
def alpha (k : Nat) : Nat := gfPow 2 (k % 255)

/-- Syndrome S_j of a list of symbols, symbol 0 first: the value at α^j of the polynomial with symbol i at x^(71−i). -/
def syndrome (j : Nat) : List Nat → Nat → Nat
  | [], acc => acc
  | c :: cs, acc => syndrome j cs (gfMul acc (alpha j) ^^^ c)

def syndromes (c : List Nat) : List Nat := (List.range 8).map fun j => syndrome j c 0

/-- The 72 symbols of an error pattern. -/
def symbols (e : BitVec 576) : List Nat := (List.range 72).map fun i => bits e.toNat (8 * i) 8

/-- The poison mark: 0xFF on each check symbol (R411). -/
def poisonMark : BitVec 576 := BitVec.ofNat 576 ((2 ^ 64 - 1) * 2 ^ 512)

/-- The error values that pin `p` would need for S0 to S2 (R78, step 4). -/
def pinSolve (p : Nat) (syn : List Nat) : List Nat :=
  let x (m : Nat) := alpha (71 - (3 * p + m))
  let s0 := syn.getD 0 0; let s1 := syn.getD 1 0; let s2 := syn.getD 2 0
  let one (m a b : Nat) :=
    gfMul (s2 ^^^ gfMul s1 (x a ^^^ x b) ^^^ gfMul s0 (gfMul (x a) (x b))) (gfInv (gfMul (x m ^^^ x a) (x m ^^^ x b)))
  [one 0 1 2, one 1 0 2, one 2 0 1]

/-- The solution satisfies S3 to S7 too. -/
def pinFits (p : Nat) (syn e : List Nat) : Bool :=
  (List.range 8).all fun j =>
    syn.getD j 0 ==
      ((List.range 3).foldl (fun acc m => acc ^^^ gfMul (e.getD m 0) (alpha (j * (71 - (3 * p + m))))) 0)

/-- What the decoder reports for a line (R78). -/
inductive Lp6Res where
  | clean
  | poison
  /-- corrected: the pin and its error values -/
  | ce (pin : Nat) (vals : List Nat)
  | ue
deriving DecidableEq, Repr

def lp6Decode (e : BitVec 576) : Lp6Res :=
  let syn := syndromes (symbols e)
  if syn.all (· == 0) then .clean
  else if (syndromes (symbols (e ^^^ poisonMark))).all (· == 0) then .poison
  else
    match (List.range 24).find? fun p => pinFits p syn (pinSolve p syn) with
    | some p => .ce p (pinSolve p syn)
    | none => .ue

/-- The correction of a CE as a pattern on the line. -/
def ceMask (p : Nat) (vals : List Nat) : Nat :=
  (List.range 3).foldl (fun acc m => acc + vals.getD m 0 * 2 ^ (8 * (3 * p + m))) 0

/-- One entry of a channel's ring, 32 bytes (R81). -/
def lp6Entry (s : State) (pa : Nat) (syn : List Nat) (pin type mask : Nat) (ctxid : BitVec 16) (src : Nat) : BitVec 256 :=
  BitVec.ofNat 256 (s.sched16 % 2 ^ 64 + pa * 2 ^ 64 +
    ((List.range 8).foldl (fun acc j => acc + syn.getD j 0 * 2 ^ (8 * j)) 0) * 2 ^ 128 + channelOf pa * 2 ^ 192 +
    pin * 2 ^ 200 + type * 2 ^ 208 + mask * 2 ^ 216 + ctxid.toNat * 2 ^ 224 + src * 2 ^ 240)

def Lp6Err.add (l : Lp6Err) (e : BitVec 256) (ue : Bool) : Lp6Err :=
  { l with
    ue := if ue && l.ue != 0xFFFF then l.ue + 1 else l.ue
    ce := if !ue && l.ce != 0xFFFF then l.ce + 1 else l.ce
    ovf := if l.unread.contains l.head && l.ovf != 0xFF then l.ovf + 1 else l.ovf
    head := (l.head + 1) % 32
    ring := kvPut l.ring l.head e
    unread := l.head :: l.unread.filter (· != l.head) }

def State.lp6Log (s : State) (pa : Nat) (e : BitVec 256) (ue : Bool) : State :=
  if h : channelOf pa < 48 then s.modHub fun x => { x with lp6 := x.lp6.set (channelOf pa) ((x.lp6.get ⟨_, h⟩).add e ue) h } else s

/-- The stored bytes of a line. -/
def rawLine (m : Mem) (line : Nat) : BitVec 512 := BitVec.ofNat 512 (leNat (memRead m (line * 64) 64))

def putRaw (m : Mem) (line : Nat) (d : BitVec 512) : Mem := memWrite m (line * 64) (leBytes d.toNat 64)

/-- A line read from LP6 (R78): its data, whether it is delivered POISON, and the state with any log entry. `src` is the
source code of R81; scrub reads log types 3 and 4. -/
def lp6Read (s : State) (line : Nat) (ctxid : BitVec 16) (src : Nat) : BitVec 512 × Bool × State :=
  let d := rawLine s.hub.mem line
  match kvGet s.hub.flips line with
  | none => (d, false, s)
  | some e =>
    let seen := d ^^^ BitVec.ofNat 512 e.toNat
    let syn := syndromes (symbols e)
    let scrub := if src = 2 then 2 else 0
    match lp6Decode e with
    | .clean => (seen, false, s)
    | .poison => (seen, true, s)
    | .ce p v =>
      let mask := (List.range 3).foldl (fun a m => a + if v.getD m 0 = 0 then 0 else 2 ^ m) 0
      (seen ^^^ BitVec.ofNat 512 (ceMask p v), false, s.lp6Log (line * 64) (lp6Entry s (line * 64) syn p (1 + scrub) mask ctxid src) false)
    | .ue => (seen, true, s.lp6Log (line * 64) (lp6Entry s (line * 64) syn 0xFF (2 + scrub) 0 ctxid src) true)

/-- A whole line is written to memory with fresh check symbols, or with the poison mark (R76, R411). -/
def State.lp6Write (s : State) (line : Nat) (d : BitVec 512) (poison : Bool) : State :=
  s.modHub fun h =>
    { h with
      mem := putRaw h.mem line d
      flips := if poison then kvPut h.flips line poisonMark else kvDel h.flips line }

/-! ## Logical time (R131) -/

/-- Both contexts of tile `t` and its clock after a change: pts := max(pts, LT), then LT := max(LT, both). -/
def State.syncTime (s : State) (t : Tid) : State :=
  let a := who t 0
  let b := who t 1
  let lt := (s.tile t).lt
  let s1 := (s.modBank a fun x => { x with pts := max x.pts lt }).modBank b fun x => { x with pts := max x.pts lt }
  s1.modTile t fun x => { x with lt := max x.lt (max (s1.bank a).pts (s1.bank b).pts) }

/-- The greatest logical time: pts and LT have 64 bits and do not wrap, since pts never decreases (R131, log 108). -/
def lastTime : Nat := 2 ^ 64 - 1

/-- c.pts := max(c.pts, v). -/
def State.raisePts (s : State) (w : Who) (v : Nat) : State :=
  (s.modBank w fun x => { x with pts := max x.pts (min v lastTime) }).syncTime (Who.tile w)

/-- One tick of a tile's clock: LT := LT + 1. -/
def State.tickLt (s : State) (t : Tid) : State :=
  (s.modTile t fun x => { x with lt := max x.lt (min (x.lt + 1) lastTime), ticked := x.ticked + 1 }).syncTime t

/-! ## Home slices (R126, R132) -/

/-- The newest queued write-through of a line. -/
def queuedLine (q : List WriteThrough) (line : Nat) : Option WriteThrough :=
  q.foldl (fun acc x => if x.line = line then some x else acc) none

/-- Sets of 64-byte lines in a home slice of 16 ways of 64 KiB; a line's set is its number modulo them (log 109). -/
def homeSets : Nat := 1024

/-- The ways of a slice that its KV-resident region leaves for lines (R129): from this number up to 15. -/
def firstWay (s : State) (home : Option Nat) : Nat :=
  match home.bind tid? with
  | some t => (s.tile t).kvWays
  | none => 0

/-- The line stands in the same set of the same slice. -/
def sameSet (s : State) (home : Option Nat) (line other : Nat) : Bool := other % homeSets = line % homeSets && homeOf s other == home

/-- The way that a line takes when it is filled: the lowest free one; 16 where none is free, until the end of the move, when another
line of its set leaves (R126, log 109). -/
def freeWay (s : State) (line : Nat) : Nat :=
  let home := homeOf s line
  let used := (s.hub.home.filter fun y => sameSet s home line y.1).map (·.2.way)
  ((List.range 16).find? fun k => firstWay s home ≤ k && !used.contains k).getD 16

/-- Where a line of a slice stands in its array: the tile and the byte address (log 119). -/
def State.homePlace (s : State) (line : Nat) : Option (Tid × Nat) :=
  match kvGet s.hub.home line, (homeOf s line).bind tid? with
  | some x, some t => if x.way < 16 then some (t, x.way * 65536 + line % homeSets * 64) else none
  | _, _ => none

/-- The masked bytes of a line are written in its slice's array (R414). -/
def State.overHome (s : State) (line mask : Nat) : State :=
  match s.homePlace line with
  | some (t, a) => if (s.tile t).sound then s else s.modTile t fun x => x.overMask 2 a mask
  | none => s

/-- Every context and every clock has passed time `v`, so that no copy with a lease up to `v` is valid any more. -/
def State.passed (s : State) (v : Nat) : Bool :=
  (s.tiles.toList.all fun t => v < t.lt) && s.ctxs.toList.all fun c => c.status == .idle || v < c.b.pts

/-- What a fill starts from: 0 (R132), but for a line that was dropped while its times, its leases or a snoop could still order an access
after or before another (R84, R127, R144, log 109). -/
def State.fillTimes (s : State) (line : Nat) : LineTimes :=
  match kvGet s.hub.times line with
  | none => {}
  | some x => if !x.snoop && x.leaseEnd ≤ s.now && s.passed (max x.wts x.rts) then {} else x

/-- A line read from memory takes its place in the home slice (R126, R132). -/
def State.putFilled (s : State) (line : Nat) (data : BitVec 512) (poison : Bool) (host : Nat := 0) : State :=
  let x := s.fillTimes line
  (s.modHub fun h =>
    { h with
      home := kvPut h.home line { data, poison, host, way := freeWay s line, wts := x.wts, rts := x.rts, leaseEnd := x.leaseEnd, snoop := x.snoop }
      times := kvDel h.times line }).overHome line (2 ^ 64 - 1)

/-- A slice drops a line without loss; its times stand (R126, R144, log 109). -/
def State.dropLine (s : State) (line : Nat) : State :=
  match kvGet s.hub.home line with
  | none => s
  | some x => s.modHub fun h =>
    { h with home := kvDel h.home line, times := kvPut h.times line { wts := x.wts, rts := x.rts, leaseEnd := x.leaseEnd, snoop := x.snoop } }

/-- The line is in its home slice afterwards: filled from its queued write-through or from memory (R126); `src` is the source that
an error log entry of the fill names (R81). -/
def State.fillFor (s : State) (line : Nat) (ctxid : BitVec 16) (src : Nat) : State :=
  match kvGet s.hub.home line with
  | some _ => s
  | none =>
    match queuedLine s.hub.wtq line with
    | some x => s.putFilled line x.data x.poison x.host
    | none =>
      let (d, p, s') := lp6Read s line ctxid src
      s'.putFilled line d p

def State.fill (s : State) (line : Nat) (ctxid : BitVec 16) : State := s.fillFor line ctxid 0

/-- The errors that a read of a held line meets (R128): a correctable one is corrected; after an uncorrectable one the line is dropped and
refilled from its queued write-through or from memory, its times kept (log 119). -/
def State.homeErrors (s : State) (line : Nat) (ctxid : BitVec 16) : State :=
  match s.homePlace line with
  | none => s
  | some (t, a) =>
    let (hit, s) := s.meetArray t 2 a 64 ctxid
    if !hit.any (·.ue) then s
    else
      let (d, p, s) := match queuedLine s.hub.wtq line with
        | some q => (q.data, q.poison, s)
        | none => lp6Read s line ctxid 0
      s.modHub fun h => { h with home := kvPut h.home line { (kvGet h.home line).getD { data := d } with data := d, poison := p } }

/-- A line is in its home slice and has been read there. -/
def State.meet (s : State) (line : Nat) (ctxid : BitVec 16) : State := (s.fill line ctxid).homeErrors line ctxid

def State.homeLine (s : State) (line : Nat) : HomeLine := (kvGet s.hub.home line).getD { data := rawLine s.hub.mem line }

/-- A read at home without a lease (R132): the line, the timestamp taken, the state. -/
def State.homeRead (s : State) (line : Nat) (pts : Nat) (ctxid : BitVec 16) : HomeLine × Nat × State :=
  let s := s.meet line ctxid
  let x := s.homeLine line
  let ts := max pts x.wts
  (x, ts, s.modHub fun h => { h with home := kvPut h.home line { x with rts := max x.rts ts } })

/-- A host line is obtained in exclusive state (R84). -/
def State.holdExcl (s : State) (line : Nat) : State :=
  if spaceOf (line * 64) = .host then
    s.modHub fun h => { h with home := kvPut h.home line { s.homeLine line with excl := true } }
  else s

/-- The bytes of `new` where `mask` has a bit, else those of `old`. -/
def mergeBytes (old new : BitVec 512) (mask : Nat) : BitVec 512 :=
  let m := BitVec.ofNat 512 ((List.range 64).foldl (fun acc k => acc + if bit mask k then 255 * 2 ^ (8 * k) else 0) 0)
  (old &&& ~~~m) ||| (new &&& m)

/-- A sleeper sees a write of the bytes `mask` of a line (R363, R386). -/
def Sleep.see (x : Sleep) (line mask : Nat) : Sleep :=
  if x.pa.toNat / 64 = line && (x.line || bits mask (x.pa.toNat % 64) 8 != 0) then { x with written := true } else x

/-- Waiters see a write to a line. -/
def State.wakeLine (s : State) (line mask : Nat) : State :=
  { s with ctxs := s.ctxs.map fun c =>
      match c.b.f.sleep with
      | some x => { c with b := c.b.modF fun f => { f with sleep := some (x.see line mask) } }
      | none => c }

/-- Sets of a first-level cache of 16 ways of 128 KiB, and where a copy stands in its array (log 109). -/
def l1Sets : Nat := 2048
def l1Addr (line : Nat) (c : L1Line) : Nat := c.way * 131072 + line % l1Sets * 64

/-- A write at home (R132): the masked bytes of `new` are merged, times set, and the merged line queued for write-through. The
answer holds the write time. `pts` is the requester's; `tile` is the writing tile, whose own copy takes the merged data. -/
def State.homeWrite (s : State) (line : Nat) (mask : Nat) (new : BitVec 512) (pts : Nat) (tile : Option Tid)
    (ctxid : BitVec 16) (poison : Bool := false) : Nat × State :=
  let s := if mask % 2 ^ 64 = 2 ^ 64 - 1 then s.fill line ctxid else s.meet line ctxid
  let x := s.homeLine line
  let w := max pts (x.rts + 1)
  let d := mergeBytes x.data new mask
  let p := poison || (x.poison && mask % 2 ^ 64 != 2 ^ 64 - 1)
  let s := s.modHub fun h =>
    { h with
      home := kvPut h.home line
        { x with data := d, wts := w, rts := w, poison := p, excl := x.excl || spaceOf (line * 64) = .host }
      wtq := h.wtq ++ [{ line, data := d, poison := p }]
      moves := h.moves.map fun m =>
        if m.copied && m.oldBase.toNat / 65536 = line / 1024 && !m.lines.contains (line % 1024) then { m with lines := line % 1024 :: m.lines } else m }
  let s := match tile with
    | none => s
    | some t => s.modTile t fun y =>
        match kvGet y.l1 line with
        | none => y
        | some c => ({ y with l1 := kvPut y.l1 line { c with data := d, wts := w, rts := w, poison := p } }).overMask 1 (l1Addr line c) mask
  (w, (s.overHome line mask).wakeLine line mask)

/-- The copies of the line's set (R130, log 109). -/
def Tile.l1Set (t : Tile) (line : Nat) : KV L1Line := t.l1.filter fun x => x.1 % l1Sets = line % l1Sets

/-- The way that a copy takes: its own, the lowest free one, or that of the copy of its set that was used least lately (R130, log 109). -/
def Tile.l1Way (t : Tile) (line : Nat) : Nat :=
  match kvGet t.l1 line with
  | some c => c.way
  | none =>
    let set := t.l1Set line
    match (List.range 16).find? fun k => !set.any (·.2.way == k) with
    | some k => k
    | none => (set.foldl (fun (b : L1Line) x => if x.2.used < b.used then x.2 else b) { data := 0, wts := 0, rts := 0, ends := 0, used := t.l1Clock + 1 }).way

/-- A copy is used: it is the latest used of its tile, and a copy that stood in the way it takes is discarded (R130). -/
def Tile.useL1 (t : Tile) (line : Nat) (c : L1Line) : Tile :=
  let k := t.l1Way line
  { t with
    l1 := kvPut (t.l1.filter fun x => x.1 = line || !(x.1 % l1Sets = line % l1Sets && x.2.way = k)) line { c with used := t.l1Clock + 1, way := k }
    l1Clock := t.l1Clock + 1 }

/-- The errors that a read of a copy meets: after an uncorrectable one the copy is POISON (R411, log 104). -/
def State.meetL1 (s : State) (w : Who) (line : Nat) (c : L1Line) : L1Line × State :=
  let (hit, s) := s.meetArray (Who.tile w) 1 (l1Addr line c) 64 (ctxid16 w)
  ({ c with poison := c.poison || hit.any (·.ue) }, s)

/-- A lease on a line for a context, which its tile's first-level cache keeps; none while a host snoop holds the line (R132). -/
def State.grantLease (s : State) (w : Who) (line : Nat) : L1Line × State :=
  let pts := (s.bank w).pts
  let s := s.meet line (ctxid16 w)
  let x := s.homeLine line
  if x.snoop then ({ data := x.data, wts := x.wts, rts := 0, ends := 0, poison := x.poison, host := x.host }, s)
  else
    let lease := (s.bank w).csr.lease.toNat
    let e := max pts x.wts + lease - 1
    let c : L1Line := { data := x.data, wts := x.wts, rts := e, ends := s.now + lease * 64, poison := x.poison, host := x.host }
    let s := s.modHub fun h =>
      { h with home := kvPut h.home line { x with rts := max x.rts e, leaseEnd := max x.leaseEnd (s.now + lease * 64) } }
    (c, s.modTile (Who.tile w) fun y => (y.useL1 line c).overArray 1 (l1Addr line { c with way := y.l1Way line }) 64)

/-- A context reads a line that holds host write `n` (R100). -/
def State.observe (s : State) (w : Who) (n : Nat) : State :=
  if n = 0 then s else s.modBank w fun b => { b with hostSeen := max b.hostSeen n }

/-- A read of a line for a context that keeps no copy and uses none: served at home without a lease. One of a pair-window line, whose path
is not ORD (R142), leaves pts as it is (R132). -/
def State.homeReadFor (s : State) (w : Who) (line : Nat) : L1Line × State :=
  let (x, ts, s) := s.homeRead line (s.bank w).pts (ctxid16 w)
  ({ data := x.data, wts := x.wts, rts := 0, ends := 0, poison := x.poison, host := x.host },
    (if spaceOf (line * 64) = .pair then s else s.raisePts w ts).observe w x.host)

/-- The first-level copy of a line that a read of a context uses: its lease has not expired (R130, R132, R134). -/
def State.l1Hit (s : State) (w : Who) (line : Nat) : Option L1Line :=
  (kvGet (s.tile (Who.tile w)).l1 line).filter fun c => (s.bank w).pts ≤ c.rts && s.now < c.ends

/-- How a read treats the first-level cache: a front-end `ld` reads through it and allocates, an L-queue read uses a copy, and no other
path does either (R130). -/
inductive Via where
  | alloc | copy | home
deriving DecidableEq, Repr

/-- A read of a line for a context (R130, R132). Every read of a pair-window line is on path PAIR and served at home. -/
def State.l1Read (s : State) (w : Who) (line : Nat) (via : Via) : L1Line × State :=
  if via = .home || spaceOf (line * 64) = .pair then s.homeReadFor w line
  else
    match s.l1Hit w line with
    | some c =>
      let (c, s) := s.meetL1 w line c
      (c, ((s.modTile (Who.tile w) fun y => y.useL1 line c).raisePts w c.wts).observe w c.host)
    | none =>
      if via = .alloc then
        let (c, s) := s.grantLease w line
        (c, (s.raisePts w c.wts).observe w c.host)
      else s.homeReadFor w line

/-! ## Replacement (R126, R130) -/

/-- A line filled while its set was full takes the lowest way of the set that lines may stand in: a free one, or that of a line which the
slice drops (R126; DESIGN CHOICE, log 109). -/
def State.takeWay (s : State) (line : Nat) : State :=
  let home := homeOf s line
  let free := freeWay s line
  let k := if free < 16 then free else firstWay s home
  let s := (s.hub.home.filter fun y => y.2.way = k && sameSet s home line y.1).foldl (fun s y => s.dropLine y.1) s
  s.modHub fun h => { h with home := (kvGet h.home line).elim h.home fun x => kvPut h.home line { x with way := k } }

/-- At the end of a move no slice holds more lines of a set than its ways (R126). -/
def State.takeWays (s : State) : State := (s.hub.home.filter fun y => y.2.way ≥ 16).foldl (fun s y => s.takeWay y.1) s

/-- The copy of the line's set that was used least lately is discarded (R130). -/
def Tile.dropOldest (t : Tile) (line : Nat) : Tile :=
  match (t.l1Set line).foldl (fun (b : Option (Nat × L1Line)) x => if b.all fun y => x.2.used < y.2.used then some x else b) none with
  | none => t
  | some x => { t with l1 := kvDel t.l1 x.1 }

/-! ## Back-invalidation (R85) -/

/-- Lines that [pa, pa + len) meets. -/
def linesOf (pa len : Nat) : List Nat := (List.range ((pa % 64 + len + 63) / 64)).map (pa / 64 + ·)

/-- The host may cache a line of the list: each such line is asked back, and the write waits. -/
def State.snoopLines (s : State) (lines : List Nat) : Bool × State :=
  let held := lines.filter fun l => s.hub.filter.contains l
  let new := held.filter fun l => !(s.hub.backInv.any (·.line == l))
  (held.isEmpty, s.modHub fun h =>
    { h with
      backInv := h.backInv ++ new.map fun l => { line := l, since := s.sched16 }
      out := h.out ++ new.map fun l => HostOut.snoop (BitVec.ofNat 46 l) })

/-! ## Write-through (R126) -/

/-- The bytes of the atoms of a set. -/
def atomMask (atoms : BitVec 2) : Nat := (if atoms.getLsbD 0 then 2 ^ 32 - 1 else 0) + if atoms.getLsbD 1 then (2 ^ 32 - 1) * 2 ^ 32 else 0

/-- A queued write-through reaches memory; an atom that is there already, and may have been overtaken, stays as memory holds it (R99). -/
def State.landWrite (s : State) (x : WriteThrough) : State :=
  s.lp6Write x.line (if x.landed = 0 then x.data else mergeBytes x.data (rawLine s.hub.mem x.line) (atomMask x.landed)) x.poison

/-- One queued write-through of a line reaches memory: the oldest (R126). -/
def State.writeThrough (s : State) (line : Nat) : State :=
  match s.hub.wtq.find? (·.line == line) with
  | none => s
  | some x => (s.landWrite x).modHub fun h => { h with wtq := h.wtq.eraseP (·.line == line) }

/-- Every queued write-through reaches memory, in order (R150 for PIM, R438). -/
def State.writeThroughAll (s : State) : State :=
  let s' := s.hub.wtq.foldl State.landWrite s
  s'.modHub fun h => { h with wtq := [] }

/-- The oldest `n` queued write-throughs of a line reach memory. -/
def State.writeThroughN (s : State) (line : Nat) : Nat → State
  | 0 => s
  | n + 1 => (s.writeThrough line).writeThroughN line n

/-- Atom `k` of the oldest `n` write-throughs of a line is in memory. -/
def markLanded (line : Nat) (k : Fin 2) : Nat → List WriteThrough → List WriteThrough
  | 0, q => q
  | _, [] => []
  | n + 1, y :: q =>
    if y.line = line then { y with landed := y.landed ||| (1#2 <<< k.val) } :: markLanded line k n q else y :: markLanded line k (n + 1) q

/-- Atom `k` of the oldest `n` queued write-throughs of a line reaches memory before the rest of them (R99). -/
def State.landAtom (s : State) (line : Nat) (k : Fin 2) (n : Nat) : State :=
  match (s.hub.wtq.filter (·.line == line)).take n |>.getLast? with
  | none => s
  | some x =>
    s.modHub fun h =>
      { h with
        mem := if x.landed.getLsbD k.val then h.mem else putRaw h.mem line (mergeBytes (rawLine h.mem line) x.data (atomMask (1#2 <<< k.val)))
        wtq := markLanded line k n h.wtq }

/-! ## Bytes over lines -/

/-- The bytes [off, off + n) of a line. -/
def lineBytes (d : BitVec 512) (off n : Nat) : Nat := bits d.toNat (8 * off) (8 * n)

def byteMask (off n : Nat) : Nat := (2 ^ n - 1) * 2 ^ off

/-- Bytes placed in a line at `off`. -/
def placeBytes (off : Nat) (bs : List Byte) : BitVec 512 := BitVec.ofNat 512 (leNat bs * 2 ^ (8 * off))

/-- An ordinary write of bytes within one line by context `w` (R132), or its loss where no memory is reached (R74); `id` is the requester
of a fill that it needs (R81). -/
def State.ordWrite (s : State) (w : Who) (pa : Nat) (bs : List Byte) (poison : Bool := false) (id : BitVec 16 := ctxid16 w) : State :=
  if reaches s pa then
    let (t, s) := s.homeWrite (pa / 64) (byteMask (pa % 64) bs.length) (placeBytes (pa % 64) bs) (s.bank w).pts (some (Who.tile w)) id poison
    s.raisePts w t
  else s.hubLog 13 (w64 pa) (ctxid16 w)

/-- Ordinary writes of any length, split at lines, lowest first. `n` bounds the number of lines. -/
def State.ordWriteN (s : State) (w : Who) (pa : Nat) (bs : List Byte) : Nat → State
  | 0 => s
  | n + 1 =>
    if bs.isEmpty then s
    else
      let k := 64 - pa % 64
      ((s.ordWrite w pa (bs.take k)).ordWriteN w (pa + k) (bs.drop k)) n

/-- An ordinary read of `n` bytes within one line through the first-level cache: value and POISON (R74, R132). -/
def State.ordRead (s : State) (w : Who) (pa n : Nat) (via : Via) : Nat × Bool × State :=
  if reaches s pa then
    let (c, s) := s.l1Read w (pa / 64) via
    (lineBytes c.data (pa % 64) n, c.poison, s)
  else (0, true, s.hubLog 13 (w64 pa) (ctxid16 w))

/-- Ordinary reads of whole lines of a range: bytes and whether each line was POISON. -/
def State.ordReadLines (s : State) (w : Who) (line : Nat) : Nat → List (BitVec 512 × Bool) × State
  | 0 => ([], s)
  | n + 1 =>
    let (v, p, s) := s.ordRead w (line * 64) 64 .copy
    let (r, s) := s.ordReadLines w (line + 1) n
    ((BitVec.ofNat 512 v, p) :: r, s)

end Sys2Proof.Machine
end

