-- ==== Sys2Proof/Machine/Translate.lean ====
section
/-! DEFINITION. Page tables, TLBs, lookup, pins, and the use of handles (R102 to R112, R117). -/
namespace Sys2Proof.Machine

/-! ## Page-table entries (R104) -/

def pteV (e : BitVec 64) : Bool := bit e.toNat 0
def pteL (e : BitVec 64) : Bool := bit e.toNat 1
def pteRD (e : BitVec 64) : Bool := bit e.toNat 2
def pteW (e : BitVec 64) : Bool := bit e.toNat 3
def pteX (e : BitVec 64) : Bool := bit e.toNat 4
def pteM (e : BitVec 64) : Bool := bit e.toNat 5
def ptePRV (e : BitVec 64) : Bool := bit e.toNat 6
def pteKind (e : BitVec 64) : Nat := bits e.toNat 7 2
def pteMST (e : BitVec 64) : Nat := bits e.toNat 10 2
def pteREP (e : BitVec 64) : Bool := bit e.toNat 12
def ptePin (e : BitVec 64) : Nat := bits e.toNat 52 12
/-- BASE as a physical address. -/
def pteBase (e : BitVec 64) : Nat := bits e.toNat 16 36 * 2 ^ 16

/-- An entry with field [lo + n − 1 : lo] replaced. -/
def pteSet (e : BitVec 64) (lo n v : Nat) : BitVec 64 :=
  BitVec.ofNat 64 (e.toNat - bits e.toNat lo n * 2 ^ lo + v % 2 ^ n * 2 ^ lo)

/-- Page-offset bits of a leaf at level 1, 2 or 3 (R102). -/
def levelBits (level : Nat) : Nat := if level = 1 then 42 else if level = 2 then 29 else 16

/-- The size code of a leaf level (R116). -/
def levelSize (level : Nat) : BitVec 2 := if level = 1 then 2 else if level = 2 then 1 else 0

/-- W of a leaf: a replicated page reads W as 0 (R108). A large leaf's REP is ignored (R104). -/
def leafW (e : BitVec 64) (level : Nat) : Bool := pteW e && !(pteREP e && level = 3)

/-- The frame a leaf gives to a lookup from die `d` (R104, R108). -/
def leafFrame (e : BitVec 64) (level die : Nat) : Nat :=
  let b := pteBase e / 2 ^ levelBits level * 2 ^ levelBits level
  if level = 3 && pteREP e && die = 1 then b + 0x3000000000 else b

/-! ## Lookup (R107) -/

inductive Lookup where
  | leaf (e : BitVec 64) (level : Nat) (id : BitVec 49)
  | notPresent
  /-- an entry marked POISON was read, at this physical address -/
  | poisoned (pa : Nat)
  /-- the page is being moved, MST being 2 or 3, or the home of an entry is (R119, R405) -/
  | moving
deriving DecidableEq, Repr

/-- An entry read by the walker: an ordinary read at its home slice, for a context or for the hub. -/
def State.readPte (s : State) (w : Option Who) (pa : Nat) : BitVec 64 × Bool × State :=
  let id := (w.map ctxid16).getD 0xFFFF
  if reaches s pa then
    let (x, ts, s) := s.homeRead (pa / 64) ((w.map fun c => (s.bank c).pts).getD 0) id
    (BitVec.ofNat 64 (lineBytes x.data (pa % 64) 8), x.poison, match w with | some c => s.raisePts c ts | none => s)
  else (0, true, s.hubLog 13 (w64 pa) id)

/-- The walk from the table at `base` on level `level`, `fuel` levels left. -/
def walk (s : State) (w : Option Who) (va : Nat) (base level : Nat) : Nat → Lookup × State
  | 0 => (.notPresent, s)
  | fuel + 1 =>
    let idx := if level = 0 then bits va 55 5 else if level = 1 then bits va 42 13 else if level = 2 then bits va 29 13 else bits va 16 13
    let pa := base + 8 * idx
    if homeHeld s (pa / 64) then (.moving, s) else
    let (e, p, s) := s.readPte w pa
    if p then (.poisoned pa, s)
    else if !pteV e then (.notPresent, s)
    else if level = 3 || (level != 0 && pteL e) then
      if level = 3 && pteMST e ≥ 2 then (.moving, s) else (.leaf e level (BitVec.ofNat 49 (pa / 8)), s)
    else walk s w va (pteBase e) (level + 1) fuel

/-- The second-level home tile of an address (R107). -/
def tlbHome (s : State) (asid : BitVec 16) (va : Nat) : Nat :=
  let x := bits va 16 44 ^^^ (asid.toNat * 2 ^ 28)
  let hh := x ^^^ (x / 2 ^ 17) ^^^ (x / 2 ^ 31)
  liveHome s (hh % 72)

def tlbHit (asid : BitVec 16) (va : Nat) (whole : Bool) (x : TlbEntry) : Bool :=
  let n := if whole then levelBits x.level - 16 else 0
  x.asid == asid && x.vpn.toNat / 2 ^ n == bits va 16 44 / 2 ^ n

/-- A first-level hit. -/
def tlb1Find (s : State) (w : Who) (asid : BitVec 16) (va : Nat) : Option TlbEntry :=
  (s.tile (Who.tile w)).tlb1.find? (tlbHit asid va true)

/-- The set of a first-level entry: its page number modulo 64 (log 110). -/
def TlbEntry.set (x : TlbEntry) : Nat := x.vpn.toNat % 64

/-- An entry enters its set of eight ways; the oldest of a full set leaves (R107; DESIGN CHOICE, log 110). -/
def fillSet (l : List TlbEntry) (x : TlbEntry) : List TlbEntry :=
  if (l.filter (·.set == x.set)).length < 8 then x :: l else x :: (l.reverse.eraseP (·.set == x.set)).reverse

def State.tlb1Fill (s : State) (w : Who) (x : TlbEntry) : State :=
  s.modTile (Who.tile w) fun t => { t with tlb1 := fillSet t.tlb1 x }

/-- The tile has received the shoot-down of a page that is under way: what was read of the page before no longer counts there (R110). -/
def shotAt (s : State) (t : Tid) (id : BitVec 49) : Bool :=
  (s.tile t).shots.contains id || s.hub.shots.any fun x => x.1 == id && !x.2.contains t

/-- The slice of an address lies at a tile that waits for the remap of a fence, or is stalled (R405, R456). -/
def sliceHeld (s : State) (asid : BitVec 16) (va : Nat) : Bool :=
  (s.hub.remap.any fun t => tlbHome (beforeFences s) asid va == t.val) || ((tid? (tlbHome s asid va)).any fun t => (s.tile t).stalled)

/-- The lookup: first level, slice, walk; fills what it read (R107, R110). A full slice drops its oldest entry (log 110). -/
def lookup (s : State) (w : Who) (asid : BitVec 16) (ptroot : BitVec 36) (va : Nat) : Lookup × State :=
  match tlb1Find s w asid va with
  | some x => (.leaf x.leaf x.level x.id, s)
  | none =>
    let home := tlbHome s asid va
    match tid? home with
    | none => (.notPresent, s)
    | some t =>
      if sliceHeld s asid va then (.moving, s) else
      match (s.tile t).tlb2.find? fun x => tlbHit asid va false x && !shotAt s (Who.tile w) x.id with
      | some x => (.leaf x.leaf x.level x.id, s.tlb1Fill w x)
      | none =>
        match walk s (some w) va (ptroot.toNat * 2 ^ 16) 0 4 with
        | (.leaf e level id, s) =>
          let x : TlbEntry := { asid, vpn := BitVec.ofNat 44 (va / 2 ^ 16), level, leaf := e, id }
          (.leaf e level id, (s.modTile t fun y => { y with tlb2 := (x :: y.tlb2).take 4096 }).tlb1Fill w x)
        | r => r

/-! ## Pins (R117 to R119) -/

def ptePa (id : BitVec 49) : Nat := id.toNat * 8

def State.pteNow (s : State) (id : BitVec 49) : BitVec 64 × State :=
  let (x, _, s) := s.homeRead (ptePa id / 64) 0 0xFFFF
  (BitVec.ofNat 64 (lineBytes x.data (ptePa id % 64) 8), s)

/-- A node waits for an event word in the line. -/
def Hub.watches (h : Hub) (line : Nat) : Bool := h.table.any fun n => n.evPa.any fun a => a.toNat / 64 == line

/-- An atomic update of an entry at its home slice, which the host does not cache; a node that waits for a word of the line is checked
again at the end of the move (R352). -/
def State.setPte (s : State) (id : BitVec 49) (e : BitVec 64) : State :=
  let line := ptePa id / 64
  let s := (s.homeWrite line (byteMask (ptePa id % 64) 8) (placeBytes (ptePa id % 64) (leBytes e.toNat 8)) 0 none 0xFFFF).2
  if s.hub.watches line then s.modHub fun h => { h with touched := line :: h.touched } else s

/-- Outcome of a pin raise. -/
inductive PinRes where
  | raised | full | moving
deriving DecidableEq, Repr

/-- The frames that a move has taken from the firmware pool. -/
def moveFrames (m : Move) : List (BitVec 52) :=
  if m.pte.isSome then [] else if m.repl then [m.newBase, BitVec.ofNat 52 (m.newBase.toNat + 0x3000000000)] else [m.newBase]

/-- A move is abandoned: its new frames return; a page operation of firmware ends with status BUSY (R118, R119). -/
def Hub.dropMove (h : Hub) (id : BitVec 49) : Hub :=
  let gone := h.moves.filter (·.id == id)
  { h with
    moves := h.moves.filter (·.id != id)
    freeFrames := h.freeFrames ++ gone.flatMap moveFrames
    mbox := gone.foldl (fun b m => match m.who with
      | some .host => b.set 0 1
      | some .device => b.set 1 1
      | none => b) h.mbox }

/-- RaisePin: PIN is raised; an entry selected for a move leaves it (R119); one committed is not raised. -/
def State.raisePin (s : State) (id : BitVec 49) : PinRes × State :=
  let (e, s) := s.pteNow id
  if pteMST e ≥ 2 then (.moving, s)
  else if ptePin e = 4095 then (.full, s)
  else (.raised, (s.setPte id (pteSet (pteSet e 10 2 0) 52 12 (ptePin e + 1))).modHub fun h =>
    if pteMST e = 1 then h.dropMove id else h)

/-- The hub may update an entry now: its line is at its home and the host does not cache it; else it is asked back (R85, R405). -/
def State.pteFree (s : State) (id : BitVec 49) : Bool × State :=
  if homeHeld s (ptePa id / 64) then (false, s) else s.snoopLines [ptePa id / 64]

/-- PIN is lowered; where the entry may not be updated yet, later (R85, R405). -/
def State.lowerPin (s : State) (id : BitVec 49) : State :=
  match s.pteFree id with
  | (true, _) =>
    let (e, s) := s.pteNow id
    if ptePin e = 0 then s else s.setPte id (pteSet e 52 12 (ptePin e - 1))
  | (false, s) => s.modHub fun h => { h with unpins := h.unpins ++ [id] }

/-- The pins that were to be lowered later are, as far as they now can. -/
def State.lowerHeld (s : State) : State := s.hub.unpins.foldl State.lowerPin (s.modHub fun h => { h with unpins := [] })

/-- A handle's register is cleared and its pin lowered (R114). -/
def State.releaseHandle (s : State) (w : Who) (h : BitVec 4) : State :=
  let x := (s.bank w).r.hreg h
  let s := if x.valid && x.pinned then s.lowerPin x.id else s
  s.modBank w fun b => b.modR fun r => r.setH h {}

/-- Every handle of a context is released (R123, R364). -/
def State.releaseHandles (s : State) (w : Who) : State :=
  (List.range 16).foldl (fun s k => s.releaseHandle w (BitVec.ofNat 4 k)) s

/-- The handle that a leaf gives (R111). -/
def mkHandle (e : BitVec 64) (level : Nat) (id : BitVec 49) (va die : Nat) (pinned : Bool) (readyAt : Nat) : Handle where
  valid := true
  va := BitVec.ofNat 60 (va % 2 ^ 60 / 2 ^ levelBits level * 2 ^ levelBits level)
  base := BitVec.ofNat 52 (leafFrame e level die)
  size := levelSize level
  rd := pteRD e
  w := leafW e level
  x := pteX e
  prv := ptePRV e
  rep := pteREP e && level = 3
  mig := pteM e && level = 3
  kind := BitVec.ofNat 2 (pteKind e)
  id := id
  pinned := pinned
  ready := true
  readyAt := readyAt

/-! ## Use of handles (R8, R112) -/

def Handle.bytes (h : Handle) : Nat := if h.size = 2 then 2 ^ 42 else if h.size = 1 then 2 ^ 29 else 2 ^ 16

/-- Translate(h, off): `n` is the handle's number. -/
def translate (n : BitVec 4) (h : Handle) (off : Nat) : M Nat := do
  if !h.valid then trap Cause.staleHandle (w64 n.toNat)
  if off ≥ h.bytes then trap Cause.handleBounds (w64 off)
  return h.base.toNat + off

/-- What an access needs (R112). -/
structure Need where
  rd : Bool := false
  w : Bool := false

/-- Translation and then the permission check, which comes after it (R112). -/
def translateFor (need : Need) (n : BitVec 4) (h : Handle) (off : Nat) : M Nat := do
  let pa ← translate n h off
  if (need.rd && !h.rd) || (need.w && !h.w) then trap Cause.permission (w64 off)
  return pa

/-- A range [off, off + n) of a page, both ends translated, then the permission. -/
def translateRange (need : Need) (n : BitVec 4) (h : Handle) (off len : Nat) : M Nat := do
  let pa ← translate n h off
  let _ ← translate n h (off + len - 1)
  if (need.rd && !h.rd) || (need.w && !h.w) then trap Cause.permission (w64 off)
  return pa

/-- A front-end word or a dispatch waits for a handle that is not ready (R109). -/
def waitReady (h : Handle) : M Unit := do
  if (← get).now < h.readyAt then waitFor .other

/-! ## Migration counting (R87, R88) -/

def dieOfPa (pa : Nat) : Nat := match spaceOf pa with | .die0 => 0 | .die1 => 1 | _ => 2

/-- The migration engine selects page `id` for die `d`, or for a replica (R88, R119). A page for which no pair of frames is free is not
replicated in this window (R108). -/
def State.selectMove (s : State) (id : BitVec 49) (d : Fin 2) (repl : Bool) : State :=
  let (free, s) := s.pteFree id
  let (e, s) := s.pteNow id
  let fits (b : BitVec 52) : Bool :=
    if repl then dieOfPa b.toNat == 0 && s.hub.freeFrames.contains (BitVec.ofNat 52 (b.toNat + 0x3000000000))
    else dieOfPa b.toNat == d.val
  if !free || ptePin e != 0 || pteMST e != 0 || s.hub.moves.length ≥ 16 then s
  else
    match s.hub.freeFrames.find? fits with
    | none => if repl then s.modHub fun h => { h with migNone := id :: h.migNone } else s
    | some b =>
      let used : List (BitVec 52) := if repl then [b, BitVec.ofNat 52 (b.toNat + 0x3000000000)] else [b]
      (s.setPte id (pteSet e 10 2 1)).modHub fun h =>
        { h with
          freeFrames := h.freeFrames.filter fun x => !used.contains x
          moves := h.moves ++ [{ id, repl, oldBase := BitVec.ofNat 52 (pteBase e), newBase := b }] }

/-- One line access through a handle of a migratable page from tile `t` is counted, and a count at or above MIGTHR is acted on
by the first row of R88 that applies, at every such access of the window (log 112); a page that lies on its die already stays. -/
def State.countMig (s : State) (t : Tid) (h : Handle) (pa : Nat) : State :=
  let d := Tid.die t
  if !h.mig || dieOfPa pa = d then s
  else
    let old := (s.hub.migCnt.find? fun x => x.1 == h.id).getD (h.id, 0, 0)
    let new := if d = 0 then (old.1, old.2.1 + 1, old.2.2) else (old.1, old.2.1, old.2.2 + 1)
    let s := s.modHub fun x => { x with migCnt := (new :: x.migCnt.filter fun y => y.1 != h.id).take 65536 }
    let thr := s.hub.migthr.toNat
    let a := decide (thr ≤ new.2.1)
    let b := decide (thr ≤ new.2.2)
    if thr = 0 then s
    else if a && b then (if h.w || s.hub.migNone.contains h.id then s else s.selectMove h.id 0 true)
    else if a && dieOfPa pa ≠ 0 then s.selectMove h.id 0 false
    else if b && dieOfPa pa ≠ 1 then s.selectMove h.id 1 false
    else s

/-- Every line access of [pa, pa + n) by a context is counted (R87). -/
def State.countLines (s : State) (w : Who) (h : Handle) (pa n : Nat) : State :=
  (linesOf pa n).foldl (fun s l => s.countMig (Who.tile w) h (64 * l)) s

end Sys2Proof.Machine
end

