-- ==== Sys2Proof/Machine/Sched.lean ====
section
/-! DEFINITION. The graph scheduler's table: node records, dependence, readiness, completion, renaming (R343 to R353). -/
namespace Sys2Proof.Machine

/-! ## Records (R343, R344) -/

/-- Field of a record: `n` bytes at `off`. -/
def recAt (b : BitVec 1024) (off n : Nat) : Nat := bits b.toNat (8 * off) (8 * n)

namespace NodeEnt
def attr (e : NodeEnt) : Nat := recAt e.body 108 4
def prio (e : NodeEnt) : Nat := bits e.attr 0 3
def clusters (e : NodeEnt) : Nat := bits e.attr 3 18
def kind (e : NodeEnt) : Nat := bits e.attr 21 3
def coop (e : NodeEnt) : Bool := bit e.attr 24
def lstep (e : NodeEnt) : Bool := bit e.attr 25
def rename (e : NodeEnt) : Bool := bit e.attr 26
def join (e : NodeEnt) : Nat := max 1 (recAt e.body 117 1)
def entry (e : NodeEnt) : Nat := recAt e.body 0 8
def looptab (e : NodeEnt) : Nat := recAt e.body 8 8
def recArgs (e : NodeEnt) : Nat := recAt e.body 16 8
def ctl (e : NodeEnt) : Nat := recAt e.body 24 8
def slip (e : NodeEnt) : Nat := recAt e.body 116 1
def qfirst (e : NodeEnt) : Nat := recAt e.body 112 2
def qcount (e : NodeEnt) : Nat := recAt e.body 114 2
/-- ARGS, or the argument override (R346). -/
def argsOf (e : NodeEnt) : Nat := if e.aovr = 0 then e.recArgs else e.aovr.toNat
def rangeAt (e : NodeEnt) (off : Nat) : Range := { page := recAt e.body (off + 2) 6, npg := recAt e.body off 2 }
def reads (e : NodeEnt) : List Range := (List.range 4).map fun i => e.rangeAt (32 + 8 * i)
def writes (e : NodeEnt) : List Range := (List.range 4).map fun i => e.rangeAt (64 + 8 * i)
/-- Address of successor `i`, when there is one. -/
def succ (e : NodeEnt) (i : Nat) : Option Nat :=
  let o := sext (recAt e.body (96 + 4 * i) 4) 32
  if o = 0 then none else some (((e.record.toNat : Int) + 128 * o) % 2 ^ 64).toNat
end NodeEnt

/-- Two ranges share a page; a range of no pages is absent (R344). -/
def Range.meets (a b : Range) : Bool :=
  a.npg != 0 && b.npg != 0 && a.page < b.page + b.npg && b.page < a.page + a.npg

/-! ## Queues and the hub's own accesses -/

def State.qdesc (s : State) (q : Fin 1024) : QDesc := (kvGet s.hub.qd q.val).getD {}
def State.modQd (s : State) (q : Fin 1024) (f : QDesc → QDesc) : State :=
  s.modHub fun h => { h with qd := kvPut h.qd q.val (f (s.qdesc q)) }

/-- The walk of the hub for an address of a queue: it takes part in no context's time. -/
def State.hubWalk (s : State) (q : Fin 1024) (va : Nat) : Lookup × State :=
  if va ≥ 2 ^ 60 then (.notPresent, s) else walk s none va (bits (s.qdesc q).ptroot.toNat 16 36 * 2 ^ 16) 0 4

/-- The hub's walk meets a page that is being moved, or a fence is not yet acknowledged: the hub's accesses wait (R119, R405). -/
def hubMoving (s : State) (q : Fin 1024) (va : Nat) : Bool :=
  !s.hub.remap.isEmpty || match (s.hubWalk q va).1 with
    | .moving => true
    | .leaf e level _ => homeStalls s ((leafFrame e level 0 + va % 2 ^ levelBits level) / 64)
    | .notPresent | .poisoned _ => false

/-- Offset bits of the page that holds an address of a queue (R102). -/
def hubPageBits (s : State) (q : Fin 1024) (va : Nat) : Nat :=
  match (s.hubWalk q va).1 with
  | .leaf _ level _ => levelBits level
  | .moving | .notPresent | .poisoned _ => 16

/-- Translation in the address space of a queue (R343, R349). -/
def State.hubTranslate (s : State) (q : Fin 1024) (va : Nat) (need : Need) : Option Nat × State :=
  match s.hubWalk q va with
  | (.leaf e level _, s) =>
    if pteKind e = 3 || (ptePRV e && !(s.qdesc q).priv) || (need.rd && !pteRD e) || (need.w && !leafW e level) then (none, s)
    else (some (leafFrame e level 0 + va % 2 ^ levelBits level), s)
  | (.moving, s) | (.notPresent, s) | (.poisoned _, s) => (none, s)

/-- Bytes read by the hub through home slices, split at lines; `n` bounds the lines. -/
def State.hubRead (s : State) (pa : Nat) (len : Nat) : Nat → List Byte × Bool × State
  | 0 => ([], false, s)
  | n + 1 =>
    if len = 0 then ([], false, s)
    else
      let k := min len (64 - pa % 64)
      if reaches s pa then
        let (x, _, s) := s.homeRead (pa / 64) 0 0xFFFF
        let (r, p, s) := s.hubRead (pa + k) (len - k) n
        (leBytes (lineBytes x.data (pa % 64) k) k ++ r, x.poison || p, s)
      else (List.replicate len 0, true, s.hubLog 13 (w64 pa) 0xFFFF)

/-- Bytes written by the hub through home slices. -/
def State.hubWrite (s : State) (pa : Nat) (bs : List Byte) (pts : Nat := 0) : Nat → State
  | 0 => s
  | n + 1 =>
    if bs.isEmpty then s
    else
      let k := 64 - pa % 64
      let s := if reaches s pa then
          (s.homeWrite (pa / 64) (byteMask (pa % 64) (bs.take k).length) (placeBytes (pa % 64) (bs.take k)) pts none 0xFFFF).2
        else s.hubLog 13 (w64 pa) 0xFFFF
      s.hubWrite (pa + k) (bs.drop k) pts n

/-- One 8-byte word of a queue's address space. -/
def State.hubWord (s : State) (q : Fin 1024) (va : Nat) : Option Nat × State :=
  match s.hubTranslate q va { rd := true } with
  | (none, s) => (none, s)
  | (some pa, s) =>
    let (b, p, s) := s.hubRead pa 8 2
    (if p then none else some (leNat b), s)

/-! ## The table (R352) -/

def State.node? (s : State) (id : Nat) : Option NodeEnt := s.hub.table.find? (·.id == id)

def State.modNode (s : State) (id : Nat) (f : NodeEnt → NodeEnt) : State :=
  s.modHub fun h => { h with table := h.table.map fun e => if e.id = id then f e else e }

/-! ## The journal (R368, R369) -/

/-- The scheduler's state as a checkpoint holds it. -/
def State.schedImage (s : State) : SchedImage where
  table := s.hub.table
  pool := s.hub.pool
  renames := s.hub.renames
  chunksUsed := s.hub.chunksUsed
  triggers := s.hub.triggers
  heads := s.hub.qd.map fun x => (x.1, x.2.head)

/-- What a journal entry changes. -/
def SchedImage.apply (x : SchedImage) : JAct → SchedImage
  | .node e => { x with table := if x.table.any (·.id == e.id) then x.table.map fun y => if y.id = e.id then e else y else x.table ++ [e] }
  | .freed id => { x with table := x.table.filter (·.id != id) }
  | .ready p => { x with pool := x.pool ++ [p] }
  | .taken p => { x with pool := x.pool.erase p }
  | .head q v => { x with heads := kvPut x.heads q v }
  | .rename l used => { x with renames := l, chunksUsed := used }
  | .trigger k t => { x with triggers := kvPut x.triggers k t }

/-- The entries that lead from one state of the scheduler to another. -/
def schedChanges (a b : SchedImage) : List JAct :=
  ((a.table.filter fun e => !(b.table.any (·.id == e.id))).map fun e => .freed e.id) ++
    ((b.table.filter fun e => !a.table.contains e).map .node) ++
    ((a.pool.filter fun p => !b.pool.contains p).map .taken) ++ ((b.pool.filter fun p => !a.pool.contains p).map .ready) ++
    (if a.renames = b.renames && a.chunksUsed = b.chunksUsed then [] else [.rename b.renames b.chunksUsed]) ++
    ((b.heads.filter fun x => (kvGet a.heads x.1).getD 0 != x.2).map fun x => .head x.1 x.2) ++
    ((b.triggers.filter fun x => kvGet a.triggers x.1 != some x.2).map fun x => .trigger x.1 x.2)

/-- What the checkpoint and the entries after it give. -/
def Cores.replay (c : Cores) : SchedImage := c.journal.foldl (fun x e => x.apply e.act) c.image

/-- The next journal entry; a checkpoint of the table state follows every 4,096 entries. -/
def Cores.write (c : Cores) (act : JAct) : Cores :=
  let c' := { c with jseq := c.jseq + 1, journal := c.journal ++ [{ seq := c.jseq + 1, act }] }
  if (c.jseq + 1) % 4096 = 0 then { c' with image := c'.replay, journal := [], mirror := [], checkpoint := c.jseq + 1 } else c'

/-- What the scheduler has done since `old` stands in the journal before any other party sees it. -/
def State.journalFrom (s old : State) : State :=
  s.modHub fun h => { h with cores := (schedChanges old.schedImage s.schedImage).foldl Cores.write h.cores }

/-- The scheduler's state as the checkpoint and the journal give it (R369, step 3). -/
def State.rebuild (s : State) : State :=
  let x := s.hub.cores.replay
  s.modHub fun h =>
    { h with
      table := x.table, pool := x.pool, renames := x.renames, chunksUsed := x.chunksUsed, triggers := x.triggers
      qd := h.qd.map fun d => (d.1, { d.2 with head := (kvGet x.heads d.1).getD 0 }) }

/-- No scheduler core is active (R369). -/
def Cores.down (c : Cores) : Bool := c.halted || c.taking

/-- While no core is active a completion is held. -/
def State.hold (s : State) (x : Held) : State := s.modHub fun h => { h with cores := { h.cores with held := h.cores.held ++ [x] } }

/-- An earlier node blocks a later one through their ranges (R350, R351). -/
def blocks (a b : NodeEnt) : Bool :=
  let bw := (List.range 4).filterMap fun i =>
    if b.renamed.any (·.1 == i) then none else some (b.rangeAt (64 + 8 * i))
  a.asid == b.asid && a.id < b.id &&
    (a.writes.any (fun x => b.reads.any (x.meets ·) || bw.any (x.meets ·)) || a.reads.any (fun x => bw.any (x.meets ·)))

/-- The write time of the line that holds an address, as the hub's read of it takes it. -/
def State.timeAt (s : State) (pa : Nat) : Nat := (s.homeLine (pa / 64)).wts

def NodeEnt.after (e : NodeEnt) (t : Nat) : NodeEnt := { e with time := max e.time t }

def nodeReq (n : Nat) (r : GrantReq) : Bool := r.node == some n

/-- The bank-engine request of a node leaves its queue, and units granted to it return (R430). -/
def GovClass.dropNode (n : Nat) (g : GovClass) : GovClass :=
  { g with
    used := g.used - (g.ready.filter (nodeReq n)).foldl (fun a r => a + r.units) 0
    reqs := g.reqs.filter fun r => !nodeReq n r
    ready := g.ready.filter fun r => !nodeReq n r }

def Cluster.dropNode (n : Nat) (c : Cluster) : Cluster := { c with gov := c.gov.map (GovClass.dropNode n) }

/-- The nodes that the ranges of `a` held come after what its instances did (R155, R350). -/
def orderAfter (a : NodeEnt) (l : List NodeEnt) : List NodeEnt := l.map fun x => if blocks a x then x.after a.endTime else x

/-- A node's entry is freed. -/
def State.freeNode (s : State) (id : Nat) : State :=
  match s.node? id with
  | none => s
  | some a =>
    let s : State := { s with clusters := s.clusters.map (Cluster.dropNode id) }
    s.modHub fun h =>
      { h with
        lastBusy := kvPut h.lastBusy a.queue.val s.sched16, table := orderAfter a (h.table.filter (·.id != id)), pool := h.pool.filter (·.node != id) }

/-- A node that never got an entry is FAILED: reported only (R349, R352). -/
def State.reportFailed (s : State) (q : Fin 1024) (record : Word) : State :=
  (s.modQd q fun d => { d with err := if d.err = 0xFFFFFFFF then d.err else d.err + 1 }).hubLog 12 record 0xFFFF

/-- The node becomes FAILED: reported, its entry freed, its successors do not arrive (R352). -/
def State.nodeFail (s : State) (id : Nat) : State :=
  match s.node? id with
  | none => s
  | some e => (s.reportFailed e.queue e.record).freeNode id

/-- An argument word of a renamed range is rewritten: the word at `ARGS + off` moves from `base` to `chunk`; none where it cannot be read (R351). -/
def State.moveArg (s : State) (e : NodeEnt) (off base chunk : Nat) : Option State :=
  match s.hubTranslate e.queue (e.argsOf + off) { rd := true } with
  | (none, _) => none
  | (some pa, s) =>
    let (b, p, s) := s.hubRead pa 8 2
    if p then none else some (s.hubWrite pa (leBytes ((leNat b + 2 ^ 64 - base + chunk) % 2 ^ 64) 8) 0 2)

/-- `n` free chunks of a queue's pool, lowest run first, when it has them together. -/
def State.poolChunks (s : State) (q : Fin 1024) (n : Nat) : Option Nat :=
  let size := (s.qdesc q).psize.toNat
  (List.range (size + 1 - n)).find? fun k =>
    (List.range n).all fun j => !(s.hub.chunksUsed.any fun x => x.1 == q && x.2 == k + j)

/-- Write range `i` of `e` is renamed when it can be (R351). -/
def State.renameRange (s : State) (e : NodeEnt) (i : Nat) : State :=
  let r := e.rangeAt (64 + 8 * i)
  let n := (r.npg + 15) / 16
  let clash := s.hub.table.any fun a => a.id < e.id && a.asid == e.asid && (a.reads ++ a.writes).any (r.meets ·)
  if !e.rename || r.npg = 0 || !clash || n = 0 then s
  else
    match s.poolChunks e.queue n with
    | none => s
    | some k =>
      let chunk := (s.qdesc e.queue).pool.toNat + k * 65536
      match s.moveArg e (8 * i) (r.page * 4096) chunk with
      | none => s
      | some s =>
        (s.modHub fun h =>
          { h with
            renames := h.renames ++ [{ queue := e.queue, asid := e.asid, node := e.id, range := r, chunk := w64 chunk, chunks := n }]
            chunksUsed := h.chunksUsed ++ (List.range n).map fun j => (e.queue, k + j) }).modNode e.id fun x =>
              { x with renamed := x.renamed ++ [(i, w64 chunk)] }

/-- The write ranges of a node that go to their home addresses. -/
def NodeEnt.homeWrites (e : NodeEnt) : List Range :=
  ((List.range 4).filter fun i => !(e.renamed.any (·.1 == i))).map fun i => e.rangeAt (64 + 8 * i)

/-- The read ranges of a node that read their home addresses. -/
def NodeEnt.homeReads (e : NodeEnt) : List Range :=
  ((List.range 4).filter fun j => !(e.versions.any (·.1 == j))).map fun j => e.rangeAt (32 + 8 * j)

/-- A node between the version and the reader writes the range at home: the version is not what the reader is to see. -/
def overwritten (s : State) (v : Rename) (e : NodeEnt) (r : Range) : Bool :=
  s.hub.table.any fun a => a.asid == e.asid && v.node < a.id && a.id < e.id && a.homeWrites.any (·.meets r)

/-- A read range of a RENAME node takes the newest version's address (R351). -/
def State.renameRead (s : State) (e : NodeEnt) (j : Nat) : State :=
  let r := e.rangeAt (32 + 8 * j)
  match if e.rename then s.hub.renames.reverse.find? fun v => v.node < e.id && v.range.meets r && v.asid == e.asid && !v.home else none with
  | none => s
  | some v =>
    match if overwritten s v e r then none else s.moveArg e (32 + 8 * j) (v.range.page * 4096) v.chunk.toNat with
    | none => s
    | some s => s.modNode e.id fun x => { x with versions := x.versions ++ [(j, v.chunk)] }

/-- Addresses of the argument words that renaming may rewrite for a record: none for a node without RENAME (R351). -/
def renameArgs (s : State) (q : Fin 1024) (va aovr : Nat) : List Nat :=
  match s.hubTranslate q va { rd := true } with
  | (none, _) => []
  | (some pa, s) =>
    let b := leNat (s.hubRead pa 128 3).1
    let args := if aovr = 0 then bits b 128 64 else aovr
    if bit (bits b 864 32) 26 then (List.range 8).map (args + 8 * ·) else []

/-- The lines of those words. -/
def argLines (s : State) (q : Fin 1024) (va aovr : Nat) : List Nat :=
  ((renameArgs s q va aovr).filterMap fun a => (s.hubTranslate q a { rd := true }).1.map (· / 64)).eraseDups

/-- Taking an entry for a record in waits: a page of the record, the event word, or an argument word that renaming rewrites is being
moved, or the host may cache the line of such a word (R85, R119). -/
def nodeMoving (s : State) (q : Fin 1024) (va aovr evw : Nat) : Bool :=
  hubMoving s q va || (evw != 0 && hubMoving s q evw) || ((renameArgs s q va aovr).any fun a => hubMoving s q a) ||
    (argLines s q va aovr).any fun l => s.hub.filter.contains l

/-- The lines for which entries of these records wait are asked back (R85). -/
def State.askArgs (s : State) (q : Fin 1024) (aovr : Nat) (vas : List Nat) : State :=
  vas.foldl (fun s va => (s.snoopLines (argLines s q va aovr)).2) s

/-- An entry for a record enters the table, or the node is FAILED where it cannot (R349). -/
def State.newNode (s : State) (q : Fin 1024) (va aovr evw thr : Nat) (arrivals : Option Nat) (time : Nat) : State :=
  if va % 128 ≠ 0 then s.reportFailed q (w64 va)
  else
    match s.hubTranslate q va { rd := true } with
    | (none, s) => s.reportFailed q (w64 va)
    | (some pa, s) =>
      let (b, p, s) := s.hubRead pa 128 3
      let (ev, s) := if evw = 0 then (none, s) else if evw % 8 ≠ 0 then (none, s) else s.hubTranslate q evw { rd := true }
      let id := s.hub.nextId
      let e : NodeEnt :=
        { id, record := w64 va, queue := q, body := BitVec.ofNat 1024 (leNat b), aovr := w64 aovr, evw := w64 evw, evPa := ev.map (BitVec.ofNat 52 ·),
          thr := w64 thr, asid := (s.qdesc q).asid, time, hostSeen := (s.qdesc q).submitted }
      let e := { e with arrivals := arrivals.getD e.join }
      if p || e.kind = 7 || (evw ≠ 0 && ev.isNone) then s.reportFailed q (w64 va)
      else
        let s := s.modHub fun h => { h with table := h.table ++ [e], nextId := id + 1 }
        let s := (List.range 4).foldl (fun s i => s.renameRange e i) s
        (List.range 4).foldl (fun s j => s.renameRead e j) s

/-- A successor arrives (R352). -/
def State.arrive (s : State) (q : Fin 1024) (va time : Nat) : State :=
  match s.hub.table.find? fun e => e.queue == q && e.record.toNat == va && e.st == .arriving with
  | some e => s.modNode e.id fun x => { x.after time with arrivals := x.arrivals + 1 }
  | none => s.newNode q va 0 0 0 (some 1) time

/-- The node is DONE: its successors arrive and its entry is freed; the loop whose body it was evaluates again (R352, R353). It stays
DONE while a page of a successor is being moved; the nodes that its ranges held come after it all the same (R155, R350). -/
def State.nodeDoneWith (s : State) (id : Nat) (succs : List Nat) : State :=
  match s.node? id with
  | none => s
  | some e =>
    if succs.any fun va => nodeMoving s e.queue va 0 0 then ((s.askArgs e.queue 0 succs).modNode id fun x => { x with st := .done, succs }).modHub fun h => { h with table := orderAfter e h.table }
    else
    let t := max e.time e.endTime
    let s := succs.foldl (fun s va => s.arrive e.queue va t) s
    let s := match e.loopOf with
      | none => s
      | some l => s.modNode l fun x => { x.after t with st := .eval }
    s.freeNode id

def State.nodeDone (s : State) (id : Nat) : State :=
  match s.node? id with
  | none => s
  | some e => s.nodeDoneWith id ((List.range 3).filterMap e.succ)

/-- Range-free (R350), and no version waits to be copied home to a range that the node reads or writes there (R351). -/
def rangeFree (s : State) (e : NodeEnt) : Bool :=
  !(s.hub.table.any fun a => a.st != .done && a.st != .failed && blocks a e) &&
    !(s.hub.renames.any fun v => v.asid == e.asid && v.node < e.id && !v.home && (e.homeReads ++ e.homeWrites).any (v.range.meets ·))

/-- Bytes of a queue's address space, each line translated; none where a translation fails or a byte is POISON. -/
def State.hubReadVa (s : State) (q : Fin 1024) (va len : Nat) : Nat → Option (List Byte) × State
  | 0 => (some [], s)
  | n + 1 =>
    if len = 0 then (some [], s)
    else
      let k := min len (64 - va % 64)
      match s.hubTranslate q va { rd := true } with
      | (none, s) => (none, s)
      | (some pa, s) =>
        let (b, p, s) := s.hubRead pa k 2
        if p then (none, s)
        else
          let (r, s) := s.hubReadVa q (va + k) (len - k) n
          (r.map (b ++ ·), s)

/-- The levels of a node's loop table as kind and extent, none where R345 makes the node FAILED. -/
def State.loopLevels (s : State) (e : NodeEnt) : Option (List (Nat × Nat)) × State :=
  if e.looptab = 0 then (some [], s)
  else
    match s.hubReadVa e.queue e.looptab 64 2 with
    | (none, s) => (none, s)
    | (some b, s) =>
      let x := leNat b
      let nl := bits x 0 8
      if nl = 0 || nl > 6 then (none, s)
      else
        let (ls, s) := (List.range nl).foldl
          (fun (acc : Option (List (Nat × Nat)) × State) i =>
            match acc.1 with
            | none => acc
            | some ls =>
              let l := bits x (64 + 64 * i) 64
              let kind := bits l 0 2
              let v := bits l 32 32
              if kind = 3 then (none, acc.2)
              else if bit l 2 then
                let page := 2 ^ hubPageBits acc.2 e.queue e.argsOf
                if e.argsOf = 0 || v + 4 > page - e.argsOf % page then (none, acc.2)
                else
                  match acc.2.hubTranslate e.queue (e.argsOf + v) { rd := true } with
                  | (none, s) => (none, s)
                  | (some pa, s) =>
                    let (b, p, s) := s.hubRead pa 4 2
                    if p then (none, s) else (some (ls ++ [(kind, leNat b)]), s)
              else (some (ls ++ [(kind, v)]), acc.2)) (some [], s)
        match ls with
        | none => (none, s)
        | some ls =>
          let spatial := ls.filter fun x => x.1 != 0
          let prod := spatial.foldl (fun acc x => acc * x.2) 1
          let dies := ls.filter fun x => x.1 == 2
          let dieOk := dies.all fun x => (x.2 = 1 || x.2 = 2) &&
            (List.range x.2).all fun d => bits e.clusters (9 * d) 9 != 0
          if dies.length > 1 || !dieOk || prod > 2 ^ 24 then (none, s) else (some ls, s)

/-- One entry moves on as far as R352 lets it. The answer says whether it moved. -/
def State.settleOne (s : State) (id : Nat) : Bool × State :=
  match s.node? id with
  | none => (false, s)
  | some e =>
    match e.st with
    | .arriving =>
      if e.arrivals ≥ e.join then
        (true, s.modNode id fun x => { x with st := if e.evw = 0 then .waitRange else .waitEvt })
      else (false, s)
    | .waitEvt =>
      match e.evPa with
      | none => (true, s.nodeFail id)
      | some pa =>
        if !s.hub.remap.isEmpty || homeStalls s (pa.toNat / 64) then (false, s) else
        let (b, p, s) := s.hubRead pa.toNat 8 2
        if !p && leNat b ≥ e.thr.toNat then
          (true, s.modNode id fun x => { x.after (s.timeAt pa.toNat) with st := .waitRange })
        else (false, s)
    | .waitRange =>
      if !rangeFree s e then (false, s)
      else if e.kind = 1 || e.kind = 2 || e.kind = 3 then (true, s.modNode id fun x => { x with st := .eval })
      else if e.kind = 0 then
        if hubMoving s e.queue e.looptab || hubMoving s e.queue (e.looptab + 63) || hubMoving s e.queue e.argsOf then (false, s)
        else
        match s.loopLevels e with
        | (none, s) => (true, s.nodeFail id)
        | (some ls, s) =>
          let total := (ls.filter fun x => x.1 != 0).foldl (fun acc x => acc * x.2) 1
          let room := (List.range 18).foldl (fun acc c => acc + if bit e.clusters c then 8 else 0) 0
          if total = 0 then (true, s.nodeDone id)
          else if e.coop && total > room then (true, s.nodeFail id)
          else if e.lstep && !((List.range 18).any fun c => bit e.clusters c && bit e.clusters (c ^^^ 1) && (c ^^^ 1) < 18) then (true, s.nodeFail id)
          else
            (true, (s.modNode id fun x => { x with st := .ready, readyAt := s.sched16, total, extents := ls }).modHub fun h =>
              { h with pool := h.pool ++ (List.range total).map fun i => { node := id, index := i, since := s.sched16 } })
      else (true, s.modNode id fun x => { x with st := .ready, readyAt := s.sched16 })
    | .done => if e.succs.any fun va => nodeMoving s e.queue va 0 0 then (false, s.askArgs e.queue 0 e.succs) else (true, s.nodeDoneWith id e.succs)
    | .eval | .ready | .running | .failed => (false, s)

/-- Every entry moves on until none can; `n` bounds the passes. -/
def State.settle (s : State) : Nat → State
  | 0 => s
  | n + 1 =>
    let (m, s') := s.hub.table.foldl (fun (acc : Bool × State) e =>
      let (a, t) := acc.2.settleOne e.id
      (acc.1 || a, t)) (false, s)
    if m then s'.settle n else s'

/-- The table settles after a change: each entry makes at most four moves, and completions add entries. A halted scheduler stands,
and so does one that is being taken over (R369). -/
def State.resettle (s : State) : State := if s.hub.cores.down then s else s.settle (4 * s.hub.table.length + 8)

/-- A node becomes FAILED, and what it held goes on (R352); while no core is active that is held (R369). -/
def State.failNode (s : State) (id : Nat) : State := if s.hub.cores.down then s.hold (.failed id) else (s.nodeFail id).resettle

/-- A write to a watched event word rechecks the entries that wait for it (R352). -/
def State.checkEvents (s : State) (line : Nat) : State :=
  if s.hub.table.any fun e => e.st == .waitEvt && (e.evPa.map (·.toNat / 64)) == some line then s.resettle else s

/-- Bytes written by the hub through home slices, each written line checked against the watches (R352). -/
def State.hubPut (s : State) (pa : Nat) (bs : List Byte) (n : Nat) : State :=
  (linesOf pa bs.length).foldl State.checkEvents (s.hubWrite pa bs 0 n)

end Sys2Proof.Machine
end

