-- ==== Sys2Proof/Machine/HubRegs.lean ====
section
/-! DEFINITION. The registers in the hub's address range (R81, R82, R347, R348, R412 to R414, R435, R443). -/
namespace Sys2Proof.Machine

/-! ## What each register holds -/

def hubBase : Nat := 0x20000000000

/-- A log entry as 32 bytes (R412). -/
def LogEntry.bits (e : LogEntry) : Nat :=
  e.seq.toNat + e.time.toNat * 2 ^ 64 + e.addr.toNat * 2 ^ 128 + e.synd.toNat * 2 ^ 192 + e.array.toNat * 2 ^ 208 +
    e.type.toNat * 2 ^ 216 + e.ctxid.toNat * 2 ^ 224 + e.detail.toNat * 2 ^ 240

/-- A status register: counts and HEAD at bit 8 (R82, R413). -/
def errStatus (ue ce : BitVec 16) (ovf : BitVec 8) (head low : Nat) : Word :=
  w64 (low + head * 2 ^ 8 + ovf.toNat * 2 ^ 24 + ce.toNat * 2 ^ 32 + ue.toNat * 2 ^ 48)

/-- A queue descriptor as 64 bytes (R347). -/
def QDesc.bits (d : QDesc) : Nat :=
  d.ring.toNat + d.size.toNat * 2 ^ 64 + (b2n d.en + flag d.priv 1 + flag d.devok 2) * 2 ^ 72 + d.asid.toNat * 2 ^ 80 +
    d.head.toNat * 2 ^ 96 + d.tail.toNat * 2 ^ 128 + d.err.toNat * 2 ^ 160 + d.ptroot.toNat * 2 ^ 192 +
    d.trapvec.toNat * 2 ^ 256 + d.framebase.toNat * 2 ^ 320 + d.pool.toNat * 2 ^ 384 + d.psize.toNat * 2 ^ 448

/-- A descriptor from its 64 bytes; HEAD and ERR are the hardware's and stay. -/
def QDesc.write (d : QDesc) (x : Nat) : QDesc :=
  let f (lo n : Nat) : Nat := Machine.bits x lo n
  { d with
    ring := w64 (f 0 64), size := BitVec.ofNat 8 (f 64 8), en := bit x 72, priv := bit x 73, devok := bit x 74
    asid := BitVec.ofNat 16 (f 80 16), tail := BitVec.ofNat 32 (f 128 32), ptroot := w64 (f 192 64), trapvec := w64 (f 256 64)
    framebase := w64 (f 320 64), pool := w64 (f 384 64), psize := BitVec.ofNat 32 (f 448 32) }

/-- MONST and MONTHR of a cluster (R435). -/
def Cluster.monst (c : Cluster) : Word := w64 (c.t0.toNat + c.t1.toNat * 2 ^ 16 + c.vmin.toNat * 2 ^ 32 + c.proc.toNat * 2 ^ 48)
def Cluster.monthr (c : Cluster) : Word := w64 (c.vlo.toNat * 2 ^ 16 + c.tlo.toNat * 2 ^ 32 + c.thi.toNat * 2 ^ 48)

/-- The droop event re-arms when VMIN is at VLO + 10 mV or above (R436). -/
def Cluster.rearmDroop (c : Cluster) : Cluster := if c.vlo.toNat + 10 ≤ c.vmin.toNat then { c with fired := c.fired.set 2 false } else c

/-- A read of MONST sets VMIN to the present supply. -/
def State.readMonst (s : State) (c : Cid) : Word × State :=
  ((s.cluster c).monst, s.modCluster c fun x => { x with vmin := x.vnow }.rearmDroop)

/-- The word of a ring of 32-byte entries at byte offset `o`, and which entry it lies in. -/
def ringWord (entry : Nat → Nat) (o : Nat) : Word := w64 (bits (entry (o / 32)) (64 * (o % 32 / 8)) 64)

/-! ## Parts of the range -/

inductive HubReg where
  | mailbox (k : Fin 2) (off : Nat)
  | lp6err (ch : Fin 48)
  | lp6ring (ch : Fin 48) (off : Nat)
  | desc (q : Fin 1024) (off : Nat)
  | kick (off : Nat)
  | sramerr (t : Tid)
  | errinj (t : Tid)
  | sramring (t : Tid) (off : Nat)
  | hubStatus
  | hubRing (off : Nat)
  | monst (c : Cid)
  | monthr (c : Cid)
deriving DecidableEq, Repr

/-- The register whose eight bytes begin at an aligned address; none where the spec gives none. -/
def hubReg (pa : Nat) : Option HubReg :=
  let a := pa - hubBase
  if pa < hubBase then none
  else if a < 0x1000 then some (.mailbox 0 a)
  else if a < 0x2000 then some (.mailbox 1 (a - 0x1000))
  else if h : 0x10000 ≤ a ∧ a < 0x28000 then
    let ch : Fin 48 := ⟨(a - 0x10000) / 0x800, by omega⟩
    let o := a % 0x800
    if o = 0 then some (.lp6err ch) else if 0x400 ≤ o then some (.lp6ring ch (o - 0x400)) else none
  else if h : 0x100000 ≤ a ∧ a < 0x110000 then some (.desc ⟨(a - 0x100000) / 64, by omega⟩ (a % 64))
  else if 0x110000 ≤ a ∧ a < 0x110080 then some (.kick (a - 0x110000))
  else if h : 0x200000 ≤ a ∧ a < 0x248000 then
    let t : Tid := ⟨(a - 0x200000) / 0x1000, by omega⟩
    let o := a % 0x1000
    if o = 0 then some (.sramerr t) else if o = 8 then some (.errinj t) else if 0x400 ≤ o ∧ o < 0x800 then some (.sramring t (o - 0x400)) else none
  else if a = 0x300000 then some .hubStatus
  else if 0x301000 ≤ a ∧ a < 0x303000 then some (.hubRing (a - 0x301000))
  else if h : 0x400000 ≤ a ∧ a < 0x400480 then
    let c : Cid := ⟨(a - 0x400000) / 0x40, by omega⟩
    if a % 0x40 = 0 then some (.monst c) else if a % 0x40 = 8 then some (.monthr c) else none
  else none

/-- A register read: its value and what the read does. A read of any word of a ring entry reads the entry (R82; DESIGN CHOICE, log 129). -/
def HubReg.read (s : State) : HubReg → Word × State
  | .mailbox k off =>
    let o := off / 8 * 8
    (if o = 256 then s.hub.mbox.get k else if o < 256 then w64 (leNat (memRead (s.hub.mbytes.get k) o 8)) else 0, s)
  | .lp6err ch => let e := s.hub.lp6.get ch; (errStatus e.ue e.ce e.ovf e.head e.scrub.toNat, s)
  | .lp6ring ch off =>
    let e := s.hub.lp6.get ch
    (ringWord (fun i => ((kvGet e.ring i).getD 0).toNat) off,
      s.modHub fun h => { h with lp6 := h.lp6.set ch.val { e with unread := e.unread.filter (· != off / 32) } ch.isLt })
  | .desc q off => (w64 (bits (s.qdesc q).bits (8 * (off / 8 * 8)) 64), s)
  | .kick off => (w64 (bits s.hub.kick.toNat (8 * (off / 8 * 8)) 64), s)
  | .sramerr t => let l := (s.tile t).log; (errStatus l.ue l.ce l.ovf l.head 0, s)
  | .errinj t => ((s.tile t).errinj, s)
  | .sramring t off =>
    (ringWord (fun i => ((kvGet (s.tile t).log.ring i).map (·.bits)).getD 0) off,
      s.modTile t fun x => { x with log := { x.log with unread := x.log.unread.filter (· != off / 32) } })
  | .hubStatus => let l := s.hub.log; (errStatus l.ue l.ce l.ovf l.head 0, s)
  | .hubRing off =>
    (ringWord (fun i => ((kvGet s.hub.log.ring i).map (·.bits)).getD 0) off,
      s.modHub fun h => { h with log := { h.log with unread := h.log.unread.filter (· != off / 32) } })
  | .monst c => s.readMonst c
  | .monthr c => ((s.cluster c).monthr, s)

/-- A read of `n` bytes within eight. -/
def State.hubRegRead (s : State) (pa n : Nat) : Option Nat × State :=
  match hubReg (pa / 8 * 8) with
  | none => (none, s)
  | some r =>
    let (v, s) := r.read s
    (some (bits v.toNat (8 * (pa % 8)) (8 * n)), s)

/-- A kick bit is set (R348). -/
def State.setKick (s : State) (q : Fin 1024) : State :=
  s.modHub fun h => { h with kick := h.kick ||| (1#1024 <<< q.val) }

/-- TAIL of a queue is written (R348). -/
def State.writeTail (s : State) (q : Fin 1024) (v : BitVec 32) : State := (s.modQd q fun d => { d with tail := v }).setKick q

/-- ERRINJ is written (R414): arrays 6 and 7 store 0, reserved bits read 0. -/
def errinjValue (v : Word) : Word :=
  let x := v.toNat
  w64 (bits x 0 56 + bits x 58 1 * 2 ^ 58 + (if bits x 59 3 ≥ 6 then 0 else bits x 59 3) * 2 ^ 59 + bits x 62 2 * 2 ^ 62)

def ErrLog.setStatus (l : ErrLog) (v : Nat) : ErrLog :=
  { l with ue := BitVec.ofNat 16 (v / 2 ^ 48), ce := BitVec.ofNat 16 (v / 2 ^ 32), ovf := BitVec.ofNat 8 (v / 2 ^ 24) }

/-! ## The mailboxes (R443) -/

def Mailbox.index : Mailbox → Fin 2
  | .host => 0
  | .device => 1

inductive MbStatus where
  | ok | busy | invalid | denied
deriving DecidableEq, Repr

def MbStatus.code : MbStatus → Word
  | .ok => 0
  | .busy => 1
  | .invalid => 2
  | .denied => 3

def State.setStatus (s : State) (mb : Mailbox) (x : MbStatus) : State := s.modHub fun h => { h with mbox := h.mbox.set (Mailbox.index mb) x.code }

/-- A command of the mailbox itself is under way, or waits for the controller. -/
def mbBusy (s : State) (mb : Mailbox) : Bool := s.hub.mcmds.any (·.1 == mb) || s.hub.moves.any (·.who == some mb)

/-- The code of a command. -/
def commandCode : MbCommand → Nat
  | .resync _ => 0x01
  | .pageMap .. | .pageRemap .. | .pageUnmap _ | .collapseReplicas _ => 0x02
  | .sramProtectionMode .. | .markBankFailed .. => 0x03
  | .kvResidentReservation .. => 0x04
  | .tileTimerPeriod .. => 0x05
  | .triggerEntry .. => 0x06
  | .governorBudgets .. => 0x07
  | .readmitTile _ | .keepFenced _ | .postKatTask .. => 0x08
  | .coreReloadSelftest _ => 0x09
  | .resumeContext _ | .discardContext _ | .discardImage _ => 0x0A
  | .pairLinkRetrain => 0x0B
  | .imageLoad _ => 0x0F

/-- A command waits for the controller. -/
def State.queueCommand (s : State) (mb : Mailbox) (i : MbCommand) : State :=
  (s.modHub fun h => { h with mcmds := h.mcmds ++ [(mb, i)] }).setStatus mb .busy

/-- The command code has been written: its command waits for the controller, or is INVALID; one written while its mailbox is BUSY is ignored,
and in recovery only an image load is taken (R441, R443). -/
def State.startCommand (s : State) (mb : Mailbox) : State :=
  let bytes := memRead (s.hub.mbytes.get (Mailbox.index mb)) 0 256
  let code := leNat (bytes.take 8)
  let up := match s.hub.power with
    | .d0 | .d3entry _ => true
    | .recovery => code == 0x0F
    | .d3hot | .off | .boot => false
  if !up || mbBusy s mb then s
  else
    match (Config.mailboxCommand bytes).filter fun i => commandCode i == code with
    | some i => s.queueCommand mb i
    | none => s.setStatus mb .invalid

/-- A write of eight bytes of a mailbox: of its code and arguments. The status and the response are the controller's. -/
def State.mailboxWrite (s : State) (k : Fin 2) (o v : Nat) : State :=
  if 256 ≤ o then s
  else
    let s := s.modHub fun h => { h with mbytes := h.mbytes.set k.val (memWrite (h.mbytes.get k) o (leBytes v 8)) k.isLt }
    if o = 0 then s.startCommand (if k = 0 then .host else .device) else s

/-- A register takes the value `v`, of which the bytes of `mask` are written. -/
def HubReg.write (s : State) (v mask : Nat) : HubReg → State
  | .lp6err ch => s.modHub fun h =>
      let e := { h.lp6.get ch with ue := BitVec.ofNat 16 (v / 2 ^ 48), ce := BitVec.ofNat 16 (v / 2 ^ 32), ovf := BitVec.ofNat 8 (v / 2 ^ 24), scrub := BitVec.ofNat 8 v }
      { h with lp6 := h.lp6.set ch.val e ch.isLt }
  | .desc q off =>
    let o := off / 8 * 8
    let old := (s.qdesc q).bits
    let new := old - bits old (8 * o) 64 * 2 ^ (8 * o) + v % 2 ^ 64 * 2 ^ (8 * o)
    let was := (s.qdesc q).en
    let s := s.modQd q fun d => d.write new
    let tail := o = 16 && mask % 16 ≠ 0
    let enable := o = 8 && !was && (s.qdesc q).en
    if tail || enable then s.setKick q else s
  | .sramerr t => s.modTile t fun x => { x with log := x.log.setStatus v }
  | .errinj t => s.modTile t fun x => { x with errinj := errinjValue (w64 v) }
  | .hubStatus => s.modHub fun h => { h with log := h.log.setStatus v }
  | .monthr c => s.modCluster c fun x =>
      { x with thi := BitVec.ofNat 16 (v / 2 ^ 48), tlo := BitVec.ofNat 16 (v / 2 ^ 32), vlo := BitVec.ofNat 16 (v / 2 ^ 16) }
  | .mailbox k off => s.mailboxWrite k (off / 8 * 8) v
  | .lp6ring .. | .kick _ | .sramring .. | .hubRing _ | .monst _ => s

/-- A write of bytes within eight; none where no register lies. -/
def State.hubRegWrite (s : State) (pa : Nat) (bs : List Byte) : Option State :=
  (hubReg (pa / 8 * 8)).map fun r =>
    let old := match r with
      | .monst c => (s.cluster c).monst
      | r => (r.read s).1
    let k := pa % 8
    let n := bs.length
    let v := old.toNat - bits old.toNat (8 * k) (8 * n) * 2 ^ (8 * k) + leNat bs % 2 ^ (8 * n) * 2 ^ (8 * k)
    r.write s v ((2 ^ n - 1) * 2 ^ k)

end Sys2Proof.Machine
end

