-- ==== Sys2Proof/Machine/Flags.lean ====
section
/-! DEFINITION. Number formats, exact values, rounding with its flags, conversions, sums and transcendentals (R206 to R220). -/
namespace Sys2Proof.Machine

/-! ## Exact values -/

/-- An exact real, an infinity or a NaN; `fin neg n d e` is ±(n / d) × 2^e with n and d above 0. -/
inductive Num where
  | nan
  | inf (neg : Bool)
  | zero (neg : Bool)
  | fin (neg : Bool) (n d : Nat) (e : Int)
deriving DecidableEq, Repr

/-- The value n × 2^e of an integer n. -/
def Num.ofInt (x : Int) (e : Int := 0) : Num :=
  if x = 0 then .zero false else .fin (decide (x < 0)) x.natAbs 1 e

def Num.neg? : Num → Bool
  | .nan => false
  | .inf s | .zero s | .fin s _ _ _ => s

def Num.neg : Num → Num
  | .nan => .nan
  | .inf s => .inf (!s)
  | .zero s => .zero (!s)
  | .fin s n d e => .fin (!s) n d e

def Num.abs (x : Num) : Num := if x.neg? then x.neg else x

def Num.isFinite : Num → Bool
  | .zero _ | .fin .. => true
  | _ => false

/-! ## Flags (R213) -/

abbrev Flags := BitVec 6
def fNX : Flags := 1
def fUF : Flags := 2
def fOF : Flags := 4
def fDZ : Flags := 8
def fNV : Flags := 16
def fIS : Flags := 32

/-- A result with the flags it sets. -/
abbrev Flagged (α : Type) := α × Flags

/-! ## Formats (R206 to R209) -/

/-- A floating-point format: width, precision, bias. -/
structure Fmt where
  width : Nat
  p : Nat
  bias : Nat
  hasInf : Bool
deriving DecidableEq, Repr

def fmtFP32 : Fmt := ⟨32, 24, 127, true⟩
def fmtFP16 : Fmt := ⟨16, 11, 15, true⟩
def fmtBF16 : Fmt := ⟨16, 8, 127, true⟩
def fmtFP8E4 : Fmt := ⟨8, 4, 7, false⟩
def fmtFP8E5 : Fmt := ⟨8, 3, 15, true⟩

def Tag.fmt? : Tag → Option Fmt
  | .fp32 => some fmtFP32
  | .fp16 => some fmtFP16
  | .bf16 => some fmtBF16
  | .fp8e4 => some fmtFP8E4
  | .fp8e5 => some fmtFP8E5
  | .empty | .int32 | .int16 | .int8 | .uint8 | .idx | .poison => none

def Tag.isFloat (t : Tag) : Bool := t.fmt?.isSome
def Tag.isInt : Tag → Bool
  | .int32 | .int16 | .int8 | .uint8 | .idx => true
  | .empty | .fp32 | .fp16 | .bf16 | .fp8e4 | .fp8e5 | .poison => false

/-- Element bits of a tag (R187); 32 for EMPTY and POISON, which have no elements. -/
def Tag.width : Tag → Nat
  | .fp16 | .bf16 | .int16 => 16
  | .fp8e4 | .fp8e5 | .int8 | .uint8 => 8
  | .empty | .fp32 | .int32 | .idx | .poison => 32

/-- Lanes of a tag (R8, R187). -/
def Tag.lanes (t : Tag) : Nat := 2048 / t.width

def Tag.code : Tag → Nat
  | .empty => 0 | .fp32 => 1 | .fp16 => 2 | .bf16 => 3 | .fp8e4 => 4 | .fp8e5 => 5
  | .int32 => 6 | .int16 => 7 | .int8 => 8 | .uint8 => 9 | .idx => 10 | .poison => 11

def Tag.ofCode : Nat → Option Tag
  | 0 => some .empty | 1 => some .fp32 | 2 => some .fp16 | 3 => some .bf16 | 4 => some .fp8e4 | 5 => some .fp8e5
  | 6 => some .int32 | 7 => some .int16 | 8 => some .int8 | 9 => some .uint8 | 10 => some .idx | 11 => some .poison
  | _ => none

/-- Fraction bits. -/
def Fmt.f (m : Fmt) : Nat := m.p - 1
/-- The all-ones exponent. -/
def Fmt.emax (m : Fmt) : Nat := 2 ^ (m.width - m.p) - 1
def Fmt.signBit (m : Fmt) : Nat := 2 ^ (m.width - 1)
/-- The largest finite magnitude's pattern (R208). -/
def Fmt.maxPat (m : Fmt) : Nat := if m.hasInf then m.emax * 2 ^ m.f - 1 else m.emax * 2 ^ m.f + 2 ^ m.f - 2
def Fmt.infPat (m : Fmt) : Nat := m.emax * 2 ^ m.f
/-- The canonical NaN (R208). -/
def Fmt.nanPat (m : Fmt) : Nat := if m.hasInf then m.emax * 2 ^ m.f + 2 ^ (m.f - 1) else m.emax * 2 ^ m.f + 2 ^ m.f - 1

/-- The value of a pattern (R207). -/
def Fmt.value (m : Fmt) (x : Nat) : Num :=
  let s := bit x (m.width - 1)
  let e := bits x m.f (m.width - m.p)
  let fr := x % 2 ^ m.f
  if e = 0 then
    if fr = 0 then .zero s else .fin s fr 1 (1 - (m.bias : Int) - m.f)
  else if e = m.emax && (if m.hasInf then true else fr = 2 ^ m.f - 1) then
    if m.hasInf && fr = 0 then .inf s else .nan
  else .fin s (2 ^ m.f + fr) 1 ((e : Int) - m.bias - m.f)

/-- The integer value of an element of an integer tag (R209). -/
def intValue (t : Tag) (x : Nat) : Int :=
  match t with
  | .uint8 => (x % 256 : Nat)
  | .idx => (x % 2 ^ 32 : Nat)
  | t => sext x t.width

/-- The value of an element of any tag. -/
def elemValue (t : Tag) (x : Nat) : Num :=
  match t.fmt? with
  | some m => m.value x
  | none => Num.ofInt (intValue t x)

/-! ## Rounding (R210, R211) -/

/-- Rounding modes (R210). -/
inductive Mode where
  | rne | rtz | rdn | rup | rna
deriving DecidableEq, Repr

def Mode.ofCode : Nat → Option Mode
  | 0 => some .rne | 1 => some .rtz | 2 => some .rdn | 3 => some .rup | 4 => some .rna
  | _ => none

/-- ⌊log2 (n / d)⌋. -/
def floorLog (n d : Nat) : Int :=
  let k : Int := (n.log2 : Int) - d.log2
  let ge : Bool := if k ≥ 0 then d * 2 ^ k.toNat ≤ n else d ≤ n * 2 ^ (-k).toNat
  if ge then k else k - 1

/-- n / d × 2^e in units of 2^q, rounded by the mode; the answer says whether it was exact. -/
def roundUnits (mode : Mode) (neg : Bool) (n d : Nat) (e q : Int) : Nat × Bool :=
  let k := e - q
  let num := if k ≥ 0 then n * 2 ^ k.toNat else n
  let den := if k ≥ 0 then d else d * 2 ^ (-k).toNat
  let lo := num / den
  let r := num % den
  let up : Bool := match mode with
    | .rtz => false
    | .rdn => neg
    | .rup => !neg
    | .rne => if 2 * r = den then lo % 2 = 1 else decide (den < 2 * r)
    | .rna => decide (den ≤ 2 * r)
  (if r ≠ 0 && up then lo + 1 else lo, r = 0)

/-- Round(fmt, x, mode, sat) of R211: the pattern and the flags it sets. -/
def roundTo (m : Fmt) (x : Num) (mode : Mode := .rne) (sat : Bool := false) : Flagged Nat :=
  let signed (neg : Bool) (p : Nat) : Nat := if neg then p + m.signBit else p
  match x with
  | .nan => (m.nanPat, 0)
  | .inf s => if sat then (signed s m.maxPat, 0) else if m.hasInf then (signed s m.infPat, 0) else (m.nanPat, fNV)
  | .zero s => (signed s 0, 0)
  | .fin s n d e =>
    let l := floorLog n d + e
    let sub : Int := 1 - (m.bias : Int) - m.f
    let qt := l - m.f
    let q := max qt sub
    let (y, exact) := roundUnits mode s n d e q
    let (t, _) := roundUnits mode s n d e qt
    let tiny : Bool := l + (if t = 2 ^ m.p then 1 else 0) < sub + m.f
    let nx : Flags := if exact then 0 else fNX
    let uf : Flags := if tiny && !exact then fUF else 0
    let (y, q) := if y = 2 ^ m.p then (2 ^ m.f, q + 1) else (y, q)
    let biased : Int := if y < 2 ^ m.f then 0 else q - sub + 1
    let pat : Nat := if y < 2 ^ m.f then y else biased.toNat * 2 ^ m.f + (y - 2 ^ m.f)
    if pat ≤ m.maxPat then (signed s pat, nx ||| uf)
    else
      let fl := nx ||| fOF ||| fNX
      let keep : Bool := mode = .rtz || (mode = .rdn && !s) || (mode = .rup && s)
      if sat || keep then (signed s m.maxPat, fl)
      else if m.hasInf then (signed s m.infPat, fl)
      else (m.nanPat, fl)

def roundFP32 (x : Num) : Flagged Nat := roundTo fmtFP32 x

/-- A value rounded to an integer and clamped into a range (R212, float to integer). -/
def roundInt (x : Num) (mode : Mode) (lo hi : Int) : Flagged Int :=
  match x with
  | .nan => (0, fNV)
  | .inf s => (if s then lo else hi, fNV)
  | .zero _ => (0, 0)
  | .fin s n d e =>
    let (k, exact) := roundUnits mode s n d e 0
    let v : Int := if s then -(k : Int) else k
    if v < lo then (lo, fNV) else if v > hi then (hi, fNV) else (v, if exact then 0 else fNX)

/-- The range of an integer tag (R209). -/
def intRange (t : Tag) : Int × Int :=
  match t with
  | .int32 => (-2 ^ 31, 2 ^ 31 - 1)
  | .int16 => (-32768, 32767)
  | .int8 => (-128, 127)
  | .uint8 => (0, 255)
  | .idx => (0, 2 ^ 32 - 1)
  | .empty | .fp32 | .fp16 | .bf16 | .fp8e4 | .fp8e5 | .poison => (0, 0)

def toPat (w : Nat) (x : Int) : Nat := (x % (2 ^ w : Nat)).toNat

/-- A conversion (R212) of an element pattern from one tag to another; an infinity saturates even where the tags are equal (R238; DEDUCED,
log 153). -/
def convert (src dst : Tag) (mode : Mode) (sat : Bool) (x : Nat) : Flagged Nat :=
  match dst.fmt? with
  | some m => roundTo m (elemValue src x) mode sat
  | none =>
    let (lo, hi) := intRange dst
    match src.fmt? with
    | some m =>
      let (v, f) := roundInt (m.value x) mode lo hi
      (toPat dst.width v, f)
    | none =>
      let v := intValue src x
      if sat then
        if v < lo then (toPat dst.width lo, fIS) else if v > hi then (toPat dst.width hi, fIS) else (toPat dst.width v, 0)
      else (toPat dst.width v, 0)

/-! ## Exact arithmetic -/

/-- The exact sum; an exact zero of operands of opposite sign is +0, under RDN −0 (R208). -/
def Num.add (x y : Num) (mode : Mode := .rne) : Flagged Num :=
  match x, y with
  | .nan, _ | _, .nan => (.nan, 0)
  | .inf a, .inf b => if a = b then (.inf a, 0) else (.nan, fNV)
  | .inf a, _ => (.inf a, 0)
  | _, .inf b => (.inf b, 0)
  | .zero a, .zero b => (.zero (if a = b then a else mode = .rdn), 0)
  | .zero _, y => (y, 0)
  | x, .zero _ => (x, 0)
  | .fin a n d e, .fin b n' d' e' =>
    let q := min e e'
    let u : Int := (n * d' * 2 ^ (e - q).toNat : Nat)
    let v : Int := (n' * d * 2 ^ (e' - q).toNat : Nat)
    let t := (if a then -u else u) + (if b then -v else v)
    if t = 0 then (.zero (mode = .rdn), 0) else (.fin (decide (t < 0)) t.natAbs (d * d') q, 0)

/-- The exact product; 0 × ∞ is NaN with NV. -/
def Num.mul (x y : Num) : Flagged Num :=
  let s := x.neg? != y.neg?
  match x, y with
  | .nan, _ | _, .nan => (.nan, 0)
  | .inf _, .zero _ | .zero _, .inf _ => (.nan, fNV)
  | .inf _, _ | _, .inf _ => (.inf s, 0)
  | .zero _, _ | _, .zero _ => (.zero s, 0)
  | .fin _ n d e, .fin _ n' d' e' => (.fin s (n * n') (d * d') (e + e'), 0)

/-- The exact quotient of finite values; by zero an infinity, of zero by zero NaN. -/
def Num.div (x y : Num) : Num :=
  let s := x.neg? != y.neg?
  match x, y with
  | .nan, _ | _, .nan => .nan
  | .inf _, .inf _ => .nan
  | .inf _, _ => .inf s
  | .zero _, .zero _ => .nan
  | .zero _, _ | _, .inf _ => .zero s
  | .fin .., .zero _ => .inf s
  | .fin _ n d e, .fin _ n' d' e' => .fin s (n * d') (d * n') (e - e')

/-- What an exact sum has taken in (R219, R243): independent of order. -/
structure SumAcc where
  nan : Bool := false
  pinf : Bool := false
  ninf : Bool := false
  /-- the sum of the finite terms; none before the first -/
  fin : Option Num := none
deriving DecidableEq, Repr

def SumAcc.push (a : SumAcc) (x : Num) : SumAcc :=
  match x with
  | .nan => { a with nan := true }
  | .inf s => if s then { a with ninf := true } else { a with pinf := true }
  | x => { a with fin := some (match a.fin with
      | none => x
      | some y => (Num.add y x).1) }

/-- A NaN term gives NaN; infinities of both signs NaN with NV; one infinity itself; no term +0. -/
def SumAcc.value (a : SumAcc) : Flagged Num :=
  if a.pinf && a.ninf then (.nan, fNV) else if a.nan then (.nan, 0)
  else if a.pinf then (.inf false, 0) else if a.ninf then (.inf true, 0) else (a.fin.getD (.zero false), 0)

/-- The exact sum of a list. -/
def sumNum (xs : List Num) : Flagged Num := (xs.foldl SumAcc.push {}).value

/-- Numeric order of two values that are not NaN; zeros are equal. -/
def Num.lt (x y : Num) : Bool :=
  match (Num.add x.neg y).1 with
  | .fin s _ _ _ | .inf s => !s
  | .nan => match x, y with
    | .inf a, .inf b => a && !b
    | _, _ => false
  | .zero _ => false

def Num.eq (x y : Num) : Bool :=
  match x, y with
  | .nan, _ | _, .nan => false
  | .inf a, .inf b => a = b
  | x, y => match (Num.add x y.neg).1 with
    | .zero _ => true
    | _ => false

/-! ## Transcendentals (R215): enclosures to 2^-620, then one rounding (log 6) -/

/-- Fraction bits of the fixed-point computations. -/
def fix : Nat := 640

/-- ln 2 in units of 2^-fix: 2 × Σ 1 / ((2k + 1) 3^(2k + 1)). -/
def atanhSeries (z z2 : Nat) : Nat → Nat → Nat → Nat
  | 0, _, acc => acc
  | n + 1, k, acc => atanhSeries (z * z2 / 2 ^ fix) z2 n (k + 2) (acc + z / k)
def ln2Fix : Nat := 2 * atanhSeries (2 ^ fix / 3) (2 ^ fix / 9) 210 1 0

/-- e^y for 0 ≤ y < 1 in units of 2^-fix. -/
def expSeries (y : Nat) : Nat → Nat → Nat → Nat → Nat
  | 0, _, _, acc => acc
  | n + 1, k, term, acc => expSeries y n (k + 1) (term * y / 2 ^ fix / k) (acc + term)
def expFix (y : Nat) : Nat := expSeries y 130 1 (2 ^ fix) 0

/-- A computed value: n in units of 2^(e), not exact. -/
def sticky (neg : Bool) (n : Nat) (e : Int) : Num := .fin neg (2 * n + 1) 1 (e - 1)

/-- x in units of 2^-fix, of magnitude at most 2^10 (larger ones are cut there, where every result has saturated). -/
def toFix (n d : Nat) (e : Int) : Nat :=
  min (2 ^ (fix + 10)) (let k := e + fix; if k ≥ 0 then (if k > 2 * fix then 2 ^ (fix + 10) else n * 2 ^ k.toNat / d) else n / (d * 2 ^ (-k).toNat))

/-- 2^(v / 2^fix), for v with a sign: mantissa in units of 2^-fix and the power of two. -/
def exp2Fix (neg : Bool) (v : Nat) : Nat × Int :=
  let k := v / 2 ^ fix
  let r := v % 2 ^ fix
  if neg then
    if r = 0 then (2 ^ fix, -(k : Int)) else (expFix ((2 ^ fix - r) * ln2Fix / 2 ^ fix), -(k : Int) - 1)
  else (expFix (r * ln2Fix / 2 ^ fix), k)

/-- The value is an integer power of 2 times nothing else: n / d × 2^e with n / d a power of two. -/
def isPow2 (n d : Nat) : Bool := n = 2 ^ n.log2 * 1 && d = 2 ^ d.log2

def isInteger (n d : Nat) (e : Int) : Bool :=
  if e ≥ 0 then n * 2 ^ e.toNat % d = 0 else n % (d * 2 ^ (-e).toNat) = 0

def exp2Num (x : Num) : Num :=
  match x with
  | .nan => .nan
  | .inf s => if s then .zero false else .inf false
  | .zero _ => .fin false 1 1 0
  | .fin s n d e =>
    let (m, k) := exp2Fix s (toFix n d e)
    if isInteger n d e then .fin false 1 1 k else sticky false m (k - fix)

/-- e^x. -/
def expNum (x : Num) : Num :=
  match x with
  | .nan => .nan
  | .inf s => if s then .zero false else .inf false
  | .zero _ => .fin false 1 1 0
  | .fin s n d e =>
    let (m, k) := exp2Fix s (toFix n d e * 2 ^ fix / ln2Fix)
    sticky false m (k - fix)

def log2Num (x : Num) : Flagged Num :=
  match x with
  | .nan => (.nan, 0)
  | .zero _ => (.inf true, fDZ)
  | .inf s => if s then (.nan, fNV) else (.inf false, 0)
  | .fin true .. => (.nan, fNV)
  | .fin false n d e =>
    let l := floorLog n d
    let k := l + e
    if isPow2 n d then (Num.ofInt k, 0)
    else
      -- m = n / d × 2^-l lies in (1, 2); ln m = 2 atanh((m − 1) / (m + 1))
      let a := if l ≥ 0 then n else n * 2 ^ (-l).toNat
      let b := if l ≥ 0 then d * 2 ^ l.toNat else d
      let z := (a - b) * 2 ^ fix / (a + b)
      let lnm := 2 * atanhSeries z (z * z / 2 ^ fix) 220 1 0
      let fr := lnm * 2 ^ fix / ln2Fix
      let t : Int := k * 2 ^ fix + fr
      (sticky (decide (t < 0)) (if t < 0 then (-t - 1).toNat else t.toNat) (-(fix : Int)), 0)

def rcpNum (x : Num) : Flagged Num :=
  match x with
  | .nan => (.nan, 0)
  | .zero s => (.inf s, fDZ)
  | .inf s => (.zero s, 0)
  | .fin s n d e => (.fin s d n (-e), 0)

/-- √(n / d × 2^e): exact where it is rational. -/
def sqrtFin (n d : Nat) (e : Int) : Num :=
  let (n, e) := if e % 2 = 0 then (n, e) else (2 * n, e - 1)
  let v := n * d * 4 ^ fix
  let r := Nat.sqrt v
  -- √(n/d) = √(n d) / d
  if r * r = v then .fin false r d (e / 2 - fix) else .fin false (2 * r + 1) d (e / 2 - fix - 1)

def sqrtNum (x : Num) : Flagged Num :=
  match x with
  | .nan => (.nan, 0)
  | .zero s => (.zero s, 0)
  | .inf s => if s then (.nan, fNV) else (.inf false, 0)
  | .fin true .. => (.nan, fNV)
  | .fin false n d e => (sqrtFin n d e, 0)

def rsqrtNum (x : Num) : Flagged Num :=
  match x with
  | .nan => (.nan, 0)
  | .zero s => (.inf s, fDZ)
  | .inf s => if s then (.nan, fNV) else (.zero false, 0)
  | .fin true .. => (.nan, fNV)
  | .fin false n d e => (sqrtFin d n (-e), 0)

/-- 1 / (1 + e^-x). -/
def sigNum (x : Num) : Num :=
  match x with
  | .nan => .nan
  | .inf s => if s then .zero false else .fin false 1 1 0
  | .zero _ => .fin false 1 1 (-1)
  | .fin s n d e =>
    let (m, k) := exp2Fix s (toFix n d e * 2 ^ fix / ln2Fix)
    -- e^x = m × 2^(k − fix); the value is e^x / (1 + e^x)
    if k ≥ 0 then
      let ex := m * 2 ^ k.toNat
      sticky false (ex * 2 ^ (2 * fix) / (2 ^ fix + ex)) (-(2 * fix : Int))
    else
      let den := 2 ^ (fix + (-k).toNat) + m
      sticky false (m * 2 ^ (3 * fix) / den) (-(3 * fix : Int))

def tanhNum (x : Num) : Num :=
  match x with
  | .nan => .nan
  | .inf s => .fin s 1 1 0
  | .zero s => .zero s
  | .fin s n d e =>
    let (m, k) := exp2Fix false (2 * toFix n d e * 2 ^ fix / ln2Fix)
    let ex := m * 2 ^ k.toNat
    -- a tiny x has tanh x = x − x³/3 + …, below x by less than its last place
    if e + floorLog n d < -200 then .fin s (n * 2 ^ 400 - 1) d (e - 400)
    else sticky s ((ex - 2 ^ fix) * 2 ^ fix / (ex + 2 ^ fix)) (-(fix : Int))

/-! ## The ordering of R229 -/

/-- A key that orders patterns of a float format with −0 below +0; NaN has none. -/
def floatKey (m : Fmt) (x : Nat) : Option Int :=
  match m.value x with
  | .nan => none
  | _ => if bit x (m.width - 1) then some (-((x % m.signBit : Nat) : Int) - 1) else some ((x % m.signBit : Nat) : Int)

/-- A key that orders the elements of a tag; NaN has none. -/
def elemKey (t : Tag) (x : Nat) : Option Int :=
  match t.fmt? with
  | some m => floatKey m x
  | none => some (intValue t x)

/-! ## Exact block sums (R220) -/

/-- The results of one block: `xs` holds, rank by rank, 64 FP32 patterns; the answer is 64 patterns with the flags of the final
rounding and NV, and for each rank whether its rounding onto the grid was inexact, beside an infinity too
(DEDUCED, log 150). -/
def blockSum (xs : List (List Nat)) : List Nat × Flags × List Bool :=
  let vals := xs.map fun r => r.map fmtFP32.value
  let all := vals.flatten
  let pinf := all.any (· == .inf false)
  let ninf := all.any (· == .inf true)
  if all.any (· == .nan) || (pinf && ninf) then
    (List.replicate 64 fmtFP32.nanPat, if pinf && ninf then fNV else 0, xs.map fun _ => false)
  else
    let e : Int := all.foldl (fun acc x => match x with
      | .fin _ n d e => max acc (floorLog n d + e)
      | _ => acc) (-126)
    let q := e - 53
    let grid (x : Num) : Int × Bool := match x with
      | .fin s n d e =>
        let (k, ex) := roundUnits .rne s n d e q
        (if s then -(k : Int) else k, ex)
      | _ => (0, true)
    let at' (r : List Num) (i : Nat) : Num := r.getD i (.zero false)
    let res := (List.range 64).map fun i =>
      if vals.any fun r => at' r i == .inf false then (fmtFP32.infPat, (0 : Flags))
      else if vals.any fun r => at' r i == .inf true then (fmtFP32.infPat + fmtFP32.signBit, 0)
      else roundFP32 (Num.ofInt (vals.foldl (fun acc r => acc + (grid (at' r i)).1) 0) q)
    (res.map (·.1), res.foldl (fun acc x => acc ||| x.2) 0, vals.map fun r => r.any fun x => !(grid x).2)

end Sys2Proof.Machine
end

