-- ==== Sys2Proof/Machine/Operands.lean ====
section
/-! DEFINITION. Vector operands and lanes, tag checks, and the operands a queue word captures at dispatch (R38, R44, R187 to R189). -/
namespace Sys2Proof.Machine

/-! ## Lanes (R187, R189) -/

/-- Element `i` of a value with elements of `w` bits. -/
def elem (v : BitVec 2048) (w i : Nat) : Nat := bits v.toNat (w * i) w

/-- The elements of a value, `n` of them. -/
def elems (v : BitVec 2048) (w n : Nat) : List Nat := (List.range n).map (elem v w)

/-- A number with `w`-bit elements listed from element 0. -/
def packElems (w : Nat) : List Nat → Nat
  | [] => 0
  | x :: xs => x % 2 ^ w + 2 ^ w * packElems w xs

def ofElems (w : Nat) (xs : List Nat) : BitVec 2048 := BitVec.ofNat 2048 (packElems w xs)

/-- The lanes of a tagged value. -/
def Vec.lanes (v : Vec) : List Nat := elems v.bits v.tag.width v.tag.lanes

/-- The active lanes of a word: all with ME = 0, else the bits of m[MR]. -/
def activeMask (r : Regs) (f : FV) : BitVec 256 := if f.me = 1 then r.mreg f.mr else BitVec.allOnes 256

def isActive (m : BitVec 256) (i : Nat) : Bool := m.getLsbD i

/-- The listed elements with inactive ones 0. -/
def zeroInactive (m : BitVec 256) (xs : List Nat) : List Nat := xs.mapIdx fun i x => if isActive m i then x else 0

/-- A result of tag `t` from its elements, inactive ones 0. -/
def maskedVec (m : BitVec 256) (t : Tag) (xs : List Nat) : Vec := { bits := ofElems t.width (zeroInactive m xs), tag := t }

/-- The OR of the flags of active elements. -/
def activeFlags (m : BitVec 256) (xs : List (Flagged Nat)) : Flags :=
  (xs.mapIdx fun i x => if isActive m i then x.2 else 0).foldl (· ||| ·) 0

/-- A result with the flags of its active elements. -/
def flaggedVec (m : BitVec 256) (t : Tag) (xs : List (Flagged Nat)) : Vec × Flags :=
  (maskedVec m t (xs.map (·.1)), activeFlags m xs)

/-! ## Minimum and maximum (R229) -/

/-- CanonNaN of a tag. -/
def nanOf (t : Tag) : Nat := (t.fmt?.map (·.nanPat)).getD 0

/-- The element that `less` prefers: a NaN loses to a number, two give the canonical NaN. -/
def pickElem (t : Tag) (greater : Bool) (a b : Nat) : Nat :=
  match elemKey t a, elemKey t b with
  | none, none => nanOf t
  | none, some _ => b
  | some _, none => a
  | some x, some y => if (if greater then decide (y ≤ x) else decide (x ≤ y)) then a else b

/-! ## Tag checks (R188) -/

/-- TRAPINFO of FORMAT_MISMATCH: first tag and second (R373); that of the operand at fault and 0 where one is outside its set (DESIGN
CHOICE, log 152). -/
def tagInfo (a : Tag) (b : Tag := .empty) : Word := w64 (a.code + 16 * b.code)

/-- One operand: outside the accepted set FORMAT_MISMATCH, POISON a poison machine check. -/
def checkTag (v : Vec) (ok : Tag → Bool) : M Unit := do
  if v.tag = .poison then throw (.mcheck Cause.poison 0 0 8)
  if !ok v.tag then trap Cause.formatMismatch (tagInfo v.tag)

/-- Two operands of one operation: each accepted, and of equal tags. -/
def checkTags (a b : Vec) (ok : Tag → Bool) : M Unit := do
  checkTag a ok
  checkTag b ok
  if a.tag ≠ b.tag then trap Cause.formatMismatch (tagInfo a.tag b.tag)

/-- Tags 1 to 10. -/
def anyData (t : Tag) : Bool := t != .empty && t != .poison

/-! ## What a queue word captures (R44, R381) -/

/-- The scalar register fields of a word, counted from bit 31 down; words of format FK capture their three fields. -/
def scalarFields : Instr → List (BitVec 5)
  | .vfetch _ f => [f.sa]
  | .vput _ f => [f.sb]
  | .vbcast _ f => if f.var.toNat % 2 = 1 then [f.sb] else [f.sa]
  | .vldAcc _ f => [f.sa]
  | .vstAcc _ f | .argmax _ f | .topk _ f => [f.sb]
  | .smpDraw _ f | .smpAcc _ f => [f.sc]
  | .rng _ f => [f.sa]
  | .tmask _ f => [f.sb]
  | .mma _ f | .mmaSp _ f | .mmaBp _ f => [f.da, f.db]
  | .ldsp _ f | .ldspG _ f | .ldspT _ f | .spfill _ f | .spcopy _ f | .prf _ f | .stsp _ f | .stspS _ f | .stspT _ f | .stspAdd _ f =>
    [f.ofs, f.spa]
  | .cpLaunch _ f | .cpArm _ f | .kvGet _ f | .pimMv _ f | .pimCfg _ f | .collBsum _ f | .collBar _ f | .kvPress _ f | .kvFold _ f
  | .qzRun _ f | .kvPut _ f | .kvPutProvisional _ f | .kvCommit _ f | .kvSquash _ f | .evtSigs _ f | .taskPosts _ f | .tcfg _ f
  | .accOut _ f | .smpCfg _ f => [f.a, f.b, f.c]
  | _ => []

/-- The step register of a run-length word: s[(OFS + 1) mod 32] (R40). -/
def stepField : Instr → Option (BitVec 5)
  | .ldsp _ f | .ldspG _ f | .ldspT _ f | .spfill _ f | .spcopy _ f | .prf _ f | .stsp _ f | .stspS _ f | .stspT _ f | .stspAdd _ f =>
    some (f.ofs + 1)
  | _ => none

/-- The handle registers a word captures. -/
def handleFields : Instr → List (BitVec 4)
  | .ldsp _ f | .ldspG _ f | .ldspT _ f | .prf _ f | .stsp _ f | .stspS _ f | .stspT _ f | .stspAdd _ f => [f.hnd]
  | .cpLaunch _ f => [BitVec.ofNat 4 (bits f.imm.toNat 3 4)]
  | .kvGet _ f | .kvPress _ f | .kvFold _ f | .kvPut _ f | .kvPutProvisional _ f | .kvCommit _ f | .kvSquash _ f | .qzRun _ f
  | .collBsum _ f | .collBar _ f | .evtSigs _ f | .taskPosts _ f => [BitVec.ofNat 4 (bits f.imm.toNat 0 4)]
  | .pimMv _ f =>
    if bit f.imm.toNat 8 then [BitVec.ofNat 4 (bits f.imm.toNat 0 4), BitVec.ofNat 4 (bits f.imm.toNat 4 4)]
    else [BitVec.ofNat 4 (bits f.imm.toNat 0 4)]
  | _ => []

/-- The queue of a word (R43); none for a front-end, system or hint word and for events. -/
def queueOfOp (op : Nat) : Option QName :=
  if 0x40 ≤ op && op ≤ 0x5F then some .l else if 0x60 ≤ op && op ≤ 0x6F then some .s
  else if 0x70 ≤ op && op ≤ 0xDF then some .c else none

/-- The queue that an instruction dispatches to; an unassigned opcode goes nowhere (R45). -/
def queueOf (i : Instr) : Option QName :=
  match i with
  | .unassignedOpcode _ => none
  | i => (encodeWord i).bind fun w => queueOfOp (opOf w).toNat

/-- The captured scalars, in slots. -/
def captureScalars (r : Regs) (i : Instr) : Vector Word 4 :=
  let x := (scalarFields i).map r.sreg
  #v[x.getD 0 0, x.getD 1 0, x.getD 2 0, ((stepField i).map r.sreg).getD 0]

/-- The entry that a queue word becomes at its dispatch (R44). -/
def capture (b : Bank) (i : Instr) (h : Hdr) (pc : BitVec 60) (pos : Nat) (co : Bool) : Entry where
  word := (encodeWord i).getD 0
  guard := guardOf h b
  co := co
  pc := pc
  pos := pos
  sc := captureScalars b.r i
  cp := (handleFields i).map fun n => (n, b.r.hreg n)
  slip := b.csr.qslip

/-- The captured copy of handle operand `k`. -/
def Entry.handle (e : Entry) (k : Nat) : BitVec 4 × Handle := e.cp.getD k (0, {})

/-- Captured scalar `k`. -/
def Entry.s (e : Entry) (k : Fin 4) : Word := e.sc.get k

end Sys2Proof.Machine
end

