-- ==== Sys2Proof/Machine/Scratch.lean ====
section
/-! DEFINITION. Scratchpad: quota, checks, reads, writes, injected errors, watermark waits, layouts (R152, R158 to R165). -/
namespace Sys2Proof.Machine

/-- The slot can be used in the tile's protection mode (R159). -/
def usableSlot (t : Tile) (k : Nat) : Bool := k < 384 && !(t.bankCode && k % 128 ≥ 120)

/-- The slot is in Quota() (R161). -/
def inQuota (t : Tile) (b : Bank) (k : Nat) : Bool :=
  usableSlot t k && b.csr.spFirst.toNat ≤ k && k < b.csr.spFirst.toNat + b.csr.spCount.toNat

/-- The slots of Quota(), ascending. -/
def quotaSlots (t : Tile) (b : Bank) : List Nat := (List.range 384).filter (inQuota t b)

/-- A slot's tag entry; a number beyond the slots has an empty one. -/
def Tile.tag (t : Tile) (k : Nat) : SlotTag := if h : k < 384 then t.tags.get ⟨k, h⟩ else {}
def Tile.setTag (t : Tile) (k : Nat) (x : SlotTag) : Tile :=
  if h : k < 384 then ({ t with tags := t.tags.set k x h }).overArray 5 (8 * k) 8 else t
def Tile.modTag (t : Tile) (k : Nat) (f : SlotTag → SlotTag) : Tile := t.setTag k (f (t.tag k))

/-- The slots meeting [a, a + n). -/
def slotsOf (a n : Nat) : List Nat := (List.range ((a % 4096 + n + 4095) / 4096)).map (a / 4096 + ·)

/-- The first failure of CheckSP for a context, if any (R163). -/
def checkSpFail (t : Tile) (b : Bank) (a n : Nat) (lay fmt : Option Nat) : Option (BitVec 8 × Word) :=
  if a + n > 0x180000 then some (Cause.spQuota, w64 a)
  else
    (slotsOf a n).findSome? fun k =>
      if !inQuota t b k then some (Cause.spQuota, w64 a)
      else
        let e := t.tag k
        if e.v && lay.any (· != e.lay.toNat) then some (Cause.layout, w64 k)
        else if e.v && fmt.any (· != e.fmt.toNat) then some (Cause.formatMismatch, w64 (e.fmt.toNat + 16 * fmt.getD 0))
        else none

/-- The tag entries of the slots that [a, a + n) meets are read, 8 bytes each: after an uncorrectable error the slot has P (R411, log 104). -/
def State.meetTags (s : State) (w : Who) (a n : Nat) : State :=
  let (hit, s) := s.meetArray (Who.tile w) 5 (8 * (a / 4096)) (8 * (slotsOf a n).length) (ctxid16 w)
  (hit.filter (·.ue)).foldl (fun s e => s.modTile (Who.tile w) fun t => t.modTag (e.addr / 8) fun g => { g with p := true }) s

/-- CheckSP (R163). -/
def checkSP (w : Who) (a n : Nat) (lay fmt : Option Nat) : M Unit := do
  modS fun s => s.meetTags w a n
  let s ← get
  match checkSpFail (s.tile (Who.tile w)) (s.bank w) a n lay fmt with
  | none => pure ()
  | some (c, i) => trap c i

/-! ## Errors in the array (R160, R414) -/

/-- At most two lines of the code row of byte `a` hold an uncorrectable error or lie in a bank marked failed (R159, R160). -/
def rowRebuilds (t : Tile) (a : Nat) : Bool :=
  (List.range 32).countP (fun b =>
    t.failedBanks.any (·.toNat == a / 0x80000 * 32 + b) || t.bad.any fun x => x.2 && x.1 / 64 == a / 2048 * 32 + b) ≤ 2

/-- The errors that a read of [a, a + n) meets are corrected, rebuilt or left as P on the slot, and logged (R160). -/
def State.meetErrors (s : State) (w : Who) (a n : Nat) : State :=
  let t := Who.tile w
  let was := s.tile t
  let hit := was.bad.filter fun x => a ≤ x.1 + 7 && x.1 < a + n
  hit.foldl (fun s x =>
    let syn : BitVec 16 := (Config.secdedSyndrome x.1 x.2).zeroExtend 16
    if !x.2 then s.tileLog t 0 1 (w64 x.1) (ctxid16 w) syn
    else if was.bankCode && rowRebuilds was x.1 then s.tileLog t 0 3 (w64 x.1) (ctxid16 w) (Config.rebuildSymbols x.1)
    else
      ((s.tileLog t 0 2 (w64 x.1) (ctxid16 w) syn).modTile t fun y =>
        { y.modTag (x.1 / 4096) (fun e => { e with p := true }) with health := { y.health with arr := false } }))
    (if hit.isEmpty then s else s.modTile t fun y => { y with bad := y.bad.filter fun x => !(a ≤ x.1 + 7 && x.1 < a + n) })

/-! ## Reads and writes -/

/-- Bytes read from the scratchpad, a discarded slot reading as zeros, with whether a slot read has P set (R163). -/
def spRead (w : Who) (a n : Nat) : M (List Byte × Bool) := do
  modT w fun t => t.inject a n true
  modS fun s => s.meetErrors w a n
  let t ← getT w
  let ks := slotsOf a n
  if ks.any fun k => (t.tag k).x then modS fun s => s.modBank w fun b => b.setDisc s.now
  let bs := (memRead t.sp a n).mapIdx fun i x => if (t.tag ((a + i) / 4096)).x then 0 else x
  return (bs, ks.any fun k => !(t.tag k).x && (t.tag k).p)

/-- A read that raises a poison machine check at a slot with P = 1 (R163). -/
def spReadChecked (w : Who) (a n : Nat) : M (List Byte) := do
  let (bs, p) ← spRead w a n
  if p then throw (.mcheck Cause.poison (w64 a) (w64 a) 0)
  return bs

/-- A slot has come back from an image: its bytes are written anew (R160, R391). -/
def Tile.slotWritten (t : Tile) (k : Nat) : Tile :=
  { t with bad := t.bad.filter fun x => x.1 / 4096 != k }.inject (4096 * k) 4096 false

/-- Bytes written to the scratchpad; data marked POISON sets P (R163). -/
def spWrite (w : Who) (a : Nat) (bs : List Byte) (poison : Bool := false) : M Unit :=
  modT w fun t =>
    let t := { t with sp := memWrite t.sp a bs, bad := t.bad.filter fun x => !(a ≤ x.1 && x.1 + 8 ≤ a + bs.length) }
    let t := t.inject a bs.length false
    if poison then (slotsOf a bs.length).foldl (fun t k => t.modTag k fun e => { e with p := true }) t else t

/-- Clears F of the slots meeting a range (R172). -/
def clearFilling (w : Who) (a n : Nat) : M Unit :=
  modT w fun t => (slotsOf a n).foldl (fun t k => t.modTag k fun e => { e with f := false }) t

/-! ## Entries of the copy engine and their order (R153, R176, R177) -/

def cpEntryMem (e : BitVec 256) : Nat := bits e.toNat 0 64
def cpEntrySp (e : BitVec 256) : Nat := bits e.toNat 64 32
def cpEntryHandle (e : BitVec 256) : Fin 16 := ⟨bits e.toNat 96 4, by unfold bits; omega⟩
/-- DIR: to memory. -/
def cpEntryOut (e : BitVec 256) : Bool := bit e.toNat 100
def cpEntryConv (e : BitVec 256) : Nat := bits e.toNat 101 3
def cpEntryEs (e : BitVec 256) : Nat := bits e.toNat 104 2
def cpEntryCf (e : BitVec 256) : Bool := bit e.toNat 106
def cpEntryStage (e : BitVec 256) : Nat := bits e.toNat 112 16
/-- R and L. -/
def cpEntryRows (e : BitVec 256) : Nat := bits e.toNat 128 16 + 1
def cpEntryLines (e : BitVec 256) : Nat := bits e.toNat 144 8 + 1
def cpEntryPitch (e : BitVec 256) : Int := sext (bits e.toNat 160 32) 32
def cpEntrySpPitch (e : BitVec 256) : Nat := bits e.toNat 192 32
/-- The layout code of the scratchpad side. -/
def cpEntryLay (e : BitVec 256) : Nat :=
  match cpEntryConv e with
  | 0 => 0
  | 1 | 3 => 1
  | _ => 2

/-- Page offset of memory row `r`. -/
def cpRowOff (e : BitVec 256) (r : Nat) : Nat := (((cpEntryMem e : Int) + r * cpEntryPitch e) % 2 ^ 64).toNat

/-- The stage counter of a running channel lets its next entry be released. -/
def CopyChan.mayRelease (c : CopyChan) : Bool := c.st == .run && (c.entries[c.next]?.any fun e => cpEntryStage e ≤ c.sc)

/-- The scratchpad ranges of an entry. -/
def cpSpRanges (e : BitVec 256) : List (Nat × Nat) :=
  if cpEntryConv e = 0 then (List.range (cpEntryRows e)).map fun r => (cpEntrySp e + r * cpEntrySpPitch e, 64 * cpEntryLines e)
  else (List.range (cpEntryLines e)).map fun l => (cpEntrySp e + 4096 * l, 4096)

/-- SC at which entry `i` of a channel can be released: the largest stage of the entries up to it (R177). -/
def CopyChan.stageOf (c : CopyChan) (i : Nat) : Nat := (c.entries.take (i + 1)).foldl (fun a e => max a (cpEntryStage e)) 0

/-- The word that lets entry `i` be released, by queue and number: the first that raised SC that far (R177). -/
def CopyChan.byWord (c : CopyChan) (i : Nat) : QName × Nat := ((c.advs.find? fun x => c.stageOf i ≤ x.sc).map fun x => (x.q, x.ser)).getD (.l, 0)

/-- The entries not yet released that stage counter `sc` lets be released, by index. -/
def CopyChan.issuable (c : CopyChan) (sc : Nat) : List Nat :=
  ((List.range c.entries.length).drop c.next).takeWhile fun i => c.st == .run && c.stageOf i ≤ sc

/-- Entries of a channel that a word of queue `q` numbered below `k` let be released and that have not completed (R177). -/
def CopyChan.pendingOf (c : CopyChan) (q : QName) (k : Nat) : List (BitVec 256) :=
  let first (x : QName × Nat) : Bool := x.1 == q && x.2 < k
  ((c.fly.filter fun f => first (f.q, f.ser)).map (·.idx) ++ (c.issuable c.sc).filter fun i => first (c.byWord i)).filterMap fun i => c.entries[i]?

/-- The bank of the instance to which engine work belongs: the active one of the context, or the shadow one (R389). -/
def State.ownBank (s : State) (w : Who) (away : Bool) : Bank := if away then ((s.ctx w).shadow).getD {} else s.bank w

/-- Engine work of an instance that stands before word `k` of queue `q` in its order meets [a, a + n) of the scratchpad (R153, R177). -/
def engineBefore (t : Tile) (b : Bank) (w : Who) (away : Bool) (q : QName) (k a n : Nat) : Bool :=
  let meets (r : Nat × Nat) : Bool := max r.1 a < min (r.1 + r.2) (a + n)
  (t.chans.toList.any fun c => c.owner == Who.ctx w && c.away == away && (c.pendingOf q k).any fun e => (cpSpRanges e).any meets) ||
    (q == .l && ((b.pimRuns.any fun r => r.grant.isSome && !r.mem && r.ser < k && meets (r.dst.toNat + 4 * r.mpc, 4 * (r.rows - r.mpc))) ||
      (b.kvRuns.any fun r => r.ser < k && r.spad.any meets) ||
      t.qz.any fun c => c.who == w && c.away == away && c.ser < k && c.spad.any meets))

/-- Such work stands before the head of a queue of the context. -/
def engineHolds (t : Tile) (b : Bank) (w : Who) (q : QName) (a n : Nat) : Bool := engineBefore t b w false q b.ser a n

/-- Work `k` of queue `q` waits for the engine work before it that meets its scratchpad ranges (R153, R177). -/
def engineWait (w : Who) (away : Bool) (q : QName) (k : Nat) (rs : List (Nat × Nat)) : M Unit := do
  let s ← get
  if rs.any fun r => engineBefore (s.tile (Who.tile w)) (s.ownBank w away) w away q k r.1 r.2 then waitFor .other

/-! ## Accesses of the engines to the pair window, in issue order (R157) -/

/-- An address of the pair window. -/
def inPair (pa : Nat) : Bool := spaceOf pa = .pair

/-- A destination or the event word of a quantisation command lies in the pair window. -/
def QzCmd.onPair (c : QzCmd) : Bool := inPair c.hand.base.toNat || inPair c.evHand.base.toNat

/-- Engine work of an instance on the pair window stands before the word that issues as number `k`. -/
def pairBefore (t : Tile) (w : Who) (away : Bool) (k : Nat) : Bool :=
  (t.chans.toList.any fun c => c.owner == Who.ctx w && c.away == away &&
    (c.pendingOf .l k ++ c.pendingOf .s k).any fun e => inPair (c.caps.get (cpEntryHandle e)).base.toNat) ||
    t.qz.any fun c => c.who == w && c.away == away && c.ser < k && c.onPair

/-- An access of the word numbered `k` to the pair window waits for the engine accesses to it that stand before it (R157). -/
def pairWait (w : Who) (away : Bool) (k pa : Nat) : M Unit := do
  if inPair pa && pairBefore ((← get).tile (Who.tile w)) w away k then waitFor .other

/-- The same of an access that a context makes now. -/
def pairTurn (w : Who) (pa : Nat) : M Unit := do pairWait w false (← getB w).ser pa

/-! ## Watermarks (R152, R183) -/

/-- An access through a handle by address in the memory space of a watermark (R152). -/
def vaOf (h : Handle) (off : Nat) : Nat := h.va.toNat + off

/-- A channel of context `c` holds an access of [a, a + n) in its space. -/
def CopyChan.holds (x : CopyChan) (c : Fin 2) (mem : Bool) (a n : Nat) : Bool :=
  x.ofCtx c && x.armed && x.armMem == mem && max (max x.lo x.wm) a < min x.hi (a + n)

/-- A channel of the context holds an access of [a, a + n) in its space. -/
def watermarkHolds (t : Tile) (c : Fin 2) (mem : Bool) (a n : Nat) : Bool := t.chans.toList.any (·.holds c mem a n)

/-- The channels on which an access at a site waits: those that hold it and have not ended its wait. -/
def watermarkBars (s : State) (w : Who) (x : Site) (mem : Bool) (a n : Nat) : List (Fin 8) :=
  (List.finRange 8).filter fun k => ((s.tile (Who.tile w)).chans.get k).holds (Who.ctx w) mem a n &&
    !((s.bank w).wm.any fun y => y.site == x && y.ch == k && y.ended)

/-- Waits at a site are noted. -/
def Bank.noteWm (b : Bank) (x : Site) (ks : List (Fin 8)) : Bank :=
  { b with wm := b.wm ++ (ks.filter fun k => !(b.wm.any fun y => y.site == x && y.ch == k)).map fun k => { site := x, ch := k } }

/-- The access at a site is made: what was ended for it holds for the next one again. -/
def Bank.clearWm (b : Bank) (x : Site) : Bank := if b.wm.isEmpty then b else { b with wm := b.wm.filter (·.site != x) }

def siteOf : QName → Site
  | .l => .l
  | .c => .c
  | .s => .s

/-- An access waits while a watermark of its context holds it, unless that wait has been ended, and an access of the L or S queue to the
scratchpad while earlier engine work of its queue stands before it (R152, R153, R177). -/
def watermarkWait (w : Who) (x : Site) (mem : Bool) (a n : Nat) : M Unit := do
  let s ← get
  if watermarkHolds (s.tile (Who.tile w)) (Who.ctx w) mem a n then
    let ks := watermarkBars s w x mem a n
    if !ks.isEmpty then
      modB w fun b => b.noteWm x ks
      waitFor .other
  if !mem && ((x == .l && engineHolds (s.tile (Who.tile w)) (s.bank w) w .l a n) || (x == .s && engineHolds (s.tile (Who.tile w)) (s.bank w) w .s a n)) then waitFor .other

/-- Some access of a list of scratchpad lines waits at a site. -/
def linesBarred (s : State) (w : Who) (x : Site) (as' : List Nat) : Bool :=
  let t := s.tile (Who.tile w)
  as'.any fun a => watermarkHolds t (Who.ctx w) false a 64 && !(watermarkBars s w x false a 64).isEmpty

/-! ## Layouts (R165) -/

/-- log2 of the columns of a tile with elements of `e` bytes. -/
def colBits (e : Nat) : Nat := if e = 1 then 6 else if e = 2 then 5 else 4

/-- Byte offset in a slot of element (i, c): `lay` 1 MORTON, 2 KMAJ. -/
def tileOffset (lay e i c : Nat) : Nat :=
  if lay = 1 then
    let cb := colBits e
    let m := (List.range 6).foldl (fun acc t =>
      if t < cb then acc + b2n (bit c t) * 2 ^ (2 * t) + b2n (bit i t) * 2 ^ (2 * t + 1) else acc + b2n (bit i t) * 2 ^ (cb + t)) 0
    e * m
  else 64 * e * c + e * i

/-- The 4,096 bytes of a slot that hold the listed rows of 64 bytes, missing rows zero. -/
def placeRows (lay e : Nat) (rows : List (List Byte)) : List Byte :=
  let m : Mem := (rows.zipIdx).foldl (fun m r =>
    (List.range (64 / e)).foldl (fun m c => memWrite m (tileOffset lay e r.2 c) ((r.1.drop (c * e)).take e)) m) []
  memRead m 0 4096

/-- Row `i` of a slot's tile. -/
def takeRow (lay e : Nat) (slot : List Byte) (i : Nat) : List Byte :=
  ((List.range (64 / e)).map fun c => (slot.drop (tileOffset lay e i c)).take e).flatten

end Sys2Proof.Machine
end

