-- ==== Sys2Proof/Machine/MatCore.lean ====
section
/-! DEFINITION. The matrix engine's stream: lines read, chunks folded, the engine shared, freezing (R219, R251 to R262, R267, R271). -/
namespace Sys2Proof.Machine

/-! ## CRC-32 (R267) -/

def crcBits : Nat → Nat → Nat
  | 0, x => x
  | n + 1, x => crcBits n (if x % 2 = 1 then (x / 2) ^^^ 0xEDB88320 else x / 2)

/-- A running CRC over bytes, without the final XOR. -/
def crcUpd (x : Nat) (bs : List Byte) : Nat := bs.foldl (fun x b => crcBits 8 (x ^^^ b.toNat)) x

def crc32 (bs : List Byte) : BitVec 32 := BitVec.ofNat 32 (crcUpd 0xFFFFFFFF bs ^^^ 0xFFFFFFFF)

/-! ## Descriptors and words (R253 to R258) -/

def descBase (d : Word) : Nat := bits d.toNat 0 21
def descFmt (d : Word) : Nat := bits d.toNat 21 4
def descLay (d : Word) : Nat := bits d.toNat 25 3
def descQ (d : Word) : Nat := bits d.toNat 28 4
def descP (d : Word) : Nat := bits d.toNat 32 4
def descAux (d : Word) : Nat := bits d.toNat 36 21
def descTag (d : Word) : Tag := (Tag.ofCode (descFmt d)).getD .empty
/-- Element bytes of a descriptor's format. -/
def descE (d : Word) : Nat := (descTag d).width / 8

/-- The four engine words. -/
inductive MatOp where
  | mma | sp | bp | kat
deriving DecidableEq, Repr

def MatRun.op (r : MatRun) : MatOp :=
  let o := (opOf r.word).toNat
  if o = 0xA4 then .mma else if o = 0xA5 then .sp else if o = 0xA6 then .bp else .kat

def MatRun.ft (r : MatRun) : FT := .ofBody (bodyOf r.word)
/-- K of an FT word (R42). -/
def ftK (f : FT) : Nat := 16 * (f.kc.toNat + 1)
/-- N of `mma.sp` by its code (R255). -/
def ftN (f : FT) : Nat := if f.var = 0 then 6 else if f.var = 1 then 8 else 12

def MatRun.chunks (r : MatRun) : Nat :=
  match r.op with
  | .mma => ftK r.ft / 16
  | .sp => ftK r.ft / 24
  | .bp => ftK r.ft / 48
  | .kat => 4

def MatRun.aLines (r : MatRun) : Nat :=
  match r.op with
  | .mma => 16 * descE r.da
  | .sp => ftN r.ft * descE r.da
  | .bp => 48 * descE r.da
  | .kat => 0

def MatRun.bLines (r : MatRun) : Nat :=
  match r.op with
  | .mma => 16 * descE r.db
  | .sp => ftN r.ft * descE r.db
  | .bp => 6 * descP r.db
  | .kat => 0

/-- C-cycles of a chunk (R258). -/
def MatRun.dur (r : MatRun) : Nat :=
  match r.op with
  | .mma | .sp => max r.aLines r.bLines
  | .bp => 12 * ((descP r.db + 1) / 2) * descE r.da
  | .kat => 16

/-- Index x_i of group `m` (R254). -/
def MatRun.index (r : MatRun) (m i : Nat) : Nat := r.aux.getD (16 * m + i) 0

/-- Address of line `k` of A in chunk `c`. -/
def MatRun.aAddr (r : MatRun) (c k : Nat) : Nat :=
  let e := descE r.da
  match r.op with
  | .mma => descBase r.da + 64 * (16 * e * c + k)
  | .sp => descBase r.da + 64 * (e * (24 * c + r.index c (k / e)) + k % e)
  | .bp => descBase r.da + 64 * (48 * e * c + k)
  | .kat => 0

/-- Address of line `k` of B in chunk `c`. -/
def MatRun.bAddr (r : MatRun) (c k : Nat) : Nat :=
  match r.op with
  | .mma | .sp => descBase r.db + 64 * (r.bLines * c + k)
  | .bp => descBase r.db + 64 * (descQ r.db * (6 * c + k / descP r.db) + k % descP r.db)
  | .kat => 0

/-- The lines of A and of B that the stream reads in its present C-cycle (R258). -/
def MatRun.aNow (r : MatRun) : List Nat :=
  ((List.range r.aLines).filter fun k => k * r.dur / r.aLines = r.u).map (r.aAddr r.chunk)
def MatRun.bNow (r : MatRun) : List Nat := if r.u < r.bLines then [r.bAddr r.chunk r.u] else []

/-- The word still streams. -/
def MatRun.streaming (r : MatRun) : Bool := r.chunk < r.chunks

/-- The run of a context that streams, if any. -/
def streamOf (b : Bank) : Option MatRun := b.c.mats.find? (·.streaming)

/-- The lines that the context's stream reads in this C-cycle; none during a skip (R259, R262). -/
def streamLines (b : Bank) : List Nat :=
  if b.c.mskip > 0 then []
  else match streamOf b with
    | some r => r.aNow ++ r.bNow
    | none => []

/-- A word in flight names tile `z` (R252). -/
def matNames (b : Bank) (z : Nat) : Bool := b.c.mats.any fun r => r.op != .kat && r.ft.z.toNat == z

/-! ## Accumulator tiles (R246, R250, R251) -/

def dimOf (c : BitVec 2) : Nat := if c = 1 then 16 else if c = 2 then 32 else if c = 3 then 64 else 0
def AccTile.nrows (z : AccTile) : Nat := dimOf z.rows
def AccTile.ncols (z : AccTile) : Nat := dimOf z.cols
def AccTile.configured (z : AccTile) : Bool := z.rows != 0 && z.cols != 0
def AccTile.fmt (z : AccTile) : Tag := if z.int then .int32 else .fp32
def AccTile.get (z : AccTile) (i j : Nat) : BitVec 32 := (kvGet z.elems (64 * i + j)).getD 0
def AccTile.set (z : AccTile) (i j : Nat) (v : BitVec 32) : AccTile :=
  { z with elems := if v = 0 then kvDel z.elems (64 * i + j) else kvPut z.elems (64 * i + j) v }
def AccTile.zero (z : AccTile) : AccTile := { z with elems := [], tag := z.fmt }
/-- The tag after a write (R251). -/
def AccTile.touched (z : AccTile) : AccTile := if z.tag = .empty then { z with tag := z.fmt } else z
/-- Banks a shape needs (R246). -/
def banksNeeded (rows cols : Nat) : Nat := max 1 (rows * cols / 512)

def Bank.tileZ (b : Bank) (z : BitVec 4) : AccTile := b.z.get z.toFin
def Bank.modZ (b : Bank) (z : BitVec 4) (f : AccTile → AccTile) : Bank :=
  { b with z := b.z.set z.toNat (f (b.tileZ z)) z.isLt }

/-! ## Folding (R219) -/

/-- Slices of `e` lines each, as numbers. -/
def slices (e : Nat) (ls : List (BitVec 512)) : List Nat :=
  (List.range (ls.length / e)).map fun k => packElems 512 (((ls.drop (e * k)).take e).map (·.toNat))

/-- Element `i` of a slice of a tag. -/
def sliceElem (t : Tag) (x i : Nat) : Num := elemValue t (bits x (t.width * i) t.width)

/-- v_p of a stored byte (R216), given its `p` leading planes as a number. -/
def planeValue (p x : Nat) : Int := sext x p * 2 ^ (8 - p) + if p < 8 then 2 ^ (7 - p) else 0

/-- v_p of element `k` (0–47) and column `c` from the chunk's B lines, six groups of `p` lines. -/
def planeElem (p : Nat) (ls : List (BitVec 512)) (k c : Nat) : Int :=
  let g := k / 8
  planeValue p ((List.range p).foldl (fun acc q =>
    2 * acc + b2n (bit (ls.getD (p * g + q) 0).toNat (8 * c + k % 8))) 0)

/-- The products of one element of a chunk; a K-element that an index list leaves out has none (DEDUCED, log 149). -/
def chunkTerms (r : MatRun) (f : ChunkFold) (i j : Nat) : List Num × Flags :=
  let ta := descTag r.da
  let as' := slices (descE r.da) f.a
  let mulAll (xs : List (Num × Num)) : List Num × Flags :=
    xs.foldr (fun x acc => let (v, fl) := Num.mul x.1 x.2; (v :: acc.1, fl ||| acc.2)) ([], 0)
  match r.op with
  | .mma | .sp =>
    let bs := slices (descE r.db) f.b
    mulAll ((as'.zip bs).map fun x => (sliceElem ta x.1 i, sliceElem (descTag r.db) x.2 j))
  | .bp =>
    mulAll (as'.mapIdx fun k x => (sliceElem ta x i, Num.ofInt (planeElem (descP r.db) f.b k j)))
  | .kat => ([], 0)

/-- The element after the fold of a chunk: pattern and flags (R219). `c` is the old pattern. A bit-plane scale multiplies the finished sum
(DEDUCED, log 148). -/
def foldElem (r : MatRun) (f : ChunkFold) (int : Bool) (c : BitVec 32) (i j : Nat) : BitVec 32 × Flags :=
  let (terms, f1) := chunkTerms r f i j
  let (s, f2) := sumNum terms
  let s := if r.op = .bp && !int then (Num.mul s (fmtBF16.value (r.aux.getD (64 * f.idx + j) 0))) else (s, 0)
  let old := if r.ft.flg.toNat % 2 = 1 && f.idx = 0 then 0 else c.toNat
  if int then
    let v : Int := match s.1 with
      | .fin neg n d e => let k : Int := ((n * 2 ^ e.toNat / d : Nat) : Int); if neg then -k else k
      | _ => 0
    let t := sext old 32 + v
    if t < -2 ^ 31 then (0x80000000, fIS) else if t > 2 ^ 31 - 1 then (0x7FFFFFFF, fIS) else (BitVec.ofInt 32 t, 0)
  else
    let (t, f3) := Num.add (fmtFP32.value old) s.1
    let (p, f4) := roundFP32 t
    (BitVec.ofNat 32 p, f1 ||| f2 ||| s.2 ||| f3 ||| f4)

/-- A tile after a fold, with the flags set. -/
def foldTile (r : MatRun) (f : ChunkFold) (z : AccTile) : AccTile × Flags :=
  let (z', fl) := (List.range z.nrows).foldl (fun acc i =>
    (List.range z.ncols).foldl (fun acc j =>
      let (v, fl) := foldElem r f z.int (acc.1.get i j) i j
      (acc.1.set i j v, acc.2 ||| fl)) acc) (z, (0 : Flags))
  (z'.touched, fl)

/-! ## Known-answer words (R267) -/

def katStep (x : Nat) : Nat := (x / 2) ^^^ (if x % 2 = 1 then 0xB400 else 0)

def katBytes : Nat → Nat → List Int
  | 0, _ => []
  | n + 1, x => let x := katStep x; sext x 8 :: katBytes n x

/-- The CRC that `kat seed` produces. -/
def katCrcOf (seed : BitVec 16) : BitVec 32 :=
  let xs := katBytes 8192 (if seed = 0 then 0xACE1 else seed.toNat)
  let a := (xs.take 4096).toArray
  let b := (xs.drop 4096).toArray
  crc32 ((List.range 4096).flatMap fun ij =>
    let v : Int := (List.range 64).foldl (fun acc k => acc + a.getD (64 * (ij / 64) + k) 0 * b.getD (64 * k + ij % 64) 0) 0
    leBytes (toPat 32 v) 4)

/-! ## The stream within a C-cycle -/

/-- Reads the listed lines; the answer says whether one had P set. -/
def readLines (s : State) (w : Who) : List Nat → List (BitVec 512) × Bool × State
  | [] => ([], false, s)
  | a :: as' =>
    match (spRead w a 64).run.run s with
    | (.ok (bs, p), s) =>
      let (r, q, s) := readLines s w as'
      (BitVec.ofNat 512 (leNat bs) :: r, p || q, s)
    | (.error _, s) => readLines s w as'

def State.modMats (s : State) (w : Who) (f : List MatRun → List MatRun) : State :=
  s.modBank w fun b => b.modC fun c => { c with mats := f c.mats }

/-- The effective priority at the present tile cycle of a word of priority `p` that waits since cycle `t`, and its wait (R261). -/
def agedPrio (s : State) (p t : Nat) : Nat × Nat := (min 7 (p + (s.now - t) / 1024), s.now - t)

/-- The effective priority of a context's waiting matrix word, if one waits (R261). -/
def waitPrio (s : State) (w : Who) : Option (Nat × Nat) :=
  let c := (s.bank w).c
  c.engSince.map fun t =>
    agedPrio s (match streamOf (s.bank w) with
      | some r => r.prio
      | none => c.mprio.toNat) t

/-- The same for the next word of the context, which waits behind its own stream. -/
def nextPrio (s : State) (w : Who) : Option (Nat × Nat) := (s.bank w).c.nextSince.map (agedPrio s (s.bank w).c.mprio.toNat)

/-- The first of two waiting words goes before the second: the greater priority, then the longer wait. -/
def outranks (a b : Nat × Nat) : Bool := b.1 < a.1 || (b.1 = a.1 && b.2 < a.2)

/-- The engine passes at a chunk boundary of `w`'s stream when the other context's waiting word has the greater priority (R261). -/
def State.overtake (s : State) (w : Who) : State :=
  match streamOf (s.bank w), waitPrio s (Who.other w) with
  | some r, some (p, _) =>
    if p > r.prio then
      ((s.modTile (Who.tile w) fun t => { t with engine := some (Who.ctx (Who.other w)) }).modBank w fun b =>
        b.modC fun c => { c with engSince := some s.now }).modBank (Who.other w) fun b => b.modC fun c => { c with engSince := none }
    else s
  | _, _ => s

/-- The waiting word of the other context takes the engine, or it is free (R261). -/
def State.releaseEngine (s : State) (w : Who) : State :=
  match waitPrio s (Who.other w) with
  | some _ =>
    (s.modTile (Who.tile w) fun t => { t with engine := some (Who.ctx (Who.other w)) }).modBank (Who.other w) fun b =>
      b.modC fun c => { c with engSince := none }
  | none => s.modTile (Who.tile w) fun t => { t with engine := none }

/-- The last chunk has streamed: the engine stays for the context's next word where that one goes before the other context's waiting word,
and is released otherwise (R261). -/
def State.passEngine (s : State) (w : Who) : State :=
  match nextPrio s w, waitPrio s (Who.other w) with
  | some a, some b => if outranks a b then s else s.releaseEngine w
  | _, _ => s.releaseEngine w

/-- The stream's part of a C-cycle: the lines of the cycle are read; at the end of a chunk its fold is set for four C-cycles on,
which is before the operand reads of T_c + d_c + 3 (R258). -/
def State.streamTick (s : State) (w : Who) : State :=
  let b := s.bank w
  if b.c.mskip > 0 then s.modBank w fun b => b.modC fun c => { c with mskip := c.mskip - 1 }
  else
    match streamOf b with
    | none => s
    | some r =>
      let (a, p, s) := readLines s w r.aNow
      let (bl, q, s) := readLines s w r.bNow
      let r := { r with bufA := r.bufA ++ a, bufB := r.bufB ++ bl, u := r.u + 1, poisoned := r.poisoned || p || q }
      let last := r.u ≥ r.dur
      let r' := if last then
          { r with chunk := r.chunk + 1, u := 0, bufA := [], bufB := [], folds := r.folds ++ [{ rem := 4, idx := r.chunk, a := r.bufA, b := r.bufB }] }
        else r
      let s := s.modMats w fun ms => ms.map fun m => if m.pos = r.pos then r' else m
      if !last then s else if r'.streaming then s.overtake w else s.passEngine w

/-- The number of accumulator banks that a bank's tiles below `z` hold. -/
def Bank.banksBelow (b : Bank) (z : Nat) : Nat := ((List.range z).map fun k => (b.tileZ (BitVec.ofNat 4 k)).banks).sum

/-- Where a tile stands in the accumulator array: the tiles of the active banks in order of context and number (log 104). -/
def accBase (s : State) (w : Who) (z : BitVec 4) : Nat :=
  2048 * ((if Who.ctx w = 0 then 0 else (s.bank (Who.other w)).banksBelow 16) + (s.bank w).banksBelow z.toNat)

/-- An uncorrectable accumulator error of the context stands that a replay may repair, or none does (R395, R416). -/
def State.setAcc (s : State) (w : Who) (v : Bool) : State :=
  s.modTile (Who.tile w) fun t => { t with health := { t.health with acc := t.health.acc.set (Who.ctx w).val v (Who.ctx w).isLt } }

/-- `n` bytes at offset `off` of an accumulator tile are read. What an uncorrectable error gives is POISON at once, and the error is answered at
the end of the C-cycle, where a replay zeroes the tile again (R270, R271). -/
def State.meetAcc (s : State) (w : Who) (z : BitVec 4) (off n : Nat) : State :=
  let (hit, s) := s.meetArray (Who.tile w) 3 (accBase s w z + off) n (ctxid16 w)
  if hit.any (·.ue) then
    s.modBank w fun b => (b.modZ z fun t => { t with tag := .poison }).modC fun c => { c with accErr := c.accErr ++ [z] }
  else s

/-- `n` bytes at offset `off` of an accumulator tile are written (R414). -/
def State.overAcc (s : State) (w : Who) (z : BitVec 4) (off n : Nat) : State :=
  if (s.tile (Who.tile w)).sound then s else s.modTile (Who.tile w) fun t => t.overArray 3 (accBase s w z + off) n

/-- Bytes of a tile's elements. -/
def AccTile.size (z : AccTile) : Nat := 4 * z.nrows * z.ncols

/-- One fold takes effect (R219, R251, R271); the first chunk of a word with ZF reads nothing of the tile. That of a chunk beyond the last has
taken effect before (R262). -/
def State.foldOne (s : State) (w : Who) (r : MatRun) (f : ChunkFold) : State :=
  if r.chunks ≤ f.idx then s else
  match r.op with
  | .kat => s.modBank w fun b => b.modC fun c =>
      if f.idx ≠ 3 then c else
      let seed := BitVec.ofNat 16 (bodyOf r.word).toNat
      { c with katCrc := some (katCrcOf seed), katSeed := seed }
  | .mma | .sp | .bp =>
    let n := ((s.bank w).tileZ r.ft.z).size
    let fresh := r.ft.flg.toNat % 2 = 1 && f.idx = 0
    let s := (if fresh then s else s.meetAcc w r.ft.z 0 n).overAcc w r.ft.z 0 n
    let z := (s.bank w).tileZ r.ft.z
    let (z', fl) := foldTile r f z
    let open' := (s.bank w).c.window.any (·.replayable)
    let abt := ((s.bank w).inst.map (·.abt)).getD false
    let z' := if r.poisoned && !(open' && abt) then { z' with tag := .poison } else { z' with tag := if z.tag = .poison then .poison else z'.tag }
    s.modBank w fun b =>
      ((b.modZ r.ft.z fun _ => z').setFlags fl).modC fun c =>
        { c with abortReq := c.abortReq || (r.poisoned && open' && abt) }

/-- Folds that fall due at the start of a C-cycle; a word whose last chunk has folded retires. The answer lists the words that
retired: their pushes, positions and grants. -/
def State.foldTick (s : State) (w : Who) : List MatRun × State :=
  let ms := (s.bank w).c.mats
  let s := ms.foldl (fun s r => r.folds.foldl (fun s f => if f.rem ≤ 1 then s.foldOne w r f else s) s) s
  let ms := ms.map fun r => { r with folds := (r.folds.filter fun f => f.rem > 1).map fun f => { f with rem := f.rem - 1 } }
  let gone := ms.filter fun r => !r.streaming && r.folds.isEmpty
  (gone, s.modMats w fun _ => ms.filter fun r => r.streaming || !r.folds.isEmpty)

/-- The fold of a word whose chunks have all folded early: it leaves the tile as it is, and the word retires with it (R262). -/
def MatRun.lastFold (r : MatRun) (rem : Nat) : ChunkFold := { rem, idx := r.chunks, a := [], b := [] }

/-- The chunk in progress is finished and folded at once, and so are folds still due; a word all of whose chunks have folded keeps the
C-cycle of its last fold. The answer says how many C-cycles of the chunk were still ahead (R262). -/
def State.freezeStream (s : State) (w : Who) : Nat × State :=
  let ms := (s.bank w).c.mats
  let skip := (s.bank w).c.mskip
  let ahead := match streamOf (s.bank w) with
    | some r => if r.u > 0 then r.dur - r.u else 0
    | none => 0
  let finish (s : State) (r : MatRun) : State :=
    if r.streaming && r.u > 0 then
      let aRest := ((List.range r.aLines).filter fun k => r.u ≤ k * r.dur / r.aLines).map (r.aAddr r.chunk)
      let bRest := ((List.range r.bLines).filter fun k => r.u ≤ k).map (r.bAddr r.chunk)
      let (a, p, s) := readLines s w aRest
      let (bl, q, s) := readLines s w bRest
      let r := { r with poisoned := r.poisoned || p || q }
      let s := r.folds.foldl (fun s f => s.foldOne w r f) s
      (s.foldOne w r { rem := 0, idx := r.chunk, a := r.bufA ++ a, b := r.bufB ++ bl })
    else r.folds.foldl (fun s f => s.foldOne w r f) s
  let s := ms.foldl finish s
  let ms := ms.map fun r =>
    let chunk := if r.streaming && r.u > 0 then r.chunk + 1 else r.chunk
    let rem := if r.streaming then skip + ahead + 4 else (r.folds.map (·.rem)).foldl max 1
    { r with folds := if chunk < r.chunks then [] else [r.lastFold rem], bufA := [], bufB := [], chunk, u := 0 }
  let s := s.modBank w fun b => b.modC fun c => { c with mats := ms, mskip := skip + ahead, engSince := none, nextSince := none }
  (skip + ahead, if (s.tile (Who.tile w)).engine = some (Who.ctx w) then s.releaseEngine w else s)

end Sys2Proof.Machine
end

