-- ==== Sys2Proof/Machine/Paths.lean ====
section
/-! DEFINITION. Engine accesses to memory, back-invalidation, posted stores, free draws, power grants
(R85, R132, R136, R142, R429 to R431). -/
namespace Sys2Proof.Machine

/-! ## Free values -/

/-- A value that the spec does not state (log 3). -/
def State.draw (s : State) : Word × State := (Config.freeValue s.draws, { s with draws := s.draws + 1 })

/-! ## Marked bytes: a byte and whether it is POISON -/

abbrev MByte := Byte × Bool

def plain (bs : List Byte) : List MByte := bs.map fun b => (b, false)
def bytesOf (bs : List MByte) : List Byte := bs.map (·.1)
def anyPoison (bs : List MByte) : Bool := bs.any (·.2)
def numOf (bs : List MByte) : Nat := leNat (bytesOf bs)

/-! ## The rows of a `pim.mv` (R91, R96, R152) -/

/-- Bytes of one plane of a row of `k` elements. -/
def planeBytes (k : Nat) : Nat := (k + 511) / 512 * 64

/-- The parts of a row that the engine reads: offset and bytes. -/
def PimCfg.parts (c : PimCfg) : List (Nat × Nat) :=
  if c.wf = 3 then [(0, c.p * planeBytes c.k), (c.q * planeBytes c.k, c.k / 24)] else [(0, c.k)]

/-- The memory that the next row reads and, where its result goes to memory, writes: virtual addresses and bytes. -/
def PimRun.memAccesses (r : PimRun) : List (Nat × Nat) :=
  (r.cfg.parts.map fun x => (vaOf r.hw (r.base.toNat + 4096 * r.mpc + x.1), x.2)) ++
    if r.mem then [(vaOf r.hd (r.dst.toNat + 4 * r.mpc), 4)] else []

/-! ## Reads and writes of a context, and of an engine that works for it (R132, R142) -/

/-- Bytes read at their home slices without a lease; the requester's time is left as it is. `n` bounds the lines, and `id` is the requester
of a fill (R81). Where R148 lets several writes be returned the read gives the latest one performed at the home slice (DESIGN CHOICE,
log 135). -/
def State.homeBytes (s : State) (id : BitVec 16) (w : Who) (pa len : Nat) : Nat → List MByte × State
  | 0 => ([], s)
  | n + 1 =>
    if len = 0 then ([], s)
    else
      let k := min len (64 - pa % 64)
      let (bs, s) : List MByte × State :=
        if reaches s pa then
          let (x, _, s) := s.homeRead (pa / 64) (s.bank w).pts id
          ((leBytes (lineBytes x.data (pa % 64) k) k).map fun b => (b, x.poison), s)
        else (List.replicate k (0, true), s.hubLog 13 (w64 pa) (ctxid16 w))
      let (r, s) := s.homeBytes id w (pa + k) (len - k) n
      (bs ++ r, s)

/-- An engine reads for a context; its fills are an engine's (R81). -/
abbrev State.engRead (s : State) (w : Who) (pa len n : Nat) : List MByte × State := s.homeBytes 0xFFFF w pa len n

/-- A context reads, past its first-level cache. -/
abbrev State.ctxRead (s : State) (w : Who) (pa len n : Nat) : List MByte × State := s.homeBytes (ctxid16 w) w pa len n

/-- One ordinary write of a context within a line, seen by the scheduler's watches (R132, R352). A register of the hub is reached through
privileged mappings alone (R73, `prv`); through any other the write is lost as R74 has it (DESIGN CHOICE, log 136). -/
def State.ctxWrite (s : State) (w : Who) (pa : Nat) (bs : List Byte) (poison : Bool := false) (id : BitVec 16 := ctxid16 w)
    (prv : Bool := false) : State :=
  match if prv && spaceOf pa = .hubRegs && pa % 8 + bs.length ≤ 8 then s.hubRegWrite pa bs else none with
  | some s => s
  | none => (s.ordWrite w pa bs poison id).checkEvents (pa / 64)

/-- A write of a context to memory within a line, and its wait for the partner's acknowledgement where it goes to the pair window (R150). -/
def State.pathWrite (s : State) (w : Who) (pa : Nat) (bs : List Byte) (poison : Bool := false) (id : BitVec 16 := ctxid16 w)
    (prv : Bool := false) : State :=
  let s := s.ctxWrite w pa bs poison id prv
  if inPair pa then s.modBank w fun b => { b with pairWait := b.pairWait ++ [{ pa := BitVec.ofNat 52 pa }] } else s

/-- Bytes written at their home slices, line by line, a line marked POISON when a byte written to it is. -/
def State.homePut (s : State) (id : BitVec 16) (w : Who) (pa : Nat) (bs : List MByte) : Nat → State
  | 0 => s
  | n + 1 =>
    if bs.isEmpty then s
    else
      let k := 64 - pa % 64
      let now := bs.take k
      (s.pathWrite w pa (bytesOf now) (anyPoison now) id).homePut id w (pa + k) (bs.drop k) n

/-- An engine writes for a context; its fills are an engine's (R81). -/
abbrev State.engWrite (s : State) (w : Who) (pa : Nat) (bs : List MByte) (n : Nat) : State := s.homePut 0xFFFF w pa bs n

/-- A context writes any number of bytes. -/
abbrev State.ctxPut (s : State) (w : Who) (pa : Nat) (bs : List MByte) (n : Nat) : State := s.homePut (ctxid16 w) w pa bs n

/-! ## Back-invalidation (R85) -/

/-- A write of [pa, pa + len) waits for the host's answer. -/
def snoopHost (pa len : Nat) : M Unit := do
  let (ok, s) := (← get).snoopLines (linesOf pa len)
  set s
  if !ok then waitFor .other

/-- A tile holds another fenced, and its traffic drops what is stamped with it, until the hub has settled that fence; a tile on probation
sends again (R402, R403, R407). -/
def cutOff (s : State) (a b : Tid) : Bool :=
  (s.tile a).knownFenced.contains b && !(s.hub.fenced.contains b || s.hub.retired.contains b || s.hub.probation.contains b)

/-- A request of a context for a line does not reach its home: the home is being changed, or one of the two tiles holds the other fenced,
until the hub has settled that fence (R402, R403, R405). -/
def lineHeld (s : State) (w : Who) (line : Nat) : Bool :=
  homeHeld s line || match (homeOf s line).bind tid? with
    | some h => cutOff s h (Who.tile w) || cutOff s (Who.tile w) h
    | none => false

/-- Accesses to lines wait while their requests do not reach their homes. -/
def remapWait (w : Who) (pa n : Nat) : M Unit := do
  let s ← get
  if (linesOf pa n).any (lineHeld s w) then waitFor .other

/-- A step of an engine that is done whole or not at all: when it must wait, only what it has asked of the host and of the comparator stays. -/
def whole {α : Type} (m : M α) : M α := do
  let s ← get
  match m.run.run s with
  | (.ok a, s') => set s'; return a
  | (.error (.wait k), s') =>
    set { s with
      clusters := s'.clusters, hub := { s.hub with backInv := s'.hub.backInv, out := s'.hub.out }
      ctxs := s.ctxs.zipWith (fun (c d : Ctx) => { c with b := { c.b with wm := d.b.wm, cmpFrom := d.b.cmpFrom } }) s'.ctxs }
    throw (.wait k)
  | (.error x, s') => set s'; throw x

/-! ## Delayed lockstep (R409) -/

/-- An outbound effect of a leading copy waits until the comparator, which is given its signature when it is first held, has released it. -/
def outbound (w : Who) : M Unit := do
  let b ← getB w
  if (b.inst.map (·.lstep)).getD false then
    if b.credit = 0 then
      let now := (← get).now
      modB w fun b => { b with cmpFrom := some (b.cmpFrom.getD now) }
      waitFor .other
    modB w fun b => { b with credit := b.credit - 1 }

/-! ## Posted stores (R136) -/

/-- Posted stores are performed in program order, as far as the host's answers let them. -/
def drainPosted (w : Who) : List Posted → M Unit
  | [] => pure ()
  | p :: ps => do
    remapWait w p.pa.toNat p.bytes.length
    snoopHost p.pa.toNat p.bytes.length
    outbound w
    modS fun s => (s.pathWrite w p.pa.toNat p.bytes (prv := p.prv)).modBank w fun b => { b with posted := b.posted.tail }
    drainPosted w ps

/-- Every earlier posted store is performed first. -/
def postedFirst (w : Who) : M Unit := do drainPosted w (← getB w).posted

/-! ## Governors (R429 to R431, R434) -/

def Cluster.govAt (c : Cluster) (k : Nat) : GovClass := if h : k < 5 then c.gov.get ⟨k, h⟩ else { budget := 0 }
def Cluster.modGov (c : Cluster) (k : Nat) (f : GovClass → GovClass) : Cluster :=
  if h : k < 5 then { c with gov := c.gov.set k (f (c.gov.get ⟨k, h⟩)) h } else c

/-- The head request of `n` units can be granted. -/
def canGrant (g : GovClass) (throttled : Bool) (n : Nat) : Bool :=
  !throttled && g.budget > 0 && (g.used + n ≤ g.budget || g.used = 0)

/-- The request is one of the context. -/
def GrantReq.ofCtx (r : GrantReq) (w : Who) : Bool := r.who == w && r.node.isNone

/-- The governor grants the head request of class `k` when it can. -/
def State.serveGrant (s : State) (c : Cid) (k : Nat) : State :=
  match ((s.cluster c).govAt k).reqs with
  | [] => s
  | r :: rest =>
    if canGrant ((s.cluster c).govAt k) (s.cluster c).throttled r.units then
      let s := s.modCluster c fun x => x.modGov k fun g =>
        { g with used := g.used + r.units, reqs := rest, ready := if r.win = 0 then g.ready ++ [r] else g.ready }
      if r.win = 0 then s
      else s.modBank r.who fun b =>
        { b with pwr := b.pwr.map fun p => if p.serial = r.win && !p.held then { p with held := true, ends := s.now + p.len } else p }
    else s

def State.giveBack (s : State) (c : Cid) (k n : Nat) : State :=
  s.modCluster c fun x => x.modGov k fun g => { g with used := g.used - n }

/-- Units return (R430), to the window they came from while it is held (R431). -/
def State.returnGrant (s : State) (w : Who) (g : Option Grant) : State :=
  match g with
  | none => s
  | some g =>
    match (s.bank w).pwr with
    | some p =>
      if g.win ≠ 0 && p.serial = g.win then s.modBank w fun b => { b with pwr := some { p with inUse := p.inUse - g.units } }
      else s.giveBack (Tid.cluster (Who.tile w)) g.cls g.units
    | none => s.giveBack (Tid.cluster (Who.tile w)) g.cls g.units

/-- The context's window is released, pending or held: its unused units return at once. -/
def State.releaseWindow (s : State) (w : Who) : State :=
  match (s.bank w).pwr with
  | none => s
  | some p =>
    let c := Tid.cluster (Who.tile w)
    let s := if p.held then s.giveBack c p.cls (p.n - p.inUse)
      else s.modCluster c fun x => x.modGov p.cls fun g => { g with reqs := g.reqs.filter fun r => !(r.ofCtx w && r.win == p.serial) }
    s.modBank w fun b => { b with pwr := none }

/-- Windows that have run out are released (R431). -/
def State.windowsEnd (s : State) : State :=
  (List.finRange 144).foldl (fun s w => if (s.bank w).pwr.any fun p => p.held && p.ends ≤ s.now then s.releaseWindow w else s) s

/-- The context's requests for operations leave the queues, and units granted and not yet taken return. -/
def State.dropRequests (s : State) (w : Who) : State :=
  s.modCluster (Tid.cluster (Who.tile w)) fun x =>
    { x with gov := x.gov.map fun g =>
        { g with
          used := g.used - (g.ready.filter (·.ofCtx w)).foldl (fun a r => a + r.units) 0
          reqs := g.reqs.filter fun r => !(r.ofCtx w && r.win == 0)
          ready := g.ready.filter fun r => !r.ofCtx w } }

/-- The context's window is held, has not run out, and has `n` units of the class left. -/
def State.windowFits (s : State) (w : Who) (cls n : Nat) : Option PwrWin :=
  (s.bank w).pwr.filter fun p => p.held && s.now < p.ends && p.cls = cls && p.inUse + n ≤ p.n

/-- A request of the context for `n` units of an operation. -/
def reqOf (w : Who) (n : Nat) (r : GrantReq) : Bool := r.ofCtx w && r.win == 0 && r.units == n

/-- Units of the governor stand granted to an operation of the context. -/
def unitsReady (s : State) (w : Who) (cls n : Nat) : Bool := ((s.cluster (Tid.cluster (Who.tile w))).govAt cls).ready.any (reqOf w n)

/-- An operation asks for units and waits until they are there: granted to it, or left in its window, which it takes without queueing
(R430, R431). -/
def requestUnits (w : Who) (cls n : Nat) : M Unit := do
  let s ← get
  let c := Tid.cluster (Who.tile w)
  if unitsReady s w cls n then return
  if (s.windowFits w cls n).isSome then
    modS fun s => s.modCluster c fun x => x.modGov cls fun g => { g with reqs := g.reqs.eraseP (reqOf w n) }
  else
    if !(((s.cluster c).govAt cls).reqs.any (reqOf w n)) then
      modS fun s => s.modCluster c fun x => x.modGov cls fun g => { g with reqs := g.reqs ++ [{ who := w, units := n }] }
    modS fun s => s.serveGrant c cls
    if !unitsReady (← get) w cls n then waitFor .other

/-- The operation starts: it takes the units granted to it, or units of its window. -/
def takeUnits (w : Who) (cls n : Nat) : M Grant := do
  let s ← get
  match if unitsReady s w cls n then none else s.windowFits w cls n with
  | some p =>
    modB w fun b => { b with pwr := some { p with inUse := p.inUse + n } }
    return { cls, units := n, win := p.serial }
  | none =>
    modS fun s => s.modCluster (Tid.cluster (Who.tile w)) fun x => x.modGov cls fun g => { g with ready := g.ready.eraseP (reqOf w n) }
    return { cls, units := n }

def askGrant (w : Who) (cls n : Nat) : M Grant := do
  requestUnits w cls n
  takeUnits w cls n

end Sys2Proof.Machine
end

