-- ==== Sys2Proof/Machine/KvCore.lean ====
section
/-! DEFINITION. The key-value engine's data: descriptors, block tables, pools, vats, and their updates (R129, R272 to R289). -/
namespace Sys2Proof.Machine

/-! ## The KV-resident region (R129) -/

/-- The tile whose region holds a KV-resident address; an address outside every region reaches no memory (R74, R272). -/
def State.regionTile (s : State) (a : Nat) : Option Tid :=
  (if a < 2 ^ 26 then tid? (a / 2 ^ 19) else none).filter fun t => a % 2 ^ 19 < (s.tile t).kvWays * 65536

/-- The tile whose region holds a KV-resident address, while it can be reached. -/
def State.resTile (s : State) (a : Nat) : Option Tid := (s.regionTile a).filter fun t => serves s t.val

/-- An access of bytes [a, a + n) outside the region is logged (R74, R272). -/
def State.offRegion (s : State) (w : Who) (a n : Nat) : State :=
  if (s.regionTile a).isSome && (s.regionTile (a + n - 1)).isSome then s else s.hubLog 13 (w64 a) (ctxid16 w)

/-- One byte of the region. -/
def State.resByte (s : State) (a : Nat) : MByte :=
  match s.resTile a with
  | none => (0, true)
  | some t => (memGet (s.tile t).kvMem (a % 2 ^ 19), (s.tile t).kvPoison.contains (a % 2 ^ 19 / 64))

/-- One byte written to the region. A line is POISON once a marked byte is written to it, and until it is written whole (R411). -/
def State.setResByte (s : State) (a : Nat) (b : MByte) : State :=
  match s.resTile a with
  | none => s
  | some t => s.modTile t fun x =>
      { x with
        kvMem := memSet x.kvMem (a % 2 ^ 19) b.1
        kvPoison := if b.2 then (a % 2 ^ 19 / 64) :: x.kvPoison.filter (· != a % 2 ^ 19 / 64) else x.kvPoison }

def State.setResBytes (s : State) (a : Nat) : List MByte → State
  | [] => s
  | b :: bs => (s.setResByte a b).setResBytes (a + 1) bs

/-- Lines that are written whole lose their mark first. -/
def State.clearResPoison (s : State) (a len : Nat) : State :=
  ((List.range (len / 64 + 1)).map ((a + 63) / 64 + ·)).foldl (fun s l =>
    if (l + 1) * 64 ≤ a + len then
      match s.resTile (l * 64) with
      | none => s
      | some t => s.modTile t fun x => { x with kvPoison := x.kvPoison.filter (· != l * 64 % 2 ^ 19 / 64) }
    else s) s

/-- The errors that a read of the region meets: corrected, or left as POISON on the line, and logged (R128, R412, R414). -/
def State.resErrors (s : State) (w : Who) (a n : Nat) : State :=
  match s.resTile a with
  | none => s
  | some t =>
    let o := a % 2 ^ 19
    let (hit, s) := s.meetArray t 2 o n (ctxid16 w)
    (hit.filter (·.ue)).foldl (fun s e => s.modTile t fun y => { y with kvPoison := e.addr / 64 :: y.kvPoison.filter (· != e.addr / 64) }) s

/-- A write of the region takes away the errors of the words it writes whole, and may trigger an injection (R414). -/
def State.resWritten (s : State) (a n : Nat) : State :=
  match s.resTile a with
  | none => s
  | some t =>
    let o := a % 2 ^ 19
    s.modTile t fun x => x.overArray 2 o n

/-- A place of the engine: an LP6 physical address, or a KV-resident address. -/
structure KvPlace where
  res : Bool
  addr : Nat
deriving DecidableEq, Repr

def KvPlace.plus (p : KvPlace) (n : Nat) : KvPlace := { p with addr := p.addr + n }

/-- An engine access outside local LP6 and the region reaches no memory (R74, R272). -/
def State.kvRead (s : State) (w : Who) (p : KvPlace) (n : Nat) : List MByte × State :=
  if p.res then
    let s := (s.offRegion w p.addr n).resErrors w p.addr n
    ((List.range n).map fun i => s.resByte (p.addr + i), s)
  else if isLocal (p.addr + n - 1) then s.engRead w p.addr n (n / 64 + 2)
  else (List.replicate n (0, true), s.hubLog 13 (w64 p.addr) (ctxid16 w))

def State.kvWrite (s : State) (w : Who) (p : KvPlace) (bs : List MByte) : State :=
  if p.res then (((s.offRegion w p.addr bs.length).clearResPoison p.addr bs.length).setResBytes p.addr bs).resWritten p.addr bs.length
  else if isLocal (p.addr + bs.length - 1) then s.engWrite w p.addr bs (bs.length / 64 + 2)
  else s.hubLog 13 (w64 p.addr) (ctxid16 w)

/-- A number in LP6. -/
def kvNum (w : Who) (a n : Nat) : M Nat := do
  remapWait w a n
  let (b, s) := (← get).kvRead w ⟨false, a⟩ n
  set s
  return numOf b

def kvSet (w : Who) (a n v : Nat) : M Unit := do
  remapWait w a n
  snoopHost a n
  modS fun s => s.kvWrite w ⟨false, a⟩ (plain (leBytes v n))

/-- The request to another tile's region waits while that tile is stalled (R456). -/
def resWait (p : KvPlace) : M Unit := do
  let s ← get
  if (s.resTile p.addr).any fun t => (s.tile t).stalled then waitFor .other

def kvBytes (w : Who) (p : KvPlace) (n : Nat) : M (List MByte) := do
  if p.res then resWait p else remapWait w p.addr n
  let (b, s) := (← get).kvRead w p n
  set s
  return b

def kvPutBytes (w : Who) (p : KvPlace) (b : List MByte) : M Unit := do
  if p.res then resWait p
  else
    remapWait w p.addr b.length
    snoopHost p.addr b.length
  modS fun s => s.kvWrite w p b

/-! ## Sequence descriptors (R272) -/

/-- A descriptor: its physical address and its fields as one number. -/
structure KvDesc where
  pa : Nat
  x : Nat
deriving DecidableEq, Repr

def KvDesc.at (d : KvDesc) (off n : Nat) : Nat := bits d.x (8 * off) (8 * n)
def KvDesc.tbase (d : KvDesc) : Nat := d.at 0 8
def KvDesc.tstride (d : KvDesc) : Nat := d.at 8 4
def KvDesc.l (d : KvDesc) : Nat := d.at 12 2
def KvDesc.h (d : KvDesc) : Nat := d.at 14 1
def KvDesc.dc (d : KvDesc) : Nat := d.at 15 1
/-- Head dimension. -/
def KvDesc.d (d : KvDesc) : Nat := 16 * d.dc
def KvDesc.pool (d : KvDesc) : Nat := d.at 16 8
def KvDesc.sid (d : KvDesc) : Nat := d.at 24 4
def KvDesc.pend (d : KvDesc) : Nat := d.at 28 2
def KvDesc.closing (d : KvDesc) : Bool := bit (d.at 30 1) 0
def KvDesc.qw (d : KvDesc) : Bool := bit (d.at 30 1) 1
def KvDesc.ns (d : KvDesc) : Nat := d.at 31 1
def KvDesc.table (d : KvDesc) (l : Nat) : Nat := d.tbase + l * d.tstride

/-- The offset of the first field that breaks its limit. -/
def KvDesc.broken (d : KvDesc) : Option Nat :=
  if d.tstride % 64 ≠ 0 then some 8
  else if d.l = 0 || d.l > 4096 then some 12
  else if d.h = 0 || d.h > 64 then some 14
  else if d.dc = 0 || d.dc > 8 then some 15
  else if d.ns > 63 then some 31
  else none

def readDesc (w : Who) (pa : Nat) : M KvDesc := do return { pa, x := ← kvNum w pa 256 }

/-- The checks that every key-value word makes of its descriptor (R281, R282). -/
def descChecks (w : Who) (x : Site) (need : Need) (hn : BitVec 4) (h : Handle) (off : Nat) : M KvDesc := do
  ensure (off % 256 = 0) Cause.misalignedAddr (w64 off)
  let pa ← translateRange need hn h off 256
  watermarkWait w x true (vaOf h off) 256
  modS fun s => s.countLines w h pa 64
  let d ← readDesc w pa
  match d.broken with
  | some k => trap Cause.kvDesc (w64 k)
  | none => return d

/-- SID, PEND and CLOSING, which the hardware writes. -/
def setSid (w : Who) (d : KvDesc) (v : Nat) : M Unit := kvSet w (d.pa + 24) 4 v
def setPend (w : Who) (d : KvDesc) (v : Nat) : M Unit := kvSet w (d.pa + 28) 2 v
def setClosing (w : Who) (d : KvDesc) (v : Bool) : M Unit := do
  let b ← kvNum w (d.pa + 30) 1
  kvSet w (d.pa + 30) 1 (b / 2 * 2 + b2n v)

/-! ## Block tables (R273 to R277) -/

/-- The state word of a table. -/
structure KvState where
  len : Nat
  w : Nat
  fw : Nat
  ch : Nat
deriving DecidableEq, Repr

def KvState.ofNat (x : Nat) : KvState := { len := bits x 0 24, w := bits x 24 16, fw := bits x 40 16, ch := bits x 56 5 }
def KvState.toNat (s : KvState) : Nat := s.len % 2 ^ 24 + s.w % 2 ^ 16 * 2 ^ 24 + s.fw % 2 ^ 16 * 2 ^ 40 + s.ch % 32 * 2 ^ 56
/-- The curd count for `len` positions. -/
def KvState.cn (s : KvState) (len : Nat) : Nat := (len - 256 * s.w + 15) / 16

/-- A block-table entry. -/
structure KvBlock where
  place : KvPlace
  wheel : Bool
  fp8 : Bool
deriving DecidableEq, Repr

def KvBlock.ofNat (x : Nat) : KvBlock :=
  { place := ⟨bit x 65, bits x 0 64⟩, wheel := bit x 64, fp8 := bits x 66 2 = 1 }
/-- The entry with its first position, valid (R275). -/
def KvBlock.toNat (b : KvBlock) (first : Nat) : Nat :=
  b.place.addr % 2 ^ 64 + flag b.wheel 64 + flag b.place.res 65 + flag b.fp8 66 + 2 ^ 68 + first % 2 ^ 24 * 2 ^ 104

def tokensOf (b : KvBlock) : Nat := if b.wheel then 256 else 16
def widthOf (b : KvBlock) : Nat := if b.fp8 then 1 else 2

def readState (w : Who) (t : Nat) : M KvState := do return KvState.ofNat (← kvNum w t 8)
def writeState (w : Who) (t : Nat) (x : KvState) : M Unit := do
  let old ← kvNum w t 8
  kvSet w t 8 (old / 2 ^ 61 * 2 ^ 61 + x.toNat)
def wcap (w : Who) (t : Nat) : M Nat := kvNum w (t + 16) 4
def wheelAddr (t i : Nat) : Nat := t + 64 + 16 * i
def ringAddr (t cap slot : Nat) : Nat := t + 64 + 16 * cap + 16 * (slot % 32)
def deferAddr (t cap k : Nat) : Nat := t + 576 + 16 * cap + 16 * k

/-- The block and the offset that hold position `p`, which is present and not folded (R277). -/
def locate (w : Who) (t : Nat) (s : KvState) (p : Nat) : M (KvBlock × Nat) := do
  if p < 256 * s.w then return (KvBlock.ofNat (← kvNum w (wheelAddr t (p / 256)) 16), p % 256)
  else
    let cap ← wcap w t
    return (KvBlock.ofNat (← kvNum w (ringAddr t cap (s.ch + (p - 256 * s.w) / 16)) 16), p % 16)

/-- Places of K(h, t), V(h, t) and of their scales in a block (R276). -/
def keyPlace (d : KvDesc) (b : KvBlock) (h t : Nat) : KvPlace := b.place.plus ((h * tokensOf b + t) * d.d * widthOf b)
def valPlace (d : KvDesc) (b : KvBlock) (h t : Nat) : KvPlace :=
  b.place.plus ((d.h * tokensOf b + h * tokensOf b + t) * d.d * widthOf b)
def keyScale (d : KvDesc) (b : KvBlock) (h t : Nat) : KvPlace :=
  b.place.plus (2 * d.h * tokensOf b * d.d + 2 * (h * tokensOf b + t))
def valScale (d : KvDesc) (b : KvBlock) (h t : Nat) : KvPlace :=
  b.place.plus (2 * d.h * tokensOf b * d.d + 2 * (d.h * tokensOf b + h * tokensOf b + t))

/-! ## The block pool (R278) -/

/-- Curds (`wheel` false) or wheels of a pool: the offsets of their count, capacity and stack. -/
def poolFree (d : KvDesc) (wheel : Bool) : Nat := d.pool + if wheel then 8 else 0
def poolStack (d : KvDesc) (wheel : Bool) : Nat := d.pool + if wheel then 24 else 16

def freeBlocks (w : Who) (d : KvDesc) (wheel : Bool) : M Nat := kvNum w (poolFree d wheel) 4

/-- Pops a block; the caller has checked that one is free. -/
def popBlock (w : Who) (d : KvDesc) (wheel : Bool) : M KvBlock := do
  let n ← freeBlocks w d wheel
  let stk ← kvNum w (poolStack d wheel) 8
  let x ← kvNum w (stk + 16 * (n - 1)) 16
  kvSet w (poolFree d wheel) 4 (n - 1)
  return { KvBlock.ofNat x with wheel }

/-- Pushes a block; one beyond the capacity is dropped and logged. -/
def pushBlock (w : Who) (d : KvDesc) (b : KvBlock) : M Unit := do
  let n ← freeBlocks w d b.wheel
  let cap ← kvNum w (poolFree d b.wheel + 4) 4
  if n < cap then
    let stk ← kvNum w (poolStack d b.wheel) 8
    kvSet w (stk + 16 * n) 16 (bits (b.toNat 0) 0 68)
    kvSet w (poolFree d b.wheel) 4 (n + 1)
  else modS fun s => s.hubLog 14 (w64 d.pool) (ctxid16 w)

def rdr (w : Who) (t : Nat) : M Nat := kvNum w (t + 8) 4
def dcnt (w : Who) (t : Nat) : M Nat := kvNum w (t + 12) 1

/-- Deferred entries return to the pool, unless a `kv.get` still reads the table. -/
def releaseDeferred (w : Who) (d : KvDesc) (t : Nat) : M Unit := do
  if (← rdr w t) = 0 then
    let n ← dcnt w t
    let cap ← wcap w t
    for k in List.range n do pushBlock w d (KvBlock.ofNat (← kvNum w (deferAddr t cap k) 16))
    if n > 0 then kvSet w (t + 12) 1 0

/-- An entry joins the deferred list. -/
def deferEntry (w : Who) (t cap x : Nat) : M Unit := do
  let n ← dcnt w t
  kvSet w (deferAddr t cap n) 16 x
  kvSet w (t + 12) 1 (n + 1)

/-! ## The vat (R283) -/

def nodeSize (d : KvDesc) : Nat := 64 + 4 * d.l * d.h * d.d

/-- The slot of node `j`. -/
def nodePlace (d : KvDesc) (j : Nat) : KvPlace :=
  if j ≤ d.ns then ⟨true, d.at 32 8 + (j - 1) * nodeSize d⟩ else ⟨false, d.at 40 8 + (j - d.ns - 1) * nodeSize d⟩

def nodeTag (w : Who) (d : KvDesc) (j : Nat) : M Nat := do return numOf (← kvBytes w (nodePlace d j) 4)

/-- The keys of layer `l` and then its values, 4Hd bytes. -/
def nodeData (d : KvDesc) (j l : Nat) : KvPlace := (nodePlace d j).plus (64 + 4 * l * d.h * d.d)

/-! ## Appending (R282, R285) -/

/-- Ring entries of the curds CN to CN' − 1 are written with the blocks popped for them. -/
def addCurds (w : Who) (t : Nat) (s : KvState) (cn : Nat) : List KvBlock → M Unit
  | [] => pure ()
  | b :: bs => do
    let cap ← wcap w t
    kvSet w (ringAddr t cap (s.ch + cn)) 16 ({ b with wheel := false, fp8 := false }.toNat (256 * s.w + 16 * cn))
    addCurds w t s (cn + 1) bs

def popBlocks (w : Who) (d : KvDesc) : Nat → M (List KvBlock)
  | 0 => return []
  | n + 1 => do
    let b ← popBlock w d false
    return b :: (← popBlocks w d n)

/-- The keys and then the values of one token of one layer, 2Hd bytes each, go to position `p`. -/
def putToken (w : Who) (d : KvDesc) (t : Nat) (s : KvState) (p : Nat) (kv : List MByte) : M Unit := do
  let (b, off) ← locate w t s p
  for h in List.range d.h do
    kvPutBytes w (keyPlace d b h off) ((kv.drop (2 * d.d * h)).take (2 * d.d))
    kvPutBytes w (valPlace d b h off) ((kv.drop (2 * d.d * (d.h + h))).take (2 * d.d))

/-! ## Quantisation and the brine state (R287 to R289) -/

def bf16s (bs : List MByte) : List Nat := (List.range (bs.length / 2)).map fun i => numOf ((bs.drop (2 * i)).take 2)

/-- The scale of a vector of BF16 values. A vector with a NaN has no largest magnitude: its scale is a free value (log 3). -/
def kvScale (xs : List Nat) : M (Flagged Nat) := do
  let vs := xs.map fmtBF16.value
  if vs.any (· == .nan) then
    let (v, s) := (← get).draw
    set s
    return (v.toNat % 65536, 0)
  let amax := vs.foldl (fun a x => if Num.lt a x.abs then x.abs else a) (.zero false)
  match amax with
  | .zero _ => return (0x3F80, 0)
  | a => return roundTo fmtBF16 (Num.div a (Num.ofInt 448)) .rup

/-- The patterns of a list of results, and the flags of all of them. -/
def allFlagged (xs : List (Flagged Nat)) : Flagged (List Nat) := (xs.map (·.1), xs.foldl (fun a x => a ||| x.2) 0)

/-- The FP8E4 bytes of a vector under its scale. -/
def kvQuant (sc : Nat) (xs : List Nat) : Flagged (List Nat) :=
  allFlagged (xs.map fun x => roundTo fmtFP8E4 (Num.div (fmtBF16.value x) (fmtBF16.value sc)) .rne true)

/-- φ(x) = x + 1 above 0 and e^x at or below it (R288, R297). -/
def phiNum (x : Num) : Num :=
  match x with
  | .nan => .nan
  | .inf false => .inf false
  | .inf true => .zero false
  | x => if Num.lt (.zero false) x then (Num.add x (Num.ofInt 1)).1 else expNum x

def brineSize (d : Nat) : Nat := 4 * d * d + 4 * d + 128 * d * ((d + 64) / 64)

/-- A row of a block as exact values, element value times its scale, and whether any of it reads as POISON. -/
def blockRow (w : Who) (d : KvDesc) (b : KvBlock) (p sc : KvPlace) : M (List Num × Bool) := do
  let bs ← kvBytes w p (d.d * widthOf b)
  if b.fp8 then
    let ks ← kvBytes w sc 2
    let k := fmtBF16.value (numOf ks)
    return (bs.map fun x => (Num.mul (fmtFP8E4.value x.1.toNat) k).1, anyPoison bs || anyPoison ks)
  else return ((bf16s bs).map fmtBF16.value, anyPoison bs)

/-- An FP32 pattern plus an exact term that carries flags, rounded once (R224). -/
def addTerm (x : Nat) (t : Flagged Num) : Flagged Nat :=
  let (y, f) := Num.add (fmtFP32.value x) t.1
  let (p, g) := roundFP32 y
  (p, t.2 ||| f ||| g)

/-- One token is folded into S (row-major) and z, both FP32 patterns, with the flags of its arithmetic (R288, R224). -/
def foldToken (ks vs : List Num) (sz : List Nat × List Nat) : Flagged (List Nat × List Nat) :=
  let (f, ff) := allFlagged (ks.map fun k => roundFP32 (phiNum k))
  let (z, fz) := allFlagged (sz.2.zipWith (fun z f => addTerm z (fmtFP32.value f, 0)) f)
  let pairs := f.flatMap fun f => vs.map fun v => Num.mul (fmtFP32.value f) v
  let (s, fs) := allFlagged (sz.1.zipWith addTerm pairs)
  ((s, z), ff ||| fz ||| fs)

/-- The BF16 image of a brine state, element by element (R289). -/
def brineImage (d : Nat) (sz : List Nat × List Nat) : Flagged (List Nat) :=
  let s := sz.1.toArray
  let z := sz.2.toArray
  allFlagged ((List.range ((d + 64) / 64)).flatMap fun r => (List.range d).flatMap fun a => (List.range 64).map fun e =>
    let c := 64 * r + e
    if c < d then roundTo fmtBF16 (fmtFP32.value (s.getD (a * d + c) 0))
    else if c = d then roundTo fmtBF16 (fmtFP32.value (z.getD a 0)) else (0, 0))

/-- Wheel `i` of layer `l` is folded into the brine state of every head (R288, R289); a head's state is marked POISON when any of
what it is computed from was (R411, log 106). The answer is the flags of the arithmetic. -/
def foldWheel (w : Who) (d : KvDesc) (l i : Nat) : M Flags := do
  let mut fl : Flags := 0
  let b := KvBlock.ofNat (← kvNum w (wheelAddr (d.table l) i) 16)
  for h in List.range d.h do
    let base := d.at 48 8 + (l * d.h + h) * brineSize d.d
    let old ← kvBytes w ⟨false, base⟩ (4 * d.d * d.d + 4 * d.d)
    let pats := (List.range (d.d * d.d + d.d)).map fun k => numOf ((old.drop (4 * k)).take 4)
    let mut sz := (pats.take (d.d * d.d), pats.drop (d.d * d.d))
    let mut bad := anyPoison old
    for t in List.range (tokensOf b) do
      let ks ← blockRow w d b (keyPlace d b h t) (keyScale d b h t)
      let vs ← blockRow w d b (valPlace d b h t) (valScale d b h t)
      let (next, f) := foldToken ks.1 vs.1 sz
      sz := next
      fl := fl ||| f
      bad := bad || ks.2 || vs.2
    let (image, f) := brineImage d.d sz
    fl := fl ||| f
    kvPutBytes w ⟨false, base⟩ (((sz.1 ++ sz.2).flatMap (leBytes · 4) ++ image.flatMap (leBytes · 2)).map fun x => (x, bad))
  return fl

/-- Sixteen curds are copied into a wheel, quantised when `qw` (R287, R289); the answer is the flags of the quantisation. -/
def copyWheel (w : Who) (d : KvDesc) (t : Nat) (s : KvState) (wheel : KvBlock) (qw : Bool) : M Flags := do
  let mut fl : Flags := 0
  let cap ← wcap w t
  let dst := { wheel with wheel := true, fp8 := qw }
  for i in List.range 16 do
    let src := KvBlock.ofNat (← kvNum w (ringAddr t cap (s.ch + i)) 16)
    for h in List.range d.h do
      for k in List.range 16 do
        let ks ← kvBytes w (keyPlace d src h k) (2 * d.d)
        let vs ← kvBytes w (valPlace d src h k) (2 * d.d)
        let o := 16 * i + k
        if qw then
          let (ksc, f1) ← kvScale (bf16s ks)
          let (vsc, f2) ← kvScale (bf16s vs)
          let (kq, f3) := kvQuant ksc (bf16s ks)
          let (vq, f4) := kvQuant vsc (bf16s vs)
          fl := fl ||| f1 ||| f2 ||| f3 ||| f4
          let mark (p : Bool) (bs : List Byte) : List MByte := bs.map fun b => (b, p)
          kvPutBytes w (keyPlace d dst h o) (mark (anyPoison ks) (kq.map (BitVec.ofNat 8 ·)))
          kvPutBytes w (valPlace d dst h o) (mark (anyPoison vs) (vq.map (BitVec.ofNat 8 ·)))
          kvPutBytes w (keyScale d dst h o) (mark (anyPoison ks) (leBytes ksc 2))
          kvPutBytes w (valScale d dst h o) (mark (anyPoison vs) (leBytes vsc 2))
        else
          kvPutBytes w (keyPlace d dst h o) ks
          kvPutBytes w (valPlace d dst h o) vs
  return fl

/-! ## Fields of the key-value words -/

/-- The layer of a press or fold, and its expected count (R287). -/
def pressLayer (y : Word) : Nat := bits y.toNat 0 16
def pressExpected (y : Word) : Nat := bits y.toNat 16 16

/-- The accepted nodes of a commit, in order (R285). -/
def commitList (t : Word) : List Nat := ((List.range 8).map fun i => bits t.toNat (6 * i) 6).takeWhile (· != 0)

/-- What a press does once its copy is done (R287): the wheel whose block number stands in `samp`; the answer is its flags. -/
def publishPress (w : Who) (r : KvRun) : M Flags := do
  let d ← readDesc w r.desc.toNat
  let t := d.table (pressLayer (r.entry.s 1))
  let s ← readState w t
  let cap ← wcap w t
  let qw := d.qw
  let wheel := KvBlock.ofNat (r.samp.getD 0 0)
  let fl ← copyWheel w d t s wheel qw
  kvSet w (wheelAddr t s.w) 16 ({ wheel with wheel := true, fp8 := qw }.toNat (256 * s.w))
  writeState w t { s with w := s.w + 1, ch := (s.ch + 16) % 32 }
  for k in List.range 16 do deferEntry w t cap (← kvNum w (ringAddr t cap (s.ch + k)) 16)
  kvSet w (t + 13) 1 ((← kvNum w (t + 13) 1) / 2 * 2)
  releaseDeferred w d t
  return fl

/-- What a fold does (R288), with the flags of its arithmetic. -/
def publishFold (w : Who) (r : KvRun) : M Flags := do
  let d ← readDesc w r.desc.toNat
  let l := pressLayer (r.entry.s 1)
  let t := d.table l
  let s ← readState w t
  let cap ← wcap w t
  let fl ← foldWheel w d l s.fw
  let e ← kvNum w (wheelAddr t s.fw) 16
  writeState w t { ← readState w t with fw := s.fw + 1 }
  deferEntry w t cap e
  releaseDeferred w d t
  return fl

/-- The last step of a `kv.get`, which always runs (R281). -/
def endGet (w : Who) (r : KvRun) : M Unit := do
  let d ← readDesc w r.desc.toNat
  let t := d.table (bits (r.entry.s 2).toNat 0 16)
  let n ← rdr w t
  kvSet w (t + 8) 4 (n - 1)
  releaseDeferred w d t

/-- A hidden entry ends: PEND falls, and its word is done (R284). -/
def pendDown (w : Who) (desc : BitVec 52) : M Unit := do
  let d ← readDesc w desc.toNat
  setPend w d (d.pend - 1)

/-- The engine leaves a word whose instance is gone (R281, R285, R286): a get ends its read, a press is published, a commit or
squash clears CLOSING, a fold has had no effect. -/
def abandonKv (w : Who) (r : KvRun) : M Unit := do
  match (opOf r.word).toNat with
  | 0x48 => endGet w r
  | 0x4E => let _ ← publishPress w r
  | 0x65 | 0x66 => setClosing w { pa := r.desc.toNat, x := 0 } false
  | _ => pure ()

/-- A collective arrival is withdrawn: ARR falls in one step at the record's home (R319). -/
def withdrawArrival (w : Who) (pa : Nat) : M Unit := do
  remapWait w (pa + 8) 4
  snoopHost (pa + 8) 4
  let (b, s) := (← get).engRead w (pa + 8) 4 2
  let s := s.engWrite w (pa + 8) (plain (leBytes (numOf b - 1) 4)) 2
  set (if numOf b ≤ 1 then s.modHub fun h => { h with colls := h.colls.filter (·.toNat != pa) } else s)

/-- What a step for an instance that is gone does. -/
def orphanStep (o : KvOrphan) : M Unit :=
  match o with
  | .run w r => abandonKv w r
  | .pend w desc => pendDown w desc
  | .arrival w pa => withdrawArrival w pa.toNat

/-- The steps for instances that are gone are done, each as soon as it need not wait. -/
def State.pumpOrphan (s : State) : State :=
  s.hub.orphans.foldl (fun s o =>
    match (whole (orphanStep o)).run.run s with
    | (.error (.wait _), s') => s'
    | (_, s') => s'.modHub fun h => { h with orphans := h.orphans.erase o }) s

def State.addOrphan (s : State) (o : KvOrphan) : State := s.modHub fun h => { h with orphans := h.orphans ++ [o] }

/-- Hidden entries of a context: a released one lands without a word to retire, an unreleased one is cancelled (R284). -/
def State.detachHidden (s : State) (w : Who) : State :=
  let mine := (s.tile (Who.tile w)).hidden.filter (·.who == w)
  let s := s.modTile (Who.tile w) fun t =>
    { t with hidden := (t.hidden.filter fun c => c.who != w || c.released).map fun c => if c.who = w then { c with pos := none } else c }
  (mine.filter fun c => !c.released).foldl (fun s c => (s.addOrphan (.pend w c.desc)).pumpOrphan) s

/-- The key-value words of a context are abandoned: what each still does is done as soon as it can be. -/
def State.abandonAll (s : State) (w : Who) : State :=
  let s := s.detachHidden w
  let s' := (s.bank w).kvRuns.foldl (fun s r => ((s.addOrphan (.run w r)).pumpOrphan).returnGrant w r.grant) s
  s'.modBank w fun b => { b with kvRuns := [] }

end Sys2Proof.Machine
end

