-- ==== Sys2Proof/Machine/EngCore.lean ====
section
/-! DEFINITION. Engines that serve a context after its word has retired: the sampling unit and the quantisation engine
(R303, R305 to R310, R311 to R314), and the pins of bank-engine words (R117). -/
namespace Sys2Proof.Machine

/-! ## The sampling stream (R303) -/

/-- x5 of key `k` and counter `c`. -/
def drawRaw (k c : Nat) : Nat :=
  let x0 := (k + c * 0x9E3779B9) % 2 ^ 32
  let x1 := x0 ^^^ (x0 / 2 ^ 16)
  let x2 := x1 * 0x6A5D39E1 % 2 ^ 32
  let x3 := x2 ^^^ (x2 / 2 ^ 13)
  let x4 := x3 * 0xB7C31D4B % 2 ^ 32
  x4 ^^^ (x4 / 2 ^ 16)

/-- u in units of 2^-24. -/
def drawUniform (k c : Nat) : Nat := drawRaw k c / 2 ^ 8

/-! ## Requests (R306 to R310) -/

/-- A finite value that is not negative, in units of 2^-149, the last place of FP32. -/
def fp32Units (x : Nat) : Nat := match fmtFP32.value x with
  | .fin _ n _ e => n * 2 ^ (e + 149).toNat
  | _ => 0

/-- The first lane at which the running sum satisfies `ok`, in lane order. -/
def firstLane (ok : Nat → Bool) : Nat → List (Nat × Nat) → Option Nat
  | _, [] => none
  | acc, (i, w) :: r => if ok (acc + w) then some i else firstLane ok (acc + w) r

/-- A lane of `smp.draw` is valid (R309). -/
def drawValid (weights : Bool) (m : BitVec 256) (v x : BitVec 2048) (i : Nat) : Bool :=
  isActive m i && elem x 32 i != 0xFFFFFFFF && (match fmtFP32.value (elem v 32 i) with
    | .nan => false
    | .inf s => !s
    | .zero _ => !weights
    | .fin s _ _ _ => !weights || !s)

def drawLanes (weights : Bool) (m : BitVec 256) (v x : BitVec 2048) : List Nat := (List.range 64).filter (drawValid weights m v x)

/-- The weights of the valid lanes without W, in units of 2^-149: e^((a − l*) / T) rounded to FP32, with no flag
(DESIGN CHOICE, log 151). -/
def drawWeights (t : BitVec 32) (v : BitVec 2048) (lanes : List Nat) : List (Nat × Nat) :=
  let vals := lanes.map fun i => (i, fmtFP32.value (elem v 32 i))
  let top := vals.foldl (fun (b : Num) x => if b.lt x.2 then x.2 else b) (.inf true)
  vals.map fun x => (x.1, fp32Units (roundFP32 (expNum (Num.div (Num.add x.2 top.neg).1 (fmtFP32.value t.toNat)))).1)

def sumSnd (xs : List (Nat × Nat)) : Nat := xs.foldl (fun a x => a + x.2) 0

/-- The lanes kept, with their weights (R309): the shortest prefix that holds TP of the total. -/
def drawKept (tp : BitVec 32) (ws : List (Nat × Nat)) : List (Nat × Nat) :=
  let total := sumSnd ws
  match firstLane (fun a => fp32Units tp.toNat * total ≤ a * 2 ^ 149) 0 ws with
  | some j => ws.filter (·.1 ≤ j)
  | none => ws

/-- The selected lane of a draw with uniform `u`: the first whose running sum exceeds u times the total. -/
def pickLane (u : Nat) (ws : List (Nat × Nat)) : Nat := (firstLane (fun a => decide (u * sumSnd ws < a * 2 ^ 24)) 0 ws).getD 0

/-- A vector of 64 exact values as a list with their lanes. -/
def lanesOfList (xs : List Nat) : List (Nat × Nat) := xs.zipIdx.map fun x => (x.2, x.1)

def sumList (xs : List Nat) : Nat := xs.foldl (· + ·) 0

/-- The loop of `smp.acc` (R310) over the siblings left: accepted lane and position, and the draws consumed. -/
def accLoop (k c : Nat) : List Nat → Nat → List Nat → List Nat → Nat × Nat × Nat
  | [], i, p, _ => (pickLane (drawUniform k ((c + i) % 2 ^ 32)) (lanesOfList p), 0xFFFFFFFF, i + 1)
  | l :: ls, i, p, q =>
    let sp := sumList p
    let sq := sumList q
    let u := drawUniform k ((c + i) % 2 ^ 32)
    if u * q.getD l 0 * sp < p.getD l 0 * sq * 2 ^ 24 then (l, i, i + 1)
    else
      let r := List.zipWith (fun a b => a * sq - b * sp) p q
      accLoop k c ls (i + 1) (if sumList r > 0 then r else p) (q.set l 0)

/-- The elements of an operand of `smp.acc`, inactive lanes 0, in units of 2^-149. -/
def accOperand (m : BitVec 256) (v : BitVec 2048) : List Nat := (zeroInactive m (elems v 32 64)).map fp32Units

/-- The result layout of R308. -/
def smpResult (lane idx ctr draws : Nat) : Vec := { bits := ofElems 32 [lane, idx, ctr, draws], tag := .idx }

/-- A request reads and updates its slot in one step; a draw has a result (R306). -/
def smpServe (x : SmpSlot) : SmpReq → SmpSlot × Option Vec
  | .cfg _ key ctr temp topp keep => ({ key, ctr := if keep then x.ctr else ctr, temp, topp }, none)
  | .draw _ weights m v xs =>
    let lanes := drawLanes weights m v xs
    let ws := if weights then lanes.map fun i => (i, fp32Units (elem v 32 i)) else drawKept x.topp (drawWeights x.temp v lanes)
    let j := pickLane (drawUniform x.key.toNat x.ctr.toNat) ws
    ({ x with ctr := x.ctr + 1 }, some (smpResult j (elem xs 32 j) (x.ctr + 1).toNat 1))
  | .acc _ p q m lanes =>
    let (lane, idx, n) := accLoop x.key.toNat x.ctr.toNat lanes 0 (accOperand m p) (accOperand m q)
    let c := x.ctr + BitVec.ofNat 32 n
    ({ x with ctr := c }, some (smpResult lane idx c.toNat n))

def SmpReq.slot : SmpReq → BitVec 6
  | .cfg s .. | .draw s .. | .acc s .. => s

/-- A slot of the cluster's unit takes a request of a context of tile `t`. -/
def State.smpSlot (s : State) (t : Tid) (r : SmpReq) : Option Vec × State :=
  let (x, v) := smpServe ((s.cluster (Tid.cluster t)).smp.get r.slot.toFin) r
  (v, s.modCluster (Tid.cluster t) fun c => { c with smp := c.smp.set r.slot.toNat x r.slot.isLt })

/-- The bank whose oldest request is served takes the result into its SMP queue. -/
def Bank.smpServed (b : Bank) (v : Option Vec) : Bank := { b with smpOut := b.smpOut.tail, smpQ := b.smpQ ++ v.toList }

/-- The oldest request of a context is served; requests of its shadow state follow (R306, R390). -/
def State.serveSmp (s : State) (w : Who) : State :=
  match (s.bank w).smpOut with
  | r :: _ =>
    let (v, s) := s.smpSlot (Who.tile w) r
    s.modBank w (·.smpServed v)
  | [] =>
    match (s.ctx w).shadow.bind fun b => b.smpOut.head? with
    | some r =>
      let (v, s) := s.smpSlot (Who.tile w) r
      s.modCtx w fun c => { c with shadow := c.shadow.map (·.smpServed v) }
    | none => s

/-- Requests already sent are served although their instance is gone: their slots keep what they set (R305). -/
def State.flushSmp (s : State) (w : Who) : State :=
  let s' := (s.bank w).smpOut.foldl (fun s r => (s.smpSlot (Who.tile w) r).2) s
  s'.modBank w fun b => { b with smpOut := [] }

/-! ## The quantisation engine's descriptor (R312) -/

def qzF (d : BitVec 512) (off n : Nat) : Nat := bits d.toNat (8 * off) (8 * n)
def qzAcc (d : BitVec 512) : Bool := qzF d 0 1 = 1
def qzTgt (d : BitVec 512) : Nat := qzF d 1 1
def qzB (d : BitVec 512) : Nat := qzF d 2 1
def qzQ (d : BitVec 512) : Nat := qzF d 3 1 % 16
def qzMem (d : BitVec 512) : Bool := bit (qzF d 3 1) 4
def qzEv (d : BitVec 512) : Bool := bit (qzF d 3 1) 5
def qzR (d : BitVec 512) : Nat := qzF d 4 2
def qzCN (d : BitVec 512) : Nat := qzF d 6 2
def qzSrc (d : BitVec 512) : Nat := qzF d 8 4
def qzPitch (d : BitVec 512) : Nat := qzF d 12 4
def qzData (d : BitVec 512) : Nat := qzF d 16 8
def qzDataPitch (d : BitVec 512) : Nat := qzF d 24 4
def qzHand (d : BitVec 512) : Fin 16 := ⟨qzF d 28 1 % 16, by omega⟩
def qzEvHand (d : BitVec 512) : Fin 16 := ⟨qzF d 28 1 / 16 % 16, by omega⟩
def qzScale (d : BitVec 512) : Nat := qzF d 32 8
def qzEvOff (d : BitVec 512) : Nat := qzF d 40 8
def qzEvVal (d : BitVec 512) : Nat := qzF d 48 8
def qzPlanes (d : BitVec 512) : Bool := qzTgt d = 16

/-- Rows and columns of the source. -/
def qzShape (d : BitVec 512) (z : AccTile) : Nat × Nat := if qzAcc d then (z.nrows, z.ncols) else (qzR d, qzCN d)

/-! ## Blocks (R313) -/

/-- M of a target. -/
def qzMax (tgt : Nat) : Nat := if tgt = 4 then 448 else if tgt = 5 then 57344 else 127

/-- The scale and the elements of one block. -/
def qzBlock (tgt : Nat) (xs : List Num) : Nat × List Nat :=
  let fp8 : Option Fmt := if tgt = 4 then some fmtFP8E4 else if tgt = 5 then some fmtFP8E5 else none
  if xs.any fun x => !x.isFinite then (0x7FC0, xs.map fun _ => (fp8.map (·.nanPat)).getD 0)
  else
    let amax := xs.foldl (fun (a : Num) x => if a.lt x.abs then x.abs else a) (.zero false)
    let sc := match amax with
      | .zero _ => 0x3F80
      | a => (roundTo fmtBF16 (Num.div a (Num.ofInt (qzMax tgt))) .rup).1
    let q (x : Num) : Num := Num.div x (fmtBF16.value sc)
    match fp8 with
    | some m => (sc, xs.map fun x => (roundTo m (q x) .rne true).1)
    | none => (sc, xs.map fun x => toPat 8 (roundInt (q x) .rne (-127) 127).1)

/-- The blocks of one row. -/
def qzRowBlocks (tgt b : Nat) (xs : List Num) : List (Nat × List Nat) :=
  (List.range (xs.length / b)).map fun k => qzBlock tgt ((xs.drop (b * k)).take b)

/-- Pieces of an output: the offset from its destination, and its bytes, marked where a source row was poisoned. -/
abbrev QzPieces := List (Nat × List MByte)

def markAll (p : Bool) (bs : List Byte) : List MByte := bs.map fun b => (b, p)

/-- Data and scale pieces of the rows of a source, each row with its mark. -/
def qzLinear (d : BitVec 512) (rows : List (List Num × Bool)) : QzPieces × QzPieces :=
  let out := rows.map fun r => (qzRowBlocks (qzTgt d) (qzB d) r.1, r.2)
  (out.zipIdx.map fun x => (x.2 * qzDataPitch d, markAll x.1.2 (x.1.1.flatMap fun b => b.2.map (BitVec.ofNat 8 ·))),
    out.zipIdx.map fun x => (2 * x.2 * x.1.1.length, markAll x.1.2 (x.1.1.flatMap fun b => leBytes b.1 2)))

/-- The `q` most significant planes of 64 columns of 8 INT8 elements each: one line a plane (R217). -/
def qzPlaneLines (q : Nat) (cols : List (List Nat)) : List Byte :=
  (List.range q).flatMap fun k => cols.map fun es =>
    BitVec.ofNat 8 (es.zipIdx.foldl (fun a x => a + flag (bit x.1 (7 - k)) x.2) 0)

/-- PLANES output: 48 rows of 64 columns a run. -/
def qzPlaneOut (d : BitVec 512) (rows : List (List Num × Bool)) : QzPieces × QzPieces :=
  let runs := (List.range (rows.length / 48)).map fun m => (rows.drop (48 * m)).take 48
  let out := runs.map fun run =>
    ((List.range 64).map fun c => qzBlock 16 (run.map fun r => r.1.getD c (.zero false)), run.any (·.2))
  (out.zipIdx.flatMap fun x => (List.range 6).map fun g =>
      (64 * qzQ d * (6 * x.2 + g), markAll x.1.2 (qzPlaneLines (qzQ d) (x.1.1.map fun b => (b.2.drop (8 * g)).take 8))),
    out.zipIdx.map fun x => (128 * x.2, markAll x.1.2 (x.1.1.flatMap fun b => leBytes b.1 2)))

/-! ## Commands (R311, R314) -/

/-- The bank of the instance that issued a command: the active one, or the shadow one it has moved to. -/
def State.qzBank (s : State) (c : QzCmd) : Bank := s.ownBank c.who c.away

/-- Row `i` of the source, read at one instant: its format, elements and POISON. -/
def qzRow (c : QzCmd) (i : Nat) : M (Tag × List Nat × Bool) := do
  let z := ((← get).qzBank c).tileZ (BitVec.ofNat 4 (qzSrc c.desc))
  let n := (qzShape c.desc z).2
  if qzAcc c.desc then return (z.fmt, (List.range n).map fun j => (z.get i j).toNat, z.tag == .poison)
  else
    let t := if c.fp32 then Tag.fp32 else .bf16
    engineWait c.who c.away .l c.ser c.spad
    let (bs, p) ← spRead c.who (qzSrc c.desc + i * qzPitch c.desc) (n * t.width / 8)
    return (t, (List.range n).map fun j => leNat ((bs.drop (j * t.width / 8)).take (t.width / 8)), p)

/-- The rows that the source has. -/
def qzCount (s : State) (c : QzCmd) : Nat := (qzShape c.desc ((s.qzBank c).tileZ (BitVec.ofNat 4 (qzSrc c.desc)))).1

/-- The command with its next row read. -/
def qzNextRow (c : QzCmd) : M QzCmd := do
  let n := qzCount (← get) c
  if c.full then return c
  if n ≤ c.rows.length then return { c with full := true }
  let r ← qzRow c c.rows.length
  return { c with rows := c.rows ++ [r], full := n ≤ c.rows.length + 1 }

/-- The command with every row read; `n` bounds those still to read. -/
def qzAllRows : Nat → QzCmd → M QzCmd
  | 0, c => return { c with full := true }
  | n + 1, c => do
    let c ← qzNextRow c
    if c.full then return c else qzAllRows n c

/-- The values of the rows read. -/
def qzValues (c : QzCmd) : List (List Num × Bool) := c.rows.map fun r => (r.2.1.map (elemValue r.1), r.2.2)

/-- The engine of a tile reads the next row of its oldest command. -/
def State.qzReadRow (s : State) (t : Tid) : State :=
  match (s.tile t).qz with
  | [] => s
  | c :: cs =>
    match (qzNextRow c).run.run s with
    | (.ok c, s) => s.modTile t fun x => { x with qz := c :: cs }
    | (.error _, _) => s

/-- Pieces are written at a destination. -/
def qzStore (c : QzCmd) (base : Nat) (ps : QzPieces) : M Unit := do
  for p in ps do
    if qzMem c.desc then
      remapWait c.who (base + p.1) p.2.length
      snoopHost (base + p.1) p.2.length
      modS fun s => (s.countLines c.who c.hand (base + p.1) p.2.length).engWrite c.who (base + p.1) p.2 (p.2.length / 64 + 2)
    else spWrite c.who (base + p.1) (bytesOf p.2) (anyPoison p.2)

/-- The oldest command of the tile completes: every write, then the event word, and its units return. -/
def qzComplete (t : Tid) : M Unit := do
  match ((← get).tile t).qz with
  | [] => pure ()
  | c :: _ =>
    let c ← qzAllRows (qzCount (← get) c + 1) c
    let rows := qzValues c
    let (data, scale) := if qzPlanes c.desc then qzPlaneOut c.desc rows else qzLinear c.desc rows
    if qzMem c.desc then pairWait c.who c.away c.ser c.data
    if qzEv c.desc then pairWait c.who c.away c.ser c.event.toNat
    if qzMem c.desc || qzEv c.desc then outbound c.who
    qzStore c c.data data
    qzStore c c.scale scale
    if qzEv c.desc then
      remapWait c.who c.event.toNat 8
      snoopHost c.event.toNat 8
      modS fun s => (s.countLines c.who c.evHand c.event.toNat 8).pathWrite c.who c.event.toNat (leBytes (qzEvVal c.desc) 8)
        (prv := c.evHand.prv)
    modS fun s =>
      ((s.modTile t fun x => { x with qz := x.qz.tail }).returnGrant c.who c.grant).modBank c.who fun b =>
        if c.wait then { b with q := { b.q with fly := b.q.fly.map fun f => if f.q == .l && f.pos == c.pos then { f with done := true } else f } }
        else b

/-- A command of the context's instance still reads an accumulator tile (R314). -/
def State.qzReads (s : State) (w : Who) (away : Bool) : Bool :=
  (s.tile (Who.tile w)).qz.any fun c => c.who = w && c.away == away && qzAcc c.desc && !c.full

/-- The commands of an instance read what they still have to read of its accumulator tiles. -/
def State.finishReads (s : State) (w : Who) (away : Bool) : State :=
  let t := Who.tile w
  let read (c : QzCmd) : QzCmd :=
    if c.who = w && c.away == away && qzAcc c.desc then
      match ((qzAllRows (qzCount s c + 1) c).run.run s).1 with
      | .ok c => c
      | .error _ => c
    else c
  s.modTile t fun x => { x with qz := x.qz.map read }

/-- Commands outlive their instance (R314): they finish their reads of its tiles, and have no word to retire. -/
def State.detachQz (s : State) (w : Who) : State :=
  (s.finishReads w false).modTile (Who.tile w) fun t =>
    { t with qz := t.qz.map fun c => if c.who = w && !c.away then { c with wait := false } else c }

/-! ## Bank-engine words that wait for their units (R96, R117) -/

/-- The pin of a `pim.mv`'s weight page falls; only a 64 KiB page counts pins. -/
def State.unpinPim (s : State) (r : PimRun) : State := if r.hw.size = 0 then s.lowerPin r.hw.id else s

/-- A `pim.mv` that stands at its queue's head without units gives back its pin. -/
def State.dropPimWait (s : State) (w : Who) : State :=
  let s' := ((s.bank w).pimRuns.filter (·.grant.isNone)).foldl (fun s r => s.unpinPim r) s
  s'.modBank w fun b => { b with pimRuns := b.pimRuns.filter (·.grant.isSome) }

end Sys2Proof.Machine
end

