-- ==== Sys2Proof/Machine/Frames.lean ====
section
/-! DEFINITION. Token pushes, handle and CSR images, the bytes of a trap frame, freezing a C queue
(R33 to R35, R116, R262, R266, R374, R376, R379 to R382, R392). -/
namespace Sys2Proof.Machine

/-! ## Token FIFOs (R33, R34) -/

/-- The pushes that find room, and what still waits. -/
def Queues.tryPush (x : Queues) (q : QName) (p : Push) : Push × Queues :=
  match q with
  | .l => if p.down && x.lc < 16 then ({ p with down := false }, { x with lc := x.lc + 1 }) else (p, x)
  | .s => if p.up && x.sc < 16 then ({ p with up := false }, { x with sc := x.sc + 1 }) else (p, x)
  | .c =>
    let (d, x) := if p.down && x.cs < 16 then (false, { x with cs := x.cs + 1 }) else (p.down, x)
    let (u, x) := if p.up && x.cl < 16 then (false, { x with cl := x.cl + 1 }) else (p.up, x)
    ({ p with down := d, up := u }, x)

/-- Nothing is left to push. -/
def Push.none (p : Push) : Bool := !p.down && !p.up

/-- The pushes of a word that retires; they wait behind earlier pushes of its queue and while a FIFO holds 16 tokens. -/
def Queues.push (x : Queues) (q : QName) (p : Push) : Queues :=
  if x.pend.any (·.1 == q) then (if p.none then x else { x with pend := x.pend ++ [(q, p)] })
  else
    match x.tryPush q p with
    | (r, x) => if r.none then x else { x with pend := x.pend ++ [(q, r)] }

/-- The token bits of a word; those of `apx.beg` and `apx.end` are never applied (R418). -/
def tkOf (word : BitVec 48) : BitVec 4 := if (opOf word).toNat = 0xD0 || (opOf word).toNat = 0xD1 then 0 else (hdrOf word).tk

/-- What a word does to the tokens when it retires, by its token bits (R33). -/
def pushOf (q : QName) (word : BitVec 48) : Push :=
  let tk := (tkOf word).toNat
  match q with
  | .l => { down := bit tk 2, word }
  | .c => { down := bit tk 2, up := bit tk 0, word }
  | .s => { up := bit tk 0, word }

/-- The pops that a word's token bits ask for: from upstream and from downstream. -/
def popsOf (q : QName) (tk : BitVec 4) : Bool × Bool :=
  match q with
  | .l => (false, bit tk.toNat 1)
  | .c => (bit tk.toNat 3, bit tk.toNat 1)
  | .s => (bit tk.toNat 3, false)

/-- Tokens that the pops of a word take from its FIFOs, when every one of them holds one. -/
def Queues.pop (x : Queues) (q : QName) (tk : BitVec 4) : Option Queues :=
  let (u, d) := popsOf q tk
  match q with
  | .l => if d && x.cl = 0 then none else some { x with cl := x.cl - b2n d }
  | .s => if u && x.cs = 0 then none else some { x with cs := x.cs - b2n u }
  | .c => if (u && x.lc = 0) || (d && x.sc = 0) then none else some { x with lc := x.lc - b2n u, sc := x.sc - b2n d }


/-- A tile's signature covers one more word (R395). -/
def Tile.sign (t : Tile) (word : BitVec 48) : Tile := { t with sig := BitVec.ofNat 32 (crcUpd t.sig.toNat (leBytes word.toNat 6)) }

/-- A word of a context retires: the tile's signature covers it, and so does, D cycles later, that of the tile of its trailing copy (R395,
R409). -/
def State.signWord (s : State) (w : Who) (word : BitVec 48) : State :=
  let s := s.modTile (Who.tile w) fun t => t.sign word
  match partnerOf w with
  | some v => if (s.ctx v).status = .mirror w then s.modCtx v fun c => { c with signs := c.signs ++ [(s.now + lockDelay w, word)] } else s
  | none => s

/-- A queue word of a context retires (R35): the tile's signature covers it, and its pushes are made. -/
def State.retireWord (s : State) (w : Who) (q : QName) (p : Push) : State :=
  (s.signWord w p.word).modBank w fun b => b.modQ fun x => x.push q p

/-! ## Readings of registers as numbers -/

/-- The attribute word of a handle (R116). -/
def Handle.attr (h : Handle) : Nat :=
  b2n h.valid + flag h.ready 1 + flag h.pinned 2 + flag h.rd 3 + flag h.w 4 + flag h.x 5 + flag h.prv 6 +
    h.kind.toNat * 2 ^ 7 + h.size.toNat * 2 ^ 9 + flag h.rep 11

/-- TRAPCAUSE (R374). -/
def Csrs.trapcause (c : Csrs) : Nat := c.trapCode.toNat + c.trapClass.toNat * 2 ^ 8 + flag c.mck 62 + flag c.inh 63

/-- ISTATE (R342). -/
def Bank.istate (b : Bank) : Nat :=
  match b.inst with
  | none => 0
  | some i => b2n i.abt + flag i.priv 1 + flag i.lstep 2 + flag i.coop 3 + min i.att 255 * 2 ^ 8

def framebaseVa (c : Csrs) : Nat := c.framebase.toNat * 2 ^ 16

/-- CCYCLE (R5, R341): the number of the latest C-cycle, also while the queue is frozen before the next one: the count of a queue whose word
for C36 stands is 35. DESIGN CHOICE, log 128. -/
def Bank.ccycle (b : Bank) : Nat := b.c.cc - 1

/-! ## The bytes of a frame (R379 to R381) -/

/-- A handle as 32 bytes: va, attr, id, reserved. -/
def handleBytes (h : Handle) : List Byte :=
  leBytes h.va.toNat 8 ++ leBytes h.attr 8 ++ leBytes (if h.valid then h.id.toNat else 0) 8 ++ leBytes 0 8

/-- A latch record. -/
def latchBytes (l : Latch) : List Byte :=
  let (k, hi, lo) := l.pair.getD (0, {}, {})
  leBytes l.rem 2 ++ leBytes l.val.tag.code 1 ++ leBytes (b2n l.wn + 2 * l.nd.toNat + flag l.pair.isSome 5) 1 ++
    leBytes (l.maskK.toNat + 8 * l.maskMode.toNat) 1 ++ leBytes l.flags.toNat 1 ++ leBytes k.toNat 1 ++ leBytes 0 1 ++
    leBytes l.attz.toNat 4 ++ leBytes 0 4 ++ leBytes l.val.bits.toNat 256 ++ leBytes hi.bits.toNat 256 ++
    leBytes lo.bits.toNat 256 ++ leBytes 0 240

/-- A queue entry record. -/
def entryBytes (e : Entry) : List Byte :=
  leBytes e.word.toNat 6 ++
    leBytes (b2n e.guard + flag e.co 1 + flag e.issued 2 + flag e.recap 3 + flag e.skip 4 +
      flag ((e.handle 0).2.valid) 5 + flag ((e.handle 1).2.valid) 6 + flag e.popped 7) 1 ++
    leBytes e.pf.toNat 1 ++ leBytes e.pc.toNat 8 ++ leBytes e.pos 4 ++ leBytes e.mpc 2 ++ leBytes 0 2 ++ leBytes e.pfInfo.toNat 8 ++
    (e.sc.toList.flatMap fun x => leBytes x.toNat 8) ++ leBytes (e.handle 0).1.toNat 1 ++ leBytes (e.handle 1).1.toNat 1 ++ leBytes 0 62

/-- What the header of a frame says of its trap. -/
structure FrameHead where
  pc : BitVec 60
  fpc : BitVec 60 := 0
  fq : BitVec 8 := 0
  fidx : Nat := 0
deriving DecidableEq, Repr

/-- The 0x2600 bytes of header and registers. -/
def frameHeader (b : Bank) (h15 : Handle) (k : FrameHead) : List Byte :=
  let c := b.csr
  let n8 (x : Nat) := leBytes x 8
  let n1 (x : Nat) := leBytes x 1
  n8 c.trapcause ++ n8 c.trapinfo.toNat ++ n8 k.pc.toNat ++ n8 k.fpc.toNat ++ n1 k.fq.toNat ++ n1 k.fidx ++
    n1 b.q.l.length ++ n1 b.q.c.length ++ n1 b.q.s.length ++ n1 b.c.latches.length ++ leBytes 0 2 ++
    n1 b.q.lc ++ n1 b.q.cl ++ n1 b.q.cs ++ n1 b.q.sc ++ leBytes b.c.vhold 4 ++ leBytes b.c.mskip 4 ++ leBytes 0 4 ++
    n1 ((List.range 8).foldl (fun a i => a + flag (b.r.preg (BitVec.ofNat 3 i)) i) 0) ++ n1 b.c.mprio.toNat ++ leBytes 0 6 ++
    n8 b.ccycle ++ n8 b.pts ++
    n8 c.fpflags.toNat ++ n8 c.attz.toNat ++ n8 c.lease.toNat ++ n8 c.qslip.toNat ++ n8 (b2n c.spdisc) ++
    b.r.lc.toList.flatMap (fun x => n8 x.toNat) ++ leBytes 0 104 ++
    ((List.range 32).flatMap fun i => n8 (b.r.sreg (BitVec.ofNat 5 i)).toNat) ++
    ((b.r.h.toList.take 15 ++ [h15]).flatMap handleBytes) ++
    b.r.m.toList.flatMap (fun x => leBytes x.toNat 32) ++
    (b.r.belt.toList ++ b.r.n.toList).map (fun v => BitVec.ofNat 8 v.tag.code) ++ leBytes 0 224 ++
    (b.r.belt.toList ++ b.r.n.toList).flatMap fun v => leBytes v.bits.toNat 256

/-- A frame as pieces at their offsets: header, latches in use, entries in use. -/
def framePieces (b : Bank) (h15 : Handle) (k : FrameHead) : List (Nat × List Byte) :=
  [(0, frameHeader b h15 k), (0x2600, b.c.latches.flatMap latchBytes), (0x6600, b.q.l.flatMap entryBytes),
    (0x8600, b.q.c.flatMap entryBytes), (0xA600, b.q.s.flatMap entryBytes)]

/-- Pieces are written as ordinary writes of the context. -/
def State.writePieces (s : State) (w : Who) (base : Nat) (ps : List (Nat × List Byte)) : State :=
  ps.foldl (fun s p => s.ctxPut w (base + p.1) (plain p.2) (p.2.length / 64 + 2)) s

/-! ## Freezing a C queue (R262, R266, R376) -/

/-- A matrix word in flight as an entry of the C queue, ISSUED, at its next chunk. -/
def matEntry (r : MatRun) : Entry where
  word := r.word
  guard := true
  issued := true
  popped := true
  pc := r.pc
  pos := r.pos
  mpc := r.chunk
  sc := #v[r.da, r.db, 0, 0]
  foldIn := (r.folds.map (·.rem)).foldl max 0

/-- The matrix word at the head gives back what it was granted or asked for and starts over from its checks (R262). -/
def State.dropHeadGrant (s : State) (w : Who) : State :=
  let s := (s.returnGrant w (s.bank w).c.grant).modCluster (Tid.cluster (Who.tile w)) fun x => x.modGov 0 fun g =>
    { g with
      used := g.used - (g.ready.filter (·.ofCtx w)).foldl (fun a r => a + r.units) 0
      reqs := g.reqs.filter fun r => !(r.ofCtx w && r.win == 0)
      ready := g.ready.filter fun r => !r.ofCtx w }
  s.modBank w fun b => b.modC fun c => { c with grant := none, prep := none, engSince := none, nextSince := none }

/-- The stream is frozen; an `acc.out` with rows left stands unissued at the head; a substitution is withdrawn, and a true execution is
not recorded (R262, R266, R428). -/
def State.freezeC (s : State) (w : Who) : State :=
  let (_, s) := (s.dropHeadGrant w).freezeStream w
  s.modBank w fun b =>
    let b := match b.c.accOut with
      | none => b
      | some a => { b with q := { b.q with c := { a.entry with popped := true, waits := false } :: b.q.c } }
    { b with
      c := { b.c with accOut := none }
      apx := b.apx.bind fun a => if a.subst then none else some { a with whole := false } }

/-- Matrix words in flight become entries before the others. -/
def Bank.matsToEntries (b : Bank) : Bank :=
  { b with q := { b.q with c := b.c.mats.map matEntry ++ b.q.c }, c := { b.c with mats := [] } }

/-- The captured copies of a bank's entries, by queue and index (R382). -/
def Bank.copies (b : Bank) : List (QName × Nat × BitVec 4 × Handle) :=
  let of (q : QName) (es : List Entry) := es.zipIdx.flatMap fun x => x.1.cp.map fun c => (q, x.2, c.1, c.2)
  of .l b.q.l ++ of .c b.q.c ++ of .s b.q.s

end Sys2Proof.Machine
end

