-- ==== Sys2Proof/Machine/Ops.lean ====
section
/-! DEFINITION. Shared operations: the end of an instance, taking an exception and returning from one, how a front-end word and
a word of the L or S queue runs (R31, R32, R43, R123, R322, R372 to R384). -/
namespace Sys2Proof.Machine

/-! ## Program counters (R26, R334) -/

/-- WC of the packet entered. -/
def Front.wc (f : Front) : Nat := match f.packet with
  | some (_, x) => bits x.toNat 0 3
  | none => 4

/-- The address of the packet that a PC names. -/
def packetAddr (pc : BitVec 60) : BitVec 60 := BitVec.ofNat 60 (pc.toNat / 32 * 32)
def slotOf (pc : BitVec 60) : Nat := pc.toNat % 32 / 4

/-- PC of the word that follows the present one. -/
def Front.next (f : Front) : BitVec 60 := if slotOf f.pc < f.wc then f.pc + 4 else packetAddr f.pc + 32

/-- The front end goes on at the next word. -/
def Front.advance (f : Front) : Front :=
  { f with pc := f.next, packet := if slotOf f.pc < f.wc then f.packet else none, wait := .none, waited := .none }

/-- The front end goes on at a target (R334). -/
def Front.jump (f : Front) (t : BitVec 60) : Front := { f with pc := t, packet := none, wait := .none, waited := .none }

/-- The five legal slots of a PC, in 60 bits (R26, R334). -/
def legalPc (t : Word) : Bool := t.toNat < 2 ^ 60 && t.toNat % 4 = 0 && t.toNat % 32 / 4 ≤ 4

/-! ## The end of an instance -/

def CopyChan.cancel (c : CopyChan) : CopyChan := { c with st := .idle, sc := 0, fly := [], away := false, armed := false, grant := none, again := false }

/-- `cp.cancel` of one channel: entries stop, units return, the channel is disarmed (R184). -/
def State.cancelChan (s : State) (t : Tid) (k : Fin 8) : State :=
  let c := (s.tile t).chans.get k
  (s.returnGrant (who t c.owner) c.grant).modTile t fun x => { x with chans := x.chans.set k.val c.cancel k.isLt }

/-- `cp.cancel.all` of a context (R184); a `kv.get` under way stops writing (R281). -/
def State.cancelAll (s : State) (w : Who) : State :=
  let s := s.modBank w fun b => { b with kvRuns := b.kvRuns.map fun r => if (opOf r.word).toNat = 0x48 then { r with stage := 99 } else r }
  (List.finRange 8).foldl (fun s k => if ((s.tile (Who.tile w)).chans.get k).ofCtx (Who.ctx w) then s.cancelChan (Who.tile w) k else s) s

/-- The context's accumulator banks return to the pool. -/
def State.freeBanks (s : State) (w : Who) : State :=
  let n := (s.bank w).z.toList.foldl (fun a z => a + z.banks) 0
  (s.modTile (Who.tile w) fun t => { t with accFree := t.accFree + n }).modBank w fun b => { b with z := Vector.replicate 16 {} }

/-- The engine goes to the other context or is free, if this context holds it (R261). -/
def State.leaveEngine (s : State) (w : Who) : State :=
  if (s.tile (Who.tile w)).engine = some (Who.ctx w) then s.releaseEngine w else s

/-- Bank-engine commands end: pins and units return (R96, R117). -/
def State.dropPim (s : State) (w : Who) : State :=
  let s' := (s.bank w).pimRuns.foldl (fun s r => (s.unpinPim r).returnGrant w r.grant) s
  s'.modBank w fun b => { b with pimRuns := [] }

/-- A collective arrival is withdrawn, at once or as soon as the record's home can be reached (R319, R405). -/
def State.withdrawColl (s : State) (w : Who) : State :=
  match (s.bank w).coll with
  | none => s
  | some c =>
    let s := s.returnGrant w c.grant
    let s :=
      if c.arrived then (s.addOrphan (.arrival w c.pa)).pumpOrphan else s
    s.modBank w fun b => { b with coll := none }

/-- What an instance holds is given back, but for its copy channels: handles with their pins, banks, units, engine work (R364, R431). -/
def State.giveUp (s : State) (w : Who) : State :=
  let s := (s.bank w).c.mats.foldl (fun s r => s.returnGrant w r.grant) s
  let s := ((s.bank w).tf.map (·.grants)).getD [] |>.foldl (fun s g => s.returnGrant w (some g)) s
  let s := (s.dropHeadGrant w).leaveEngine w
  let s := if (s.bank w).h15save.valid && (s.bank w).h15save.pinned then s.lowerPin (s.bank w).h15save.id else s
  let s := (((s.releaseHandles w).detachQz w).flushSmp w).freeBanks w
  ((((s.dropPim w).withdrawColl w).abandonAll w).releaseWindow w).dropRequests w

/-- Everything that an instance holds is given back, and its copy channels are cancelled (R123, R378, R403). -/
def State.dropInstance (s : State) (w : Who) : State := (s.cancelAll w).giveUp w

/-- The trailing copy of a lockstep pair stops with its leader (R409). -/
def State.stopMirror (s : State) (w : Who) : State :=
  { s with ctxs := s.ctxs.map fun c => if c.status = .mirror w then { c with status := .idle, b := {}, trail := [], signs := [] } else c }

/-- What a context keeps of a bank that goes: the numbering of its power windows, and the tile cycle of its C queue's latest C-cycle (R4). -/
def Bank.leave (b : Bank) : Bank := { pwrSerial := b.pwrSerial, c := { lastC := b.c.lastC } }

/-- The context is idle; its shadow bank stays. -/
def State.goIdle (s : State) (w : Who) : State :=
  let s := (s.modCtx w fun c => { c with status := .idle, b := c.b.leave, preempt := false }).stopMirror w
  if (s.ctx (Who.other w)).status = .idle then s.modTile (Who.tile w) fun t => { t with fewSeen := true } else s

/-- An abort for a page that is not present: everything of the instance is dropped, and the scheduler asks for the page (R123). -/
def State.abortInstance (s : State) (w : Who) (va : Word) : State :=
  match (s.bank w).inst with
  | none => s.goIdle w
  | some i =>
    let asid := (s.bank w).csr.asid
    ((s.dropInstance w).goIdle w).modHub fun h =>
      { h with pageIns := h.pageIns ++ [{ va, asid, pool := { node := i.node, index := i.index, att := i.att + 1, since := s.sched16 } }] }

/-- An instance returns to the ready pool as a new placement with one more attempt, or its node fails after 255 (R352, R356, R359); while no
core is active it waits for that (R369). -/
def State.requeue (s : State) (p : PoolEnt) : State :=
  if s.hub.cores.down then s.hold (.back p)
  else if p.att > 255 then s.failNode p.node
  else if (s.node? p.node).isNone then s
  else s.modHub fun h => { h with pool := h.pool ++ [{ p with since := s.sched16 }] }

/-- An abort whose instance goes straight back to the pool (R271, R403). -/
def State.abortRequeue (s : State) (w : Who) (first : Bool := false) : State :=
  match (s.bank w).inst with
  | none => s.goIdle w
  | some i =>
    ((s.dropInstance w).goIdle w).requeue { node := i.node, index := i.index, att := i.att + 1, since := 0, first }

/-- The node of an instance that a fatal condition has ended becomes FAILED; the event itself has its log entry (R352, R378). -/
def State.failFatal (s : State) (n : Nat) : State :=
  if s.hub.cores.down then s.hold (.fatal n)
  else
    match s.node? n with
    | none => s
    | some e => ((s.modQd e.queue fun d => { d with err := if d.err = 0xFFFFFFFF then d.err else d.err + 1 }).freeNode n).resettle

/-- A fatal condition ends the instance and fails its node; the event is logged with its cause and the cause's information
(R373, R378, R412). -/
def State.fatal (s : State) (w : Who) (code : BitVec 8) (info : Word := 0) : State :=
  match (s.bank w).inst with
  | none => (s.dropInstance w).goIdle w
  | some i =>
    (((s.dropInstance w).goIdle w).hubLog 12 info (ctxid16 w) 0 code).failFatal i.node

/-! ## Taking a trap or an interrupt (R376 to R378) -/

/-- Work that has issued and runs on to retirement or a fault. -/
def inProgress (b : Bank) : Bool :=
  !b.q.fly.isEmpty || !b.kvRuns.isEmpty || b.pimRuns.any (·.grant.isSome) || b.coll.any (·.arrived)

/-- A queue that has drained: empty, or its head waits or stands with a fault. -/
def queueDrained (es : List Entry) : Bool := match es with
  | [] => true
  | e :: _ => e.waits || e.pf != 0

/-- Both queues have drained; the queue whose head raised the trap stands. -/
def drained (b : Bank) (fq : BitVec 8) : Bool :=
  (fq = 1 || queueDrained b.q.l) && (fq = 3 || queueDrained b.q.s) && !inProgress b

/-- The frame page as FRAMEBASE translates, with RD and W (R376): the physical address and the handle. -/
def State.framePage (s : State) (w : Who) : Option (Nat × Handle) × Bool × State :=
  let c := (s.bank w).csr
  match lookup s w c.asid c.ptroot (framebaseVa c) with
  | (.leaf e level id, s) =>
    let h := mkHandle e level id (framebaseVa c) (Tid.die (Who.tile w)) false s.now
    if h.rd && h.w && pteKind e ≠ 3 && (!h.prv || (s.bank w).priv) then
      (some (h.base.toNat + framebaseVa c % 2 ^ levelBits level, h), false, s)
    else (none, false, s)
  | (.moving, s) => (none, true, s)
  | (_, s) => (none, false, s)

/-- A replay of the command window has entries that are still to issue again (R270). -/
def replaying (b : Bank) : Bool := b.c.window.any fun x => x.replaying && !x.left.isEmpty

/-- Entry into the handler once the queues have drained: the frame is written, the queues are emptied, TRAPCAUSE, TRAPINFO and
PC are set (R376). -/
def State.enterHandler (s : State) (w : Who) (t : TrapPend) : State :=
  let c := (s.bank w).csr
  if c.trapvec = 0 || c.framebase = 0 then
    if t.code = Cause.brk then
      s.modCtx w fun x => { x with status := .stopped, b := { x.b with trap := none, f := x.b.f.jump t.pc } }
    else s.fatal w t.code t.info
  else
    match s.framePage w with
    | (none, true, s) => s
    | (none, false, s) => s.fatal w Cause.frameFault (w64 (framebaseVa c))
    | (some (pa, page), _, s) =>
      let s := ((s.freezeC w).dropPimWait w).withdrawColl w
      let s := s.modBank w fun b =>
        let grants := b.c.mats.filterMap (·.grant)
        { b.matsToEntries with
          csr := { b.csr with
            fpflags := b.q.s.foldl (fun a e => a ||| e.flags) b.csr.fpflags
            inh := true, mck := b.csr.mck || t.cls = 3, trapClass := t.cls, trapCode := t.code, trapinfo := t.info }
          tf := some { grants } }
      let b := s.bank w
      let fidx := if t.fq = 2 then t.fidx + (b.q.c.filter (·.issued)).length else t.fidx
      let s := s.writePieces w pa (framePieces b (b.r.hreg 15) { pc := t.pc, fpc := t.fpc, fq := t.fq, fidx })
      s.modCtx w fun x =>
        { x with
          status := .running
          b := { x.b with
            trap := none
            h15save := x.b.r.hreg 15
            r := x.b.r.setH 15 page
            tf := some
              { copies := x.b.copies, latchPush := x.b.c.latches.map fun l => (l.push, l.pos), rets := x.b.c.rets
                pend := x.b.q.pend, pushed := (x.b.q.c.filter (·.pushed)).map (·.pos)
                slips := x.b.q.c.map fun e => (e.pos, e.slip)
                foldsIn := (x.b.q.c.filter fun e => e.issued && e.foldIn > 0).map fun e => (e.pos, e.foldIn), window := if replaying x.b then x.b.c.window else none, unstarted := x.b.c.cc == 0, grants := (x.b.tf.map (·.grants)).getD [], apx := x.b.apx }
            apx := none
            wm := []
            q := {}
            c := { x.b.c with latches := [], rets := [], vhold := 0, mskip := 0, draining := false, window := if replaying x.b then none else x.b.c.window }
            f := { x.b.f.jump c.trapvec with sleep := none, walked := false } } }

/-- The writes of the frame wait as other ordinary writes do: for a remap, for the host's answer, for the comparator (R85, R376, R405, R409). -/
def frameWaits (w : Who) : M Unit := do
  let s ← get
  let b := (s.bank w)
  if b.csr.trapvec = 0 || b.csr.framebase = 0 then return
  match s.framePage w with
  | (some (pa, _), _, _) => do
    let ps := framePieces ((s.freezeC w).bank w).matsToEntries {} { pc := 0 }
    for p in ps do
      remapWait w (pa + p.1) p.2.length
      snoopHost (pa + p.1) p.2.length
    outbound w
  | _ => pure ()

/-- The trap that waits is delivered as soon as the queues have drained, the posted stores are performed and the frame can be written (R376). -/
def State.tryEnter (s : State) (w : Who) : State :=
  match (s.bank w).trap with
  | none => s
  | some t =>
    if (s.bank w).csr.inh then (runM (postedFirst w) s).fatal w Cause.nested (w64 t.code.toNat)
    else if !drained (s.bank w) t.fq then s
    else
      match (do postedFirst w; frameWaits w : M Unit).run.run s with
      | (.ok _, s) => s.enterHandler w t
      | (.error _, s) => s

/-- Order of causes of one tile cycle (R377). -/
def trapRank (t : TrapPend) : Nat :=
  if t.cls = 3 then 0 else if t.fq = 2 then 1 else if t.fq = 1 then 2 else if t.fq = 3 then 3 else if t.fq = 4 then 4 else 5

/-- A fault that is not delivered stays pending on its entry (R377). -/
def Bank.notePf (b : Bank) (t : TrapPend) : Bank :=
  let mark (es : List Entry) : List Entry := es.mapIdx fun i e => if i = t.fidx then { e with pf := t.code, pfInfo := t.info } else e
  if t.fq = 1 then { b with q := { b.q with l := mark b.q.l } }
  else if t.fq = 2 then { b with q := { b.q with c := mark b.q.c } }
  else if t.fq = 3 then { b with q := { b.q with s := mark b.q.s } }
  else b

/-- An interrupt that a trap of the same cycle displaces is pending again (R375, R377). -/
def Bank.repend (b : Bank) (o : TrapPend) : Bank :=
  if o.cls ≠ 2 then b
  else
    let i := b.irq
    { b with irq :=
      if o.code = Cause.timer then { i with timer := true }
      else if o.code = Cause.copyFault then { i with copyFault := BitVec.toFin (BitVec.ofNat 3 o.info.toNat) :: i.copyFault }
      else if o.code = Cause.monitor then { i with monitor := BitVec.ofNat 8 o.info.toNat :: i.monitor }
      else { i with vote := true } }

/-- A trap, machine check or interrupt is raised (R376, R377); a fault in the drain of a pre-emption stays on its entry (R389). -/
def State.raise (s : State) (w : Who) (t : TrapPend) : State :=
  match (s.bank w).trap with
  | none =>
    if (s.ctx w).status = .trapping && (s.ctx w).preempt then s.modBank w fun b => b.notePf t
    else (s.modCtx w fun c => { c with status := .trapping, b := { c.b with trap := some t } }).tryEnter w
  | some o =>
    if o.time = t.time && trapRank t < trapRank o then
      (s.modBank w fun b => { ((b.notePf o).repend o) with trap := some { t with pc := if o.fq = 4 then o.fpc else t.pc } }).tryEnter w
    else (s.modBank w fun b => b.notePf t).tryEnter w

/-- The machine check's log entry, whose number `mchk.ack` returns (R388, R411, R412): POISON by its address and array, SILENT_ERROR by
its seed. -/
def State.logCheck (s : State) (w : Who) (code : BitVec 8) (log : Word) (array : Nat) : State :=
  let t := Who.tile w
  let s :=
    if code = Cause.silentError then
      (s.tileLog t 6 5 0 (ctxid16 w) 0 (BitVec.ofNat 8 log.toNat)).modTile t fun x => { x with health := { x.health with kat := false } }
    else s.tileLog t array 4 log (ctxid16 w)
  s.modBank w fun b => { b with mckSeq := s.hub.seq }

/-- A stop becomes the trap or machine check it is. `pc` is where the program resumes. -/
def State.raiseStop (s : State) (w : Who) (x : Stop) (fq : BitVec 8) (fidx : Nat) (fpc pc : BitVec 60) : State :=
  match x with
  | .trap code info => s.raise w { cls := 1, code, info, fq, fidx, fpc, pc, time := s.now }
  | .mcheck code info log array => (s.logCheck w code log array).raise w { cls := 3, code, info, fq, fidx, fpc, pc, time := s.now }
  | .wait _ => s
  | .abort va => s.abortInstance w va

/-! ## Front-end words (R31, R32, R322) -/

/-- A trapping word leaves the state as it was, but for what the logs have recorded and for the errors that it met: these stay met,
their slots, lines and copies marked (R9, R160, R163, log 119). -/
def rollback (w : Who) (old new : State) : State :=
  let x := new.tile (Who.tile w)
  (old.modHub fun h => { h with log := new.hub.log, seq := new.hub.seq, lp6 := new.hub.lp6 }).modTile (Who.tile w) fun t =>
    let slots := ((t.bad.filter fun e => e.2 && !x.bad.contains e).map fun e => e.1 / 4096) ++
      ((t.errs.filter fun e => e.arr = 5 && e.ue && !x.errs.contains e).map fun e => e.addr / 8)
    let t := slots.foldl (fun t k => t.modTag k fun g => { g with p := g.p || (x.tag k).p }) t
    let l1 := if t.sound || t.l1 = x.l1 then t.l1 else t.l1.map fun c => (c.1, { c.2 with poison := c.2.poison || ((kvGet x.l1 c.1).map (·.poison)).getD false })
    { t with l1, log := x.log, errinj := x.errinj, health := x.health, bad := x.bad, errs := x.errs, kvPoison := x.kvPoison }

/-- Something of the C queue still runs: results in flight, retirements, matrix words, holds (R193). -/
def cBusy (b : Bank) : Bool :=
  !b.c.latches.isEmpty || !b.c.rets.isEmpty || !b.c.mats.isEmpty || b.c.vhold > 0 || b.c.accOut.isSome || b.q.pend.any (·.1 == .c)

/-- The front end waits at a point that drains the C queue (R193). -/
def drainPoint : WaitKind → Bool
  | .drain | .dispatch | .sleep => true
  | .none | .dispatchC | .ring | .walk | .other => false

/-- A drain begins when the queue is empty and the front end waits at such a point, and ends when nothing of it runs (R193). -/
def Bank.noteDrain (b : Bank) : Bank :=
  { b with c := { b.c with draining := cBusy b && !replaying b && (b.c.draining || (b.q.c.isEmpty && drainPoint b.f.wait)) } }

/-- The front end waits at its word. -/
def State.frontWaits (s : State) (w : Who) (k : WaitKind) : State :=
  s.modBank w fun b => (b.modF fun f => { f with wait := k, waited := k }).noteDrain

/-- Every wait of a word that drains the C queue is such a wait (R193). -/
def draining {α : Type} (m : M α) : M α := do
  let s ← get
  match m.run.run s with
  | (.ok a, s') => set s'; return a
  | (.error (.wait _), s') => set s'; throw (.wait .drain)
  | (.error x, s') => set s'; throw x

/-- The front-end word is done: the signature covers it, and the front end goes on as `go` says. -/
def State.endWord (s : State) (w : Who) (word : BitVec 48) (go : Front → Front) : State :=
  ((s.signWord w word).modTile (Who.tile w) fun t => { t with fewSeen := true }).modBank w fun b => (b.clearWm .front).modF fun f => { go f with sleep := none, walked := false }

/-- A front-end word with its guard: `run` gives where the front end goes on. -/
def feWordGo (h : Hdr) (word : BitVec 48) (run : Who → M (Front → Front)) (s : State) : State :=
  let w := s.cur
  let b := s.bank w
  if !guardOf h b then s.endWord w word Front.advance
  else
    match (run w).run.run s with
    | (.ok go, s') => s'.endWord w word go
    | (.error (.wait k), s') => s'.frontWaits w k
    | (.error (.abort va), s') => s'.abortInstance w va
    | (.error x, s') => (rollback w s s').raiseStop w x 4 0 b.f.pc b.f.pc

/-- A front-end word after which the next word follows. -/
def feWord (h : Hdr) (word : BitVec 48) (run : Who → M Unit) (s : State) : State :=
  feWordGo h word (fun w => do run w; return Front.advance) s

/-- A front-end word that reads and writes the registers of its context alone. -/
def feRegs (h : Hdr) (word : BitVec 48) (f : Regs → Except Stop Regs) (s : State) : State :=
  feWord h word (fun w => do
    match f (← getB w).r with
    | .ok r => modB w fun b => { b with r }
    | .error e => throw e) s

/-- The word as a number, which ILLEGAL_INSTRUCTION, PRIVILEGE and OPERAND_RANGE give as TRAPINFO (R373). -/
def wordInfo (word : BitVec 48) : Word := w64 word.toNat

def illegal {α : Type} (word : BitVec 48) : M α := trap Cause.illegalInstruction (wordInfo word)

/-- Only a privileged context executes the word. -/
def privileged (w : Who) (word : BitVec 48) : M Unit := do
  if !(← getB w).priv then trap Cause.privilege (wordInfo word)

/-- The dispatch of a word that makes its instance non-abortable, whatever its guard (R123). -/
def State.nonAbortable (s : State) (w : Who) : State :=
  s.modBank w fun b => { b with inst := b.inst.map fun i => { i with abt := false } }

/-! ## Dispatch (R43, R44, R323) -/

def Queues.get (x : Queues) : QName → List Entry
  | .l => x.l
  | .c => x.c
  | .s => x.s

def Queues.set (x : Queues) (q : QName) (es : List Entry) : Queues :=
  match q with
  | .l => { x with l := es }
  | .c => { x with c := es }
  | .s => { x with s := es }

/-- Words that make their instance non-abortable at dispatch from a queue (R123). -/
def abortsEnd : Instr → Bool
  | .evtSigs .. | .taskPosts .. | .kvCommit .. => true
  | _ => false

/-- A queue word is dispatched: its operands, handle copies and guard are captured, and it takes the next position. -/
def State.dispatch (s : State) (w : Who) (q : QName) (i : Instr) (h : Hdr) (co : Bool := false) : State :=
  let s := (if abortsEnd i then s.nonAbortable w else s).modTile (Who.tile w) fun t => { t with fewSeen := true }
  s.modBank w fun b =>
    let e := capture b i h b.f.pc b.f.nextPos co
    { b with
      q := b.q.set q (b.q.get q ++ [e])
      f := { b.f with nextPos := b.f.nextPos + 1 } }

/-- Every queue word at a position of k − QSLIP or below has issued (R323). -/
def slipOk (b : Bank) (k : Nat) : Bool := (b.q.l ++ b.q.c ++ b.q.s).all fun e => e.issued || k < e.pos + b.csr.qslip.toNat

/-- Entries that a queue holds: its unissued words, and in the C queue the matrix words and the `acc.out` in flight, which a frame
records as entries of it (R379, R381, log 116). -/
def Bank.held (b : Bank) (q : QName) : Nat :=
  (b.q.get q).length + if q = .c then b.c.mats.length + b2n b.c.accOut.isSome else 0

/-- The queue has room for `n` more words, and the slip limit admits the last of them: neither a queued word nor an earlier one of the `n` lies
QSLIP positions before it (R43, R323). -/
def roomFor (s : State) (w : Who) (q : QName) (n : Nat) : Bool :=
  let b := s.bank w
  b.held q + n ≤ 64 && slipOk b (b.f.nextPos + n - 1) && n ≤ b.csr.qslip.toNat

/-- A word, with the word paired to it when `n` is 2, may dispatch: room, the slip limit, and ready handles (R29, R43, R109, R323). -/
def admitted (s : State) (w : Who) (q : QName) (i : Instr) (n : Nat) : Bool :=
  roomFor s w q n && (handleFields i).all fun k => ((s.bank w).r.hreg k).readyAt ≤ s.now

/-- The word at the front end dispatches and the front end goes on. -/
def State.dispatchNext (s : State) (w : Who) (q : QName) (i : Instr) (h : Hdr) (co : Bool := false) : State :=
  (s.dispatch w q i h co).modBank w fun b => b.modF Front.advance

/-- The word at the front end dispatches as soon as it is admitted. -/
def State.enqueue (s : State) (w : Who) (q : QName) (i : Instr) (h : Hdr) : State :=
  if admitted s w q i 1 then s.dispatchNext w q i h else s.frontWaits w (if !roomFor s w q 1 then if q = .c then .dispatchC else .dispatch else .other)

/-! ## Words of the L and S queues (R34, R35, R44) -/

def fqOf : QName → BitVec 8
  | .l => 1
  | .c => 2
  | .s => 3

/-- The head entry of a queue is changed. -/
def modHead (w : Who) (q : QName) (f : Entry → Entry) : M Unit :=
  modB w fun b => { b with q := b.q.set q (match b.q.get q with | [] => [] | e :: es => f e :: es) }

def State.modHeadS (s : State) (w : Who) (q : QName) (f : Entry → Entry) : State := runM (modHead w q f) s

/-- Repeat `j` of an FM word with captured operands: memory offset and scratchpad address (R40). -/
def fmOffset (e : Entry) (j : Nat) : Nat := (((e.s 0).toNat + j * sext (e.s 3).toNat 32) % 2 ^ 64).toNat
def fmSpad (e : Entry) (j : Nat) : Int := (e.s 1).toNat + j * sext ((e.s 3).toNat / 2 ^ 32) 32
/-- n = (LEN + 1) × 64. -/
def fmBytes (f : FM) : Nat := (f.len.toNat + 1) * 64

/-- The range that the last repeat of a word with CF writes (R172). -/
def cfRange (e : Entry) : Option (Nat × Nat) :=
  let f := FM.ofBody (bodyOf e.word)
  let op := (opOf e.word).toNat
  if !bit f.flg.toNat 0 || !e.guard || e.skip then none
  else if op = 0x41 then some ((e.s 1).toNat + f.rep.toNat * fmBytes f, fmBytes f)
  else if op = 0x40 || op = 0x43 || op = 0x51 then some ((fmSpad e f.rep.toNat).toNat, fmBytes f)
  else none

/-- The head has issued: it leaves its queue and is in flight until it retires. -/
def State.takeHead (s : State) (w : Who) (q : QName) (e : Entry) (done : Bool) : State :=
  s.modBank w fun b =>
    let flags := ((b.q.get q).head?.map (·.flags)).getD 0
    { b.clearWm (siteOf q) with
      ser := b.ser + 1
      q := { b.q.set q (b.q.get q).tail with
        fly := b.q.fly ++ [{ q, pos := e.pos, push := pushOf q e.word, done, flags, cf := cfRange e, ser := b.ser }] } }

/-- A word that traps leaves the state as it was (R9), but for what the logs have recorded. -/
def precise {α : Type} (w : Who) (m : M α) : M α := do
  let s ← get
  match m.run.run s with
  | (.ok a, s') => set s'; return a
  | (.error (.wait k), s') => set s'; throw (.wait k)
  | (.error x, s') => set (rollback w s s'); throw x

/-- The head of an L or S queue issues. `run` answers whether the word is done, so that it can retire; a stop keeps what the
word has done so far. -/
def State.issueLS (s : State) (w : Who) (q : QName) (e : Entry) (run : Who → Entry → M Bool) : State :=
  if e.pf ≠ 0 then
    (s.modHeadS w q fun e => { e with pf := 0, pfInfo := 0 }).raise w
      { cls := if e.pf.toNat < 0xC0 then 1 else 3, code := e.pf, info := e.pfInfo, fq := fqOf q, fidx := 0, fpc := e.pc, pc := (s.bank w).f.pc, time := s.now }
  else
    match if e.popped then some (s.bank w).q else (s.bank w).q.pop q (tkOf e.word) with
    | none => s.modHeadS w q fun e => { e with waits := true }
    | some x =>
      let s := (s.modBank w fun b => { b with q := x }).modHeadS w q fun e => { e with popped := true }
      if !e.guard || e.skip then s.takeHead w q e true
      else
        match (do postedFirst w; run w e : M Bool).run.run s with
        | (.ok done, s) => s.takeHead w q e done
        | (.error (.wait _), s) => s.modHeadS w q fun e => { e with waits := true }
        | (.error x, s) => s.raiseStop w x (fqOf q) 0 e.pc (s.bank w).f.pc

/-- A word of the L or S queue: it dispatches when its queue is empty or another word heads it, and then issues as the head. -/
def lsWord (q : QName) (i : Instr) (h : Hdr) (word : BitVec 48) (run : Who → Entry → M Bool) (s : State) : State :=
  let w := s.cur
  match (s.bank w).q.get q with
  | [] =>
    let s := s.enqueue w q i h
    match (s.bank w).q.get q with
    | [] => s
    | e :: _ => s.issueLS w q e run
  | e :: _ => if e.word = word then s.issueLS w q e run else s.enqueue w q i h

/-- The oldest word of a queue in flight, when it may retire: it is done, and so are the copy entries that earlier words of its queue let be
released, which count as issued before it; so what it pushes orders them too (R35, R143, R153, R177; DEDUCED, log 124). -/
def State.toRetire (s : State) (w : Who) (q : QName) : Option Fly :=
  ((s.bank w).q.fly.find? (·.q == q)).filter fun f =>
    f.done && (s.tile (Who.tile w)).chans.toList.all fun c => !(c.ofCtx (Who.ctx w)) || (c.pendingOf q f.ser).isEmpty

/-- The oldest finished word of a queue retires, in order within its queue (R35). -/
def State.retireOldest (s : State) (w : Who) (q : QName) : State :=
  match s.toRetire w q with
  | none => s
  | some f =>
    let s := s.modBank w fun b =>
      ({ b with q := { b.q with fly := b.q.fly.eraseP (·.q == q) } }.freshHw s.now).setFlags f.flags
    let s := match f.cf with
      | some (a, n) => runM (clearFilling w a n) s
      | none => s
    s.retireWord w q f.push

/-- The word of a queue at a dispatch position is done, with the flags that its retirement sets. -/
def State.flyDone (s : State) (w : Who) (q : QName) (pos : Nat) (fl : Flags := 0) : State :=
  s.modBank w fun b =>
    { b with q := { b.q with fly := b.q.fly.map fun f => if f.q == q && f.pos == pos then { f with done := true, flags := f.flags ||| fl } else f } }

end Sys2Proof.Machine
end

