-- ==== Sys2Proof/Machine/CQueue.lean ====
section
/-! DEFINITION. The C queue: C-cycles, drops, freezing, holding, issue, `acc.out` rows, pairs, windows
(R29, R32, R190 to R193, R204, R252, R258, R259, R266, R269). -/
namespace Sys2Proof.Machine

/-! ## Drops (R190) -/

/-- m[K] as a latch's mode gives it at the drop (R380). -/
def Latch.mask (l : Latch) : BitVec 256 :=
  match l.maskMode.toNat with
  | 1 => BitVec.ofNat 256 (packElems 1 (l.val.lanes.map fun x => if x = 0 then 0 else 1))
  | 2 => BitVec.allOnes 256
  | _ => 0

/-- The result, its named register, pair and mask, flags and ATTZ are written. -/
def Bank.drop (b : Bank) (l : Latch) : Bank :=
  let r := { b.r with belt := pushBelt b.r.belt l.val }
  let r := if l.wn then r.setN l.nd l.val else r
  let r := match l.pair with
    | none => r
    | some (k, hi, lo) => (r.setN (BitVec.ofNat 4 (2 * k.toNat)) hi).setN (BitVec.ofNat 4 (2 * k.toNat + 1)) lo
  let r := if l.maskMode = 0 then r else r.setM l.maskK l.mask
  { b with r }.setFlags l.flags l.attz.toNat

/-! ## Freezing (R192) -/

/-- Words that retire at the next C-cycle: their pushes. -/
def Bank.duePushes (b : Bank) : List Push :=
  (b.c.latches.filter (·.rem ≤ 1)).map (·.push) ++ b.c.rets.map (·.1) ++
    (b.c.mats.filter fun r => !r.streaming && r.folds.all (·.rem ≤ 1)).map (·.push) 

/-- A push of a retiring word finds its FIFO full. -/
def Bank.pushBlocked (b : Bank) : Bool :=
  let ps := b.duePushes
  let d := (ps.filter (·.down)).length
  let u := (ps.filter (·.up)).length
  (d > 0 && b.q.cs + d > 16) || (u > 0 && b.q.cl + u > 16) || b.q.pend.any (·.1 == .c)

/-- A matrix word that needs units: one with K of 256 or more (R260). -/
def needsUnits (word : BitVec 48) : Bool := (opOf word).toNat != 0xAA && ftK (FT.ofBody (bodyOf word)) ≥ 256

/-- The context's stream stands without the units that it needs, since its instance came back from an image. -/
def wantsUnits (b : Bank) : Bool := ((streamOf b).map fun r => needsUnits r.word && r.grant.isNone).getD false

/-- The stream asks again for the units that it needs (R430). -/
def State.claimUnits (s : State) (w : Who) : State :=
  if !wantsUnits (s.bank w) then s
  else
    match (askGrant w 0 1).run.run s with
    | (.ok g, s) => s.modMats w fun ms => ms.map fun m => if m.streaming && m.grant.isNone then { m with grant := some g } else m
    | (.error _, s) => s

/-- The engine belongs to this context's stream, or the stream takes it when it is free; one that finds the other context's there waits
for it (R259, R261). -/
def State.claimEngine (s : State) (w : Who) : State :=
  let s := s.claimUnits w
  if (streamOf (s.bank w)).isNone || (s.tile (Who.tile w)).engine = some (Who.ctx w) then s
  else if (s.tile (Who.tile w)).engine.isNone then
    (s.modTile (Who.tile w) fun t => { t with engine := some (Who.ctx w) }).modBank w fun b => b.modC fun c => { c with engSince := none }
  else s.modBank w fun b => b.modC fun c => { c with engSince := some (c.engSince.getD s.now) }

/-- The C queue is frozen whatever its head: its C-cycle of this tile cycle has passed (R4, R16), a push waits, or the stream waits for
units, for the engine or at a watermark. -/
def State.cFrozen (s : State) (w : Who) : Bool :=
  let b := s.bank w
  let t := s.tile (Who.tile w)
  b.c.lastC == s.now + 1 || b.pushBlocked || wantsUnits b || ((streamOf b).isSome && t.engine != some (Who.ctx w)) ||
    linesBarred s w .stream (streamLines b)

/-! ## The start of a C-cycle -/

/-- Folds, drops and retirements of a C-cycle, in that order; units return at its end. -/
def State.cTick (s : State) (w : Who) : State :=
  let (gone, s) := (s.modBank w fun b => b.freshHw s.now).foldTick w
  let s := (gone.foldl (fun s r => s.retireWord w .c r.push) s).modBank w fun b => b.modC fun c => { c with owed := c.owed ++ gone.filterMap (·.grant) }
  let ls := (s.bank w).c.latches.map fun l => { l with rem := l.rem - 1 }
  let rets := (s.bank w).c.rets
  let s := s.modBank w fun b =>
    (ls.filter (·.rem = 0)).foldl Bank.drop
      (Bank.setFlags { b with c := { b.c with latches := ls.filter (·.rem ≠ 0), rets := [] } } (rets.foldl (fun a p => a ||| p.2.2) 0))
  let s := (ls.filter (·.rem = 0)).foldl (fun s l => s.retireWord w .c l.push) s
  rets.foldl (fun s p => s.retireWord w .c p.1) s

/-! ## `acc.out` (R266) -/

/-- The saturation of a conversion to a tag, by its ND bit (R238). -/
def satFor (t : Tag) (nd : Bool) : Bool :=
  match t with
  | .fp32 | .fp16 | .bf16 => nd
  | .empty | .fp8e4 | .fp8e5 | .int32 | .int16 | .int8 | .uint8 | .idx | .poison => !nd

/-- One element of a tile as `acc.out` writes it. -/
def accConvert (int scaled : Bool) (scale : Num) (t : Tag) (mode : Mode) (sat : Bool) (x : Nat) : Flagged Nat :=
  if int && !scaled then convert .int32 t mode sat x
  else
    let (v, f) := if scaled then Num.mul (elemValue (if int then .int32 else .fp32) x) scale else (fmtFP32.value x, 0)
    match t.fmt? with
    | some m => let (p, g) := roundTo m v mode sat; (p, f ||| g)
    | none =>
      let (lo, hi) := intRange t
      let (k, g) := roundInt v mode lo hi
      (toPat t.width k, f ||| g)

/-- A word's access of [a, a + n) touches a bank that the stream reads in this C-cycle: the bank and its group (R9, R259). -/
def bankClash (b : Bank) (a n : Nat) : Option Word :=
  let touched := linesOf a n
  (touched.find? fun l => (streamLines b).any fun x => x / 64 % 32 = l % 32 && x / 0x80000 = l * 64 / 0x80000).map
    fun l => w64 (l % 32 + 32 * (l * 64 / 0x80000))

def checkClash (w : Who) (a n : Nat) : M Unit := do
  match bankClash (← getB w) a n with
  | some i => trap Cause.bankConflict i
  | none => pure ()

def accOutTag (f : FK) : Tag := (Tag.ofCode (bits f.imm.toNat 4 4)).getD .empty

/-- The scratchpad bytes of the row that an `acc.out` writes next: address and number. -/
def accOutSpan (b : Bank) (a : AccOutRun) : Nat × Nat :=
  let z := b.tileZ (BitVec.ofNat 4 (FK.ofBody (bodyOf a.entry.word)).imm.toNat)
  ((a.entry.s 0).toNat + a.row * (a.entry.s 1).toNat, z.ncols * (accOutTag (FK.ofBody (bodyOf a.entry.word))).width / 8)

/-- The slots that an `acc.out` has written take P when the tag after its last row is POISON. -/
def accOutMarks (w : Who) (a : AccOutRun) : M Unit := do
  let b ← getB w
  if (b.tileZ (BitVec.ofNat 4 (FK.ofBody (bodyOf a.entry.word)).imm.toNat)).tag = .poison then
    let slots := (List.range (a.row + 1)).flatMap fun i => let (p, n) := accOutSpan b { a with row := i }; slotsOf p n
    modT w fun t => slots.foldl (fun t k => t.modTag k fun e => { e with p := true }) t

/-- One row of an `acc.out` is written. -/
def accOutRow (w : Who) (a : AccOutRun) : M Unit := do
  let f := FK.ofBody (bodyOf a.entry.word)
  let t := accOutTag f
  let mode := (Mode.ofCode (bits f.imm.toNat 8 3)).getD .rne
  let (at', n) := accOutSpan (← getB w) a
  watermarkWait w .accOut false at' n
  checkClash w at' n
  let k := 4 * ((← getB w).tileZ (BitVec.ofNat 4 f.imm.toNat)).ncols
  modS fun s => s.meetAcc w (BitVec.ofNat 4 f.imm.toNat) (a.row * k) k
  let z := (← getB w).tileZ (BitVec.ofNat 4 f.imm.toNat)
  let scaled := f.c != 0
  let xs := (List.range z.ncols).map fun j =>
    accConvert z.int scaled (fmtFP32.value (bits (a.entry.s 2).toNat 0 32)) t mode (satFor t (bit f.imm.toNat 11)) (z.get a.row j).toNat
  spWrite w at' (leBytes (packElems t.width (xs.map (·.1))) n)
  if a.row + 1 = z.nrows then accOutMarks w a
  let fl := xs.foldl (fun acc x => acc ||| x.2) a.flags
  modB w fun b => b.modC fun c => { c with accOut := some { a with row := a.row + 1, flags := fl } }

/-! ## Errors in accumulator memory (R270, R271) -/

/-- The tiles of a mask. -/
def maskTiles (m : Nat) : List (BitVec 4) := ((List.range 16).filter (bit m)).map (BitVec.ofNat 4)

/-- Positions of the words that have issued and not retired. -/
def Bank.inFlightPos (b : Bank) : List Nat :=
  b.c.latches.map (·.pos) ++ b.c.rets.map (·.2.1) ++ b.c.mats.map (·.pos) ++ b.c.accOut.toList.map (·.pos)

/-- A replay starts (R270): latches are discarded, the stream ends, tiles and checkpoint are restored, and the entries stand to be
issued again, with the token actions done already left out; a matrix word that has not issued starts over from its checks. -/
def State.startReplay (s : State) (w : Who) (x : Window) : State :=
  let s := s.dropHeadGrant w
  let busy := (s.bank w).inFlightPos
  let s := (s.bank w).c.mats.foldl (fun s r => s.returnGrant w r.grant) s
  let s := (s.tileLog (Who.tile w) 3 6 (BitVec.ofNat 64 x.mask.toNat) (ctxid16 w) 0 (BitVec.ofNat 8 x.mask.toNat)).modBank w fun b =>
    let es := x.entries.map fun y => (y.1, { y.2 with popped := true, pushed := !busy.contains y.2.pos })
    { (maskTiles x.mask.toNat).foldl (fun b z => b.modZ z AccTile.zero) b with
      r := { b.r with belt := x.belt, n := x.n, m := x.m }
      c := { b.c with
        latches := [], rets := [], mats := [], accOut := none, vhold := 0, mskip := 0
        window := some { x with replaying := true, left := es } } }
  (s.setAcc w true).leaveEngine w

/-- A replay is over once its last entry has retired: the error is repaired, and counts against the tile no longer (R270, R416). -/
def State.endReplay (s : State) (w : Who) : State :=
  match (s.bank w).c.window with
  | none => s
  | some x =>
    let busy := (s.bank w).inFlightPos
    if x.replaying && x.left.isEmpty && !(x.entries.any fun e => busy.contains e.2.pos) then
      (s.setAcc w false).modBank w fun b => b.modC fun c => { c with window := some { x with replaying := false } }
    else s

/-- An error of tile `z` that no replay repairs (R271); `named` says that an open window names it. -/
def State.poisonTile (s : State) (w : Who) (z : BitVec 4) (named : Bool) : State :=
  let s := (s.setAcc w false).modTile (Who.tile w) fun t => { t with health := { t.health with arr := false } }
  if named && ((s.bank w).inst.map (·.abt)).getD false then s.abortRequeue w
  else s.modBank w fun b => b.modZ z fun t => { t with tag := .poison }

/-- An uncorrectable error of tile `z`, or in a fold into it: replayed, or answered as R271 says; a second error in a replay makes its
window unreplayable. -/
def State.accError (s : State) (w : Who) (z : BitVec 4) : State :=
  match (s.bank w).c.window with
  | none => s.poisonTile w z false
  | some x =>
    if !bit x.mask.toNat z.toNat then s.poisonTile w z false
    else if x.replayable && !x.replaying then s.startReplay w x
    else (s.modBank w fun b => b.modC fun c => { c with window := some { x with replayable := false } }).poisonTile w z true

/-- Errors met in accumulator tiles during the C-cycle are answered at its end: those of one window by one replay, or by one abort. -/
def State.answerErrors (s : State) (w : Who) : State :=
  let zs := (s.bank w).c.accErr
  let named (z : BitVec 4) : Bool := (s.bank w).c.window.any fun x => bit x.mask.toNat z.toNat
  let s := s.modBank w fun b => b.modC fun c => { c with accErr := [] }
  let s := (zs.filter (!named ·)).foldl (fun s z => s.accError w z) s
  match zs.filter named with
  | [] => s
  | z :: _ => s.accError w z

/-! ## The end of a C-cycle -/

/-- The stream reads the lines of the C-cycle, and the count advances (R5, R258). An operand error that ends the instance does so
here (R271). -/
def State.endCycle (s : State) (w : Who) : State :=
  let s := (s.bank w).c.owed.foldl (fun s g => s.returnGrant w (some g)) s
  let s := (s.streamTick w).modBank w fun b =>
    ((((b.modC fun c => { c with cc := c.cc + 1, lastC := s.now + 1, owed := [], vhold := c.vhold - 1 }).clearWm .c).clearWm .stream).clearWm .accOut).noteDrain
  let s := if (s.bank w).c.accErr.isEmpty then s.endReplay w else s.answerErrors w
  if (s.bank w).c.abortReq then s.abortRequeue w else s

/-- An `acc.out` whose last row is written holds the queue no longer; it retires at the next C-cycle. -/
def Bank.accOutDone (b : Bank) : Bank :=
  match b.c.accOut with
  | none => b
  | some a =>
    if a.row < (b.tileZ (BitVec.ofNat 4 (bodyOf a.entry.word).toNat)).nrows then b
    else { b with c := { b.c with accOut := none, rets := b.c.rets ++ [(a.push, a.pos, a.flags)] } }

/-- The step in which an `acc.out` writes a row, instead of an issue. -/
def State.accOutStep (s : State) (w : Who) : Except CStop State :=
  match (s.bank w).c.accOut with
  | none => .ok s
  | some a =>
      match (accOutRow w a).run.run s with
      | (.ok _, s) => .ok (s.modBank w Bank.accOutDone)
      | (.error (.trap c i), _) => .error (.trap c i)
      | (.error _, _) => .error .freeze

/-- The `acc.out` that holds the queue stands unissued at its head again. -/
def Bank.recallAccOut (b : Bank) : Bank :=
  match b.c.accOut with
  | none => b
  | some a => { b with q := { b.q with c := { a.entry with popped := true, waits := false } :: b.q.c }, c := { b.c with accOut := none } }

/-- A C-cycle in which no word issues (R193, R204, R252). A frozen queue stands. -/
def State.cIdle (s : State) (w : Who) : State :=
  let s := s.claimEngine w
  if s.cFrozen w then s
  else
    let t := s.cTick w
    match t.accOutStep w with
    | .ok t => t.endCycle w
    | .error (.trap c i) =>
      let e := ((s.bank w).c.accOut.map (·.entry)).getD { word := 0, guard := true }
      (s.modBank w Bank.recallAccOut).raise w { cls := 1, code := c, info := i, fq := 2, fidx := 0, fpc := e.pc, pc := (s.bank w).f.pc, time := s.now }
    | .error _ => s

/-- A C-cycle can pass without an issue: in a drain, or while a word of the queue holds it (R192, R193). -/
def mayIdle (b : Bank) : Bool := b.c.draining || b.c.accOut.isSome || (!b.q.c.isEmpty && b.c.vhold > 0)

/-! ## What a C word does when it issues -/

inductive CRes where
  /-- a belt result, due at `rem` -/
  | belt (l : Latch)
  /-- no belt result: it retires the C-cycle after it issues -/
  | plain (flags : Flags := 0)
  /-- no belt result: it retires as it issues (R420) -/
  | atOnce
  /-- `vnop` -/
  | hold (n : Nat)
  /-- a matrix word starts to stream -/
  | mat (r : MatRun)
  /-- an `acc.out` writes row 0 -/
  | out
deriving DecidableEq, Repr

/-- `DropBelt(v, t, latency, ND)` of a word with format FV. -/
def beltOf (f : FV) (v : Vec) (latency : Nat) (flags : Flags := 0) : CRes :=
  .belt { rem := latency, val := v, wn := f.wn = 1, nd := f.nd, flags }

/-- R252: the word holds while a word in flight names tile `z`. -/
def holdTile (w : Who) (z : BitVec 4) : M Unit := do
  if matNames (← getB w) z.toNat then waitFor .drain

def State.addRet (s : State) (w : Who) (p : Push) (pos : Nat) (flags : Flags := 0) : State :=
  s.modBank w fun b => b.modC fun c => { c with rets := c.rets ++ [(p, pos, flags)] }

/-- The issue of an entry has its result. -/
def State.putRes (s : State) (w : Who) (e : Entry) (p : Push) : CRes → State
  | .belt l => s.modBank w fun b => b.modC fun c => { c with latches := c.latches ++ [{ l with push := p, pos := e.pos }] }
  | .plain fl => s.addRet w p e.pos fl
  | .atOnce => s.signWord w p.word
  | .hold n => (s.addRet w p e.pos).modBank w fun b => b.modC fun c => { c with vhold := max n 1 }
  | .mat r => (s.modBank w fun b => b.modC fun c =>
      { c with
        mats := c.mats ++ [{ r with word := e.word, push := p, pos := e.pos, pc := e.pc, prio := c.mprio.toNat }]
        grant := none, engSince := none, nextSince := none, prep := none }).claimEngine w
  | .out => s.modBank w fun b => b.modC fun c => { c with accOut := some { entry := e, row := 0, flags := 0, push := p, pos := e.pos } }

/-- Words that make an open window unreplayable (R269). -/
def unreplayable (op : Nat) : Bool := [0x73, 0xC1, 0xC2, 0xC3, 0xC4, 0xC5, 0xC6, 0xC7, 0xD0, 0xD1, 0xA0, 0xA1, 0xA2].contains op

/-- An entry that issues is recorded in the open window: every C word but the `tmark` that opens or closes one (R269). -/
def Bank.noteWindow (b : Bank) (e : Entry) (cc : Nat) : Bank :=
  match b.c.window with
  | none => b
  | some x =>
    let op := (opOf e.word).toNat
    if op = 0xA9 && e.guard && !e.skip then b
    else if x.replaying && !x.left.isEmpty then
      let rest := match x.left with
        | l :: ls => if l.2.pos = e.pos then ls else l :: ls
        | [] => []
      let y : Window := { x with left := rest, start := if x.left.length = x.entries.length then cc else x.start }
      b.modC fun c => { c with window := some y }
    else
      let first := x.entries.isEmpty
      let es := x.entries ++ [(if first then 0 else cc - x.start, e)]
      let x := { x with entries := es, start := if first then cc else x.start, replayable := x.replayable && es.length ≤ 256 && !unreplayable op }
      { b with c := { b.c with window := some x } }

/-- An entry tries to issue in the present C-cycle: pops, guard, and what the word does. -/
def State.tryIssue (s : State) (w : Who) (e : Entry) (lat : Regs → Option Nat) (run : Who → Entry → M CRes) : Except CStop State × State :=
  match if e.popped then some (s.bank w).q else (s.bank w).q.pop .c (tkOf e.word) with
  | none => (.error .freeze, s)
  | some x =>
    let p : Push := if e.pushed then { word := e.word } else pushOf .c e.word
    let go (s : State) (r : CRes) : Except CStop State × State :=
      let s := s.putRes w e p r
      let s := (s.modBank w fun b => { b with q := { x with c := (b.q.get .c).tail, fly := b.q.fly, pend := b.q.pend } }).modBank w fun b =>
        b.noteWindow e b.c.cc
      match r with
      | .out => match s.accOutStep w with
        | .ok s => (.ok s, s)
        | .error c => (.error c, s)
      | _ => (.ok s, s)
    if !e.guard || e.skip then
      match lat (s.bank w).r with
      | some n => go s (.belt { rem := n, val := {} })
      | none => go s (.plain 0)
    else
      match (run w e).run.run s with
      | (.ok r, s) => go s r
      | (.error (.wait .drain), t) => (.error .hold, t)
      | (.error (.wait _), t) => (.error .freeze, t)
      | (.error (.trap c i), t) => (.error (.trap c i), t)
      | (.error (.mcheck c i l a), t) => (.error (.mcheck c i l a), t)
      | (.error (.abort _), t) => (.error .freeze, t)

/-- What a frozen word has asked for stays: its requests for units and its wait for the engine; nothing else has any effect (R192). -/
def keepAsked (w : Who) (old new : State) : State :=
  ({ old with clusters := new.clusters }).modBank w fun b =>
    { b with
      pwr := (new.bank w).pwr
      wm := (new.bank w).wm
      c := { b.c with grant := (new.bank w).c.grant, prep := (new.bank w).c.prep, engSince := (new.bank w).c.engSince, nextSince := (new.bank w).c.nextSince } }

def State.markC (s : State) (w : Who) : State := s.modHeadS w .c fun e => { e with waits := true }

/-- The entry at index `k` of the C queue makes its pops and is marked POPPED, as one that traps after them is (R34, R381). -/
def Bank.popAt (b : Bank) (k : Nat) : Bank :=
  match b.q.c[k]? with
  | none => b
  | some e =>
    if e.popped then b
    else
      match b.q.pop .c (tkOf e.word) with
      | none => b
      | some x => { b with q := { x with c := x.c.set k { e with popped := true } } }

/-- A C word stops: the queue stands, a C-cycle passes, or the trap is taken in the state before the C-cycle, but for the word's pops. -/
def State.stopC (t : State) (w : Who) (e : Entry) (fidx : Nat) (old : State) : CStop → State
  | .freeze => (keepAsked w old t).markC w
  | .hold => t.endCycle w
  | .trap c i => (old.modBank w (·.popAt fidx)).raiseStop w (.trap c i) 2 fidx e.pc (old.bank w).f.pc
  | .mcheck c i l a => (old.modBank w (·.popAt fidx)).raiseStop w (.mcheck c i l a) 2 fidx e.pc (old.bank w).f.pc

/-- A replay is not over, and its next entry is not this one (R270). -/
def replayFirst (b : Bank) (e : Entry) : Bool :=
  match b.c.window with
  | some x => x.replaying && (match x.left with | l :: _ => l.2.pos != e.pos | [] => false)
  | none => false

/-- The head of the C queue, or a word of the pair at its head, tries to issue. -/
def State.issueC (s : State) (w : Who) (e : Entry) (lat : Regs → Option Nat) (run : Who → Entry → M CRes) : State :=
  let s := s.claimEngine w
  let b := s.bank w
  match b.c.phase with
  | .alone =>
    if e.pf ≠ 0 then
      (s.modHeadS w .c fun e => { e with pf := 0, pfInfo := 0 }).raise w
        { cls := if e.pf.toNat < 0xC0 then 1 else 3, code := e.pf, info := e.pfInfo, fq := 2, fidx := 0, fpc := e.pc, pc := b.f.pc, time := s.now }
    else if s.cFrozen w then s.markC w
    else if b.c.vhold > 0 || b.c.accOut.isSome || (b.c.draining && cBusy b) then s.cIdle w
    else if replayFirst b e then s.markC w
    else
      let t := s.cTick w
      match t.tryIssue w e lat run with
      | (.ok t', _) => t'.endCycle w
      | (.error c, t') => t'.stopC w e 0 s c
  | .first | .second =>
    match s.tryIssue w e lat run with
    | (.ok t, _) => t
    | (.error c, t) => (keepAsked w s t).modBank w fun b => b.modC fun x => { x with stopped := some c }

/-- A word of the C queue: it dispatches when its queue is empty or another word heads it, and then issues as the head. `lat` is the latency of its belt result,
which a false guard drops EMPTY (R32); none when it drops none. -/
def cWord (i : Instr) (h : Hdr) (word : BitVec 48) (lat : Regs → Option Nat) (run : Who → Entry → M CRes) (s : State) : State :=
  let w := s.cur
  match (s.bank w).q.c with
  | [] =>
    let s := s.enqueue w .c i h
    match (s.bank w).q.c with
    | [] => s
    | e :: _ => s.issueC w e lat run
  | e :: _ => if e.word = word then s.issueC w e lat run else s.enqueue w .c i h

/-! ## Latencies that depend on a tag (R194) -/

def isFloat16 (t : Tag) : Bool := [Tag.fp16, .bf16, .fp8e4, .fp8e5].contains t

/-- The second group of row 1: 1 at integer tags, 3 at float16 tags, 4 at FP32. -/
def latArith (t : Tag) : Nat := if t = .fp32 then 4 else if isFloat16 t then 3 else 1
/-- `vfma`: 3 at float16 and integer tags, 4 at FP32. -/
def latFma (t : Tag) : Nat := if t = .fp32 then 4 else 3

/-- The latency that a tag-dependent word has for the tag of SA; a tag it does not accept takes the longest it has. -/
def latOfTag (f : FV) (lat : Tag → Nat) (ok : Tag → Bool) (longest : Nat) (r : Regs) : Option Nat :=
  let t := (r.vec f.sa).tag
  some (if ok t then lat t else longest)

end Sys2Proof.Machine
end

