-- ==== Sys2Proof/Machine/FrontEnd.lean ====
section
/-! DEFINITION. The scalar, predicate, control-transfer and scalar floating-point words of the front end (R326 to R338, R385). -/
namespace Sys2Proof.Machine

/-! ## Words of a context's registers -/

/-- s[d] := g(s[a], s[b]) (R328). -/
def alu3 (op : BitVec 8) (h : Hdr) (f : FS) (g : Word → Word → Word) : State → State :=
  feRegs h (wordOf op h f.toBody) fun r => .ok (r.setS f.d (g (r.sreg f.a) (r.sreg f.b)))

/-- s[d] := g(s[a], imm22) (R329). -/
def aluI (op : BitVec 8) (h : Hdr) (f : FI) (g : Word → BitVec 22 → Word) : State → State :=
  feRegs h (wordOf op h f.toBody) fun r => .ok (r.setS f.d (g (r.sreg f.a) f.imm))

def sx22 (i : BitVec 22) : Word := i.signExtend 64
/-- The shift amount of a register (R328). -/
def amt (x : Word) : Nat := x.toNat % 64

def execAdd (h : Hdr) (f : FS) (s : State) : Host.Outcome State Fault Refusal := .next (alu3 0x01 h f (· + ·) s)
def execSub (h : Hdr) (f : FS) (s : State) : Host.Outcome State Fault Refusal := .next (alu3 0x02 h f (· - ·) s)
def execAnd (h : Hdr) (f : FS) (s : State) : Host.Outcome State Fault Refusal := .next (alu3 0x03 h f (· &&& ·) s)
def execOr (h : Hdr) (f : FS) (s : State) : Host.Outcome State Fault Refusal := .next (alu3 0x04 h f (· ||| ·) s)
def execXor (h : Hdr) (f : FS) (s : State) : Host.Outcome State Fault Refusal := .next (alu3 0x05 h f (· ^^^ ·) s)
def execShl (h : Hdr) (f : FS) (s : State) : Host.Outcome State Fault Refusal :=
  .next (alu3 0x06 h f (fun a b => a <<< amt b) s)
def execShr (h : Hdr) (f : FS) (s : State) : Host.Outcome State Fault Refusal :=
  .next (alu3 0x07 h f (fun a b => a >>> amt b) s)
def execSra (h : Hdr) (f : FS) (s : State) : Host.Outcome State Fault Refusal :=
  .next (alu3 0x08 h f (fun a b => a.sshiftRight (amt b)) s)
def execMul (h : Hdr) (f : FS) (s : State) : Host.Outcome State Fault Refusal := .next (alu3 0x09 h f (· * ·) s)

/-- Bits [127:64] of the exact product (R328). -/
def mulHigh (k : Nat) (a b : Word) : Word :=
  let x : Int := if k = 1 then a.toNat else a.toInt
  let y : Int := if k = 0 then b.toInt else b.toNat
  BitVec.ofInt 64 (x * y / 2 ^ 64)

def execMulh (h : Hdr) (f : FS) (s : State) : Host.Outcome State Fault Refusal :=
  .next (feRegs h (wordOf 0x0A h f.toBody) (fun r =>
    let k := f.fn.toNat % 4
    if k = 3 then .error (.trap Cause.illegalInstruction (wordInfo (wordOf 0x0A h f.toBody)))
    else .ok (r.setS f.d (mulHigh k (r.sreg f.a) (r.sreg f.b)))) s)

/-- The quotient truncated toward zero (R328). -/
def divWord (u : Bool) (a b : Word) : Word :=
  if b = 0 then BitVec.allOnes 64 else if u then w64 (a.toNat / b.toNat) else BitVec.ofInt 64 (Int.tdiv a.toInt b.toInt)
/-- The remainder, with the sign of the dividend (R328). -/
def remWord (u : Bool) (a b : Word) : Word :=
  if b = 0 then a else if u then w64 (a.toNat % b.toNat) else BitVec.ofInt 64 (Int.tmod a.toInt b.toInt)

def execDiv (h : Hdr) (f : FS) (s : State) : Host.Outcome State Fault Refusal :=
  .next (alu3 0x0B h f (divWord (bit f.fn.toNat 0)) s)
def execRem (h : Hdr) (f : FS) (s : State) : Host.Outcome State Fault Refusal :=
  .next (alu3 0x0C h f (remWord (bit f.fn.toNat 0)) s)

/-- The smaller or larger operand by code (R328). -/
def minmaxWord (k : Nat) (a b : Word) : Word :=
  let less : Bool := if k < 2 then decide (a.toInt < b.toInt) else decide (a.toNat < b.toNat)
  if k % 2 = 0 then (if less then a else b) else (if less then b else a)

def execMinmax (h : Hdr) (f : FS) (s : State) : Host.Outcome State Fault Refusal :=
  .next (alu3 0x0D h f (minmaxWord (f.fn.toNat % 4)) s)

def execAddi (h : Hdr) (f : FI) (s : State) : Host.Outcome State Fault Refusal :=
  .next (aluI 0x11 h f (fun a i => a + sx22 i) s)
def execAndi (h : Hdr) (f : FI) (s : State) : Host.Outcome State Fault Refusal :=
  .next (aluI 0x12 h f (fun a i => a &&& sx22 i) s)
def execOri (h : Hdr) (f : FI) (s : State) : Host.Outcome State Fault Refusal :=
  .next (aluI 0x13 h f (fun a i => a ||| sx22 i) s)
def execXori (h : Hdr) (f : FI) (s : State) : Host.Outcome State Fault Refusal :=
  .next (aluI 0x14 h f (fun a i => a ^^^ sx22 i) s)
def execShli (h : Hdr) (f : FI) (s : State) : Host.Outcome State Fault Refusal :=
  .next (aluI 0x15 h f (fun a i => a <<< (i.toNat % 64)) s)
def execShri (h : Hdr) (f : FI) (s : State) : Host.Outcome State Fault Refusal :=
  .next (aluI 0x16 h f (fun a i => a >>> (i.toNat % 64)) s)
def execSrai (h : Hdr) (f : FI) (s : State) : Host.Outcome State Fault Refusal :=
  .next (aluI 0x17 h f (fun a i => a.sshiftRight (i.toNat % 64)) s)

def execLi (h : Hdr) (f : FL) (s : State) : Host.Outcome State Fault Refusal :=
  .next (feRegs h (wordOf 0x18 h f.toBody) (fun r => .ok (r.setS f.d (f.imm.signExtend 64))) s)
def execLsh (h : Hdr) (f : FI) (s : State) : Host.Outcome State Fault Refusal :=
  .next (feRegs h (wordOf 0x19 h f.toBody) (fun r => .ok (r.setS f.d ((r.sreg f.d <<< 22) ||| f.imm.zeroExtend 64))) s)

/-- Leading zero bits, trailing zero bits, one bits, and the mirror image (R330). -/
def bitopWord (k : Nat) (x : Word) : Word :=
  match k with
  | 0 => if x = 0 then 64 else w64 (63 - x.toNat.log2)
  | 1 => w64 (((List.range 64).takeWhile fun i => !bit x.toNat i).length)
  | 2 => w64 ((List.range 64).filter fun i => bit x.toNat i).length
  | _ => w64 ((List.range 64).foldl (fun a i => a + flag (bit x.toNat i) (63 - i)) 0)

def execBitop (h : Hdr) (f : FS) (s : State) : Host.Outcome State Fault Refusal :=
  .next (alu3 0x1A h f (fun a _ => bitopWord (f.fn.toNat % 4) a) s)

/-- POS and LEN of a bit-field word (R330). -/
def bfPos (f : FS) : Nat := bits f.fn.toNat 0 6
def bfLen (f : FS) : Nat := bits f.fn.toNat 6 6 + 1

def execBfx (h : Hdr) (f : FS) (s : State) : Host.Outcome State Fault Refusal :=
  .next (feRegs h (wordOf 0x1C h f.toBody) (fun r =>
    if bfPos f + bfLen f > 64 then .error (.trap Cause.illegalInstruction (wordInfo (wordOf 0x1C h f.toBody)))
    else
      let x := bits (r.sreg f.a).toNat (bfPos f) (bfLen f)
      .ok (r.setS f.d (if bit f.fn.toNat 12 then w64i (sext x (bfLen f)) else w64 x))) s)

def execBfi (h : Hdr) (f : FS) (s : State) : Host.Outcome State Fault Refusal :=
  .next (feRegs h (wordOf 0x1D h f.toBody) (fun r =>
    if bfPos f + bfLen f > 64 then .error (.trap Cause.illegalInstruction (wordInfo (wordOf 0x1D h f.toBody)))
    else
      let old := (r.sreg f.d).toNat
      let x := (r.sreg f.a).toNat % 2 ^ bfLen f
      .ok (r.setS f.d (w64 (old - bits old (bfPos f) (bfLen f) * 2 ^ bfPos f + x * 2 ^ bfPos f)))) s)

/-! ## Predicates (R327, R331 to R333) -/

/-- The compare conditions 0 to 5 (R331). -/
def condHolds (c : Nat) (x y : Word) : Bool :=
  match c with
  | 0 => x == y
  | 1 => x != y
  | 2 => decide (x.toInt < y.toInt)
  | 3 => decide (y.toInt ≤ x.toInt)
  | 4 => decide (x.toNat < y.toNat)
  | _ => decide (y.toNat ≤ x.toNat)

/-- p[PD] := condition, or ILLEGAL_INSTRUCTION for codes 6 and 7. -/
def cmpRegs (word : BitVec 48) (c : Nat) (d : BitVec 5) (x y : Regs → Word) (r : Regs) : Except Stop Regs :=
  if c ≥ 6 then .error (.trap Cause.illegalInstruction (wordInfo word))
  else .ok (r.setP (BitVec.ofNat 3 d.toNat) (condHolds c (x r) (y r)))

def execCmp (h : Hdr) (f : FS) (s : State) : Host.Outcome State Fault Refusal :=
  .next (feRegs h (wordOf 0x1E h f.toBody)
    (cmpRegs (wordOf 0x1E h f.toBody) (f.fn.toNat % 8) f.d (·.sreg f.a) (·.sreg f.b)) s)
def execCmpi (h : Hdr) (f : FI) (s : State) : Host.Outcome State Fault Refusal :=
  .next (feRegs h (wordOf 0x1F h f.toBody)
    (cmpRegs (wordOf 0x1F h f.toBody) (bits f.imm.toNat 19 3) f.d (·.sreg f.a) (fun _ => w64i (sext f.imm.toNat 19))) s)

/-- The predicate operations (R332). -/
def plogBit (c : Nat) (a b : Bool) : Bool :=
  match c with
  | 0 => a && b
  | 1 => a || b
  | 2 => a != b
  | 3 => a && !b
  | 4 => a || !b
  | 5 => a
  | 6 => true
  | _ => false

def execPlog (h : Hdr) (f : FS) (s : State) : Host.Outcome State Fault Refusal :=
  .next (feRegs h (wordOf 0x20 h f.toBody) (fun r =>
    .ok (r.setP (BitVec.ofNat 3 f.d.toNat)
      (plogBit (f.fn.toNat % 8) (r.preg (BitVec.ofNat 3 f.a.toNat)) (r.preg (BitVec.ofNat 3 f.b.toNat))))) s)

def execSel (h : Hdr) (f : FS) (s : State) : Host.Outcome State Fault Refusal :=
  .next (feRegs h (wordOf 0x31 h f.toBody) (fun r =>
    .ok (r.setS f.d (if r.preg (BitVec.ofNat 3 f.fn.toNat) != bit f.fn.toNat 3 then r.sreg f.a else r.sreg f.b))) s)

/-! ## Control transfer (R39, R334 to R337) -/

/-- The target of an FB word (R39). -/
def fbTarget (pc : BitVec 60) (f : FB) : BitVec 60 :=
  BitVec.ofInt 60 ((packetAddr pc).toNat + sext f.off.toNat 26 * 32 + 4 * f.slot.toNat)

/-- A taken FB word goes to its target; a slot above 4 is illegal (R39). -/
def takeFb (w : Who) (word : BitVec 48) (f : FB) : M (Front → Front) := do
  if f.slot.toNat > 4 then illegal word
  let b ← getB w
  return fun x => x.jump (fbTarget b.f.pc f)

def execBr (h : Hdr) (f : FB) (s : State) : Host.Outcome State Fault Refusal :=
  .next (feWordGo h (wordOf 0x21 h f.toBody) (fun w => takeFb w (wordOf 0x21 h f.toBody) f) s)

def execCall (h : Hdr) (f : FB) (s : State) : Host.Outcome State Fault Refusal :=
  .next (feWordGo h (wordOf 0x22 h f.toBody) (fun w => do
    let go ← takeFb w (wordOf 0x22 h f.toBody) f
    modB w fun b => b.modR fun r => r.setS 31 (w64 b.f.next.toNat)
    return go) s)

/-- A target in a register (R334). -/
def takeReg (t : Word) : M (Front → Front) := do
  ensure (legalPc t) Cause.misalignedPc t
  return fun x => x.jump (BitVec.ofNat 60 t.toNat)

def execJr (h : Hdr) (f : FS) (s : State) : Host.Outcome State Fault Refusal :=
  .next (feWordGo h (wordOf 0x23 h f.toBody) (fun w => do
    let go ← takeReg ((← getB w).r.sreg f.a)
    if bit f.fn.toNat 0 then modB w fun b => b.modR fun r => r.setS f.d (w64 b.f.next.toNat)
    return go) s)

def execRet (h : Hdr) (f : FS) (s : State) : Host.Outcome State Fault Refusal :=
  .next (feWordGo h (wordOf 0x24 h f.toBody) (fun w => do takeReg ((← getB w).r.sreg 31)) s)

def execAdr (h : Hdr) (f : FL) (s : State) : Host.Outcome State Fault Refusal :=
  .next (feWord h (wordOf 0x32 h f.toBody) (fun w =>
    modB w fun b => b.modR fun r => r.setS f.d (w64i ((packetAddr b.f.pc).toNat + sext f.imm.toNat 27 * 4))) s)

/-- The loop counter that an FB word names (R336). -/
def lcOf (f : FB) : Fin 4 := ⟨f.cond.toNat % 4, by omega⟩

def Regs.setLc (r : Regs) (k : Fin 4) (v : BitVec 32) : Regs := { r with lc := r.lc.set k.val v k.isLt }

def execLoop (h : Hdr) (f : FB) (s : State) : Host.Outcome State Fault Refusal :=
  .next (feWordGo h (wordOf 0x25 h f.toBody) (fun w => do
    let n := (← getB w).r.lc.get (lcOf f)
    if n = 0 then return Front.advance
    if n = 1 then
      modB w fun b => b.modR fun r => r.setLc (lcOf f) 0
      return Front.advance
    let go ← takeFb w (wordOf 0x25 h f.toBody) f
    modB w fun b => b.modR fun r => r.setLc (lcOf f) (n - 1)
    return go) s)

def execLpbrk (h : Hdr) (f : FB) (s : State) : Host.Outcome State Fault Refusal :=
  .next (feWordGo h (wordOf 0x26 h f.toBody) (fun w => do
    let go ← takeFb w (wordOf 0x26 h f.toBody) f
    modB w fun b => b.modR fun r => r.setLc (lcOf f) 0
    return go) s)

/-- A word without effect whose guard is not evaluated (R46, R337): the front end goes on. -/
def skipWord (word : BitVec 48) (s : State) : State := s.endWord s.cur word Front.advance

def execNop (h : Hdr) (x : BitVec 32) (s : State) : Host.Outcome State Fault Refusal := .next (skipWord (wordOf 0x00 h x) s)
def execHintPf (h : Hdr) (x : BitVec 32) (s : State) : Host.Outcome State Fault Refusal := .next (skipWord (wordOf 0xF0 h x) s)
def execHintHot (h : Hdr) (x : BitVec 32) (s : State) : Host.Outcome State Fault Refusal := .next (skipWord (wordOf 0xF1 h x) s)
def execHintLoop (h : Hdr) (x : BitVec 32) (s : State) : Host.Outcome State Fault Refusal := .next (skipWord (wordOf 0xF2 h x) s)
def execUndefinedHint (word : BitVec 48) (s : State) : Host.Outcome State Fault Refusal := .next (skipWord word s)

/-- An unassigned opcode raises ILLEGAL_INSTRUCTION at its own PC, whatever its guard (R45). -/
def execUnassignedOpcode (word : BitVec 48) (s : State) : Host.Outcome State Fault Refusal :=
  let w := s.cur
  let pc := (s.bank w).f.pc
  .next (s.raise w { cls := 1, code := Cause.illegalInstruction, info := wordInfo word, fq := 4, fidx := 0, fpc := pc, pc, time := s.now })

/-! ## Software traps (R385) -/

/-- `trap n` and `brk n`: the recorded PC is that of the next word. -/
def softTrap (h : Hdr) (word : BitVec 48) (code : BitVec 8) (n : BitVec 27) (s : State) : State :=
  let w := s.cur
  let b := s.bank w
  if !guardOf h b then skipWord word s
  else
    (s.signWord w word).raise w
      { cls := 1, code, info := n.zeroExtend 64, fq := 4, fidx := 0, fpc := b.f.pc, pc := b.f.next, time := s.now }

def execTrap (h : Hdr) (f : FL) (s : State) : Host.Outcome State Fault Refusal :=
  .next (softTrap h (wordOf 0xE0 h f.toBody) Cause.soft f.imm s)
def execBrk (h : Hdr) (f : FL) (s : State) : Host.Outcome State Fault Refusal :=
  .next (softTrap h (wordOf 0xE6 h f.toBody) Cause.brk f.imm s)

/-! ## Scalar floating point (R338) -/

/-- One `fop` on patterns: `d` is s[d] before the word. The result is a register value with its flags. -/
def fopResult (opc : Nat) (mode : Mode) (a b d : Word) : Word × Flags :=
  let a32 := bits a.toNat 0 32
  let x := fmtFP32.value a32
  let y := fmtFP32.value (bits b.toNat 0 32)
  let out (m : Fmt) (v : Flagged Num) : Word × Flags :=
    let (p, f) := roundTo m v.1 mode
    (w64 p, f ||| v.2)
  match opc with
  | 0 => out fmtFP32 (Num.add x y mode)
  | 1 => out fmtFP32 (Num.add x y.neg mode)
  | 2 => out fmtFP32 (Num.mul x y)
  | 3 =>
    let (p, f) := Num.mul x y
    let (t, g) := Num.add p (fmtFP32.value (bits d.toNat 0 32)) mode
    out fmtFP32 (t, f ||| g)
  | 4 => (w64 (pickElem .fp32 false a32 (bits b.toNat 0 32)), 0)
  | 5 => (w64 (pickElem .fp32 true a32 (bits b.toNat 0 32)), 0)
  | 6 => out fmtFP32 (sqrtNum x)
  | 7 => out fmtFP32 (Num.ofInt (sext a.toNat 32), 0)
  | 8 => out fmtFP32 (Num.ofInt a.toInt, 0)
  | 9 => let (v, f) := roundInt x mode (-2 ^ 31) (2 ^ 31 - 1); (w64i v, f)
  | 10 => let (v, f) := roundInt x mode (-2 ^ 63) (2 ^ 63 - 1); (w64i v, f)
  | 11 => out fmtFP32 (fmtFP16.value (bits a.toNat 0 16), 0)
  | 12 => out fmtFP16 (x, 0)
  | 13 => out fmtFP32 (fmtBF16.value (bits a.toNat 0 16), 0)
  | _ => out fmtBF16 (x, 0)

def execFop (h : Hdr) (f : FS) (s : State) : Host.Outcome State Fault Refusal :=
  .next (feWord h (wordOf 0x3F h f.toBody) (fun w => do
    match Mode.ofCode (bits f.fn.toNat 5 3) with
    | none => illegal (wordOf 0x3F h f.toBody)
    | some mode =>
      if f.fn.toNat % 32 ≥ 15 then illegal (wordOf 0x3F h f.toBody)
      modB w fun b =>
        let (v, fl) := fopResult (f.fn.toNat % 32) mode (b.r.sreg f.a) (b.r.sreg f.b) (b.r.sreg f.d)
        { b with r := b.r.setS f.d v, csr := { b.csr with fpflags := b.csr.fpflags ||| fl } }) s)

/-! ## qsync (R326) -/

/-- Words of a queue dispatched and not yet retired. -/
def queueBusy (b : Bank) (q : QName) : Bool :=
  !(b.q.get q).isEmpty || b.q.fly.any (·.q == q) || b.q.pend.any (·.1 == q) || (q == .c && (cBusy b || replaying b))

/-- Waits until the named queues have retired every word. -/
def syncQueues (w : Who) (m : Nat) : M Unit := do
  let b ← getB w
  if (bit m 0 && queueBusy b .l) || (bit m 1 && queueBusy b .c) || (bit m 2 && queueBusy b .s) then waitFor .drain

def execQsync (h : Hdr) (f : FS) (s : State) : Host.Outcome State Fault Refusal :=
  .next (feWord h (wordOf 0x30 h f.toBody) (fun w => syncQueues w (f.fn.toNat % 8)) s)

end Sys2Proof.Machine
end

