-- ==== Sys2Proof/Machine/Access.lean ====
section
/-! DEFINITION. Scalar memory access, atomics, fences, translation words and handles
(R73, R74, R109 to R116, R123, R135 to R139, R142, R149 to R152). -/
namespace Sys2Proof.Machine

/-! ## Scalar accesses (R135 to R138, R141) -/

/-- The handle that bits [25:22] of an access name. -/
def hndOf (f : FS) : BitVec 4 := BitVec.ofNat 4 f.a.toNat

/-- The alignment, translation, permission and waits of a scalar access of `n` bytes at offset `off`. The answer is its physical
address; after it nothing of the word waits for its own page. -/
def scalarAccess (w : Who) (need : Need) (hn : BitVec 4) (off n : Nat) : M Nat := do
  ensure (off % n = 0) Cause.misalignedAddr (w64 off)
  let x := (← getB w).r.hreg hn
  waitReady x
  let pa ← translateFor need hn x off
  watermarkWait w .front true (vaOf x off) n
  return pa

/-- The access waits for its line: earlier posted stores and engine accesses to the pair window first, then a remap of its home (R136, R157,
R405). -/
def lineWait (w : Who) (pa : Nat) : M Unit := do
  postedFirst w
  pairTurn w pa
  if lineHeld (← get) w (pa / 64) then waitFor .other

/-- The access, for which nothing is waited any more, is counted (R87). -/
def countAccess (w : Who) (h : Handle) (pa : Nat) : M Unit := modS fun s => s.countMig (Who.tile w) h pa

/-- POISON at a scalar read: the machine check names the offset, its log entry the physical address (R373). -/
def poisonAt {α : Type} (off pa array : Nat) : M α := throw (.mcheck Cause.poison (w64 off) (w64 pa) array)

/-- The bytes of a load: a hub register, which a privileged mapping alone reaches (R73, log 136), or memory (R132). -/
def readScalar (w : Who) (h : Handle) (pa n off : Nat) (via : Via) : M Nat := do
  countAccess w h pa
  let s ← get
  match if h.prv then s.hubRegRead pa n else (none, s) with
  | (some v, s) => set s; return v
  | (none, _) =>
    let (v, p, s) := s.ordRead w pa n via
    set s
    if p then poisonAt off pa 1
    return v

/-- SZ of an `ld` or `st` (R135). -/
def szOf (f : FS) : Nat := bits f.fn.toNat 14 3
/-- The offset of an `ld` or `st`. -/
def ldOff (r : Regs) (f : FS) : Nat := ((r.sreg f.b).toNat + (sext f.fn.toNat 14 % 2 ^ 64).toNat) % 2 ^ 64
/-- The loaded value as SZ extends it. -/
def extLoad (sz v : Nat) : Word := if sz ≥ 4 then w64i (sext v (8 * 2 ^ (sz % 4))) else w64 v

def ldBody (f : FS) (word : BitVec 48) (w : Who) : M Unit := do
  if szOf f = 7 then illegal word
  let n := 2 ^ (szOf f % 4)
  let off := ldOff (← getB w).r f
  let pa ← scalarAccess w { rd := true } (hndOf f) off n
  lineWait w pa
  let v ← readScalar w ((← getB w).r.hreg (hndOf f)) pa n off .alloc
  modB w fun b => b.modR fun r => r.setS f.d (extLoad (szOf f) v)

def execLd (h : Hdr) (f : FS) (s : State) : Host.Outcome State Fault Refusal :=
  .next (feWord h (wordOf 0x27 h f.toBody) (ldBody f (wordOf 0x27 h f.toBody)) s)

def stBody (f : FS) (word : BitVec 48) (w : Who) : M Unit := do
  if szOf f ≥ 4 then illegal word
  let n := 2 ^ szOf f
  let r := (← getB w).r
  let off := ldOff r f
  let pa ← scalarAccess w { w := true } (hndOf f) off n
  if (← getB w).posted.length ≥ 16 then waitFor .other
  pairTurn w pa
  modS fun s => s.countMig (Who.tile w) (r.hreg (hndOf f)) pa
  modB w fun b => { b with posted := b.posted ++ [{ pa := BitVec.ofNat 52 pa, bytes := leBytes (r.sreg f.d).toNat n, prv := (r.hreg (hndOf f)).prv }] }

def execSt (h : Hdr) (f : FS) (s : State) : Host.Outcome State Fault Refusal :=
  .next (feWord h (wordOf 0x28 h f.toBody) (stBody f (wordOf 0x28 h f.toBody)) s)

/-- The new value of an `amo` from its operation, width in bits, old value and operand (R137). -/
def amoValue (opc bitsN o x : Nat) : Nat × Flags :=
  let so := sext o bitsN
  let sx := sext x bitsN
  match opc with
  | 0 => ((o + x) % 2 ^ bitsN, 0)
  | 1 => (o &&& x, 0)
  | 2 => (o ||| x, 0)
  | 3 => (o ^^^ x, 0)
  | 4 => (if so ≤ sx then o else x, 0)
  | 5 => (if so ≤ sx then x else o, 0)
  | 6 => (min o x, 0)
  | 7 => (max o x, 0)
  | 8 => (x, 0)
  | _ =>
    let (t, f) := Num.add (fmtFP32.value o) (fmtFP32.value x)
    let (p, g) := roundFP32 t
    (p, f ||| g)

/-- The line of an atomic word is at its home slice; a read that fails is a poison machine check, and nothing is written. An address of a hub
register is no memory for an atomic word (R137; DESIGN CHOICE, log 132). -/
def atomicOld (w : Who) (h : Handle) (pa n off : Nat) : M Nat := do
  let s ← get
  if !reaches s pa then
    set (s.hubLog 13 (w64 pa) (ctxid16 w))
    countAccess w h pa
    poisonAt off pa 2
  let s := s.meet (pa / 64) (ctxid16 w)
  set s
  let x := s.homeLine (pa / 64)
  if x.poison then
    countAccess w h pa
    poisonAt off pa 2
  return lineBytes x.data (pa % 64) n

def amoBody (f : FS) (word : BitVec 48) (w : Who) : M Unit := do
  let opc := bits f.fn.toNat 8 4
  let sz := bits f.fn.toNat 6 2
  if sz ≥ 2 || opc ≥ 10 || (opc = 9 && sz = 1) then illegal word
  let n := if sz = 0 then 4 else 8
  let r := (← getB w).r
  let off := (r.sreg f.b).toNat
  let pa ← scalarAccess w { rd := true, w := true } (hndOf f) off n
  lineWait w pa
  snoopHost pa n
  let o ← atomicOld w (r.hreg (hndOf f)) pa n off
  outbound w
  countAccess w (r.hreg (hndOf f)) pa
  let (v, fl) := amoValue opc (8 * n) o (bits (r.sreg (BitVec.ofNat 5 (bits f.fn.toNat 12 5))).toNat 0 (8 * n))
  modS fun s => s.ctxWrite w pa (leBytes v n)
  modB w fun b => { b with r := b.r.setS f.d (w64 o), csr := { b.csr with fpflags := b.csr.fpflags ||| fl } }

def execAmo (h : Hdr) (f : FS) (s : State) : Host.Outcome State Fault Refusal :=
  .next (feWord h (wordOf 0x29 h f.toBody) (amoBody f (wordOf 0x29 h f.toBody)) (s.nonAbortable s.cur))

def casBody (f : FS) (w : Who) : M Unit := do
  let n := if bit f.fn.toNat 6 then 8 else 4
  let r := (← getB w).r
  let off := (r.sreg f.b).toNat
  let pa ← scalarAccess w { rd := true, w := true } (hndOf f) off n
  lineWait w pa
  let o ← atomicOld w (r.hreg (hndOf f)) pa n off
  let hit := o = bits (r.sreg (BitVec.ofNat 5 (bits f.fn.toNat 12 5))).toNat 0 (8 * n)
  if hit then
    snoopHost pa n
    outbound w
    modS fun s => s.ctxWrite w pa (leBytes (r.sreg (BitVec.ofNat 5 (bits f.fn.toNat 7 5))).toNat n)
  else
    modS fun s =>
      let (_, ts, s) := (s.holdExcl (pa / 64)).homeRead (pa / 64) (s.bank w).pts (ctxid16 w)
      s.raisePts w ts
  countAccess w (r.hreg (hndOf f)) pa
  modB w fun b => b.modR fun r => (r.setS f.d (w64 o)).setP (BitVec.ofNat 3 (bits f.fn.toNat 3 3)) hit

def execCas (h : Hdr) (f : FS) (s : State) : Host.Outcome State Fault Refusal :=
  .next (feWord h (wordOf 0x2A h f.toBody) (casBody f) (s.nonAbortable s.cur))

/-! ## Fences (R139, R149, R150) -/

def execFence (h : Hdr) (f : FS) (s : State) : Host.Outcome State Fault Refusal :=
  .next (feWord h (wordOf 0x2B h f.toBody) (fun w => do
    if bit f.fn.toNat 0 then postedFirst w
    if bit f.fn.toNat 1 then modS fun s => s.raisePts w ((s.bank w).pts + (s.bank w).csr.lease.toNat)) s)

/-- A queue word that has not done its accesses makes some on path `k` of R142; `hs` are the handles that an engine word captures when it
issues. A word that takes no effect makes none (R32, R384). The record or descriptor that an engine word reads is read as ordinary reads
are (R181, R311). -/
def entryOnPath (hs : List Handle) (k : Nat) (e : Entry) : Bool :=
  let op := (opOf e.word).toNat
  let ordOp := [0x40, 0x41, 0x42, 0x60, 0x61, 0x62, 0x67, 0x68, 0x69].contains op
  let engine := op = 0x44 || op = 0x50
  let coll := op = 0x4B || op = 0x4C
  let pair := e.cp.any fun c => inPair c.2.base.toNat
  let later := engine && hs.any fun h => h.valid && inPair h.base.toNat
  e.guard && !e.skip && match k with
    | 0 => (ordOp && !pair) || engine
    | 1 => [0x44, 0x45, 0x63].contains op
    | 2 => [0x48, 0x4E, 0x4F, 0x64, 0x65, 0x66].contains op
    | 3 => op = 0x49
    | 4 => coll && !pair
    | 5 => op = 0x50
    | 7 => (ordOp || coll || engine) && pair || later
    | _ => false

/-- What the queued `cp.adv` and `cp.advs` words of a context will add to the stage counter of channel `k` (R182). -/
def queuedAdvs (es : List Entry) (k : Nat) : Nat :=
  (es.filter fun e => ((opOf e.word).toNat = 0x45 || (opOf e.word).toNat = 0x63) && e.guard && !e.skip).foldl (fun a e =>
    let imm := (FK.ofBody (bodyOf e.word)).imm.toNat
    if imm % 8 = k then a + bits imm 3 14 else a) 0

/-- SC of channel `k` once the words that a context has queued have raised it. -/
def stagesTo (b : Bank) (c : CopyChan) (k : Nat) : Nat := min 65535 (c.sc + queuedAdvs (b.q.l ++ b.q.s) k)

/-- Addresses of the accesses of the entries of a copy channel that are issued, or that stage counter `sc` lets issue: one for each row of
an entry released, and one for each other entry. -/
def chanAccesses (c : CopyChan) (sc : Nat) : List Nat :=
  (c.fly.flatMap fun e => e.rows.map (·.toNat)) ++
    (c.issuable sc).filterMap fun i => c.entries[i]?.map fun e => (c.caps.get (cpEntryHandle e)).base.toNat

/-- The address of the event word of a copy channel, while every entry of its schedule is issued, or is let issue, and the word is still to be
written (R178). -/
def chanEvent (c : CopyChan) (sc : Nat) : List Nat :=
  if c.st == .run && bit c.header.toNat 16 && c.next + (c.issuable sc).length = c.entries.length then
    [(c.caps.get ⟨bits c.header.toNat 24 4, by unfold bits; omega⟩).base.toNat] else []

/-- The copy channels of a context, with the stage that its queued words raise each to. -/
def stagedChans (s : State) (w : Who) : List (CopyChan × Nat) :=
  (((s.tile (Who.tile w)).chans.toList.zipIdx).filter fun x => x.1.ofCtx (Who.ctx w)).map fun x => (x.1, stagesTo (s.bank w) x.1 x.2)

/-- Addresses of the memory writes of a quantisation command, and of its event word. -/
def qzAccesses (c : QzCmd) : List Nat := if qzMem c.desc then [c.data, c.scale] else []
def qzEvent (c : QzCmd) : List Nat := if qzEv c.desc then [c.event.toNat] else []

/-- Accesses of path `k` that the context has issued and that are not performed (R150). -/
def pathPending (s : State) (w : Who) (k : Nat) : Bool :=
  let b := s.bank w
  let t := s.tile (Who.tile w)
  let chans := stagedChans s w
  let copies := chans.flatMap fun x => chanAccesses x.1 x.2
  let events := chans.flatMap fun x => chanEvent x.1 x.2
  let qz := t.qz.filter (·.who == w)
  let queued := (b.q.l ++ b.q.s).any (entryOnPath b.r.h.toList k)
  queued || match k with
    | 0 => b.posted.any (fun p => !inPair p.pa.toNat) || (events ++ qz.flatMap qzEvent).any (!inPair ·)
    | 1 => copies.any (!inPair ·)
    | 2 => !b.kvRuns.isEmpty || t.hidden.any (·.who == w)
    | 3 => !b.pimRuns.isEmpty
    | 4 => b.coll.any fun c => !inPair c.pa.toNat
    | 5 => qz.any fun c => (qzAccesses c).any (!inPair ·)
    | 7 => b.posted.any (fun p => inPair p.pa.toNat) || !b.pairWait.isEmpty || b.coll.any (fun c => inPair c.pa.toNat) ||
        (copies ++ events ++ qz.flatMap fun c => qzAccesses c ++ qzEvent c).any inPair
    | _ => false

def xfenceBody (f : FS) (w : Who) : M Unit := do
  let frm := bits f.fn.toNat 0 8
  let dst := bits f.fn.toNat 8 8
  if frm = 0 || dst = 0 then return
  if bit frm 0 || bit frm 7 then postedFirst w
  let s ← get
  if (List.range 8).any fun k => bit frm k && pathPending s w k then waitFor .other
  if bit dst 3 then modS State.writeThroughAll
  if bit frm 6 then modS fun s => s.raisePts w s.hub.hostWts
  if bit frm 7 then modS fun s => s.raisePts w s.hub.pairWts

def execXfence (h : Hdr) (f : FS) (s : State) : Host.Outcome State Fault Refusal :=
  .next (feWord h (wordOf 0x2C h f.toBody) (fun w => draining (xfenceBody f w)) s)

/-! ## Translation words (R109, R111, R114 to R116) -/

/-- H of an `xlat`: bits [30:27]. -/
def xlatH (f : FS) : BitVec 4 := BitVec.ofNat 4 f.d.toNat

/-- What the checks of an `xlat` find: a leaf, or why there is none. -/
inductive XlatRes where
  | leaf (e : BitVec 64) (level : Nat) (id : BitVec 49)
  | notPresent
  | fails (code : BitVec 8) (info : Word)
deriving DecidableEq, Repr

/-- The checks of an `xlat` on the leaf that its lookup gives. -/
def xlatChecks (f : FS) (priv : Bool) (va : Word) (pin : Nat) (e : BitVec 64) (level : Nat) (id : BitVec 49) : XlatRes :=
  let need (k : Nat) (has : Bool) : Bool := bit f.fn.toNat k && !has
  if pteKind e = 3 then .fails Cause.pageTable va
  else if ptePRV e && !priv then .fails Cause.permission va
  else if need 2 (pteRD e) || need 3 (leafW e level) || need 4 (pteX e) then .fails Cause.permission va
  else if bit f.fn.toNat 0 && level = 3 && pin = 4095 then .fails Cause.pinLimit (w64 id.toNat)
  else .leaf e level id

/-- The form pins a leaf of this level: PN on a 64 KiB leaf. -/
def xlatPins (f : FS) (level : Nat) : Bool := bit f.fn.toNat 0 && level = 3

/-- The walk of the word is tried again when the page has moved. -/
def walkAgain {α : Type} (w : Who) : M α := do
  modB w fun b => b.modF fun f => { f with walked := false }
  waitFor .walk

/-- The lookup; the word waits while its page is looked up or moved. -/
def xlatLookup (f : FS) (w : Who) (va : Word) : M XlatRes := do
  if va.toNat ≥ 2 ^ 60 then return .fails Cause.vaRange va
  let s ← get
  let c := (s.bank w).csr
  if (tlb1Find s w c.asid va.toNat).isNone && !(s.bank w).f.walked then waitFor .walk
  match lookup s w c.asid c.ptroot va.toNat with
  | (.leaf e level id, s) =>
    set s
    if xlatPins f level then
      if homeHeld s (ptePa id / 64) then walkAgain w
      snoopHost (ptePa id) 8
      let (now, s) := (← get).pteNow id
      set s
      if pteMST now ≥ 2 then walkAgain w
    return .leaf e level id
  | (.moving, s) => set s; walkAgain w
  | (.poisoned pa, s) => set s; throw (.mcheck Cause.poison va (w64 pa) 2)
  | (.notPresent, s) => set s; return .notPresent

/-- The PIN count of a leaf that the form would pin. -/
def pinNow (f : FS) (level : Nat) (id : BitVec 49) : M Nat := do
  if xlatPins f level then
    let (now, s) := (← get).pteNow id
    set s
    return ptePin now
  return 0

/-- The handle is pinned where the form asks for it, and filled. -/
def xlatFill (f : FS) (w : Who) (va : Word) (e : BitVec 64) (level : Nat) (id : BitVec 49) (quick : Bool) : M Unit := do
  if xlatPins f level then modS fun s => (s.raisePin id).2
  modS fun s => s.modBank w fun b => b.modR fun r =>
    r.setH (xlatH f) (mkHandle e level id va.toNat (Tid.die (Who.tile w)) (xlatPins f level) (if quick then s.now + 12 else s.now))

def xlatBody (f : FS) (w : Who) : M Unit := do
  let b ← getB w
  let va := b.r.sreg f.a
  let quick := (tlb1Find (← get) w b.csr.asid va.toNat).isSome && !b.f.walked
  let nf := bit f.fn.toNat 1
  let found ← xlatLookup f w va
  modS fun s => s.releaseHandle w (xlatH f)
  let res ← match found with
    | .leaf e level id => pure (xlatChecks f b.priv va (← pinNow f level id) e level id)
    | r => pure r
  if nf then modB w fun b => b.modR fun r => r.setP (BitVec.ofNat 3 f.b.toNat) (match res with | .leaf .. => true | _ => false)
  match res with
  | .leaf e level id => xlatFill f w va e level id quick
  | .fails code info => if !nf then trap code info
  | .notPresent =>
    if !nf then
      if (b.inst.map (·.abt)).getD false then
        postedFirst w
        throw (.abort va)
      else trap Cause.pageNotPresent va

def execXlat (h : Hdr) (f : FS) (s : State) : Host.Outcome State Fault Refusal :=
  .next (feWord h (wordOf 0x2D h f.toBody) (xlatBody f) s)

def execHfree (h : Hdr) (f : FS) (s : State) : Host.Outcome State Fault Refusal :=
  .next (feWord h (wordOf 0x2E h f.toBody) (fun w => modS fun s => s.releaseHandle w (BitVec.ofNat 4 f.d.toNat)) s)

def execHunpin (h : Hdr) (f : FS) (s : State) : Host.Outcome State Fault Refusal :=
  .next (feWord h (wordOf 0x39 h f.toBody) (fun w => do
    let x := (← getB w).r.hreg (BitVec.ofNat 4 f.d.toNat)
    if x.pinned then
      modS fun s => s.lowerPin x.id
      modB w fun b => b.modR fun r => r.setH (BitVec.ofNat 4 f.d.toNat) { x with pinned := false }) s)

/-- What `hinfo` reads (R116). -/
def hinfoValue (sel : Nat) (priv : Bool) (x : Handle) : Word :=
  match sel with
  | 0 => w64 x.attr
  | 1 => if priv && x.valid then w64 x.base.toNat else 0
  | 2 => w64 x.va.toNat
  | _ => if x.valid then w64 x.id.toNat else 0

def execHinfo (h : Hdr) (f : FS) (s : State) : Host.Outcome State Fault Refusal :=
  .next (feWord h (wordOf 0x2F h f.toBody) (fun w => do
    let b ← getB w
    let x := b.r.hreg (hndOf f)
    waitReady x
    modB w fun b => b.modR fun r => r.setS f.d (hinfoValue (f.fn.toNat % 4) b.priv x)) s)

end Sys2Proof.Machine
end

