-- ==== Sys2Proof/Machine/Spad.lean ====
section
/-! DEFINITION. Tag words, scratchpad words of the L queue, `prf`, and the stores of the S queue
(R140, R152, R163 to R173, R315, R316, R366). -/
namespace Sys2Proof.Machine

/-! ## Tag words (R166 to R169) -/

/-- The tag entry as 64 bits (R162). -/
def SlotTag.bits (e : SlotTag) : Nat :=
  e.fmt.toNat * 2 ^ 3 + e.lay.toNat * 2 ^ 7 + flag e.own 10 + flag e.x 11 + e.vtag.toNat * 2 ^ 12 + flag e.p 60 + flag e.d 61 +
    flag e.f 62 + flag e.v 63

/-- The slot with the smallest recency stamp, the first of equals. -/
def oldestSlot (t : Tile) : List Nat → Nat
  | [] => 511
  | k :: ks => ks.foldl (fun b x => if (t.tag x).stamp < (t.tag b).stamp then x else b) k

/-- What `sptag` answers for VA[59:12] = `v`: the value of s[d] and the predicate. -/
def sptagFind (t : Tile) (b : Bank) (c : Fin 2) (v : Nat) : Word × Bool :=
  let q := quotaSlots t b
  match q.find? fun k => (t.tag k).v && (t.tag k).vtag.toNat = v && (t.tag k).own == (c.val == 1) with
  | some k => (w64 (flag (t.tag k).f 62 + k), true)
  | none =>
    let k := match q.find? fun k => !(t.tag k).v with
      | some k => k
      | none => oldestSlot t q
    (w64 (2 ^ 63 + k), false)

def execSptag (h : Hdr) (f : FS) (s : State) : Host.Outcome State Fault Refusal :=
  .next (feWord h (wordOf 0x1B h f.toBody) (fun w => do
    let t ← getT w
    modB w fun b =>
      let (v, p) := sptagFind t b (Who.ctx w) (bits (b.r.sreg f.a).toNat 12 48)
      b.modR fun r => (r.setS f.d v).setP (BitVec.ofNat 3 f.fn.toNat) p) s)

/-- The slot that a register names, which must be in the quota. -/
def slotInQuota (w : Who) (x : Word) : M Nat := do
  let s ← get
  ensure (inQuota (s.tile (Who.tile w)) (s.bank w) x.toNat) Cause.spQuota (w64 (x.toNat * 4096))
  return x.toNat

def execSpset (h : Hdr) (f : FS) (s : State) : Host.Outcome State Fault Refusal :=
  .next (feWord h (wordOf 0x0E h f.toBody) (fun w => do
    let fmt := bits f.fn.toNat 0 4
    let lay := bits f.fn.toNat 4 3
    if fmt = 0 || fmt ≥ 11 || lay > 4 then illegal (wordOf 0x0E h f.toBody)
    let r := (← getB w).r
    let k ← slotInQuota w (r.sreg f.d)
    modT w fun t =>
      let n := t.stamps.get (Who.ctx w) + 1
      { t.setTag k
          { v := true, f := bit f.fn.toNat 8, d := bit f.fn.toNat 7, vtag := BitVec.ofNat 48 (bits (r.sreg f.a).toNat 12 48)
            own := (Who.ctx w).val == 1, lay := BitVec.ofNat 3 lay, fmt := BitVec.ofNat 4 fmt, stamp := n } with
        stamps := t.stamps.set (Who.ctx w).val n }) s)

/-- A tag entry with every field cleared. -/
def clearTag (t : Tile) (k : Nat) : Tile := t.modTag k fun e => { stamp := e.stamp }

def execSpinv (h : Hdr) (f : FS) (s : State) : Host.Outcome State Fault Refusal :=
  .next (feWord h (wordOf 0x0F h f.toBody) (fun w => do
    if bit f.fn.toNat 0 then
      let b ← getB w
      modT w fun t => (quotaSlots t b).foldl clearTag t
    else
      let k ← slotInQuota w ((← getB w).r.sreg f.d)
      modT w fun t => clearTag t k) s)

def execSpq (h : Hdr) (f : FS) (s : State) : Host.Outcome State Fault Refusal :=
  .next (feWord h (wordOf 0x10 h f.toBody) (fun w => do
    let k ← slotInQuota w ((← getB w).r.sreg f.a)
    let t ← getT w
    modB w fun b => b.modR fun r => r.setS f.d (w64 (t.tag k).bits)) s)

/-! ## Repeats of a run-length word (R40, R41) -/

/-- Repeats from MPC to REP, each noted as done once it is. The granules of one repeat are accessed next to one another (R145; DESIGN CHOICE,
log 134). -/
def repeats (w : Who) (q : QName) (e : Entry) (f : FM) (body : Nat → M Unit) : M Bool := do
  for j in (List.range (f.rep.toNat + 1)).drop e.mpc do
    body j
    modB w fun b => b.clearWm (siteOf q)
    modHead w q fun e => { e with mpc := j + 1 }
  return true

/-- A scratchpad address that a repeat computes exactly; one below 0 lies in no quota. -/
def spadAddr (x : Int) : M Nat := if x < 0 then trap Cause.spQuota (w64i x) else pure x.toNat

/-- Both addresses of a line move are aligned. -/
def linesAligned (m : Word) (a : Int) : M Unit := do
  ensure (m.toNat % 64 = 0) Cause.misalignedAddr m
  ensure (a % 64 = 0) Cause.misalignedAddr (w64i a)

/-- The waits of one repeat: watermarks over its memory and its scratchpad, engine accesses to the pair window before it, and remaps
(R152, R157). -/
def moveWaits (w : Who) (x : Site) (h : Handle) (m pa a n : Nat) : M Unit := do
  watermarkWait w x true (vaOf h m) n
  pairTurn w pa
  watermarkWait w x false a n
  remapWait w pa n

/-- `k` lines are read from memory into the scratchpad, POISON with them (R171). -/
def linesIn (w : Who) (h : Handle) (pa a k : Nat) : M Unit := do
  for i in List.range k do
    let s := (← get).countMig (Who.tile w) h (pa + 64 * i)
    let (v, p, s) := s.ordRead w (pa + 64 * i) 64 .copy
    set s
    spWrite w (a + 64 * i) (leBytes v 64) p

/-- `k` lines are written from the scratchpad to memory; lines read from a slot with P are written POISON (R315). -/
def linesOut (w : Who) (h : Handle) (a pa k : Nat) : M Unit := do
  for i in List.range k do
    let (bs, p) ← spRead w (a + 64 * i) 64
    modS fun s => (s.countMig (Who.tile w) h (pa + 64 * i)).pathWrite w (pa + 64 * i) bs p

/-! ## Words of the L queue (R171 to R173) -/

/-- One repeat as `ldsp` does it. -/
def ldspMove (w : Who) (e : Entry) (f : FM) (m : Nat) (sj : Int) : M Unit := do
  let n := fmBytes f
  let (hn, h) := e.handle 0
  linesAligned (w64 m) sj
  let a ← spadAddr sj
  checkSP w a n none none
  let pa ← translateRange { rd := true } hn h m n
  moveWaits w .l h m pa a n
  linesIn w h pa a (n / 64)

def execLdsp (h : Hdr) (f : FM) (s : State) : Host.Outcome State Fault Refusal :=
  .next (lsWord .l (.ldsp h f) h (wordOf 0x40 h f.toBody) (fun w e => repeats w .l e f fun j => ldspMove w e f (fmOffset e j) (fmSpad e j)) s)

/-- The index of repeat `j` of a gather or scatter: 0xFFFF_FFFF stands for none. -/
def rowIndex (w : Who) (x : Site) (e : Entry) (j : Nat) : M Nat := do
  let ia := bits (e.s 3).toNat 0 32 + 4 * j
  ensure (ia % 4 = 0) Cause.misalignedAddr (w64 ia)
  checkSP w ia 4 none (some 10)
  watermarkWait w x false ia 4
  return leNat (← spReadChecked w ia 4)

/-- The memory offset of a row by its index. -/
def rowOffset (e : Entry) (x : Nat) : Nat := ((e.s 0).toNat + x * bits (e.s 3).toNat 32 32) % 2 ^ 64

def ldspGRepeat (w : Who) (e : Entry) (f : FM) (j : Nat) : M Unit := do
  let n := fmBytes f
  let x ← rowIndex w .l e j
  let sj : Int := (e.s 1).toNat + j * n
  if x = 0xFFFFFFFF then
    ensure (sj % 64 = 0) Cause.misalignedAddr (w64i sj)
    let a ← spadAddr sj
    checkSP w a n none none
    watermarkWait w .l false a n
    spWrite w a (List.replicate n 0)
  else ldspMove w e f (rowOffset e x) sj

def execLdspG (h : Hdr) (f : FM) (s : State) : Host.Outcome State Fault Refusal :=
  .next (lsWord .l (.ldspG h f) h (wordOf 0x41 h f.toBody) (fun w e => repeats w .l e f (ldspGRepeat w e f)) s)

/-- CV and element bytes of a tile word. -/
def tileCv (f : FM) : Nat := bits f.flg.toNat 0 2
def tileE (f : FM) : Nat := 2 ^ bits f.flg.toNat 2 2

/-- The checks of a tile word before repeat 0 (R172). -/
def tileForm (word : BitVec 48) (f : FM) (e : Entry) : M Unit := do
  if tileCv f = 3 || bits f.flg.toNat 2 2 = 3 then illegal word
  ensure ((e.s 0).toNat % 64 = 0) Cause.misalignedAddr (e.s 0)
  let pitch := sext (e.s 3).toNat 32
  ensure (pitch % 64 = 0) Cause.misalignedAddr (w64i pitch)

/-- The rows of repeat `j`: offsets in the page. -/
def tileRows (e : Entry) (f : FM) (j : Nat) : List Nat :=
  (List.range (f.len.toNat + 1)).map fun i =>
    (((e.s 0).toNat + 64 * j + i * sext (e.s 3).toNat 32) % 2 ^ 64).toNat

/-- The checks and waits of one repeat of a tile word: the rows' physical addresses and the scratchpad address. -/
def tileChecks (w : Who) (x : Site) (need : Need) (e : Entry) (f : FM) (j : Nat) : M (List (Nat × Nat) × Nat) := do
  let (hn, h) := e.handle 0
  let rows ← (tileRows e f j).mapM fun m => do return (m, ← translateRange need hn h m 64)
  let sj := fmSpad e j
  let n := if tileCv f = 0 then 64 * (f.len.toNat + 1) else 4096
  if tileCv f ≠ 0 then ensure (sj % 4096 = 0) Cause.misalignedAddr (w64i sj)
  let a ← spadAddr sj
  checkSP w a n (some (tileCv f)) none
  for r in rows do
    watermarkWait w x true (vaOf h r.1) 64
    pairTurn w r.2
    remapWait w r.2 64
  watermarkWait w x false a n
  return (rows, a)

def ldspTRepeat (w : Who) (word : BitVec 48) (e : Entry) (f : FM) (j : Nat) : M Unit := do
  tileForm word f e
  let (rows, a) ← tileChecks w .l { rd := true } e f j
  let h := (e.handle 0).2
  if tileCv f = 0 then
    for r in rows.zipIdx do linesIn w h r.1.2 (a + 64 * r.2) 1
  else
    let got ← rows.mapM fun r => do
      let s := (← get).countMig (Who.tile w) h r.2
      let (v, p, s) := s.ordRead w r.2 64 .copy
      set s
      pure (leBytes v 64, p)
    spWrite w a (placeRows (tileCv f) (tileE f) (got.map (·.1))) (got.any (·.2))

def execLdspT (h : Hdr) (f : FM) (s : State) : Host.Outcome State Fault Refusal :=
  .next (lsWord .l (.ldspT h f) h (wordOf 0x42 h f.toBody)
    (fun w e => repeats w .l e f (ldspTRepeat w (wordOf 0x42 h f.toBody) e f)) s)

def spfillRepeat (w : Who) (e : Entry) (f : FM) (j : Nat) : M Unit := do
  let n := fmBytes f
  let sj := fmSpad e j
  ensure (sj % 64 = 0) Cause.misalignedAddr (w64i sj)
  let a ← spadAddr sj
  checkSP w a n none none
  watermarkWait w .l false a n
  spWrite w a ((List.replicate (n / 8) (leBytes (e.s 0).toNat 8)).flatten)

def execSpfill (h : Hdr) (f : FM) (s : State) : Host.Outcome State Fault Refusal :=
  .next (lsWord .l (.spfill h f) h (wordOf 0x43 h f.toBody) (fun w e => repeats w .l e f (spfillRepeat w e f)) s)

def spcopyRepeat (w : Who) (e : Entry) (f : FM) (j : Nat) : M Unit := do
  let n := fmBytes f
  let aj : Int := (e.s 0).toNat + j * sext (e.s 3).toNat 32
  let sj := fmSpad e j
  ensure (aj % 64 = 0) Cause.misalignedAddr (w64i aj)
  ensure (sj % 64 = 0) Cause.misalignedAddr (w64i sj)
  let a ← spadAddr aj
  checkSP w a n none none
  let d ← spadAddr sj
  checkSP w d n none none
  watermarkWait w .l false a n
  watermarkWait w .l false d n
  let ls ← (List.range (n / 64)).mapM fun i => spRead w (a + 64 * i) 64
  for l in ls.zipIdx do spWrite w (d + 64 * l.2) l.1.1 l.1.2

def execSpcopy (h : Hdr) (f : FM) (s : State) : Host.Outcome State Fault Refusal :=
  .next (lsWord .l (.spcopy h f) h (wordOf 0x51 h f.toBody) (fun w e => repeats w .l e f (spcopyRepeat w e f)) s)

/-- A word that does its token actions and nothing else (R316, R366). -/
def execLnop (h : Hdr) (x : BitVec 32) (s : State) : Host.Outcome State Fault Refusal :=
  .next (lsWord .l (.lnop h x) h (wordOf 0x52 h x) (fun _ _ => return true) s)

/-! ## `prf` (R140) -/

/-- One prefetched line: dropped where R140 says so, and through a handle that is clear as through a revoked one (DESIGN CHOICE, log 133); it
takes no place in the order and leaves pts as it is (DEDUCED, log 139). The path PAIR keeps no first-level copies (R130, R142). -/
def State.prefetch (s : State) (w : Who) (h : Handle) (off : Nat) (l1 : Bool) : State :=
  if !h.valid || off ≥ h.bytes || !h.rd then s
  else
    let (e, s) := if h.size = 0 then s.pteNow h.id else (0, s)
    if h.size = 0 && pteMST e ≠ 0 then s
    else
      let pa := h.base.toNat + off
      if !reaches s pa then s.hubLog 13 (w64 pa) (ctxid16 w)
      else
        let s := s.countMig (Who.tile w) h pa
        if l1 && !inPair pa then (if (s.l1Hit w (pa / 64)).isSome then s else (s.grantLease w (pa / 64)).2)
        else s.fill (pa / 64) (ctxid16 w)

def prfRepeat (w : Who) (e : Entry) (f : FM) (j : Nat) : M Unit :=
  modS fun s => (List.range (f.len.toNat + 1)).foldl
    (fun s i => s.prefetch w (e.handle 0).2 ((fmOffset e j + 64 * i) % 2 ^ 64) (bit f.flg.toNat 0)) s

def execPrf (h : Hdr) (f : FM) (s : State) : Host.Outcome State Fault Refusal :=
  .next (lsWord .l (.prf h f) h (wordOf 0x4D h f.toBody) (fun w e => repeats w .l e f (prfRepeat w e f)) s)

/-! ## Stores of the S queue (R315, R316) -/

/-- One repeat as `stsp` does it. -/
def stspMove (w : Who) (e : Entry) (f : FM) (m : Nat) (sj : Int) : M Unit := do
  let n := fmBytes f
  let (hn, h) := e.handle 0
  linesAligned (w64 m) sj
  let a ← spadAddr sj
  checkSP w a n none none
  let pa ← translateRange { w := true } hn h m n
  moveWaits w .s h m pa a n
  snoopHost pa n
  outbound w
  linesOut w h a pa (n / 64)

def execStsp (h : Hdr) (f : FM) (s : State) : Host.Outcome State Fault Refusal :=
  .next (lsWord .s (.stsp h f) h (wordOf 0x60 h f.toBody) (fun w e => repeats w .s e f fun j => stspMove w e f (fmOffset e j) (fmSpad e j)) s)

def stspSRepeat (w : Who) (e : Entry) (f : FM) (j : Nat) : M Unit := do
  let x ← rowIndex w .s e j
  if x ≠ 0xFFFFFFFF then stspMove w e f (rowOffset e x) ((e.s 1).toNat + j * fmBytes f : Nat)

def execStspS (h : Hdr) (f : FM) (s : State) : Host.Outcome State Fault Refusal :=
  .next (lsWord .s (.stspS h f) h (wordOf 0x61 h f.toBody) (fun w e => repeats w .s e f (stspSRepeat w e f)) s)

def stspTRepeat (w : Who) (word : BitVec 48) (e : Entry) (f : FM) (j : Nat) : M Unit := do
  tileForm word f e
  let (rows, a) ← tileChecks w .s { w := true } e f j
  let h := (e.handle 0).2
  for r in rows do snoopHost r.2 64
  outbound w
  if tileCv f = 0 then
    for r in rows.zipIdx do linesOut w h (a + 64 * r.2) r.1.2 1
  else
    let (bs, p) ← spRead w a 4096
    for r in rows.zipIdx do
      modS fun s => (s.countMig (Who.tile w) h r.1.2).pathWrite w r.1.2 (takeRow (tileCv f) (tileE f) bs r.2) p

def execStspT (h : Hdr) (f : FM) (s : State) : Host.Outcome State Fault Refusal :=
  .next (lsWord .s (.stspT h f) h (wordOf 0x62 h f.toBody)
    (fun w e => repeats w .s e f (stspTRepeat w (wordOf 0x62 h f.toBody) e f)) s)

/-- One element of a `stsp.add` in one step at its home slice; the flags it sets. -/
def addElem (s : State) (w : Who) (int : Bool) (pa x : Nat) : Flags × State :=
  if !reaches s pa then (0, s.hubLog 13 (w64 pa) (ctxid16 w))
  else
    let s := s.meet (pa / 64) (ctxid16 w)
    let l := s.homeLine (pa / 64)
    if l.poison then (0, s)
    else
      let old := lineBytes l.data (pa % 64) 4
      let (v, fl) : Nat × Flags :=
        if int then ((old + x) % 2 ^ 32, 0)
        else
          let (t, f) := Num.add (fmtFP32.value old) (fmtFP32.value x)
          let (p, g) := roundFP32 t
          (p, f ||| g)
      (fl, s.pathWrite w pa (leBytes v 4) false)

def stspAddRepeat (w : Who) (e : Entry) (f : FM) (j : Nat) : M Unit := do
  let n := fmBytes f
  let (hn, h) := e.handle 0
  let m := fmOffset e j
  let int := bit f.flg.toNat 0
  linesAligned (w64 m) (fmSpad e j)
  let a ← spadAddr (fmSpad e j)
  checkSP w a n none (some (if int then 6 else 1))
  let pa ← translateRange { rd := true, w := true } hn h m n
  moveWaits w .s h m pa a n
  snoopHost pa n
  let bs ← spReadChecked w a n
  outbound w
  let s := (List.range (n / 64)).foldl (fun s i => s.countMig (Who.tile w) h (pa + 64 * i)) (← get)
  let (fl, s) := (List.range (n / 4)).foldl (fun (acc : Flags × State) i =>
    let (g, s) := addElem acc.2 w int (pa + 4 * i) (leNat ((bs.drop (4 * i)).take 4))
    (acc.1 ||| g, s)) (0, s)
  set s
  modHead w .s fun e => { e with flags := e.flags ||| fl }

def execStspAdd (h : Hdr) (f : FM) (s : State) : Host.Outcome State Fault Refusal :=
  .next (lsWord .s (.stspAdd h f) h (wordOf 0x67 h f.toBody) (fun w e => repeats w .s e f (stspAddRepeat w e f)) s)

def execSnop (h : Hdr) (x : BitVec 32) (s : State) : Host.Outcome State Fault Refusal :=
  .next (lsWord .s (.snop h x) h (wordOf 0x6A h x) (fun _ _ => return true) s)

end Sys2Proof.Machine
end

