-- ==== Sys2Proof/Machine/Copy.lean ====
section
/-! DEFINITION. The copy engine: launch records, release and completion of entries, watermarks, and its words (R174 to R185). -/
namespace Sys2Proof.Machine

/-! ## Entries and headers (R175, R176, R181) -/

/-- An entry keeps the limits of R176 and R181. -/
def cpEntryOk (e : BitVec 256) : Bool :=
  let conv := cpEntryConv e
  let dirOk := match conv with
    | 0 => true
    | 1 | 2 => !cpEntryOut e
    | 3 | 4 => cpEntryOut e
    | _ => false
  dirOk && (conv == 0 || (cpEntryEs e != 3 && cpEntryRows e ≤ 64 && cpEntrySp e % 4096 == 0)) && cpEntryRows e ≤ 4096 &&
    cpEntryLines e ≤ 64 && cpEntryMem e % 64 == 0 && cpEntryPitch e % 64 == 0 && (conv != 0 || cpEntrySpPitch e % 64 == 0)


def cpHeadN (h : BitVec 512) : Nat := bits h.toNat 0 16
def cpHeadEv (h : BitVec 512) : Bool := bit h.toNat 16
def cpHeadHandle (h : BitVec 512) : Fin 16 := ⟨bits h.toNat 24 4, by unfold bits; omega⟩
def cpHeadOff (h : BitVec 512) : Nat := bits h.toNat 64 64
def cpHeadValue (h : BitVec 512) : Nat := bits h.toNat 128 64
/-- The limits of the header. The event word's offset is held to its multiple of 8 (R175) only where EV names an event word: R181 does not
list it, and the field has no effect otherwise (DESIGN CHOICE, log 137). -/
def cpHeadOk (h : BitVec 512) : Bool := 1 ≤ cpHeadN h && cpHeadN h ≤ 256 && (!cpHeadEv h || cpHeadOff h % 8 == 0)

/-! ## Channels -/

def State.chan (s : State) (t : Tid) (k : Fin 8) : CopyChan := (s.tile t).chans.get k
def State.modChan (s : State) (t : Tid) (k : Fin 8) (f : CopyChan → CopyChan) : State :=
  s.modTile t fun x => { x with chans := x.chans.set k.val (f (x.chans.get k)) k.isLt }

/-- Entries in flight across the tile's channels, hidden ones included (R174). -/
def inFlight (t : Tile) : Nat := t.chans.toList.foldl (fun a c => a + c.fly.length) 0 + (t.hidden.filter (·.released)).length

/-- A channel faults at entry `n`, and its owner takes COPY_FAULT (R180). -/
def State.faultChan (s : State) (t : Tid) (k : Fin 8) (n : Nat) (code : BitVec 8) : State :=
  let c := s.chan t k
  let f (b : Bank) : Bank := { b with irq := { b.irq with copyFault := b.irq.copyFault ++ (if b.irq.copyFault.contains k then [] else [k]) } }
  let s := s.modChan t k fun c => { c with st := .fault, next := n, fcause := code }
  s.modCtx (who t c.owner) fun x => if c.away then { x with shadow := x.shadow.map f } else { x with b := f x.b }

/-- The outcome of a check, without its other effects. -/
def failOf {α : Type} (m : M α) (s : State) : Except (BitVec 8) α :=
  match (m.run.run s).1 with
  | .ok a => .ok a
  | .error (.trap c _) => .error c
  | .error _ => .error 0

/-- The checks at release (R178, R180): the physical addresses of the memory rows. -/
def releaseChecks (s : State) (t : Tid) (c : CopyChan) (e : BitVec 256) : Except (BitVec 8) (List (BitVec 52)) :=
  let h := c.caps.get (cpEntryHandle e)
  let rows := failOf ((List.range (cpEntryRows e)).mapM fun r =>
    translateRange (if cpEntryOut e then { w := true } else { rd := true }) 0 h (cpRowOff e r) (64 * cpEntryLines e)) s
  match rows with
  | .error c => .error c
  | .ok pas =>
    let bad := (cpSpRanges e).any fun r => (slotsOf r.1 r.2).any fun k => ((s.tile t).tag k).v && ((s.tile t).tag k).lay.toNat != cpEntryLay e
    if bad then .error Cause.layout else .ok (pas.map (BitVec.ofNat 52 ·))

/-- The channel whose entry is released next: the first from the engine's turn on that has one (R174). -/
def nextChan (t : Tile) : Option (Fin 8) := ((List.finRange 8).map (t.chanTurn + ·)).find? fun k => (t.chans.get k).mayRelease

/-- A channel that came back without its unit asks for it again, before it goes on (R430, log 57). -/
def State.regrant (s : State) (t : Tid) (k : Fin 8) : State :=
  match (askGrant (who t (s.chan t k).owner) 2 1).run.run s with
  | (.ok g, s) => s.modChan t k fun c => { c with grant := some g, again := false }
  | (.error _, s) => s

/-- The next entry of a channel is released, or fails, in the channel's turn (R174, R177, R178, R180). -/
def State.releaseEntry (s : State) (t : Tid) (k : Fin 8) : State :=
  let c := s.chan t k
  match c.entries[c.next]? with
  | none => s
  | some e =>
    if nextChan (s.tile t) ≠ some k || inFlight (s.tile t) ≥ 64 then s
    else if c.again then s.regrant t k
    else
      let s : State := match releaseChecks s t c e with
        | .error code => s.faultChan t k c.next code
        | .ok rows => s.modChan t k fun c => { c with next := c.next + 1, fly := c.fly ++ [{ idx := c.next, rows, q := (c.byWord c.next).1, ser := (c.byWord c.next).2 }] }
      s.modTile t fun x => { x with chanTurn := k + 1 }

def execCopyEntryRelease (t : Tid) (ch : Fin 8) (s : State) : Host.Outcome State Fault Refusal := .next (s.releaseEntry t ch)

/-! ## Completion (R176, R178, R179) -/

/-- The highest destination byte of an entry in the armed space, if its destination lies there. -/
def cpDestTop (c : CopyChan) (e : BitVec 256) : Option Nat :=
  if cpEntryOut e != c.armMem then none
  else if c.armMem then
    let h := c.caps.get (cpEntryHandle e)
    some ((List.range (cpEntryRows e)).foldl (fun a r => max a (h.va.toNat + cpRowOff e r + 64 * cpEntryLines e - 1)) 0)
  else some ((cpSpRanges e).foldl (fun a r => max a (r.1 + r.2 - 1)) 0)

/-- Entries below this index have all completed. -/
def cpLead (c : CopyChan) : Nat := ((List.range c.entries.length).takeWhile fun i => c.compl.contains i).length

/-- WM after the entries 0 to lead − 1 have completed (R179). -/
def cpWatermark (c : CopyChan) : CopyChan :=
  let lead := cpLead c
  if lead = c.counted then c
  else if !c.armed then { c with counted := lead }
  else
    { c with
      counted := lead
      wm := (c.entries.take lead).foldl (fun wm e => match cpDestTop c e with
        | some top => min c.hi (max wm (1 + top))
        | none => wm) c.wm }

/-- The bytes that an entry reads from memory, row by row. -/
def cpReadRows (s : State) (w : Who) (h : Handle) (n : Nat) : List (BitVec 52) → List (List MByte) × State
  | [] => ([], s)
  | a :: as' =>
    let (x, s) := (s.countLines w h a.toNat n).engRead w a.toNat n (n / 64 + 1)
    let (r, s) := cpReadRows s w h n as'
    (x :: r, s)

/-- Rows written to the scratchpad as they lie (CONV 0). -/
def cpLinRows (w : Who) (e : BitVec 256) (rows : List (List MByte)) : M Unit := do
  for r in rows.zipIdx do
    for l in List.range (cpEntryLines e) do
      let bs := (r.1.drop (64 * l)).take 64
      spWrite w (cpEntrySp e + r.2 * cpEntrySpPitch e + 64 * l) (bytesOf bs) (anyPoison bs)

/-- Column blocks placed in slots by R165, missing rows zero. -/
def cpTileRows (w : Who) (e : BitVec 256) (rows : List (List MByte)) : M Unit := do
  for l in List.range (cpEntryLines e) do
    let blk := rows.map fun r => (r.drop (64 * l)).take 64
    spWrite w (cpEntrySp e + 4096 * l) (placeRows (cpEntryLay e) (2 ^ cpEntryEs e) (blk.map bytesOf)) (blk.any anyPoison)

/-- Row `r` of an entry as it goes to memory. -/
def cpOutRow (w : Who) (e : BitVec 256) (r : Nat) : M (List MByte) := do
  let parts ← (List.range (cpEntryLines e)).mapM fun l => do
    if cpEntryConv e = 0 then
      let (bs, p) ← spRead w (cpEntrySp e + r * cpEntrySpPitch e + 64 * l) 64
      pure (bs.map fun b => (b, p))
    else
      let (bs, p) ← spRead w (cpEntrySp e + 4096 * l) 4096
      pure ((takeRow (cpEntryLay e) (2 ^ cpEntryEs e) bs r).map fun b => (b, p))
  return parts.flatten

/-- The transfer of an entry: every read, then every write. -/
def cpTransfer (w : Who) (h : Handle) (e : BitVec 256) (rows : List (BitVec 52)) : M Unit := do
  let n := 64 * cpEntryLines e
  if cpEntryOut e then
    let data ← (List.range rows.length).mapM (cpOutRow w e)
    for d in rows.zip data do
      modS fun s => (s.countLines w h d.1.toNat n).engWrite w d.1.toNat d.2 (n / 64 + 1)
  else
    let (data, s) := cpReadRows (← get) w h n rows
    set s
    if cpEntryConv e = 0 then cpLinRows w e data else cpTileRows w e data
  if cpEntryCf e && !cpEntryOut e then
    for r in cpSpRanges e do clearFilling w r.1 r.2

/-- Two entries of a channel touch a memory line or a scratchpad slot in common. -/
def cpEntriesMeet (a b : BitVec 256) (ra rb : List (BitVec 52)) : Bool :=
  let lines (e : BitVec 256) (rs : List (BitVec 52)) : List Nat := rs.flatMap fun x => linesOf x.toNat (64 * cpEntryLines e)
  let slots (e : BitVec 256) : List Nat := (cpSpRanges e).flatMap fun r => slotsOf r.1 r.2
  (lines a ra).any ((lines b rb).contains ·) || (slots a).any ((slots b).contains ·)

/-- The event word of a schedule whose every entry has completed, and the end of the schedule (R178, R180). -/
def cpFinish (w : Who) (k : Fin 8) : M Unit := do
  let t := Who.tile w
  let c := (← get).chan t k
  if cpHeadEv c.header then
    let s ← get
    match failOf (translateRange { w := true } 0 (c.caps.get (cpHeadHandle c.header)) (cpHeadOff c.header) 8) s with
    | .error code =>
      modS fun s => s.faultChan t k c.entries.length code
      return
    | .ok pa =>
      snoopHost pa 8
      outbound w
      modS fun s => (s.countLines w (c.caps.get (cpHeadHandle c.header)) pa 8).pathWrite w pa (leBytes (cpHeadValue c.header) 8)
        (prv := (c.caps.get (cpHeadHandle c.header)).prv)
  modS fun s => (s.returnGrant w c.grant).modChan t k fun c => { c with st := .done, grant := none }

/-- Entry `idx` of a channel completes, when the order of its channel and the lines' homes let it (R146, R178). -/
def cpComplete (t : Tid) (k : Fin 8) (idx : Nat) : M Unit := do
  let s ← get
  let c := s.chan t k
  let w := who t c.owner
  match c.fly.find? (·.idx == idx), c.entries[idx]? with
  | some fl, some e => do
    let before := c.fly.filter (·.idx < idx)
    if before.any fun b => cpEntriesMeet ((c.entries[b.idx]?).getD 0) e b.rows fl.rows then waitFor .other
    engineWait w c.away fl.q fl.ser (cpSpRanges e)
    for a in fl.rows do pairWait w c.away fl.ser a.toNat
    if fl.rows.any fun a => (linesOf a.toNat (64 * cpEntryLines e)).any (lineHeld s w) then waitFor .other
    if cpEntryOut e then for a in fl.rows do snoopHost a.toNat (64 * cpEntryLines e)
    if cpEntryOut e then outbound w
    cpTransfer w (c.caps.get (cpEntryHandle e)) e fl.rows
    modS fun s => s.modChan t k fun c => cpWatermark { c with fly := c.fly.filter (·.idx != idx), compl := idx :: c.compl }
    let c := (← get).chan t k
    if c.st = .run && c.counted = c.entries.length then cpFinish w k
  | _, _ => if c.st = .run && c.counted = c.entries.length && c.entries.length ≠ 0 then cpFinish w k

def execCopyEntryComplete (t : Tid) (ch : Fin 8) (k : Nat) (s : State) : Host.Outcome State Fault Refusal :=
  .next (runM (cpComplete t ch k) s)

/-! ## Words (R181 to R184) -/

def chOf (f : FK) : Fin 8 := ⟨f.imm.toNat % 8, by omega⟩

/-- Bytes of a record read as ordinary reads. `check`: POISON is a machine check at the offset of its line, as in the record of `cp.launch`;
else it is carried on with the bytes as they are (R411). -/
def recordRead (w : Who) (h : Handle) (check : Bool) (off pa : Nat) : Nat → M (List Byte)
  | 0 => return []
  | n + 1 => do
    pairTurn w pa
    remapWait w pa 64
    let s := (← get).countMig (Who.tile w) h pa
    let (v, p, s) := s.ordRead w pa 64 .copy
    set s
    if check && p then poisonAt off pa 2
    return leBytes v 64 ++ (← recordRead w h check (off + 64) (pa + 64) n)

/-- The record at the captured offset, validated (R181). -/
def launchRecord (w : Who) (e : Entry) : M (BitVec 512 × List (BitVec 256)) := do
  let (hn, h) := e.handle 0
  let off := (e.s 0).toNat
  ensure (off % 64 = 0) Cause.misalignedAddr (e.s 0)
  let pa ← translateRange { rd := true } hn h off 64
  watermarkWait w .l true (vaOf h off) 64
  let header := BitVec.ofNat 512 (leNat (← recordRead w h true off pa 1))
  ensure (cpHeadOk header) Cause.copyRecord 0xFFFF
  let n := cpHeadN header
  let _ ← translateRange { rd := true } hn h off (64 + 32 * n)
  watermarkWait w .l true (vaOf h off) (64 + 32 * n)
  let bs ← recordRead w h true (off + 64) (pa + 64) ((n + 1) / 2)
  let es : List (BitVec 256) := (List.range n).map fun i => BitVec.ofNat 256 (leNat ((bs.drop (32 * i)).take 32))
  match es.findIdx? fun x => !cpEntryOk x with
  | some i => trap Cause.copyRecord (w64 i)
  | none =>
    let s ← get
    match es.findIdx? fun x => (cpSpRanges x).any fun r => (checkSpFail (s.tile (Who.tile w)) (s.bank w) r.1 r.2 none none).isSome with
    | some i => trap Cause.spQuota (w64 i)
    | none => return (header, es)

/-- A channel that came back in an image reads its launch record again, through the table of its instance (R391). -/
def State.readRecord (s : State) (w : Who) (b : Bank) (c : CopyChan) : Option CopyChan × State :=
  match lookup s w b.csr.asid b.csr.ptroot c.recVa.toNat with
  | (.leaf e level _, s) =>
    let pa := leafFrame e level (Tid.die (Who.tile w)) + c.recVa.toNat % 2 ^ levelBits level
    let (bs, s) := s.engRead w pa (64 + 32 * c.cnt) (c.cnt + 2)
    if anyPoison bs || !pteRD e then (none, s)
    else
      let xs := bytesOf bs
      (some { c with
        header := BitVec.ofNat 512 (leNat (xs.take 64))
        entries := (List.range c.cnt).map fun i => BitVec.ofNat 256 (leNat ((xs.drop (64 + 32 * i)).take 32))
        compl := List.range c.next, counted := c.next }, s)
  | (_, s) => (none, s)

/-- A channel that resumes holds its record, or reads it again; one that cannot faults at its next entry. -/
def readAgain (w : Who) (k : Fin 8) : M Bool := do
  let s ← get
  let c := s.chan (Who.tile w) k
  if c.entries.length = c.cnt then return true
  match s.readRecord w (s.bank w) c with
  | (some c, s) => set (s.modChan (Who.tile w) k fun _ => c); return true
  | (none, s) => set (s.faultChan (Who.tile w) k c.next Cause.staleHandle); return false

/-- Bytes that a record's entries copy. -/
def cpBytes (es : List (BitVec 256)) : Nat := es.foldl (fun a x => a + cpEntryRows x * cpEntryLines x * 64) 0

def launchBody (f : FK) (w : Who) (e : Entry) : M Bool := do
  let t := Who.tile w
  let k := chOf f
  let st := ((← get).chan t k).st
  if bit f.imm.toNat 7 then
    ensure (st = .fault) Cause.copyBusy (w64 k.val)
    modS fun s => s.modChan t k fun c =>
      { c with st := .run, owner := Who.ctx w, away := false, caps := (s.bank w).r.h, advs := [{ sc := c.sc, ser := (s.bank w).ser }] }
    if !(← readAgain w k) then return true
    let c := (← get).chan t k
    if c.next ≥ c.entries.length && c.counted = c.entries.length then cpFinish w k
  else
    ensure (st = .idle || st = .done) Cause.copyBusy (w64 k.val)
    let (header, es) ← launchRecord w e
    let grant ← if cpBytes es > 65536 then some <$> askGrant w 2 1 else pure none
    modS fun s => s.modChan t k fun c =>
      { c with
        st := .run, owner := Who.ctx w, away := false, sc := 0, next := 0, cnt := es.length, header, entries := es, recVa := BitVec.ofNat 60 (vaOf (e.handle 0).2 (e.s 0).toNat)
        caps := (s.bank w).r.h, fly := [], advs := [{ sc := 0, ser := (s.bank w).ser }], compl := [], counted := 0, grant }
  return true

def execCpLaunch (h : Hdr) (f : FK) (s : State) : Host.Outcome State Fault Refusal :=
  .next (lsWord .l (.cpLaunch h f) h (wordOf 0x44 h f.toBody) (fun w e => precise w (launchBody f w e)) s)

/-- SC rises by imm17[16:3] in a busy channel of the context (R182). -/
def advanceChan (q : QName) (f : FK) (w : Who) : M Bool := do
  let t := Who.tile w
  let c := (← get).chan t (chOf f)
  if c.ofCtx (Who.ctx w) && (c.st = .run || c.st = .fault) then
    modS fun s => s.modChan t (chOf f) fun c =>
      let sc := min 65535 (c.sc + bits f.imm.toNat 3 14)
      { c with sc, advs := if sc = c.sc then c.advs else c.advs ++ [{ sc, q, ser := (s.bank w).ser }] }
  return true

def execCpAdv (h : Hdr) (f : FK) (s : State) : Host.Outcome State Fault Refusal :=
  .next (lsWord .l (.cpAdv h f) h (wordOf 0x45 h f.toBody) (fun w _ => advanceChan .l f w) s)

def execCpAdvs (h : Hdr) (f : FK) (s : State) : Host.Outcome State Fault Refusal :=
  .next (lsWord .s (.cpAdvs h f) h (wordOf 0x63 h f.toBody) (fun w _ => advanceChan .s f w) s)

/-- The accesses that the engines of a context make next without a word at a head: site, space, address, bytes. -/
def engineAccesses (b : Bank) : List (Site × Bool × Nat × Nat) :=
  ((streamLines b).map fun a => (Site.stream, false, a, 64)) ++
    (b.c.accOut.toList.map fun a => (Site.accOut, false, accOutSpan b a)) ++
    (b.pimRuns.find? (·.grant.isSome)).toList.flatMap fun r =>
      (r.memAccesses.map fun x => (Site.pim, true, x)) ++ if r.mem then [] else [(Site.pim, false, r.dst.toNat + 4 * r.mpc, 4)]

/-- Every current wait on a channel ends (R152, R183). -/
def State.endWaits (s : State) (w : Who) (k : Fin 8) : State :=
  let here := (engineAccesses (s.bank w)).filter fun y => (watermarkBars s w y.1 y.2.1 y.2.2.1 y.2.2.2).contains k
  s.modBank w fun b =>
    { b with wm := (b.wm.map fun y => if y.ch = k then { y with ended := true } else y) ++ here.map fun y => { site := y.1, ch := k, ended := true } }

def armBody (f : FK) (word : BitVec 48) (w : Who) (e : Entry) : M Bool := do
  let t := Who.tile w
  let off := bit f.imm.toNat 4
  if !off && (e.s 0).toNat > (e.s 1).toNat then trap Cause.operandRange (wordInfo word)
  let c := (← get).chan t (chOf f)
  if !(!c.ofCtx (Who.ctx w) && (c.st = .run || c.st = .fault)) then
    modS fun s => (s.endWaits w (chOf f)).modChan t (chOf f) fun c =>
      if off then { c with owner := Who.ctx w, away := false, armed := false }
      else
        { c with
          owner := Who.ctx w, away := false, armed := true, armMem := bit f.imm.toNat 3, lo := (e.s 0).toNat, hi := (e.s 1).toNat, wm := (e.s 0).toNat }
  return true

def execCpArm (h : Hdr) (f : FK) (s : State) : Host.Outcome State Fault Refusal :=
  .next (lsWord .l (.cpArm h f) h (wordOf 0x46 h f.toBody) (armBody f (wordOf 0x46 h f.toBody)) s)

def execCpCancel (h : Hdr) (f : FK) (s : State) : Host.Outcome State Fault Refusal :=
  .next (lsWord .l (.cpCancel h f) h (wordOf 0x47 h f.toBody) (fun w _ => do
    if bit f.imm.toNat 3 then modS fun s => ((List.finRange 8).foldl (fun s k => s.endWaits w k) s).cancelAll w
    else if ((← get).chan (Who.tile w) (chOf f)).ofCtx (Who.ctx w) then modS fun s => (s.endWaits w (chOf f)).cancelChan (Who.tile w) (chOf f)
    return true) s)

end Sys2Proof.Machine
end

