-- ==== Sys2Proof/Machine/Belt.lean ====
section
/-! DEFINITION. Belt words: `vfetch`, `vput`, `vmov`, `vpop`, `vbcast`, `vimm`, `vnop`, `cnop` (R195 to R204). -/
namespace Sys2Proof.Machine

/-! ## Operands -/

/-- Vector operand by selector, as the belt and the named registers stand. -/
def vecOf (w : Who) (sel : BitVec 5) : M Vec := do return (← getB w).r.vec sel

/-- The active lanes of a word. -/
def maskOf (w : Who) (f : FV) : M (BitVec 256) := do return activeMask (← getB w).r f

/-- A latency that depends on nothing. -/
def lat (n : Nat) : Regs → Option Nat := fun _ => some n

/-- No belt result. -/
def noLat : Regs → Option Nat := fun _ => none

/-- A tag that a word's FMT field gives: codes 1 to 10. -/
def fmtTag (word : BitVec 48) (f : FV) : M Tag := do
  if f.fmt = 0 || f.fmt.toNat ≥ 11 then illegal word
  return (Tag.ofCode f.fmt.toNat).getD .empty

/-- The 256 bytes that `vfetch` and `vput` move: alignment, quota, bank conflict and watermark. -/
def vecAddr (w : Who) (base : Word) (f : FV) (fmt : Option Nat) : M Nat := do
  let a := base.toNat + 256 * f.var.toNat
  ensure (a % 256 = 0) Cause.misalignedAddr (w64 a)
  checkSP w a 256 none fmt
  return a

/-- The checks of the queue's own stream and watermarks, after the operand checks (R152, R259). -/
def vecWaits (w : Who) (a : Nat) : M Unit := do
  checkClash w a 256
  watermarkWait w .c false a 256

/-! ## Words -/

/-- The bits of a result that is POISON are left whole (R198; DESIGN CHOICE, log 147). -/
def vfetchRun (f : FV) (word : BitVec 48) (w : Who) (e : Entry) : M CRes := do
  if f.fmt.toNat ≥ 11 then illegal word
  let a ← vecAddr w (e.s 0) f none
  let x := (← getT w).tag (a / 4096)
  let t : Tag ←
    if f.fmt ≠ 0 then pure ((Tag.ofCode f.fmt.toNat).getD .empty)
    else if x.v || x.x then pure ((Tag.ofCode x.fmt.toNat).getD .empty)
    else trap Cause.formatMismatch 0
  vecWaits w a
  let (bs, _) ← spRead w a 256
  let p := ((← getT w).tag (a / 4096)).p
  let v : Vec := { bits := BitVec.ofNat 2048 (leNat bs), tag := if p then .poison else t }
  let m ← maskOf w f
  return beltOf f (if p || t = .empty then v else maskedVec m t v.lanes) 6

def execVfetch (h : Hdr) (f : FV) (s : State) : Host.Outcome State Fault Refusal :=
  .next (cWord (.vfetch h f) h (wordOf 0x70 h f.toBody) (lat 6) (vfetchRun f (wordOf 0x70 h f.toBody)) s)

/-- Runs of active elements of `n` bytes: first byte and length. -/
def activeRuns (m : BitVec 256) (n : Nat) : List (Nat × Nat) :=
  ((List.range (256 / n)).foldl (fun (acc : List (Nat × Nat)) j =>
    if isActive m j then
      match acc with
      | r :: rs => if r.1 + r.2 = j * n then (r.1, r.2 + n) :: rs else (j * n, n) :: acc
      | [] => [(j * n, n)]
    else acc) []).reverse

def vputRun (f : FV) (w : Who) (e : Entry) : M CRes := do
  let v ← vecOf w f.sa
  if v.tag = .empty then trap Cause.formatMismatch (tagInfo v.tag)
  let a ← vecAddr w (e.s 0) f (if v.tag = .poison then none else some v.tag.code)
  vecWaits w a
  let m ← maskOf w f
  let new := leBytes v.bits.toNat 256
  for r in activeRuns m (v.tag.width / 8) do spWrite w (a + r.1) ((new.drop r.1).take r.2)
  if v.tag = .poison then modT w fun t => t.modTag (a / 4096) fun e => { e with p := true }
  return .plain 0

def execVput (h : Hdr) (f : FV) (s : State) : Host.Outcome State Fault Refusal :=
  .next (cWord (.vput h f) h (wordOf 0x71 h f.toBody) noLat (vputRun f) s)

def vmovRun (f : FV) (word : BitVec 48) (w : Who) : M CRes := do
  if f.fmt.toNat ≥ 11 then illegal word
  let v ← vecOf w f.sa
  if v.tag = .poison then throw (.mcheck Cause.poison 0 0 8)
  if f.fmt ≠ 0 && v.tag = .empty then trap Cause.formatMismatch (tagInfo v.tag)
  let t := if f.fmt = 0 then v.tag else (Tag.ofCode f.fmt.toNat).getD .empty
  let x : Vec := { v with tag := t }
  let m ← maskOf w f
  return beltOf f (if t = .empty then x else maskedVec m t x.lanes) 1

def execVmov (h : Hdr) (f : FV) (s : State) : Host.Outcome State Fault Refusal :=
  .next (cWord (.vmov h f) h (wordOf 0x72 h f.toBody) (lat 1) (fun w _ => vmovRun f (wordOf 0x72 h f.toBody) w) s)

/-- Result queue `q`: 0 TOPK, 1 SMP (R195). -/
def Bank.resultQueue (b : Bank) (q : Nat) : List Vec := if q = 0 then b.topkQ else b.smpQ
def Bank.popResult (b : Bank) (q : Nat) : Bank := if q = 0 then { b with topkQ := b.topkQ.tail } else { b with smpQ := b.smpQ.tail }

def vpopRun (f : FV) (word : BitVec 48) (w : Who) : M CRes := do
  let q := bits f.var.toNat 0 3
  if q ≥ 2 || f.me = 1 then illegal word
  let nr := bit f.var.toNat 3
  let out (v : Vec) (mode : BitVec 2) : CRes :=
    .belt { rem := 2, val := v, wn := f.wn = 1, nd := f.nd, maskK := BitVec.ofNat 3 f.sa.toNat, maskMode := if nr then mode else 0 }
  match (← getB w).resultQueue q with
  | [] => if nr then return out {} 3 else waitFor .other
  | v :: _ =>
    modB w fun b => b.popResult q
    return out v 2

def execVpop (h : Hdr) (f : FV) (s : State) : Host.Outcome State Fault Refusal :=
  .next (cWord (.vpop h f) h (wordOf 0x73 h f.toBody) (lat 2) (fun w _ => vpopRun f (wordOf 0x73 h f.toBody) w) s)

/-- A pattern in every active element. -/
def fillVec (m : BitVec 256) (t : Tag) (x : Nat) : Vec := maskedVec m t (List.replicate t.lanes (x % 2 ^ t.width))

def vbcastRun (f : FV) (word : BitVec 48) (w : Who) (e : Entry) : M CRes := do
  let m ← maskOf w f
  if !bit f.var.toNat 0 then
    let t ← fmtTag word f
    return beltOf f (fillVec m t (e.s 0).toNat) 1
  else
    if f.fmt ≠ 0 then illegal word
    let v ← vecOf w f.sa
    checkTag v anyData
    let i := (e.s 0).toNat % 256
    if i ≥ v.tag.lanes then trap Cause.operandRange (wordInfo word)
    return beltOf f (fillVec m v.tag (elem v.bits v.tag.width i)) 1

def execVbcast (h : Hdr) (f : FV) (s : State) : Host.Outcome State Fault Refusal :=
  .next (cWord (.vbcast h f) h (wordOf 0x74 h f.toBody) (lat 1) (vbcastRun f (wordOf 0x74 h f.toBody)) s)

/-- imm19 of a `vimm` (R196, R202). -/
def imm19 (f : FV) : Nat := f.var.toNat * 2 ^ 15 + f.sa.toNat * 2 ^ 10 + f.sb.toNat * 2 ^ 5 + f.sc.toNat

/-- The element that a `vimm` of a tag fills (R202). -/
def immElem (t : Tag) (i : Nat) : Nat :=
  match t with
  | .fp32 => i % 2 ^ 16 * 2 ^ 16
  | .int32 => toPat 32 (sext i 19)
  | t => i % 2 ^ t.width

def execVimm (h : Hdr) (f : FV) (s : State) : Host.Outcome State Fault Refusal :=
  .next (cWord (.vimm h f) h (wordOf 0x75 h f.toBody) (lat 1) (fun w _ => do
    let t ← fmtTag (wordOf 0x75 h f.toBody) f
    return beltOf f (fillVec (← maskOf w f) t (immElem t (imm19 f))) 1) s)

def execVnop (h : Hdr) (f : FL) (s : State) : Host.Outcome State Fault Refusal :=
  .next (cWord (.vnop h f) h (wordOf 0x9C h f.toBody) noLat (fun _ _ => return .hold f.imm.toNat) s)

def execCnop (h : Hdr) (x : BitVec 32) (s : State) : Host.Outcome State Fault Refusal :=
  .next (cWord (.cnop h x) h (wordOf 0x9D h x) noLat (fun _ _ => return .plain 0) s)

end Sys2Proof.Machine
end

