-- ==== Sys2Proof/Machine/Matrix.lean ====
section
/-! DEFINITION. Matrix engine and accumulator words, known-answer words, the command window and its replay (R246 to R271). -/
namespace Sys2Proof.Machine

/-! ## Accumulator memory and configuration (R246 to R251) -/

/-- imm17 fields of a format FK word. -/
def fkImm (f : FK) (lo n : Nat) : Nat := bits f.imm.toNat lo n
def fkBit (f : FK) (k : Nat) : Bool := bit f.imm.toNat k
/-- The tile that imm17[3:0] names. -/
def fkTile (f : FK) : BitVec 4 := BitVec.ofNat 4 f.imm.toNat

/-- The word holds while any matrix word is in flight (R250, R269). -/
def holdMats (w : Who) : M Unit := do
  if !(← getB w).c.mats.isEmpty then waitFor .drain

/-- The word holds while an enqueued quantisation command of the context still reads an accumulator tile (R314). -/
def holdReads (w : Who) : M Unit := do
  if (← get).qzReads w false then waitFor .drain

def tcfgByte (a b : Word) (z : Nat) : Nat := if z < 8 then bits a.toNat (8 * z) 8 else bits b.toNat (8 * (z - 8)) 8

/-- The first failure of a `tcfg` for tile `z`. -/
def tcfgFail (b : Bank) (x z : Nat) : Option (BitVec 8) :=
  let rows := BitVec.ofNat 2 x
  let cols := BitVec.ofNat 2 (x / 4)
  if (rows = 0) != (cols = 0) then some Cause.operandRange
  else if rows ≠ 0 && (b.tileZ (BitVec.ofNat 4 z)).banks < banksNeeded (dimOf rows) (dimOf cols) then some Cause.accShape
  else none

def tcfgRun (w : Who) (e : Entry) : M CRes := do
  holdMats w
  holdReads w
  let b ← getB w
  match (List.range 16).findSome? fun z => (tcfgFail b (tcfgByte (e.s 0) (e.s 1) z) z).map fun c => (c, z) with
  | some (c, z) => trap c (w64 z)
  | none =>
    modB w fun b => (List.range 16).foldl (fun b z =>
      let x := tcfgByte (e.s 0) (e.s 1) z
      b.modZ (BitVec.ofNat 4 z) fun t =>
        { t with int := bit x 4, rows := BitVec.ofNat 2 x, cols := BitVec.ofNat 2 (x / 4), elems := [], tag := .empty }) b
    return .plain 0

def execTcfg (h : Hdr) (f : FK) (s : State) : Host.Outcome State Fault Refusal :=
  .next (cWord (.tcfg h f) h (wordOf 0xA0 h f.toBody) noLat tcfgRun s)

def accAllocRun (f : FK) (word : BitVec 48) (w : Who) : M CRes := do
  let n := fkImm f 4 4
  let z := (← getB w).tileZ (fkTile f)
  ensure (n ≠ 0 && n ≤ 8 && z.banks = 0) Cause.operandRange (wordInfo word)
  holdReads w
  ensure (n ≤ (← getT w).accFree) Cause.accFull 0
  modT w fun t => { t with accFree := t.accFree - n }
  modB w fun b => b.modZ (fkTile f) fun _ => { banks := n, disc := fkBit f 8 }
  return .plain 0

def execAccAlloc (h : Hdr) (f : FK) (s : State) : Host.Outcome State Fault Refusal :=
  .next (cWord (.accAlloc h f) h (wordOf 0xA1 h f.toBody) noLat (fun w _ => accAllocRun f (wordOf 0xA1 h f.toBody) w) s)

/-- A tile's banks return; a tile without banks is left as it is. -/
def accFreeTile (w : Who) (z : BitVec 4) : M Unit := do
  let n := ((← getB w).tileZ z).banks
  if n ≠ 0 then
    modT w fun t => { t with accFree := t.accFree + n }
    modB w fun b => b.modZ z fun _ => {}

def accFreeRun (f : FK) (w : Who) : M CRes := do
  let zs := if fkBit f 4 then maskTiles 0xFFFF else [fkTile f]
  for z in zs do holdTile w z
  holdReads w
  for z in zs do accFreeTile w z
  return .plain 0

def execAccFree (h : Hdr) (f : FK) (s : State) : Host.Outcome State Fault Refusal :=
  .next (cWord (.accFree h f) h (wordOf 0xA2 h f.toBody) noLat (fun w _ => accFreeRun f w) s)

/-- ACC_SHAPE unless tile `z` is configured (R251). -/
def needShape (w : Who) (z : BitVec 4) : M Unit := do
  ensure ((← getB w).tileZ z).configured Cause.accShape 0

/-- The named tiles are zeroed and take their format as tag, once no word in flight names one (R252, R265). -/
def zeroTiles (w : Who) (m : Nat) : M Unit := do
  for z in maskTiles m do needShape w z
  for z in maskTiles m do holdTile w z
  modB w fun b => (maskTiles m).foldl (fun b z => b.modZ z AccTile.zero) b

def execAccZero (h : Hdr) (f : FK) (s : State) : Host.Outcome State Fault Refusal :=
  .next (cWord (.accZero h f) h (wordOf 0xA3 h f.toBody) noLat (fun w _ => do
    zeroTiles w (fkImm f 0 16)
    return .plain 0) s)

/-! ## Matrix words (R253 to R261) -/

/-- The layout code that the word wants of B (R255). -/
def matLayB (op : MatOp) : Nat :=
  match op with
  | .mma | .kat => 2
  | .sp => 4
  | .bp => 3

/-- The operand pairs of R256. -/
def pairAccepted (op : MatOp) (a b : Tag) (int : Bool) : Bool :=
  let int8 (t : Tag) : Bool := t = .int8 || t = .uint8
  let fp8 (t : Tag) : Bool := t = .fp8e4 || t = .fp8e5
  match op with
  | .bp => b = .int8 && (int8 a || (!int && (fp8 a || a = .bf16)))
  | .mma | .sp | .kat => (int8 a && int8 b) || (!int && ((fp8 a && fp8 b) || (a = .bf16 && b = .bf16) || (a = .fp16 && b = .fp16)))

/-- Bytes of A, of B and of AUX (R254, R257). -/
def matBytesA (r : MatRun) : Nat := 64 * descE r.da * ftK r.ft
def matBytesB (r : MatRun) : Nat :=
  match r.op with
  | .sp => 64 * descE r.db * ftN r.ft * ftK r.ft / 24
  | .bp => 64 * descQ r.db * ftK r.ft / 8
  | .mma | .kat => 64 * descE r.db * ftK r.ft
def matBytesAux (r : MatRun) : Nat := if r.op = .sp then 16 * ftK r.ft / 24 else 128 * (ftK r.ft / 48)

/-- The word reads AUX: always for `mma.sp`, for `mma.bp` into an FP32 tile. -/
def matUsesAux (r : MatRun) (z : AccTile) : Bool := r.op = .sp || (r.op = .bp && !z.int)

/-- [a, a + n) is aligned and lies in a bank group; else BANK_CONFLICT with the bank and group of its address. -/
def needGroup (a n align g : Nat) : M Unit :=
  ensure (a % align = 0 && a / 0x80000 = g && (a + n - 1) / 0x80000 = g) Cause.bankConflict (w64 (a / 64 % 32 + 32 * (a / 0x80000 % 4)))

/-- The checks of a matrix word (R257). -/
def matChecks (w : Who) (word : BitVec 48) (r : MatRun) : M Unit := do
  let f := r.ft
  let q := descQ r.db
  let p := descP r.db
  if (r.op = .sp && f.var.toNat > 2) || descLay r.da ≠ 2 || descLay r.db ≠ matLayB r.op ||
      (r.op = .bp && !(2 ≤ p && p ≤ q && q ≤ 8)) then illegal word
  let z := (← getB w).tileZ f.z
  ensure z.configured Cause.accShape 0
  ensure (pairAccepted r.op (descTag r.da) (descTag r.db) z.int) Cause.formatMismatch (w64 (descFmt r.da + 16 * descFmt r.db))
  if r.op ≠ .mma then ensure (ftK f % 48 = 0) Cause.operandRange (wordInfo word)
  let aux := matUsesAux r z
  needGroup (descBase r.da) (matBytesA r) 64 0
  needGroup (descBase r.db) (matBytesB r) 64 1
  if aux then needGroup (descAux r.db) (matBytesAux r) (if r.op = .sp then 16 else 64) 2
  checkSP w (descBase r.da) (matBytesA r) (some 2) (some (descFmt r.da))
  checkSP w (descBase r.db) (matBytesB r) (some (matLayB r.op)) (some (descFmt r.db))
  if aux then checkSP w (descAux r.db) (matBytesAux r) (some 0) (some (if r.op = .sp then Tag.uint8.code else Tag.bf16.code))

/-- The index lists or scales of a word from its AUX lines. -/
def auxList (r : MatRun) (ls : List (BitVec 512)) : List Nat :=
  let bs := ((ls.flatMap fun x => leBytes x.toNat 64).drop (descAux r.db % 64)).take (matBytesAux r)
  if r.op = .sp then bs.map (·.toNat) else (List.range (bs.length / 2)).map fun i => leNat ((bs.drop (2 * i)).take 2)

/-- One AUX line is read in the C-cycle while lines are left, and the word holds (R257). -/
def preReadAux (w : Who) (r : MatRun) : M (List Nat × Bool) := do
  let a := descAux r.db
  let got := ((← getB w).c.prep).getD []
  let lines := linesOf a (matBytesAux r)
  if got.length < lines.length then
    watermarkWait w .c false (64 * (a / 64 + got.length)) 64
    let (bs, p) ← spRead w (64 * (a / 64 + got.length)) 64
    modB w fun b => b.modC fun c => { c with prep := some (got ++ [(BitVec.ofNat 512 (leNat bs), p)]) }
    waitFor .drain
  else
    return (auxList r (got.map (·.1)), got.any (·.2))

/-- The index list of a group is strictly ascending and below 24 (R218). -/
def goodIndexes : List Nat → Bool
  | [] => true
  | [x] => x < 24
  | x :: y :: r => x < y && goodIndexes (y :: r)

/-- The first group whose list breaks the rule. -/
def badGroup (r : MatRun) : Option Nat :=
  (List.range r.chunks).find? fun m => !goodIndexes ((List.range (ftN r.ft)).map (r.index m))

/-- The word has the engine, or holds behind its own stream, the C-cycles that a finished chunk left ahead among it, or waits for
the other context's; the cycles for which it has waited before count on (R259, R261, R262). -/
def takeEngine (w : Who) : M Unit := do
  let b ← getB w
  if (streamOf b).isSome || b.c.mskip > 0 then
    let t := (← get).now
    modB w fun b => b.modC fun c => { c with nextSince := some (c.nextSince.getD t) }
    waitFor .drain
  match (← getT w).engine with
  | none => pure ()
  | some c =>
    if c ≠ Who.ctx w then
      let t := (← get).now
      modB w fun b => b.modC fun c => { c with engSince := some (c.engSince.getD (c.nextSince.getD t)) }
      waitFor .other

/-- Units for a word with K of 256 or more (R260). -/
def matGrant (w : Who) (r : MatRun) : M (Option Grant) := do
  if ftK r.ft < 256 then return none
  match (← getB w).c.grant with
  | some g => return some g
  | none =>
    let g ← askGrant w 0 1
    modB w fun b => b.modC fun c => { c with grant := some g }
    return some g

/-- A matrix word at the head of the C queue (R257). -/
def matRun (word : BitVec 48) (w : Who) (e : Entry) : M CRes := do
  let r : MatRun := { word, da := e.s 0, db := e.s 1 }
  if (← getB w).c.prep.isNone then
    matChecks w word r
    modB w fun b => b.modC fun c => { c with prep := some [] }
  let (aux, p) ← if matUsesAux r ((← getB w).tileZ r.ft.z) then preReadAux w r else pure ([], false)
  let r := { r with aux, poisoned := p }
  match if r.op = .sp then badGroup r else none with
  | some m => trap Cause.sparseIndex (w64 m)
  | none =>
    let g ← matGrant w r
    takeEngine w
    for a in r.aNow ++ r.bNow do watermarkWait w .c false a 64
    return .mat { r with grant := g }

def execMma (h : Hdr) (f : FT) (s : State) : Host.Outcome State Fault Refusal :=
  .next (cWord (.mma h f) h (wordOf 0xA4 h f.toBody) noLat (matRun (wordOf 0xA4 h f.toBody)) s)

def execMmaSp (h : Hdr) (f : FT) (s : State) : Host.Outcome State Fault Refusal :=
  .next (cWord (.mmaSp h f) h (wordOf 0xA5 h f.toBody) noLat (matRun (wordOf 0xA5 h f.toBody)) s)

def execMmaBp (h : Hdr) (f : FT) (s : State) : Host.Outcome State Fault Refusal :=
  .next (cWord (.mmaBp h f) h (wordOf 0xA6 h f.toBody) noLat (matRun (wordOf 0xA6 h f.toBody)) s)

def execMprio (h : Hdr) (f : FK) (s : State) : Host.Outcome State Fault Refusal :=
  .next (cWord (.mprio h f) h (wordOf 0xAD h f.toBody) noLat (fun w _ => do
    modB w fun b => b.modC fun c => { c with mprio := BitVec.ofNat 3 f.imm.toNat }
    return .plain 0) s)

/-! ## Reading and writing tiles (R263, R264, R266) -/

/-- The row of `vld.acc` and `vst.acc`, of a configured tile. -/
def accRow (w : Who) (word : BitVec 48) (z : BitVec 4) (base : Word) (k : BitVec 5) : M Nat := do
  let row := (base.toNat + k.toNat) % 2 ^ 64
  needShape w z
  ensure (row < ((← getB w).tileZ z).nrows) Cause.operandRange (wordInfo word)
  return row

def vldAccRun (f : FV) (word : BitVec 48) (w : Who) (e : Entry) : M CRes := do
  let row ← accRow w word f.var (e.s 0) f.sb
  holdTile w f.var
  let n := ((← getB w).tileZ f.var).ncols
  if ((← getB w).tileZ f.var).tag = .empty then trap Cause.formatMismatch 0
  modS fun s => s.meetAcc w f.var (4 * row * n) (4 * n)
  let z := (← getB w).tileZ f.var
  let xs := (List.range z.ncols).map fun j => (z.get row j).toNat
  return beltOf f (maskedVec (← maskOf w f) z.tag xs) 5

def execVldAcc (h : Hdr) (f : FV) (s : State) : Host.Outcome State Fault Refusal :=
  .next (cWord (.vldAcc h f) h (wordOf 0xA7 h f.toBody) (lat 5) (vldAccRun f (wordOf 0xA7 h f.toBody)) s)

/-- An element of a tile after `vst.acc`: the datum, or with ADD the sum. -/
def accStore (int add : Bool) (c v : Nat) : Flagged Nat :=
  if !add then (v, 0)
  else if int then reduceAcc (sext c 32 + sext v 32)
  else
    let (x, f) := Num.add (fmtFP32.value c) (fmtFP32.value v)
    let (p, g) := roundFP32 x
    (p, f ||| g)
where
  /-- clamp into INT32 -/
  reduceAcc (x : Int) : Flagged Nat :=
    if x < -2 ^ 31 then (0x80000000, fIS) else if x > 2 ^ 31 - 1 then (0x7FFFFFFF, fIS) else (toPat 32 x, 0)

def vstAccRun (f : FV) (word : BitVec 48) (w : Who) (e : Entry) : M CRes := do
  let row ← accRow w word f.var (e.s 0) f.sc
  let v ← vecOf w f.sa
  if v.tag = .poison then
    holdTile w f.var
    modB w fun b => b.modZ f.var fun z => { z with tag := .poison }
    return .plain 0
  else
    let fmt := ((← getB w).tileZ f.var).fmt
    if v.tag ≠ fmt then trap Cause.formatMismatch (tagInfo v.tag fmt)
    holdTile w f.var
    let m ← maskOf w f
    let n := 4 * ((← getB w).tileZ f.var).ncols
    modS fun s => (if f.wn = 1 then s.meetAcc w f.var (row * n) n else s).overAcc w f.var (row * n) n
    let z := (← getB w).tileZ f.var
    let (z, fl) := (List.range z.ncols).foldl (fun (acc : AccTile × Flags) j =>
      if isActive m j then
        let (x, g) := accStore z.int (f.wn = 1) (acc.1.get row j).toNat (elem v.bits 32 j)
        (acc.1.set row j (BitVec.ofNat 32 x), acc.2 ||| g)
      else acc) (z, 0)
    modB w fun b => b.modZ f.var fun _ => z.touched
    return .plain fl

def execVstAcc (h : Hdr) (f : FV) (s : State) : Host.Outcome State Fault Refusal :=
  .next (cWord (.vstAcc h f) h (wordOf 0xA8 h f.toBody) noLat (vstAccRun f (wordOf 0xA8 h f.toBody)) s)

def accOutRun (f : FK) (word : BitVec 48) (w : Who) (e : Entry) : M CRes := do
  let t := fkImm f 4 4
  if t = 0 || t ≥ 11 || fkImm f 8 3 ≥ 5 then illegal word
  needShape w (fkTile f)
  holdTile w (fkTile f)
  let z := (← getB w).tileZ (fkTile f)
  if z.tag = .empty then trap Cause.formatMismatch 0
  let n := z.ncols * ((Tag.ofCode t).getD .empty).width / 8
  let a := (e.s 0).toNat
  let b := (e.s 1).toNat
  ensure (a % 64 = 0) Cause.misalignedAddr (w64 a)
  ensure (b % 64 = 0) Cause.misalignedAddr (w64 b)
  ensure (n ≤ b) Cause.operandRange (wordInfo word)
  for i in List.range z.nrows do checkSP w (a + i * b) n (some 0) (some t)
  return .out

def execAccOut (h : Hdr) (f : FK) (s : State) : Host.Outcome State Fault Refusal :=
  .next (cWord (.accOut h f) h (wordOf 0xAC h f.toBody) noLat (accOutRun f (wordOf 0xAC h f.toBody)) s)

/-! ## Known-answer words (R267, R268) -/

def execKat (h : Hdr) (f : FK) (s : State) : Host.Outcome State Fault Refusal :=
  .next (cWord (.kat h f) h (wordOf 0xAA h f.toBody) noLat (fun w _ => do
    takeEngine w
    return .mat { word := wordOf 0xAA h f.toBody }) s)

def katcmpRun (k : BitVec 32) (word : BitVec 48) (w : Who) : M CRes := do
  let c := (← getB w).c
  if c.mats.any fun r => r.op = .kat then waitFor .drain
  match c.katCrc with
  | none => trap Cause.operandRange (wordInfo word)
  | some x =>
    if x ≠ k then throw (.mcheck Cause.silentError (w64 x.toNat) (w64 c.katSeed.toNat) 6)
    modT w fun t => { t with health := { t.health with kat := true } }
    return .plain 0

def execKatcmp (h : Hdr) (x : BitVec 32) (s : State) : Host.Outcome State Fault Refusal :=
  .next (cWord (.katcmp h x) h (wordOf 0xAB h x) noLat (fun w _ => katcmpRun x (wordOf 0xAB h x) w) s)

/-! ## The command window (R269 to R271) -/

def tmarkRun (f : FK) (w : Who) : M CRes := do
  let m := fkImm f 0 16
  if m = 0 then
    modB w fun b => b.modC fun c => { c with window := none }
    return .plain 0
  else
    for z in maskTiles m do needShape w z
    if !(← getB w).c.latches.isEmpty then waitFor .drain
    holdMats w
    zeroTiles w m
    modB w fun b => b.modC fun c =>
      { c with window := some { mask := BitVec.ofNat 16 m, belt := b.r.belt, n := b.r.n, m := b.r.m, start := c.cc } }
    return .plain 0

def execTmark (h : Hdr) (f : FK) (s : State) : Host.Outcome State Fault Refusal :=
  .next (cWord (.tmark h f) h (wordOf 0xA9 h f.toBody) noLat (fun w _ => tmarkRun f w) s)

/-- ACC_UNCORRECTABLE_ERROR: an error in an operand line marks the word that streams into the tile, and its fold answers for it;
one in the tile or in a fold into it is replayed, or answered as R271 says. -/
def execAccUncorrectableError (w : Who) (z : BitVec 4) (operand : Bool) (s : State) : Host.Outcome State Fault Refusal :=
  .next (
    let b := s.bank w
    if (s.ctx w).status ≠ .running then s
    else if operand then
      match streamOf b with
      | some r =>
        if r.op ≠ .kat && r.ft.z = z then
          ((s.tileLog (Who.tile w) 0 2 (w64 ((streamLines b).headD 0)) (ctxid16 w)).modTile (Who.tile w) fun t =>
            { t with health := { t.health with arr := false } }).modBank w fun b => b.modC fun c => { c with mats := c.mats.map fun m => if m.pos = r.pos then { m with poisoned := true } else m }
        else s
      | none => s
    else if !(b.tileZ z).configured then s
    else (s.tileLog (Who.tile w) 3 2 (w64 (accBase s w z)) (ctxid16 w)).accError w z)

end Sys2Proof.Machine
end

