-- ==== Sys2Proof/Machine/Pim.lean ====
section
/-! DEFINITION. Bank engines: `pim.cfg`, `pim.mv`, and the rows (R91 to R101, R117). -/
namespace Sys2Proof.Machine

/-! ## Weight rows (R91, R96, R97) -/

/-- K keeps the limit of its format. -/
def pimKOk (wf q k : Nat) : Bool :=
  if wf = 3 then k % 48 = 0 && 48 ≤ k && k ≤ 4080 && q * planeBytes k + k / 24 ≤ 4096 else 1 ≤ k && k ≤ 4096

/-- The value of weight `j` of a row. -/
def PimCfg.weight (c : PimCfg) (row : Array Nat) (j : Nat) : Num :=
  match c.wf with
  | 0 => fmtFP8E4.value (row.getD j 0)
  | 1 => fmtFP8E5.value (row.getD j 0)
  | 2 => Num.ofInt (sext (row.getD j 0) 8)
  | _ => Num.ofInt (planeValue c.p ((List.range c.p).foldl
      (fun x l => 2 * x + b2n (bit (row.getD (l * planeBytes c.k + j / 8) 0) (j % 8))) 0))

/-- The scale of the run of 48 elements that starts a chunk; 1 where the format has none. -/
def PimCfg.scale (c : PimCfg) (row : Array Nat) (k0 : Nat) : Num :=
  if c.wf = 3 then
    let o := c.q * planeBytes c.k + 2 * (k0 / 48)
    fmtBF16.value (row.getD o 0 + 256 * row.getD (o + 1) 0)
  else Num.ofInt 1

/-- Elements of a chunk. -/
def PimCfg.step (c : PimCfg) : Nat := if c.wf = 3 then 48 else 32

/-- The accumulator after one chunk, rounded once. -/
def PimCfg.chunk (c : PimCfg) (row : Array Nat) (acc : Flagged Nat) (k0 : Nat) : Flagged Nat :=
  let ts := (List.range (min c.step (c.k - k0))).map fun i => Num.mul (fmtBF16.value ((c.elem (k0 + i)).toNat)) (c.weight row (k0 + i))
  let (s, f1) := sumNum (ts.map (·.1))
  let (s, f2) := if c.wf = 3 then Num.mul s (c.scale row k0) else (s, 0)
  let (t, f3) := Num.add (fmtFP32.value acc.1) s
  let (p, f4) := roundFP32 t
  (p, ts.foldl (fun a x => a ||| x.2) acc.2 ||| f1 ||| f2 ||| f3 ||| f4)

/-- The result of a row, from +0. -/
def PimCfg.row (c : PimCfg) (row : Array Nat) : Flagged Nat :=
  ((List.range ((c.k + c.step - 1) / c.step)).map (· * c.step)).foldl (c.chunk row) (0, 0)

/-- Queued write-throughs of a line reach memory before a bank engine reads it: at least those up to the latest host write numbered up to
`seen` (R100), and of the others as many, and of one atom as many more, as is left open (R99, log 123). -/
def State.settleLine (s : State) (l seen : Nat) : State :=
  let q := s.hub.wtq.filter (·.line == l)
  if q.isEmpty then s
  else
    let must := ((List.range q.length).filter fun i => (q[i]?.any fun x => x.host ≠ 0 && x.host ≤ seen)).foldl (fun a i => max a (i + 1)) 0
    let (v, s) := s.draw
    let whole := max must (v.toNat % (q.length + 1))
    let more := v.toNat / 2 ^ 32 % (q.length - whole + 1)
    (s.writeThroughN l whole).landAtom l ⟨v.toNat / 2 ^ 31 % 2, by omega⟩ more

/-- The lines of a part of a row as LP6 holds them at this instant (R98, R99). -/
def State.pimRead (s : State) (lines : List Nat) (seen : Nat) : List Byte × Bool × State :=
  lines.foldl (fun (acc : List Byte × Bool × State) l =>
    if isLocal (l * 64) then
      let (d, p, s) := lp6Read (acc.2.2.settleLine l seen) l 0xFFFF 1
      (acc.1 ++ leBytes d.toNat 64, acc.2.1 || p, s)
    else (acc.1 ++ List.replicate 64 0, true, acc.2.2.hubLog 13 (w64 (l * 64)) 0xFFFF)) ([], false, s)

/-- A row at physical address `base`: result with flags, and whether a weight line was in error. -/
def State.pimRow (s : State) (c : PimCfg) (base seen : Nat) : Flagged Nat × Bool × State :=
  let (m, p, s) := c.parts.foldl (fun (acc : Mem × Bool × State) x =>
    let (bs, p, s) := acc.2.2.pimRead (linesOf (base + x.1) x.2) seen
    (memWrite acc.1 (x.1 / 64 * 64) bs, acc.2.1 || p, s)) ([], false, s)
  (c.row ((memRead m 0 4096).map (·.toNat)).toArray, p, s)

/-! ## pim.cfg (R92, R93) -/

def pimCfgBody (f : FK) (word : BitVec 48) (w : Who) (e : Entry) : M Bool := do
  let k := bits (e.s 1).toNat 0 16
  let wf := fkImm f 0 3
  let p := fkImm f 3 4
  let q := fkImm f 7 4
  let a := (e.s 0).toNat
  if wf > 3 || (wf = 3 && (p < 2 || p > 8 || q < p || q > 8)) then illegal word
  ensure (pimKOk wf q k) Cause.operandRange (wordInfo word)
  ensure (a % 64 = 0) Cause.misalignedAddr (w64 a)
  checkSP w a (2 * k) (some 0) (some 3)
  watermarkWait w .l false a (2 * k)
  let bs ← spReadChecked w a (2 * k)
  let vec := (List.range k).map fun i => BitVec.ofNat 16 (leNat ((bs.drop (2 * i)).take 2))
  modB w fun b => { b with pim := { b.pim.setVec 0 vec with valid := true, k, wf, p, q } }
  return true

def execPimCfg (h : Hdr) (f : FK) (s : State) : Host.Outcome State Fault Refusal :=
  .next (lsWord .l (.pimCfg h f) h (wordOf 0x4A h f.toBody) (fun w e => precise w (pimCfgBody f (wordOf 0x4A h f.toBody) w e)) s)

/-! ## pim.mv (R94 to R96, R117) -/

/-- DST: results go to memory. ACC: they are added. -/
def mvMem (f : FK) : Bool := fkBit f 8
def mvAcc (f : FK) : Bool := fkBit f 9
def mvRows (e : Entry) : Nat := bits (e.s 2).toNat 0 32

/-- A handle of the word is valid and local. -/
def pimHandle (n : BitVec 4) (h : Handle) : M Unit := do
  if !h.valid then trap Cause.staleHandle (w64 n.toNat)
  if h.kind ≠ 0 then trap Cause.pimKind (w64 n.toNat)

/-- The checks, in their order (R95). A handle without the permission that its access needs raises PERMISSION with the check of its range
(DESIGN CHOICE, log 131). -/
def mvChecks (f : FK) (word : BitVec 48) (w : Who) (e : Entry) : M Unit := do
  let n := mvRows e
  let a := (e.s 0).toNat
  let b := (e.s 1).toNat
  if mvMem f && mvAcc f then illegal word
  ensure ((← getB w).pim.valid && 1 ≤ n && n ≤ 16384) Cause.operandRange (wordInfo word)
  let (hw, x) := e.handle 0
  pimHandle hw x
  ensure (a % 4096 = 0) Cause.misalignedAddr (w64 a)
  let _ ← translateRange { rd := true } hw x a (4096 * n)
  if mvMem f then
    let (hd, y) := e.handle 1
    pimHandle hd y
    ensure (b % 64 = 0) Cause.misalignedAddr (w64 b)
    let _ ← translateRange { w := true } hd y b (4 * n)
  else
    ensure (b % 64 = 0) Cause.misalignedAddr (w64 b)
    checkSP w b (4 * n) none none

/-- The distinct channels of the rows, each of which costs one unit. -/
def mvUnits (base n : Nat) : Nat := (((List.range n).map fun i => channelOf (base + 4096 * i)).eraseDups).length

/-- The pin of the weight page rises, once for the word. -/
def mvPin (w : Who) (e : Entry) : M Unit := do
  if !((← getB w).pimRuns.any fun r => r.pos = e.pos) then
    let (hw, x) := e.handle 0
    if x.size = 0 then
      remapWait w (ptePa x.id) 8
      snoopHost (ptePa x.id) 8
      let (r, s) := (← get).raisePin x.id
      match r with
      | .full => trap Cause.pinLimit (w64 x.id.toNat)
      | .moving => trap Cause.staleHandle (w64 hw.toNat)
      | .raised => set s
    modB w fun b =>
      { b with pimRuns := b.pimRuns ++ [{ cfg := b.pim, acc := false, mem := false, hw := x, hd := {}, base := 0, dst := 0, rows := 0, mpc := e.mpc, pos := e.pos }] }

def pimMvBody (f : FK) (word : BitVec 48) (w : Who) (e : Entry) : M Bool := do
  mvChecks f word w e
  let n := mvRows e
  if n ≤ e.mpc then return true
  mvPin w e
  let x := (e.handle 0).2
  let g ← askGrant w 1 (mvUnits (x.base.toNat + (e.s 0).toNat) n)
  modB w fun b =>
    { b with pimRuns := b.pimRuns.map fun r =>
        if r.pos = e.pos then
          { r with cfg := b.pim, acc := mvAcc f, mem := mvMem f, hd := (e.handle 1).2, base := e.s 0, dst := e.s 1, rows := n, seen := b.hostSeen, ser := b.ser, grant := some g }
        else r }
  return false

/-- A word that traps at its checks gives back the pin that it took while it waited. -/
def pimMvRun (f : FK) (word : BitVec 48) (w : Who) (e : Entry) : M Bool := do
  let s ← get
  match (pimMvBody f word w e).run.run s with
  | (.ok a, s') => set s'; return a
  | (.error (.wait k), s') => set s'; throw (.wait k)
  | (.error x, s') => set ((rollback w s s').dropPimWait w); throw x

def execPimMv (h : Hdr) (f : FK) (s : State) : Host.Outcome State Fault Refusal :=
  .next (lsWord .l (.pimMv h f) h (wordOf 0x49 h f.toBody) (pimMvRun f (wordOf 0x49 h f.toBody)) s)

/-! ## Rows (R96 to R101) -/

/-- The result of a row goes to scratchpad, added where the form says so; a slot with P keeps it (R98). -/
def pimToSpad (w : Who) (acc : Bool) (a : Nat) (x : Flagged Nat) (poison : Bool) : M Flags := do
  watermarkWait w .pim false a 4
  let (v, fl, p) ← if acc then do
      let (bs, p) ← spRead w a 4
      let (t, f) := Num.add (fmtFP32.value (leNat bs)) (fmtFP32.value x.1)
      let (v, g) := roundFP32 t
      pure (v, x.2 ||| f ||| g, p)
    else pure (x.1, x.2, false)
  spWrite w a (leBytes v 4) (poison || p)
  return fl

/-- The next row is computed, written and retired; after the last the word is done and gives back its pin and units. -/
def pimRowStep (w : Who) (r : PimRun) : M Unit := do
  for x in r.memAccesses do watermarkWait w .pim true x.1 x.2
  if !r.mem then engineWait w false .l r.ser [(r.dst.toNat + 4 * r.mpc, 4)]
  let (x, p, s) := (← get).pimRow r.cfg (r.hw.base.toNat + r.base.toNat + 4096 * r.mpc) r.seen
  set s
  let fl ← if r.mem then do
      let pa := r.hd.base.toNat + r.dst.toNat + 4 * r.mpc
      remapWait w pa 4
      snoopHost pa 4
      outbound w
      modS fun s => (s.countLines w r.hd pa 4).pathWrite w pa (leBytes x.1 4) p 0xFFFF r.hd.prv
      pure x.2
    else pimToSpad w r.acc (r.dst.toNat + 4 * r.mpc) x p
  modB w fun b => b.clearWm .pim
  let r := { r with mpc := r.mpc + 1, flags := r.flags ||| fl }
  if r.mpc < r.rows then modB w fun b => { b with pimRuns := b.pimRuns.map fun y => if y.pos = r.pos then r else y }
  else
    modS fun s => (((s.unpinPim r).returnGrant w r.grant).modBank w fun b =>
      { b with pimRuns := b.pimRuns.filter (·.pos != r.pos) }).flyDone w .l r.pos r.flags

def execPimRowComplete (w : Who) (s : State) : Host.Outcome State Fault Refusal :=
  .next (match (s.bank w).pimRuns.find? (·.grant.isSome) with
    | some r => runM (whole (pimRowStep w r)) s
    | none => s)

end Sys2Proof.Machine
end

