-- ==== Sys2Proof/Machine/HubMem.lean ====
section
/-! DEFINITION. Events of the memory system: home slices, the host and the partner, page moves, shoot-downs, walks and page-ins
(R76, R83 to R88, R109, R118 to R123, R126, R127, R131, R136, R150). -/
namespace Sys2Proof.Machine

/-! ## Home slices -/

/-- The home slice can serve the line now (R405). -/
def homeServes (s : State) (line : Nat) : Bool := reaches s (line * 64) && !homeHeld s line

/-- The oldest posted store of `w` is performed, if it may be. -/
def State.performPosted (s : State) (w : Who) : State :=
  match (s.bank w).posted with
  | [] => s
  | p :: _ => runM (drainPosted w [p]) s

/-- POSTED_STORE_PERFORM: a line that is not held is filled first (R126, R136). -/
def execPostedStorePerform (w : Who) (s : State) : Host.Outcome State Fault Refusal :=
  .next (match (s.bank w).posted with
    | [] => s
    | p :: ps =>
      let line := p.pa.toNat / 64
      if homeHeld s line then s
      else if reaches s p.pa.toNat && (kvGet s.hub.home line).isNone then
        s.modBank w fun b => { b with posted := { p with waitFill := true } :: ps }
      else s.performPosted w)

/-- Stores that wait for the line, the oldest of each context, are performed. -/
def State.performWaiting (s : State) (line : Nat) (all : Bool) : State :=
  (List.finRange 144).foldl (fun s w =>
    match (s.bank w).posted with
    | p :: _ => if p.pa.toNat / 64 = line && (all || p.waitFill) then s.performPosted w else s
    | [] => s) s

/-- The context whose oldest posted store waits for the line: the requester that an error log entry of the fill names (R81). -/
def fillRequester (s : State) (line : Nat) : BitVec 16 :=
  match (List.finRange 144).find? fun w => ((s.bank w).posted.head?.map fun p => p.pa.toNat / 64 = line && p.waitFill).getD false with
  | some w => ctxid16 w
  | none => 0xFFFF

def execHomeSliceFill (line : BitVec 46) (s : State) : Host.Outcome State Fault Refusal :=
  .next (if homeServes s line.toNat then (s.fill line.toNat (fillRequester s line.toNat)).performWaiting line.toNat false else s)

def execHomeWriteThrough (line : BitVec 46) (s : State) : Host.Outcome State Fault Refusal := .next (s.writeThrough line.toNat)

/-- The line's channel is scrubbed: its period is not 0 (R82). -/
def scrubs (s : State) (line : Nat) : Bool :=
  isLocal (line * 64) && if h : channelOf (line * 64) < 48 then (s.hub.lp6.get ⟨_, h⟩).scrub != 0 else false

/-- The patrol scrub (R83): a line with a correctable error is written back corrected. -/
def execPatrolScrubRead (line : BitVec 46) (s : State) : Host.Outcome State Fault Refusal :=
  .next (if !scrubs s line.toNat then s
    else
      match kvGet s.hub.flips line.toNat with
      | none => s
      | some e =>
        let (d, _, s') := lp6Read s line.toNat 0xFFFF 2
        match lp6Decode e with
        | .ce .. => s'.lp6Write line.toNat d false
        | _ => s')

/-- 64 tile cycles have passed at a tile (R131). -/
def execLtTick (t : Tid) (s : State) : Host.Outcome State Fault Refusal :=
  .next (if (s.tile t).ticked < s.now / 64 then s.tickLt t else s)

/-! ## The host (R84, R85, R127) -/

def State.send (s : State) (x : HostOut) : State := s.modHub fun h => { h with out := h.out ++ [x] }

/-- A snoop stops new leases on a host line that its slice holds, or has dropped while leases on it may run. -/
def execHostSnoop (line : BitVec 46) (s : State) : Host.Outcome State Fault Refusal :=
  .next (if spaceOf (line.toNat * 64) ≠ .host then s
    else
      match kvGet s.hub.home line.toNat, kvGet s.hub.times line.toNat with
      | some x, _ => s.modHub fun h => { h with home := kvPut h.home line.toNat { x with snoop := true } }
      | none, some x => s.modHub fun h => { h with times := kvPut h.times line.toNat { x with snoop := true } }
      | none, none => s)

/-- The slice answers once every lease has expired: the line goes to the host, whose memory then holds `data`. -/
def execHostSnoopResponse (line : BitVec 46) (data : BitVec 512) (s : State) : Host.Outcome State Fault Refusal :=
  .next (
    let answer := ((kvGet s.hub.home line.toNat).map (·.data)).getD
      (((queuedLine s.hub.wtq line.toNat).map (·.data)).getD (rawLine s.hub.mem line.toNat))
    let s' := s.dropLine line.toNat
    match kvGet s'.hub.times line.toNat with
    | none => s
    | some x =>
      if !x.snoop || s.now < x.leaseEnd then s
      else
        (s'.modHub fun h =>
          { h with
            mem := putRaw h.mem line.toNat data
            times := kvPut h.times line.toNat { x with snoop := false }
            wtq := h.wtq.filter (·.line != line.toNat) }).send (.snoopAnswer line answer))

/-- A write that enters at the hub (host or partner): at requester time 0, after the host's answer where the host may cache it. -/
def State.outsideWrite (s : State) (line : Nat) (mask : Nat) (data : BitVec 512) : Nat × State :=
  let (w, s) := s.homeWrite line mask data 0 none 0xFFFF
  (w, s.checkEvents line)

/-- The write just performed on a line is the host's next one (R100). -/
def State.markHost (s : State) (line : Nat) : State :=
  s.modHub fun h =>
    let n := h.hostSer + 1
    { h with
      hostSer := n
      home := kvPut h.home line { s.homeLine line with host := n }
      wtq := h.wtq.dropLast ++ (h.wtq.getLast?.map fun x => { x with host := n }).toList }

/-- A CXL.mem write to device LP6 (R127). -/
def execHostCxlMemWrite (line : BitVec 46) (mask : BitVec 64) (data : BitVec 512) (s : State) : Host.Outcome State Fault Refusal :=
  .next (if !isLocal (line.toNat * 64) || homeHeld s line.toNat then s
    else
      let (w, s) := s.outsideWrite line.toNat mask.toNat data
      ((s.markHost line.toNat).modHub fun h => { h with hostWts := max h.hostWts w }).send (.memWritten line))

/-- A CXL.mem read of device LP6; the host may cache the line from then on (R85, R127). -/
def execHostCxlMemRead (line : BitVec 46) (s : State) : Host.Outcome State Fault Refusal :=
  .next (if !isLocal (line.toNat * 64) || homeHeld s line.toNat then s
    else
      let l := line.toNat
      let known := s.hub.filter.contains l
      match if known || s.hub.filter.length < 1048576 then none else s.hub.filter.head? with
      | some old => (s.snoopLines [old]).2
      | none =>
        let (x, _, s) := (s.fillFor l 0xFFFF 3).homeRead l 0 0xFFFF
        (s.modHub fun h => { h with filter := if known then h.filter else h.filter ++ [l] }).send (.readData line x.data x.poison))

/-- The filter forgets a line; the stores that waited for the host's answer are performed, and the pins lowered. -/
def State.filterDrop (s : State) (line : Nat) : State :=
  let s := s.modHub fun h => { h with filter := h.filter.filter (· != line), backInv := h.backInv.filter (·.line != line) }
  (s.lowerHeld.performWaiting line true).resettle

def execBackInvalidationResponse (line : BitVec 46) (s : State) : Host.Outcome State Fault Refusal :=
  .next (if s.hub.backInv.any (·.line == line.toNat) then s.filterDrop line.toNat else s)

def execBackInvalidationTimeout (line : BitVec 46) (s : State) : Host.Outcome State Fault Refusal :=
  .next (if s.hub.backInv.any fun b => b.line == line.toNat && b.since + 2 ^ 21 ≤ s.sched16 then
      ((s.filterDrop line.toNat).hubLog 16 (w64 (line.toNat * 64)) 0xFFFF).send (.uncorrectable line)
    else s)

/-! ## The partner (R142, R150) -/

/-- An access of the partner to an LP6 line at its home slice. -/
def execPartnerAccessArrival (line : BitVec 46) (mask : BitVec 64) (data : BitVec 512) (s : State) : Host.Outcome State Fault Refusal :=
  .next (if !s.hub.pair || !isLocal (line.toNat * 64) || homeHeld s line.toNat then s
    else if mask = 0 then
      let (x, _, s) := s.homeRead line.toNat 0 0xFFFF
      s.send (.pairData line x.data x.poison)
    else
      let (ok, s) := s.snoopLines [line.toNat]
      if !ok then s
      else
        let (w, s) := s.outsideWrite line.toNat mask.toNat data
        s.modHub fun h => { h with pairWts := max h.pairWts w })

def execPairAcknowledgement (w : Who) (s : State) : Host.Outcome State Fault Refusal :=
  .next (s.modBank w fun b => { b with pairWait := b.pairWait.tail })

/-! ## Migration (R87, R119) -/

/-- A counting window ends: every 2^20 scheduler cycles. -/
def execMigrationCountWindow (s : State) : Host.Outcome State Fault Refusal :=
  .next (if s.hub.migWindow < s.sched16 / 2 ^ 20 then s.modHub fun h => { h with migCnt := [], migNone := [], migWindow := s.sched16 / 2 ^ 20 }
    else s)

/-- The frames that a move copies its page into. -/
def moveTargets (m : Move) : List Nat :=
  (if m.repl then [m.newBase.toNat, m.newBase.toNat + 0x3000000000] else [m.newBase.toNat]).filter (· / 64 != m.oldBase.toNat / 64)

/-- A whole line is read by an engine of the hub: with POISON, and logged, where it reaches no memory (R74). -/
def State.hubLine (s : State) (line : Nat) : BitVec 512 × Bool × State :=
  if reaches s (line * 64) then
    let (x, _, s) := s.homeRead line 0 0xFFFF
    (x.data, x.poison, s)
  else (0, true, s.hubLog 13 (w64 (line * 64)) 0xFFFF)

/-- A whole line is written by an engine of the hub, or lost where it reaches no memory (R74). -/
def State.putHubLine (s : State) (line : Nat) (d : BitVec 512) (poison : Bool) : State :=
  if reaches s (line * 64) then (s.homeWrite line (2 ^ 64 - 1) d 0 none 0xFFFF poison).2.checkEvents line
  else s.hubLog 13 (w64 (line * 64)) 0xFFFF

/-- One line of a page goes to its new frame, or to both frames of a replica pair. -/
def State.copyLine (s : State) (m : Move) (i : Nat) : State :=
  let (d, p, s) := s.hubLine (m.oldBase.toNat / 64 + i)
  (moveTargets m).foldl (fun s b => s.putHubLine (b / 64 + i) d p) s

/-- The lines that a move writes when it copies the given lines of its page, with the line of its entry (R85). -/
def moveLines (m : Move) (lines : List Nat) : List Nat :=
  ptePa m.id / 64 :: if m.pte.isSome then [] else (moveTargets m).flatMap fun b => lines.map (b / 64 + ·)

/-- Every tile that answers shoot-downs. -/
def liveTiles (s : State) : List Tid := (List.finRange 72).filter fun t => !(s.hub.fenced.contains t || s.hub.retired.contains t)

/-- The copy is done, and the move commits unless a pin has intervened; the shoot-down starts (R119, R120). -/
def execMigrationCommit (id : BitVec 49) (s : State) : Host.Outcome State Fault Refusal :=
  .next (match s.hub.moves.find? fun m => m.id == id && !m.committed with
    | none => s
    | some m =>
      let (free, s) := s.snoopLines (moveLines m (List.range 1024))
      if !free || pagesHeld s then s else
      let s := s.modHub fun h => { h with moves := h.moves.map fun x => if x.id == id then { x with copied := true } else x }
      let s := if m.pte.isNone then (List.range 1024).foldl (fun s i => s.copyLine m i) s else s
      let (e, s) := s.pteNow id
      if pteMST e ≠ 1 || ptePin e ≠ 0 then (s.setPte id (if pteMST e = 1 then pteSet e 10 2 0 else e)).modHub fun h => h.dropMove id
      else
        let live := liveTiles s
        (s.setPte id (pteSet e 10 2 2)).modHub fun h =>
          { h with
            moves := h.moves.map fun x => if x.id == id then { x with committed := true } else x
            shots := h.shots ++ [(id, live)] })

/-- A handle of the page is revoked: its valid bit falls, its va stays (R116, R120). -/
def Handle.revoke (h : Handle) (id : BitVec 49) : Handle := if h.valid && h.id == id then { h with valid := false } else h

/-- Captured copies of an entry that has not used them. -/
def Entry.revoke (e : Entry) (id : BitVec 49) : Entry := { e with cp := e.cp.map fun c => (c.1, c.2.revoke id) }

/-- Every handle of the page in a bank is revoked. -/
def Bank.revoke (b : Bank) (id : BitVec 49) : Bank :=
  { b with
    r := { b.r with h := b.r.h.map (·.revoke id) }
    h15save := b.h15save.revoke id
    q := { b.q with l := b.q.l.map (·.revoke id), c := b.q.c.map (·.revoke id), s := b.q.s.map (·.revoke id) }
    tf := b.tf.map fun t => { t with copies := t.copies.map fun c => (c.1, c.2.1, c.2.2.1, c.2.2.2.revoke id) }
    f := { b.f with walked := false } }

/-- The shoot-down reaches a tile's translation unit (R110, R120). -/
def execShootDown (t : Tid) (id : BitVec 49) (s : State) : Host.Outcome State Fault Refusal :=
  .next (if !(s.hub.shots.any fun x => x.1 == id && x.2.contains t) || (s.tile t).shots.contains id then s
    else
      let s := s.modTile t fun x =>
        { x with
          tlb1 := x.tlb1.filter (·.id != id)
          tlb2 := x.tlb2.filter (·.id != id)
          chans := x.chans.map fun c => { c with caps := c.caps.map (·.revoke id) }
          shots := x.shots ++ [id] }
      let f (c : Ctx) : Ctx := { c with b := c.b.revoke id, shadow := c.shadow.map (·.revoke id) }
      (s.modCtx (who t 0) f).modCtx (who t 1) f)

/-- An access that the tile translated through the frame and that is not performed; the engines' records and descriptors are in use while
their words run, and what is still to be done for instances that are gone, of whatever tile, counts at each. -/
def frameBusy (s : State) (t : Tid) (base : Nat) : Bool :=
  let inn (a : BitVec 52) : Bool := a.toNat / 65536 = base / 65536
  (s.bank (who t 0)).posted.any (inn ·.pa) || (s.bank (who t 1)).posted.any (inn ·.pa) ||
    ((s.tile t).chans.toList.any fun c => c.fly.any fun e => e.rows.any inn) ||
    ((s.tile t).qz.any fun c => (qzMem c.desc && [c.data, c.scale].any fun a => a / 65536 == base / 65536) || (qzEv c.desc && inn c.event)) ||
    (((s.bank (who t 0)).pimRuns ++ (s.bank (who t 1)).pimRuns).any fun r => r.grant.isSome && r.mem && r.hd.size == 0 && inn r.hd.base) ||
    ([who t 0, who t 1].any fun w => (s.bank w).coll.any (inn ·.pa) || (s.bank w).kvRuns.any (inn ·.desc)) || (s.tile t).hidden.any (inn ·.desc) ||
    s.hub.orphans.any fun o => match o with
      | .run _ r => inn r.desc
      | .pend _ pa | .arrival _ pa => inn pa

/-- The acknowledgement, once the accesses of the page are performed (R120). -/
def execShootDownAck (t : Tid) (id : BitVec 49) (s : State) : Host.Outcome State Fault Refusal :=
  .next (let busy := s.hub.moves.any fun m => m.id == id && (frameBusy s t m.oldBase.toNat ||
      (pteREP (s.pteNow id).1 && frameBusy s t (m.oldBase.toNat + 0x3000000000)))
    if !(s.tile t).shots.contains id || busy then s
    else
      (s.modTile t fun x => { x with shots := x.shots.filter (· != id) }).modHub fun h =>
        { h with shots := h.shots.map fun x => if x.1 == id then (x.1, x.2.filter (· != t)) else x })

/-- The entry that a move publishes. -/
def publishedPte (m : Move) (e : BitVec 64) : BitVec 64 :=
  match m.pte with
  | some p => pteSet (pteSet p 10 2 0) 52 12 0
  | none => pteSet (pteSet (pteSet e 16 36 (m.newBase.toNat / 65536)) 10 2 0) 12 1 (b2n m.repl)

/-- Every tile has acknowledged: marked lines are copied again, the entry is written, and its walks resume (R119). -/
def execMigrationPublish (id : BitVec 49) (s : State) : Host.Outcome State Fault Refusal :=
  .next (match s.hub.moves.find? fun m => m.id == id && m.committed with
    | none => s
    | some m =>
      let (free, s) := s.snoopLines (moveLines m m.lines)
      if !free || pagesHeld s || s.hub.shots.any fun x => x.1 == id && !x.2.isEmpty then s
      else
        let s := if m.pte.isNone then m.lines.foldl (fun s i => s.copyLine m i) s else s
        let (e, s) := s.pteNow id
        ((s.setPte id (publishedPte m e)).modHub fun h =>
          { h with
            moves := h.moves.filter (·.id != id)
            shots := h.shots.filter (·.1 != id)
            freeFrames := if m.pte.isSome && m.repl then h.freeFrames ++ [BitVec.ofNat 52 (m.oldBase.toNat + 0x3000000000)]
              else if m.pte.isNone && isLocal m.oldBase.toNat && !(moveFrames m).contains m.oldBase then h.freeFrames ++ [m.oldBase] else h.freeFrames
            mbox := match m.who with
              | some .host => h.mbox.set 0 0
              | some .device => h.mbox.set 1 0
              | none => h.mbox }).resettle)

/-! ## Walks and page-ins (R109, R110, R123) -/

/-- The lookup at which a front end stalls has ended: the word executes again and reads it (R109). -/
def State.endWalk (s : State) (w : Who) : State :=
  let b := s.bank w
  if b.f.wait ≠ .walk then s
  else
    match b.f.packet with
    | none => s
    | some (_, bytes) =>
      let word := BitVec.ofNat 48 (bits bytes.toNat (16 + 48 * slotOf b.f.pc) 48)
      let f := FS.ofBody (bodyOf word)
      let (r, s) := lookup s w b.csr.asid b.csr.ptroot (b.r.sreg f.a).toNat
      match r with
      | .moving => s
      | _ => s.modBank w fun b => b.modF fun f => { f with walked := true, wait := .none }

def execPageWalkDone (w : Who) (s : State) : Host.Outcome State Fault Refusal := .next (s.endWalk w)

/-- Firmware reports the oldest page-in: its instance is requeued, or its node is FAILED (R123). -/
def execPageInComplete (ok : Bool) (s : State) : Host.Outcome State Fault Refusal :=
  .next (match s.hub.pageIns with
    | [] => s
    | p :: ps =>
      let s := s.modHub fun h => { h with pageIns := ps }
      if !ok then s.failNode p.pool.node
      else if !p.unplaced then s.requeue p.pool
      else if (s.node? p.pool.node).isNone then s
      else s.modHub fun h => { h with pool := h.pool ++ [p.pool] })

end Sys2Proof.Machine
end

