-- ==== Sys2Proof/Machine/Select.lean ====
section
/-! DEFINITION. Selection and sampling words: `argmax`, the top-k unit, `rng`, and the sampling unit's requests (R299 to R310). -/
namespace Sys2Proof.Machine

/-! ## argmax (R299) -/

/-- The lowest active lane with the greatest element, if any lane holds a number. -/
def argmaxLane (m : BitVec 256) (v : Vec) : Option Nat :=
  (v.lanes.zipIdx.foldl (fun (b : Option (Int × Nat)) x =>
    if !isActive m x.2 then b
    else match elemKey v.tag x.1, b with
      | none, b => b
      | some k, none => some (k, x.2)
      | some k, some (g, i) => if g < k then some (k, x.2) else some (g, i)) none).map (·.2)

def argmaxRun (f : FV) (w : Who) (e : Entry) : M CRes := do
  let a ← vecOf w f.sa
  checkTag a anyData
  let x := match argmaxLane (← maskOf w f) a with
    | none => 0xFFFFFFFF
    | some i => ((e.s 0).toNat + i) % 2 ^ 32
  return beltOf f { bits := BitVec.ofNat 2048 x, tag := .idx } 6

def execArgmax (h : Hdr) (f : FV) (s : State) : Host.Outcome State Fault Refusal :=
  .next (cWord (.argmax h f) h (wordOf 0xC0 h f.toBody) (lat 6) (argmaxRun f) s)

/-! ## The top-k unit (R300 to R302) -/

/-- An entry goes in at its place: greater values first, then lower indices. -/
def topkPlace (t : Tag) (v x : BitVec 32) : List (BitVec 32 × BitVec 32) → List (BitVec 32 × BitVec 32)
  | [] => [(v, x)]
  | (a, b) :: r =>
    let k := (elemKey t v.toNat).getD 0
    let g := (elemKey t a.toNat).getD 0
    if g < k || (k = g && x < b) then (v, x) :: (a, b) :: r else (a, b) :: topkPlace t v x r

/-- Insert of R301: the list keeps at most k entries. -/
def TopkList.insert (l : TopkList) (v x : BitVec 32) : TopkList := { l with entries := (topkPlace l.tag v x l.entries).take l.k }

/-- Lanes of a feed: active, not NaN, each with its lane number and element. -/
def feedLanes (m : BitVec 256) (v : Vec) (n : Nat) : List (Nat × BitVec 32) :=
  ((v.lanes.take n).zipIdx.filter fun x => isActive m x.2 && (elemKey v.tag x.1).isSome).map fun x => (x.2, BitVec.ofNat 32 x.1)

/-- The plain feed. -/
def TopkList.feed (l : TopkList) (m : BitVec 256) (v : Vec) (base : Nat) : TopkList :=
  (feedLanes m v v.tag.lanes).foldl (fun l x =>
    if (base + x.1) % 2 ^ 32 = 0xFFFFFFFF then l else l.insert x.2 (BitVec.ofNat 32 (base + x.1))) l

/-- The merge: an entry whose index is in the list is dropped. -/
def TopkList.merge (l : TopkList) (m : BitVec 256) (v xs : Vec) : TopkList :=
  (feedLanes m v 64).foldl (fun l y =>
    let x := BitVec.ofNat 32 (elem xs.bits 32 y.1)
    if x = 0xFFFFFFFF || l.entries.any (·.2 == x) then l else l.insert y.2 x) l

/-- The two entries that `topk.rd` pushes. -/
def TopkList.read (l : TopkList) : List Vec :=
  let low := match l.tag.fmt? with
    | some m => m.infPat + m.signBit
    | none => 0x80000000
  let n := l.entries.length
  [{ bits := ofElems l.tag.width (l.entries.map (·.1.toNat) ++ List.replicate (l.tag.lanes - n) low), tag := l.tag },
    { bits := ofElems 32 (l.entries.map (·.2.toNat) ++ List.replicate (64 - n) 0xFFFFFFFF), tag := .idx }]

/-- The oldest waiting `topk.rd` pushes its entries. -/
def Bank.topkPush (b : Bank) : Bank :=
  match b.topkRd with
  | [] => b
  | clr :: r => { b with topkRd := r, topkQ := b.topkQ ++ b.topk.read, topk := if clr then { b.topk with entries := [] } else b.topk }

/-- Every waiting `topk.rd` reads the list before a later feed changes it. -/
def Bank.topkFlush (b : Bank) : Bank := b.topkRd.foldl (fun b _ => b.topkPush) b

def execTopkRdPush (w : Who) (s : State) : Host.Outcome State Fault Refusal := .next (s.modBank w Bank.topkPush)

def topkRun (f : FV) (word : BitVec 48) (w : Who) (e : Entry) : M CRes := do
  let a ← vecOf w f.sa
  checkTag a anyData
  let k := bits (e.s 0).toNat 32 7
  let l := (← getB w).topk
  if bit f.var.toNat 0 then
    ensure (1 ≤ k && k ≤ 64) Cause.operandRange (wordInfo word)
    ensure ([Tag.fp32, .fp16, .bf16, .int32].contains a.tag) Cause.formatMismatch (tagInfo a.tag)
  else ensure (l.tag ≠ .empty && a.tag = l.tag) Cause.formatMismatch (tagInfo a.tag l.tag)
  let m ← maskOf w f
  modB w fun b =>
    let b := b.topkFlush
    let l := if bit f.var.toNat 0 then { tag := a.tag, k, entries := [] } else b.topk
    { b with topk := l.feed m a (bits (e.s 0).toNat 0 32) }
  return .plain 0

def execTopk (h : Hdr) (f : FV) (s : State) : Host.Outcome State Fault Refusal :=
  .next (cWord (.topk h f) h (wordOf 0xC1 h f.toBody) noLat (topkRun f (wordOf 0xC1 h f.toBody)) s)

def topkMrgRun (f : FV) (w : Who) : M CRes := do
  let a ← vecOf w f.sa
  let x ← vecOf w f.sb
  let l := (← getB w).topk
  checkTag a anyData
  checkTag x anyData
  ensure (l.tag ≠ .empty && a.tag = l.tag) Cause.formatMismatch (tagInfo a.tag l.tag)
  ensure (x.tag = .idx) Cause.formatMismatch (tagInfo x.tag .idx)
  let m ← maskOf w f
  modB w fun b =>
    let b := b.topkFlush
    { b with topk := b.topk.merge m a x }
  return .plain 0

def execTopkMrg (h : Hdr) (f : FV) (s : State) : Host.Outcome State Fault Refusal :=
  .next (cWord (.topkMrg h f) h (wordOf 0xC2 h f.toBody) noLat (fun w _ => topkMrgRun f w) s)

def topkRdRun (f : FV) (word : BitVec 48) (w : Who) : M CRes := do
  if f.me = 1 then illegal word
  let b ← getB w
  ensure (b.topk.tag ≠ .empty) Cause.formatMismatch 0
  if b.topkQ.length + 2 * b.topkRd.length > 6 then waitFor .other
  modB w fun b => { b with topkRd := b.topkRd ++ [bit f.var.toNat 0] }
  return .plain 0

def execTopkRd (h : Hdr) (f : FV) (s : State) : Host.Outcome State Fault Refusal :=
  .next (cWord (.topkRd h f) h (wordOf 0xC3 h f.toBody) noLat (fun w _ => topkRdRun f (wordOf 0xC3 h f.toBody) w) s)

/-! ## rng (R304) -/

def rngRun (f : FV) (w : Who) (e : Entry) : M CRes := do
  let k := bits (e.s 0).toNat 0 32
  let c := bits (e.s 0).toNat 32 32
  let m ← maskOf w f
  let u := bit f.var.toNat 0
  let x (i : Nat) : Nat :=
    if u then (roundFP32 (Num.ofInt (drawUniform k ((c + i) % 2 ^ 32)) (-24))).1 else drawRaw k ((c + i) % 2 ^ 32)
  return beltOf f (maskedVec m (if u then .fp32 else .idx) ((List.range 64).map x)) 2

def execRng (h : Hdr) (f : FV) (s : State) : Host.Outcome State Fault Refusal :=
  .next (cWord (.rng h f) h (wordOf 0xC7 h f.toBody) (lat 2) (rngRun f) s)

/-! ## The sampling unit (R305 to R310) -/

/-- Draws and acceptances outstanding, whose results are still to come. -/
def Bank.drawsOut (b : Bank) : Nat := (b.smpOut.filter fun r => match r with | .cfg .. => false | _ => true).length

/-- A word with a result waits while its context's SMP queue and outstanding requests number 8 (R308). -/
def smpRoom (w : Who) : M Unit := do
  let b ← getB w
  if b.smpQ.length + b.drawsOut ≥ 8 then waitFor .other

def smpSend (w : Who) (r : SmpReq) : M CRes := do
  modB w fun b => { b with smpOut := b.smpOut ++ [r] }
  return .plain 0

/-- A finite FP32 value above 0. -/
def posFP32 (x : Nat) : Bool := match fmtFP32.value x with
  | .fin s _ _ _ => !s
  | _ => false

def smpCfgRun (f : FK) (word : BitVec 48) (w : Who) (e : Entry) : M CRes := do
  let t := bits (e.s 1).toNat 0 32
  let tp := bits (e.s 1).toNat 32 32
  ensure (posFP32 t && posFP32 tp && !(Num.lt (Num.ofInt 1) (fmtFP32.value tp))) Cause.operandRange (wordInfo word)
  smpSend w (.cfg (BitVec.ofNat 6 (fkImm f 0 6)) (BitVec.ofNat 32 (bits (e.s 0).toNat 0 32)) (BitVec.ofNat 32 (bits (e.s 0).toNat 32 32))
    (BitVec.ofNat 32 t) (BitVec.ofNat 32 tp) (fkBit f 6))

def execSmpCfg (h : Hdr) (f : FK) (s : State) : Host.Outcome State Fault Refusal :=
  .next (cWord (.smpCfg h f) h (wordOf 0xC4 h f.toBody) noLat (smpCfgRun f (wordOf 0xC4 h f.toBody)) s)

def smpDrawRun (f : FV) (word : BitVec 48) (w : Who) (e : Entry) : M CRes := do
  let a ← vecOf w f.sa
  let x ← vecOf w f.sb
  checkTag a (· == .fp32)
  checkTag x (· == .idx)
  let m ← maskOf w f
  let lanes := drawLanes (bit f.var.toNat 0) m a.bits x.bits
  ensure (!lanes.isEmpty && !lanes.any fun i => fmtFP32.value (elem a.bits 32 i) == .inf false) Cause.operandRange (wordInfo word)
  smpRoom w
  smpSend w (.draw (BitVec.ofNat 6 (e.s 0).toNat) (bit f.var.toNat 0) m a.bits x.bits)

def execSmpDraw (h : Hdr) (f : FV) (s : State) : Host.Outcome State Fault Refusal :=
  .next (cWord (.smpDraw h f) h (wordOf 0xC5 h f.toBody) noLat (smpDrawRun f (wordOf 0xC5 h f.toBody)) s)

/-- Sibling lanes in draft order. -/
def siblings (x : Word) (n : Nat) : List Nat := (List.range n).map fun i => bits x.toNat (10 + 6 * i) 6

/-- Every active element is finite and not below −0. -/
def distOk (m : BitVec 256) (v : Vec) : Bool :=
  (List.range 64).all fun i => !isActive m i || (match fmtFP32.value (elem v.bits 32 i) with
    | .zero _ => true
    | .fin s _ _ _ => !s
    | .nan | .inf _ => false)

def smpAccRun (f : FV) (word : BitVec 48) (w : Who) (e : Entry) : M CRes := do
  let p ← vecOf w f.sa
  let q ← vecOf w f.sb
  checkTag p (· == .fp32)
  checkTag q (· == .fp32)
  let m ← maskOf w f
  let n := bits (e.s 0).toNat 6 4
  let ls := siblings (e.s 0) n
  ensure (distOk m p && distOk m q && n ≤ 8 && ls.Nodup && ls.all (isActive m) && sumList (accOperand m p.bits) ≠ 0 &&
    (n = 0 || sumList (accOperand m q.bits) ≠ 0)) Cause.operandRange (wordInfo word)
  smpRoom w
  smpSend w (.acc (BitVec.ofNat 6 (e.s 0).toNat) p.bits q.bits m ls)

def execSmpAcc (h : Hdr) (f : FV) (s : State) : Host.Outcome State Fault Refusal :=
  .next (cWord (.smpAcc h f) h (wordOf 0xC6 h f.toBody) noLat (smpAccRun f (wordOf 0xC6 h f.toBody)) s)

def execSmpRequestServe (w : Who) (s : State) : Host.Outcome State Fault Refusal := .next (s.serveSmp w)

end Sys2Proof.Machine
end

