-- ==== Sys2Proof/Machine/Csr.lean ====
section
/-! DEFINITION. The CSR map: access, readings, writes, and the words and rows that use them
(R88, R103, R131, R133, R161, R185, R213, R296, R324, R339 to R342, R374, R397, R401, R426, R432). -/
namespace Sys2Proof.Machine

inductive CsrAccess where
  | rw | ro | rwp | p
deriving DecidableEq, Repr

/-- The map of R340: who may do what with a number; none outside the map. -/
def csrAccess (n : Nat) : Option CsrAccess :=
  if n ≤ 4 || (0x008 ≤ n && n ≤ 0x00B) || n = 0x040 || n = 0x041 then some .rw
  else if (0x010 ≤ n && n ≤ 0x014) || (0x020 ≤ n && n ≤ 0x02F) || n = 0x100 || n = 0x104 || n = 0x181 || n = 0x182 || n = 0x201 then some .ro
  else if n = 0x102 || n = 0x103 || n = 0x180 || n = 0x183 then some .rwp
  else if n = 0x101 || n = 0x200 || n = 0x202 then some .p
  else none

/-! ## Readings -/

def ChanState.code : ChanState → Nat
  | .idle => 0
  | .run => 1
  | .fault => 2
  | .done => 3

/-- CPSTn (R185). -/
def CopyChan.status (c : CopyChan) : Nat :=
  c.st.code + c.owner.val * 2 ^ 12 + flag c.armed 13 + flag c.armMem 14 + c.fcause.toNat * 2 ^ 15 + c.fly.length * 2 ^ 23 +
    c.cnt * 2 ^ 30 + c.next * 2 ^ 39 + c.sc * 2 ^ 48

/-- PWRGRANT (R432). -/
def pwrgrant (b : Bank) (now : Nat) : Nat :=
  match b.pwr with
  | none => 0
  | some p => b2n (!p.held) + flag p.held 1 + p.cls * 2 ^ 4 + p.n * 2 ^ 8 + p.inUse * 2 ^ 16 + (if p.held then (p.ends - now) * 2 ^ 32 else 0)

def ViewSt.code : ViewSt → Nat
  | .ok => 0
  | .suspect => 1
  | .accused => 2
  | .fenced => 3
  | .probation => 4
  | .none => 5
  | .retired => 6

/-- An accusation of tile `x` by tile `y` is in force at tile `t` (R398, R400). -/
def accusedBy (s : State) (t : Tid) (x y : Nat) : Bool :=
  (s.tile t).accs.any (fun a => a.subj.val == x && a.src.val == y && s.now < a.ends) ||
    (y == t.val && (List.range 4).any fun d => neighbour t.val d == some x && (((s.tile t).views.toList.getD d {}).judged != 0))

/-- The view of the neighbour in direction `d` as VSTATE shows it (R401). -/
def viewCode (s : State) (t : Tid) (d : Nat) : Nat :=
  let v := (s.tile t).views.toList.getD d {}
  let av := match neighbour t.val d with
    | none => 0
    | some x => (List.range 4).foldl (fun a k => match neighbour x k with
      | none => a
      | some y => a + flag (accusedBy s t x y) (3 + k)) 0
  av + min v.missed 3 * 2 ^ 7 + v.st.code * 2 ^ 9

/-- VSTATE (R401). -/
def vstate (s : State) (t : Tid) : Nat :=
  viewCode s t 0 + viewCode s t 1 * 2 ^ 12 + viewCode s t 2 * 2 ^ 24 + viewCode s t 3 * 2 ^ 36 + flag (s.tile t).prob 59 +
    min (s.tile t).fcnt 3 * 2 ^ 60

/-- TILEID (R342). -/
def tileId (w : Who) : Nat :=
  let t := Who.tile w
  t.val + (Tid.cluster t).val * 2 ^ 7 + Tid.pos t * 2 ^ 12 + Tid.die t * 2 ^ 14 + (Who.ctx w).val * 2 ^ 15

/-- The value of a CSR (R339: as of the tile cycle in which the word executes). -/
def csrRead (s : State) (w : Who) (n : Nat) : Word :=
  let b := s.bank w
  let c := b.csr
  let t := s.tile (Who.tile w)
  let chan (k : Nat) : CopyChan := if h : k < 8 then t.chans.get ⟨k, h⟩ else {}
  match n with
  | 0x000 => c.fpflags.zeroExtend 64
  | 0x001 => c.attz
  | 0x002 => c.lease.zeroExtend 64
  | 0x003 => c.qslip.zeroExtend 64
  | 0x004 => w64 (b2n c.spdisc)
  | 0x008 => (b.r.lc.get 0).zeroExtend 64
  | 0x009 => (b.r.lc.get 1).zeroExtend 64
  | 0x00A => (b.r.lc.get 2).zeroExtend 64
  | 0x00B => (b.r.lc.get 3).zeroExtend 64
  | 0x010 => w64 (s.now - t.resetAt)
  | 0x011 => w64 b.ccycle
  | 0x012 => w64 b.pts
  | 0x013 => w64 b.istate
  | 0x014 => w64 (tileId w)
  | 0x040 => c.apxthr
  | 0x041 => c.apxsamp
  | 0x100 => w64 w.val
  | 0x101 => c.asid.zeroExtend 64
  | 0x102 => w64 (c.ptroot.toNat * 2 ^ 16)
  | 0x103 => w64 (c.spFirst.toNat + c.spCount.toNat * 2 ^ 16)
  | 0x104 => w64 (pwrgrant b s.now)
  | 0x180 => c.trapvec.zeroExtend 64
  | 0x181 => w64 c.trapcause
  | 0x182 => c.trapinfo
  | 0x183 => w64 (framebaseVa c)
  | 0x200 => s.hub.migthr
  | 0x201 => w64 (vstate s (Who.tile w))
  | 0x202 => s.hub.hbcfg.zeroExtend 64
  | n => if 0x020 ≤ n && n ≤ 0x027 then w64 (chan (n - 0x020)).status
         else if 0x028 ≤ n && n ≤ 0x02F then w64 (chan (n - 0x028)).wm else 0

/-! ## The timer (R375) -/

/-- The count of a context now. -/
def TimerCount.at (c : TimerCount) (now : Nat) : Nat :=
  match c with
  | .stands n => n
  | .runsFrom t => now - t

/-- The count runs while the active bank holds an instance with a nonzero TRAPVEC, and stands otherwise. -/
def Bank.runTimer (b : Bank) (now : Nat) : Bank :=
  let n := b.timer.at now
  { b with timer := if b.inst.isSome && b.csr.trapvec != 0 then .runsFrom (now - n) else .stands n }

/-- The count stands: the bank leaves its context. -/
def Bank.stopTimer (b : Bank) (now : Nat) : Bank := { b with timer := .stands (b.timer.at now) }

/-! ## Writes -/

/-- LEASE (R133): a write of 0 stores 1. -/
def leaseValue (v : Word) : BitVec 8 := if v.toNat % 256 = 0 then 1 else BitVec.ofNat 8 v.toNat

/-- QSLIP (R324): a write of 0 stores 1, one above 64 stores 64. -/
def qslipValue (v : Word) : BitVec 7 := let x := v.toNat % 128; if x = 0 then 1 else if x > 64 then 64 else BitVec.ofNat 7 x

/-- HBCFG (R397): each field brought into its range. -/
def hbcfgValue (v : Word) : BitVec 24 :=
  let x := v.toNat
  let logp := min 16 (max 10 (bits x 20 4))
  let miss := min 7 (max 2 (bits x 16 4))
  BitVec.ofNat 24 (b2n (bit x 0) + max 1 (bits x 8 4) * 2 ^ 8 + max 1 (bits x 12 4) * 2 ^ 12 + miss * 2 ^ 16 + logp * 2 ^ 20)

/-- APXSAMP (R426): a write of 0 stores 1. -/
def apxsampValue (v : Word) : BitVec 64 := if v.toNat % 65536 = 0 then 1 else w64 (v.toNat % 65536)

/-- The slots that an instance of the other context or of a shadow bank of the tile occupies (R161, R357). -/
def otherQuotas (s : State) (w : Who) : List (Nat × Nat) :=
  let q (b : Bank) : Nat × Nat := (b.csr.spFirst.toNat, b.csr.spCount.toNat)
  let o := s.ctx (Who.other w)
  (if o.status = .idle then [] else [q o.b]) ++ (o.shadow.map q).toList ++ ((s.ctx w).shadow.map q).toList

def rangesMeet (a b : Nat × Nat) : Bool := a.2 ≠ 0 && b.2 ≠ 0 && a.1 < b.1 + b.2 && b.1 < a.1 + a.2

/-- A write that a CSR's own statement refuses (R161, R374): OPERAND_RANGE. -/
def csrRefuses (s : State) (w : Who) (n : Nat) (v : Word) : Bool :=
  match n with
  | 0x103 =>
    let q := (bits v.toNat 0 9, bits v.toNat 16 9)
    q.1 + q.2 > 384 || (otherQuotas s w).any (rangesMeet q)
  | 0x180 => !legalPc (w64 (v.toNat % 2 ^ 60))
  | _ => false

/-- The CSR after a write that is allowed: reserved and read-only fields keep what they read, and an update by hardware in the same tile
cycle comes after the write (R339). -/
def csrWrite (s : State) (w : Who) (n : Nat) (v : Word) : State :=
  let m (f : Csrs → Csrs) : State := s.modBank w fun b => b.modCsr f
  let lc (k : Fin 4) : State := s.modBank w fun b => b.modR fun r => r.setLc k (BitVec.ofNat 32 v.toNat)
  match n with
  | 0x000 => m fun c => { c with fpflags := BitVec.ofNat 6 v.toNat ||| ((s.bank w).hwNow s.now).1 }
  | 0x001 => m fun c => { c with attz := w64 (min (v.toNat % 2 ^ 32 + ((s.bank w).hwNow s.now).2) 0xFFFFFFFF) }
  | 0x002 => m fun c => { c with lease := leaseValue v }
  | 0x003 => m fun c => { c with qslip := qslipValue v }
  | 0x004 => s.modBank w fun b => b.modCsr fun c => { c with spdisc := bit v.toNat 0 || (b.hw.stamp == s.now + 1 && b.hw.disc) }
  | 0x008 => lc 0
  | 0x009 => lc 1
  | 0x00A => lc 2
  | 0x00B => lc 3
  | 0x040 => m fun c => { c with apxthr := v }
  | 0x041 => m fun c => { c with apxsamp := apxsampValue v }
  | 0x101 => m fun c => { c with asid := BitVec.ofNat 16 v.toNat }
  | 0x102 => m fun c => { c with ptroot := BitVec.ofNat 36 (v.toNat / 2 ^ 16) }
  | 0x103 => m fun c => { c with spFirst := BitVec.ofNat 9 v.toNat, spCount := BitVec.ofNat 9 (v.toNat / 2 ^ 16) }
  | 0x180 => s.modBank w fun b => (b.modCsr fun c => { c with trapvec := BitVec.ofNat 60 v.toNat }).runTimer s.now
  | 0x183 => m fun c => { c with framebase := BitVec.ofNat 44 (v.toNat / 2 ^ 16) }
  | 0x200 => s.modHub fun h => { h with migthr := v }
  | 0x202 => s.modHub fun h => { h with hbcfgNext := some (hbcfgValue v) }
  | _ => s

/-- A CSR word (R339): the three checks in order, the old value to s[d], the new value written. What hardware adds to ATTZ in this tile cycle
comes after the write, so that it is not in the value that the new one is made of. -/
def csrWord (op : BitVec 8) (h : Hdr) (f : FI) (new : Option (Word → Word → Word)) : State → State :=
  let word := wordOf op h f.toBody
  let n := f.imm.toNat % 4096
  feWord h word fun w => do
    let s ← get
    let priv := (s.bank w).priv
    let o := csrRead s w n
    match csrAccess n with
    | none => illegal word
    | some a =>
      if !priv && (a = .p || (a = .rwp && new.isSome)) then trap Cause.privilege (wordInfo word)
      match new with
      | none => modB w fun b => b.modR fun r => r.setS f.d o
      | some g =>
        let v := g (if n = 0x001 then (s.bank w).attzBefore s.now else o) ((s.bank w).r.sreg f.a)
        if csrRefuses s w n v then trap Cause.operandRange (wordInfo word)
        if a ≠ .ro then modS fun s => csrWrite s w n v
        modB w fun b => b.modR fun r => r.setS f.d o

def execCsrr (h : Hdr) (f : FI) (s : State) : Host.Outcome State Fault Refusal := .next (csrWord 0x3B h f none s)
def execCsrw (h : Hdr) (f : FI) (s : State) : Host.Outcome State Fault Refusal :=
  .next (csrWord 0x3C h f (some fun _ a => a) s)
def execCsrs (h : Hdr) (f : FI) (s : State) : Host.Outcome State Fault Refusal :=
  .next (csrWord 0x3D h f (some fun o a => o ||| a) s)
def execCsrc (h : Hdr) (f : FI) (s : State) : Host.Outcome State Fault Refusal :=
  .next (csrWord 0x3E h f (some fun o a => o &&& ~~~a) s)

/-! ## The rows that write one register -/

/-- A write of CSR `n` by context `w`, as its privilege and the CSR allow (R339, R340); one that traps or is refused leaves the
register as it was. -/
def writeBy (n : Nat) (w : Who) (v : Word) (s : State) : State :=
  let priv := (s.bank w).priv
  match csrAccess n with
  | none | some .ro => s
  | some a => if (a = .rw || priv) && !csrRefuses s w n v then csrWrite s w n v else s

def execHbcfgWrite (w : Who) (v : Word) (s : State) : Host.Outcome State Fault Refusal := .next (writeBy 0x202 w v s)
def execSpquotaWrite (w : Who) (v : Word) (s : State) : Host.Outcome State Fault Refusal := .next (writeBy 0x103 w v s)
def execTrapvecWrite (w : Who) (v : Word) (s : State) : Host.Outcome State Fault Refusal := .next (writeBy 0x180 w v s)
def execLeaseWrite (w : Who) (v : Word) (s : State) : Host.Outcome State Fault Refusal := .next (writeBy 0x002 w v s)
def execQslipWrite (w : Who) (v : Word) (s : State) : Host.Outcome State Fault Refusal := .next (writeBy 0x003 w v s)
def execPtrootWrite (w : Who) (v : Word) (s : State) : Host.Outcome State Fault Refusal := .next (writeBy 0x102 w v s)
def execApxsampWrite (w : Who) (v : Word) (s : State) : Host.Outcome State Fault Refusal := .next (writeBy 0x041 w v s)

end Sys2Proof.Machine
end

