-- ==== Sys2Proof/Machine/Tasks.lean ====
section
/-! DEFINITION. Task and event words, the end of an instance by `task.end`, and `wfe` (R360 to R364, R366, R367, R386). -/
namespace Sys2Proof.Machine

/-! ## Shared parts -/

/-- An `apx.beg` has been dispatched whose `apx.end` has not: it still stands in the C queue (R367, R419). -/
def apxOpen (b : Bank) : Bool :=
  b.q.c.foldl (fun o e => let op := (opOf e.word).toNat; if op = 0xD0 then true else if op = 0xD1 then false else o) false

/-- APX_WAIT while a region is open at dispatch (R367). -/
def apxClear (w : Who) : M Unit := do ensure (!apxOpen (← getB w)) Cause.apxWait 0

/-- Waits as `qsync.l.c.s` and as `fence`. -/
def quiet (w : Who) : M Unit := do
  syncQueues w 7
  postedFirst w

/-- A front-end word with its guard, after which `fin` ends or moves its context's program. -/
def feThen {α : Type} (h : Hdr) (word : BitVec 48) (run : Who → M α) (fin : α → State → Who → State) (s : State) : State :=
  let w := s.cur
  let b := s.bank w
  if !guardOf h b then s.endWord w word Front.advance
  else
    match (run w).run.run s with
    | (.ok a, s') => fin a (s'.endWord w word Front.advance) w
    | (.error (.wait k), s') => s'.frontWaits w k
    | (.error (.abort va), s') => s'.abortInstance w va
    | (.error x, s') => (rollback w s s').raiseStop w x 4 0 b.f.pc b.f.pc

/-! ## Posts (R361) -/

/-- The ring of a queue is full (R348). -/
def QDesc.full (d : QDesc) : Bool := (d.tail.toNat + 1) % 2 ^ d.size.toNat == d.head.toNat

/-- `task.post` and `task.posts` from their captured operands: `off` is s[O], `a` is s[A]. -/
def postEntry (w : Who) (word : BitVec 48) (q : Fin 1024) (hn : BitVec 4) (h : Handle) (off a : Word) : M Unit := do
  let s ← get
  let b := s.bank w
  let d := s.qdesc q
  ensure (d.en && d.devok) Cause.queueState (w64 q.val)
  ensure (d.asid = b.csr.asid || b.priv) Cause.privilege (wordInfo word)
  ensure (off.toNat % 128 = 0) Cause.misalignedAddr off
  let _ ← translateFor { rd := true } hn h off.toNat
  if d.full then waitFor .ring
  let pa := d.ring.toNat + 32 * d.tail.toNat
  postedFirst w
  pairTurn w pa
  remapWait w pa 32
  snoopHost pa 32
  outbound w
  modS fun s => (s.ctxPut w pa (plain (leBytes (vaOf h off.toNat) 8 ++ leBytes a.toNat 8 ++ leBytes 0 16)) 2).writeTail q
    (BitVec.ofNat 32 ((d.tail.toNat + 1) % 2 ^ d.size.toNat))

def taskPostBody (f : FS) (word : BitVec 48) (w : Who) : M Unit := do
  let r := (← getB w).r
  let h := r.hreg (hndOf f)
  waitReady h
  postEntry w word ⟨f.fn.toNat % 1024, by omega⟩ (hndOf f) h (r.sreg f.b) (r.sreg f.d)

def execTaskPost (h : Hdr) (f : FS) (s : State) : Host.Outcome State Fault Refusal :=
  .next (feWord h (wordOf 0x33 h f.toBody) (taskPostBody f (wordOf 0x33 h f.toBody)) (s.nonAbortable s.cur))

/-- Every earlier S-queue write is performed (R361, R362). -/
def earlierStores (w : Who) : M Unit := do
  if (← getB w).q.fly.any fun f => f.q == .s && !f.done then waitFor .other

def taskPostsBody (f : FK) (word : BitVec 48) (w : Who) (e : Entry) : M Bool := do
  earlierStores w
  let (hn, h) := e.handle 0
  postEntry w word ⟨bits f.imm.toNat 4 10, by unfold bits; omega⟩ hn h (e.s 0) (e.s 1)
  return true

def execTaskPosts (h : Hdr) (f : FK) (s : State) : Host.Outcome State Fault Refusal :=
  .next (lsWord .s (.taskPosts h f) h (wordOf 0x69 h f.toBody) (fun w e => precise w (taskPostsBody f (wordOf 0x69 h f.toBody) w e)) s)

/-! ## Signals (R362) -/

/-- The new value of the event word: `.set`, `.add`, `.or`. -/
def sigValue (op o v : Nat) : Nat :=
  match op with
  | 0 => v
  | 1 => (o + v) % 2 ^ 64
  | _ => o ||| v

/-- OP is applied to the event word at its home in one step; the answer is the old value. -/
def signal (w : Who) (word : BitVec 48) (op : Nat) (hn : BitVec 4) (h : Handle) (off v : Word) (queue : Bool) : M Nat := do
  if op = 3 then illegal word
  ensure (off.toNat % 8 = 0) Cause.misalignedAddr off
  let pa ← translateFor { rd := true, w := true } hn h off.toNat
  if queue then watermarkWait w .s true (vaOf h off.toNat) 8
  postedFirst w
  pairTurn w pa
  remapWait w pa 8
  snoopHost pa 8
  let o ← atomicOld w h pa 8 off.toNat
  outbound w
  countAccess w h pa
  modS fun s => s.ctxWrite w pa (leBytes (sigValue op o v.toNat) 8)
  return o

def evtSigBody (f : FS) (word : BitVec 48) (w : Who) : M Unit := do
  let r := (← getB w).r
  let hn := BitVec.ofNat 4 f.fn.toNat
  let h := r.hreg hn
  waitReady h
  let o ← signal w word (bits f.fn.toNat 4 2) hn h (r.sreg f.a) (r.sreg f.b) false
  modB w fun b => b.modR fun r => r.setS f.d (w64 o)

def execEvtSig (h : Hdr) (f : FS) (s : State) : Host.Outcome State Fault Refusal :=
  .next (feWord h (wordOf 0x35 h f.toBody) (evtSigBody f (wordOf 0x35 h f.toBody)) (s.nonAbortable s.cur))

def evtSigsBody (f : FK) (word : BitVec 48) (w : Who) (e : Entry) : M Bool := do
  earlierStores w
  let (hn, h) := e.handle 0
  let _ ← signal w word (bits f.imm.toNat 4 2) hn h (e.s 0) (e.s 1) true
  return true

def execEvtSigs (h : Hdr) (f : FK) (s : State) : Host.Outcome State Fault Refusal :=
  .next (lsWord .s (.evtSigs h f) h (wordOf 0x68 h f.toBody) (fun w e => precise w (evtSigsBody f (wordOf 0x68 h f.toBody) w e)) s)

/-! ## Waiting for an event (R363) -/

/-- The conditions of `evt.wait`. -/
def evtCond (c w v : Nat) : Bool :=
  match c with
  | 0 => decide (v ≤ w)
  | 1 => w == v
  | 2 => w != v
  | _ => w &&& v == v

/-- The address that `evt.wait` and `wfe` watch: alignment, translation with RD, and the waits of a read. -/
def watchAddr (w : Who) (hn : BitVec 4) (off : Word) : M Nat := do
  ensure (off.toNat % 8 = 0) Cause.misalignedAddr off
  let h := (← getB w).r.hreg hn
  waitReady h
  let pa ← translateFor { rd := true } hn h off.toNat
  postedFirst w
  pairTurn w pa
  remapWait w pa 8
  return pa

def evtWaitBody (f : FS) (word : BitVec 48) (w : Who) : M Unit := do
  let cond := bits f.fn.toNat 4 3
  if cond ≥ 4 then illegal word
  apxClear w
  let b ← getB w
  let off := b.r.sreg f.a
  let pa ← draining (watchAddr w (BitVec.ofNat 4 f.fn.toNat) off)
  let now := (← get).now
  let start := (b.f.sleep.map (·.since)).getD now
  modS fun s => s.raisePts w ((s.bank w).pts + b.csr.lease.toNat)
  let v ← readScalar w (b.r.hreg (BitVec.ofNat 4 f.fn.toNat)) pa 8 off.toNat .home
  let t := (b.r.sreg f.d).toNat
  let done (ok : Bool) : M Unit := modB w fun b => b.modR fun r => r.setP (BitVec.ofNat 3 (bits f.fn.toNat 7 3)) ok
  if evtCond cond v (b.r.sreg f.b).toNat then done true
  else if t ≠ 0 && now - start ≥ t then done false
  else
    modB w fun b => b.modF fun x => { x with sleep := some { pa := BitVec.ofNat 52 pa, since := start, checked := now, line := false } }
    waitFor .sleep

def execEvtWait (h : Hdr) (f : FS) (s : State) : Host.Outcome State Fault Refusal :=
  .next (feWord h (wordOf 0x36 h f.toBody) (evtWaitBody f (wordOf 0x36 h f.toBody)) s)

/-! ## wfe (R386) -/

/-- An interrupt is pending (R375). -/
def Irq.any (i : Irq) : Bool := i.timer || !i.copyFault.isEmpty || !i.monitor.isEmpty || i.vote

/-- A sleep of `wfe` is over. -/
def wfeOver (s : State) (w : Who) (x : Sleep) : Bool := x.written || (s.bank w).irq.any || x.since + 4096 ≤ s.now

def wfeBody (f : FS) (w : Who) : M Unit := do
  let b ← getB w
  match b.f.sleep with
  | some x => if !(wfeOver (← get) w x) then waitFor .sleep
  | none =>
    let pa ← draining (watchAddr w (BitVec.ofNat 4 f.fn.toNat) (b.r.sreg f.a))
    let now := (← get).now
    modB w fun b => b.modF fun x => { x with sleep := some { pa := BitVec.ofNat 52 pa, since := now, checked := now, line := true } }
    waitFor .sleep

def execWfe (h : Hdr) (f : FS) (s : State) : Host.Outcome State Fault Refusal :=
  .next (feWord h (wordOf 0xE7 h f.toBody) (wfeBody f) s)

/-! ## Waking -/

/-- The front end leaves its sleep and executes its word again. -/
def State.wake (s : State) (w : Who) : State := s.modBank w fun b => b.modF fun f => { f with wait := .none }

/-- The context sleeps in a word of the kind. -/
def sleepOf (s : State) (w : Who) (line : Bool) : Option Sleep :=
  if (s.ctx w).status = .running && (s.bank w).f.wait = .sleep then (s.bank w).f.sleep.filter (·.line == line) else none

/-- The timeout of the `evt.wait` at the front end. -/
def evtTimeout (b : Bank) : Nat :=
  match b.f.packet with
  | none => 0
  | some (_, bytes) => (b.r.sreg (FS.ofBody (bodyOf (BitVec.ofNat 48 (bits bytes.toNat (16 + 48 * slotOf b.f.pc) 48)))).d).toNat

def execEvtWaitWake (w : Who) (s : State) : Host.Outcome State Fault Refusal :=
  .next (match sleepOf s w false with
    | some x =>
      let t := evtTimeout (s.bank w)
      if x.written || x.checked + 4096 ≤ s.now || (t ≠ 0 && x.since + t ≤ s.now) then s.wake w else s
    | none => s)

def execWfeWake (w : Who) (s : State) : Host.Outcome State Fault Refusal :=
  .next (match sleepOf s w true with
    | some x => if wfeOver s w x then s.wake w else s
    | none => s)

/-! ## The end of an instance (R155, R352, R359, R364) -/

/-- An instance of a node has ended at logical time `t`; the last one completes the node. While no core is active the completion is
held (R369). -/
def State.instanceEnded (s : State) (node t : Nat) : State :=
  if s.hub.cores.down then s.hold (.ended node t)
  else
    match s.node? node with
    | none => s
    | some e =>
      let s := s.modNode node fun x => { x with ended := x.ended + 1, endTime := max x.endTime t }
      if e.ended + 1 = e.total then (s.nodeDone node).resettle else s

/-- The ending of `task.end`: handles and pins are released, the completion write is performed, and the context is idle. -/
def State.endInstance (s : State) (w : Who) : State :=
  let b := s.bank w
  let s := (s.giveUp w).goIdle w
  match b.inst with
  | none => s
  | some i => s.instanceEnded i.node b.pts

/-- The channels of a context. -/
def ownChans (s : State) (w : Who) : List (Fin 8 × CopyChan) :=
  ((List.finRange 8).map fun k => (k, (s.tile (Who.tile w)).chans.get k)).filter fun x => x.2.ofCtx (Who.ctx w)

def taskEndBody (w : Who) : M Unit := do
  apxClear w
  draining do
    quiet w
    let s ← get
    if !(s.bank w).smpOut.isEmpty || (ownChans s w).any (·.2.st == .run) then waitFor .drain
  let s ← get
  match (ownChans s w).find? (·.2.st == .fault) with
  | some x => trap Cause.copyBusy (w64 x.1.val)
  | none => ensure ((s.bank w).z.all (·.banks == 0)) Cause.accLeak 0

def execTaskEnd (h : Hdr) (f : FS) (s : State) : Host.Outcome State Fault Refusal :=
  .next (feThen h (wordOf 0x34 h f.toBody) taskEndBody (fun _ => State.endInstance) s)

end Sys2Proof.Machine
end

