-- ==== Sys2Proof/Machine/System.lean ====
section
/-! DEFINITION. Interrupts and their timer, `eret`, `halt`, `tlb.inv`, `mchk.ack` (R375 to R377, R382 to R388). -/
namespace Sys2Proof.Machine

/-! ## The timer (R375) -/

def execTimerExpiry (w : Who) (s : State) : Host.Outcome State Fault Refusal :=
  .next (let p := (s.tile (Who.tile w)).timerPeriod.toNat
    match (s.bank w).timer with
    | .runsFrom t =>
      if p ≠ 0 && t + p ≤ s.now then s.modBank w fun b => { b with timer := .runsFrom (t + p), irq := { b.irq with timer := true } } else s
    | .stands _ => s)

/-! ## Recognition (R375) -/

/-- The opcode at the front end is one at whose wait an interrupt is recognised: `qsync`, `xfence`, `evt.wait`, `wfe`. -/
def waitsOpen (b : Bank) : Bool :=
  match b.f.packet with
  | none => false
  | some (_, bytes) => [0x30, 0x2C, 0x36, 0xE7].contains (bits bytes.toNat (56 + 48 * slotOf b.f.pc) 8)

/-- The front end stands at a recognition point: between packets, before the first word of one that it has not begun, or at a word whose
wait is one (R375). -/
def atPoint (b : Bank) : Bool :=
  match b.f.packet with
  | none => b.f.sinceEret ≥ 1
  | some _ => b.f.sinceEret ≥ 2 &&
      ((slotOf b.f.pc == b.f.entry && b.f.waited == .none) || [WaitKind.ring, .dispatch, .dispatchC].contains b.f.waited ||
        (b.f.waited != .none && waitsOpen b))

/-- The pending interrupt of the lowest code: its cause, its TRAPINFO, and what stays pending. -/
def nextIrq (s : State) (w : Who) : Option (BitVec 8 × Word × Irq) :=
  let i := (s.bank w).irq
  if i.timer then some (Cause.timer, csrRead s w 0x010, { i with timer := false })
  else
    match i.copyFault, i.monitor with
    | k :: ks, _ => some (Cause.copyFault, w64 k.val, { i with copyFault := ks })
    | [], m :: ms => some (Cause.monitor, w64 m.toNat, { i with monitor := ms })
    | [], [] => if i.vote then some (Cause.vote, csrRead s w 0x201, { i with vote := false }) else none

/-- An interrupt is due at the front end of `w` now. -/
def irqDue (s : State) (w : Who) : Bool :=
  (s.ctx w).status == .running && !(s.bank w).csr.inh && atPoint (s.bank w) && (nextIrq s w).isSome

/-- The interrupt due is taken, or discarded where there is no handler or no frame; one discarded in the sleep of a `wfe` has ended it (R386). -/
def State.takeIrq (s : State) (w : Who) : State :=
  if !irqDue s w then s
  else
    match nextIrq s w with
    | none => s
    | some (code, info, rest) =>
      let s := s.modBank w fun b => { b with irq := rest }
      let b := s.bank w
      if b.csr.trapvec = 0 || b.csr.framebase = 0 then
        s.modBank w fun b => b.modF fun f => { f with sleep := f.sleep.map fun x => { x with written := x.written || x.line } }
      else s.raise w { cls := 2, code, info, fq := 0, fidx := 0, fpc := 0, pc := b.f.pc, time := s.now }

def execInterruptEntry (w : Who) (s : State) : Host.Outcome State Fault Refusal := .next (s.takeIrq w)

/-! ## The frame read back (R379 to R383) -/

/-- Bytes at their offsets, piece by piece. -/
abbrev Pieces := List (Nat × Array Byte)

/-- The number in `n` bytes at `off`; bytes outside every piece read 0. -/
def Pieces.num (ps : Pieces) (off n : Nat) : Nat :=
  match ps.find? fun p => p.1 ≤ off && off < p.1 + p.2.size with
  | some p => leNat (p.2.extract (off - p.1) (off - p.1 + n)).toList
  | none => 0

/-- A piece of `len` bytes at offset `off` of what lies at `pa`; POISON is a machine check that names `info`. -/
def readPiece (w : Who) (pa : Nat) (info : Word) (off len : Nat) : M (Nat × Array Byte) := do
  let (bs, s) := (← get).ctxRead w (pa + off) len (len / 64 + 2)
  set s
  if anyPoison bs then throw (.mcheck Cause.poison info (w64 (pa + off)) 2)
  return (off, (bytesOf bs).toArray)

/-- Offset of entry `i` of a queue's area. -/
def queueOff (q : QName) (i : Nat) : Nat := (match q with | .l => 0x6600 | .c => 0x8600 | .s => 0xA600) + 128 * i

/-- The entries that a frame holds of a queue. -/
def frameCount (ps : Pieces) (q : QName) : Nat := ps.num (match q with | .l => 0x22 | .c => 0x23 | .s => 0x24) 1

/-- The header, and then the latches and entries that it counts. -/
def readFrame (w : Who) (pa : Nat) (info : Word) : M Pieces := do
  let h ← readPiece w pa info 0 0x2600
  let ps : Pieces := [h]
  let n (q : QName) : Nat := min 64 (frameCount ps q)
  let lat ← readPiece w pa info 0x2600 (1024 * min 16 (ps.num 0x25 1))
  let l ← readPiece w pa info 0x6600 (128 * n .l)
  let c ← readPiece w pa info 0x8600 (128 * n .c)
  let q ← readPiece w pa info 0xA600 (128 * n .s)
  return [h, lat, l, c, q]

/-- The repeat or chunk count of a word, where it has one. -/
def countOf (word : BitVec 48) : Option Nat :=
  let op := (opOf word).toNat
  if [0xA4, 0xA5, 0xA6, 0xAA].contains op then some (MatRun.chunks { word })
  else if (stepField (decodeWord word)).isSome then some ((FM.ofBody (bodyOf word)).rep.toNat + 1)
  else none

/-- A field of an entry that fails validation. -/
def badEntry (ps : Pieces) (o : Nat) : Bool :=
  match countOf (BitVec.ofNat 48 (ps.num o 6)) with
  | some n => n < ps.num (o + 20) 2
  | none => false

/-- The fields of a frame that break its limits, by offset, the lowest first (R373, R383). -/
def badFields (ps : Pieces) : List Nat :=
  let above (lim o : Nat) : List Nat := if lim < ps.num o 1 then [o] else []
  let lat (i : Nat) : List Nat :=
    let o := 0x2600 + 1024 * i
    (if ps.num o 2 = 0 || 8 < ps.num o 2 then [o] else []) ++ above 11 (o + 2)
  let entries (q : QName) : List Nat :=
    (List.range (min 64 (frameCount ps q))).flatMap fun i => if badEntry ps (queueOff q i) then [queueOff q i + 20] else []
  above 4 0x20 ++ above 64 0x22 ++ above 64 0x23 ++ above 64 0x24 ++ above 16 0x25 ++ ((List.range 32).flatMap fun i => above 11 (0x500 + i)) ++
    ((List.range (min 16 (ps.num 0x25 1))).flatMap lat) ++ entries .l ++ entries .c ++ entries .s

/-- A frame keeps its limits (R383). -/
def frameOk (ps : Pieces) : Bool := (badFields ps).isEmpty

def tagAt (ps : Pieces) (off : Nat) : Tag := (Tag.ofCode (ps.num off 1)).getD .empty

/-- A latch from its record; its pushes are those kept at the entry. -/
def latchAt (ps : Pieces) (kept : List (Push × Nat)) (i : Nat) : Latch :=
  let o := 0x2600 + 1024 * i
  let f := ps.num (o + 3) 1
  let k := ps.num (o + 4) 1
  let vec (x : Nat) (t : Tag) : Vec := { bits := BitVec.ofNat 2048 (ps.num (o + x) 256), tag := t }
  { rem := ps.num o 2, val := vec 16 (tagAt ps (o + 2)), wn := bit f 0, nd := BitVec.ofNat 4 (f / 2), maskK := BitVec.ofNat 3 k
    maskMode := BitVec.ofNat 2 (k / 8), flags := BitVec.ofNat 6 (ps.num (o + 5) 1)
    pair := if bit f 5 then some (BitVec.ofNat 3 (ps.num (o + 6) 1), vec 272 .fp32, vec 528 .fp32) else none
    attz := BitVec.ofNat 32 (ps.num (o + 8) 4), push := (kept.getD i ({}, 0)).1, pos := (kept.getD i ({}, 0)).2 }

/-- A queue entry from its record: `copies` are its captured handle copies, `h` the handles that RECAP takes instead (R382). -/
def entryAt (ps : Pieces) (o : Nat) (copies : List Handle) (h : BitVec 4 → Handle) : Entry :=
  let word := BitVec.ofNat 48 (ps.num o 6)
  let f := ps.num (o + 6) 1
  let sc (k : Nat) : Word := w64 (ps.num (o + 32 + 8 * k) 8)
  { word, guard := bit f 0, co := bit f 1, issued := bit f 2, skip := bit f 4, popped := bit f 7 || ps.num (o + 20) 2 != 0
    pf := BitVec.ofNat 8 (ps.num (o + 7) 1), pfInfo := w64 (ps.num (o + 24) 8), pc := BitVec.ofNat 60 (ps.num (o + 8) 8)
    pos := ps.num (o + 16) 4, mpc := ps.num (o + 20) 2, sc := #v[sc 0, sc 1, sc 2, sc 3]
    cp := (List.range (handleFields (decodeWord word)).length).map fun k =>
      let n := BitVec.ofNat 4 (ps.num (o + 64 + k) 1)
      (n, if bit f 3 then h n else copies.getD k {}) }

/-- The entries of a queue. -/
def entriesAt (ps : Pieces) (q : QName) (copies : Nat → List Handle) (h : BitVec 4 → Handle) : List Entry :=
  (List.range (frameCount ps q)).map fun i => entryAt ps (queueOff q i) (copies i) h

/-- The registers of a frame; the handles are not restored from it. -/
def regsAt (ps : Pieces) (r : Regs) : Regs :=
  let vec (o t : Nat) (i : Nat) : Vec := { bits := BitVec.ofNat 2048 (ps.num (o + 256 * i) 256), tag := tagAt ps (t + i) }
  { r with
    s := Vector.ofFn fun i : Fin 32 => if i = 0 then 0 else w64 (ps.num (0x100 + 8 * i.val) 8)
    p := Vector.ofFn fun i : Fin 8 => i != 0 && bit (ps.num 0x38 1) i.val
    belt := Vector.ofFn fun i : Fin 16 => vec 0x600 0x500 i.val
    n := Vector.ofFn fun i : Fin 16 => vec 0x1600 0x510 i.val
    m := Vector.ofFn fun i : Fin 8 => BitVec.ofNat 256 (ps.num (0x400 + 32 * i.val) 32)
    lc := Vector.ofFn fun i : Fin 4 => BitVec.ofNat 32 (ps.num (0x78 + 8 * i.val) 8) }

/-- The CSRs of a frame, each field brought into its range. -/
def csrsAt (ps : Pieces) (c : Csrs) : Csrs :=
  let v (o : Nat) : Word := w64 (ps.num o 8)
  { c with
    fpflags := BitVec.ofNat 6 (v 0x50).toNat, attz := w64 ((v 0x58).toNat % 2 ^ 32), lease := leaseValue (v 0x60), qslip := qslipValue (v 0x68)
    spdisc := bit (v 0x70).toNat 0 }

/-- Everything of a frame but its queues' handle copies goes into a bank (R383, R384). -/
def bankAt (ps : Pieces) (b : Bank) (t : TfSave) (copies : QName → Nat → List Handle) : Bank :=
  let es (q : QName) : List Entry := entriesAt ps q (copies q) b.r.hreg
  let c := ps.num 0x40 8
  let cs : List Entry := (es .c).map fun e =>
    { e with slip := ((t.slips.find? (·.1 == e.pos)).map (·.2)).getD (csrsAt ps b.csr).qslip, pushed := t.pushed.contains e.pos, foldIn := ((t.foldsIn.find? (·.1 == e.pos)).map (·.2)).getD 0 }
  { b with
    r := regsAt ps b.r
    csr := csrsAt ps b.csr
    q := { l := es .l, c := cs, s := es .s, lc := min 16 (ps.num 0x28 1), cl := min 16 (ps.num 0x29 1), cs := min 16 (ps.num 0x2A 1)
           sc := min 16 (ps.num 0x2B 1), pend := t.pend }
    c := { b.c with
      cc := if c = 0 && t.unstarted then 0 else c + 1
      latches := (List.range (ps.num 0x25 1)).map (latchAt ps t.latchPush), rets := t.rets
      window := if t.window.isSome then t.window else b.c.window
      vhold := ps.num 0x2C 4, mskip := ps.num 0x30 4, mprio := BitVec.ofNat 3 (ps.num 0x39 1), draining := false }
    f := { b.f.jump (BitVec.ofNat 60 (ps.num 0x10 8)) with sinceEret := 0 } }

/-! ## Frozen matrix words run again (R262) -/

/-- An issued matrix word streams on from its next chunk; its index lists or scales are read again. -/
def State.thawEntry (s : State) (w : Who) (e : Entry) (g : Option Grant) : State :=
  let r : MatRun :=
    { word := e.word, da := e.s 0, db := e.s 1, chunk := e.mpc, grant := g, prio := (s.bank w).c.mprio.toNat, push := pushOf .c e.word
      pos := e.pos, pc := e.pc }
  let aux := r.op != .kat && matUsesAux r ((s.bank w).tileZ r.ft.z)
  let (ls, p, s) := if aux then readLines s w ((linesOf (descAux r.db) (matBytesAux r)).map (64 * ·)) else ([], false, s)
  let folds := if r.chunks ≤ e.mpc then [r.lastFold (if e.foldIn = 0 then (s.bank w).c.mskip + 4 else e.foldIn)] else []
  s.modBank w fun b => b.modC fun c => { c with mats := c.mats ++ [{ r with aux := if aux then auxList r ls else [], poisoned := p, folds }] }

/-- Grants are given to the words that need them, in order; a word that is skipped gives its own back and retires at the next C-cycle
(R384). -/
def thawAll (w : Who) : List Entry → List Grant → State → State
  | [], gs, s => gs.foldl (fun s g => s.returnGrant w (some g)) s
  | e :: es, gs, s =>
    let (g, rest) := if needsUnits e.word then (gs.head?, gs.tail) else (none, gs)
    thawAll w es rest (if e.skip then (s.returnGrant w g).addRet w (pushOf .c e.word) e.pos else s.thawEntry w e g)

/-- The words of the C queue that had issued, with a chunk done, stream again (R262, R381). -/
def State.thaw (s : State) (w : Who) (gs : List Grant) : State :=
  let es := (s.bank w).q.c
  let had (e : Entry) : Bool := e.issued && e.mpc > 0
  thawAll w (es.takeWhile had) gs (s.modBank w fun b => { b with q := { b.q with c := (es.dropWhile had).map fun e => { e with issued := false } } })

/-! ## eret (R383, R384) -/

/-- The captured copies kept since the entry. -/
def TfSave.copiesOf (t : TfSave) (q : QName) (i : Nat) : List Handle :=
  (t.copies.filter fun c => c.1 == q && c.2.1 == i).map (·.2.2.2)

/-- The program's state comes back from its frame. -/
def State.restoreFrame (s : State) (w : Who) (ps : Pieces) : State :=
  let s := s.releaseHandle w 15
  let t := ((s.bank w).tf).getD {}
  let s := s.modBank w fun b =>
    let b := bankAt ps { b with r := b.r.setH 15 b.h15save } t t.copiesOf
    { b with h15save := {}, tf := none, apx := t.apx, csr := { b.csr with inh := false } }
  s.thaw w t.grants

/-- What an `eret` comes to: the frame, or the fatal cause with its information (R373). -/
def eretBody (word : BitVec 48) (w : Who) : M (Except (BitVec 8 × Word) Pieces) := do
  if !(← getB w).csr.inh then illegal word
  draining (quiet w)
  match (← get).framePage w with
  | (none, true, s) => set s; waitFor .other
  | (none, false, s) => set s; return .error (Cause.frameFault, w64 (framebaseVa (← getB w).csr))
  | (some (pa, _), _, s) =>
    set s
    remapWait w pa 0xC600
    let c := (← getB w).csr
    let ps ← readFrame w pa (w64 (framebaseVa c))
    if !frameOk ps then return .error (Cause.frameFormat, w64 ((badFields ps).headD 0))
    if c.mck then return .error (c.trapCode, c.trapinfo)
    let pc := w64 (ps.num 0x10 8)
    ensure (legalPc (pc &&& 0x1F)) Cause.misalignedPc pc
    return .ok ps

def execEret (h : Hdr) (x : BitVec 32) (s : State) : Host.Outcome State Fault Refusal :=
  .next (feThen h (wordOf 0xE1 h x) (eretBody (wordOf 0xE1 h x)) (fun r s w => match r with
    | .ok ps => s.restoreFrame w ps
    | .error (code, info) => s.fatal w code info) s)

/-! ## Other system words -/

/-- `halt` stops the context as BREAK without a handler does (R378, R386). -/
def haltBody (word : BitVec 48) (w : Who) : M Unit := do
  privileged w word
  draining (quiet w)

def execHalt (h : Hdr) (x : BitVec 32) (s : State) : Host.Outcome State Fault Refusal :=
  .next (feThen h (wordOf 0xE5 h x) (haltBody (wordOf 0xE5 h x)) (fun _ s w => s.modCtx w fun c => { c with status := .stopped }) s)

/-- Entries that a `tlb.inv` removes (R387). -/
def invalidates (scope : Nat) (asid : BitVec 16) (va : Nat) (whole : Bool) (x : TlbEntry) : Bool :=
  scope == 0 || (x.asid == asid && (scope == 1 || tlbHit asid va whole x))

def tlbInvBody (f : FS) (word : BitVec 48) (w : Who) : M Unit := do
  privileged w word
  let scope := f.fn.toNat % 4
  if scope = 3 then illegal word
  let r := (← getB w).r
  let keep (whole : Bool) (x : TlbEntry) : Bool := !invalidates scope (BitVec.ofNat 16 (r.sreg f.a).toNat) (r.sreg f.b).toNat whole x
  modS fun s => { s with tiles := s.tiles.map fun t => { t with tlb1 := t.tlb1.filter (keep true), tlb2 := t.tlb2.filter (keep false) } }

def execTlbInv (h : Hdr) (f : FS) (s : State) : Host.Outcome State Fault Refusal :=
  .next (feWord h (wordOf 0xE8 h f.toBody) (tlbInvBody f (wordOf 0xE8 h f.toBody)) s)

def execMchkAck (h : Hdr) (f : FS) (s : State) : Host.Outcome State Fault Refusal :=
  .next (feWord h (wordOf 0xEA h f.toBody) (fun w =>
    modB w fun b => { b with r := b.r.setS f.d (if b.csr.mck then b.mckSeq else 0), csr := { b.csr with mck := false } }) s)

end Sys2Proof.Machine
end

