-- ==== Sys2Proof/Machine/Image.lean ====
section
/-! DEFINITION. Shadow banks and context images: freezing a running state, `ctx.swap`, `ctx.save`, `ctx.load`, what a saved
instance keeps and how it comes back (R159, R385, R389 to R392). -/
namespace Sys2Proof.Machine

/-! ## A running state leaves its context (R262, R376, R389) -/

/-- Channels and quantisation commands of the context change banks with their instance. -/
def State.toggleAway (s : State) (w : Who) : State :=
  s.modTile (Who.tile w) fun t =>
    { t with
      chans := t.chans.map fun c => if c.owner = Who.ctx w then { c with away := !c.away } else c
      qz := t.qz.map fun c => if c.who = w then { c with away := !c.away } else c }

/-- What waits at the heads of the queues gives back what it asked for. -/
def State.dropWaits (s : State) (w : Who) : State := ((s.dropPimWait w).withdrawColl w).dropRequests w

/-- A bank that stands: nothing of it waits or sleeps, its matrix words are entries, its timer stands. -/
def Bank.stand (b : Bank) (now : Nat) : Bank :=
  let un (es : List Entry) : List Entry := es.map fun e => { e with waits := false }
  let b := (b.matsToEntries).stopTimer now
  { b with
    q := { b.q with l := un b.q.l, c := un b.q.c, s := un b.q.s }
    f := { b.f with wait := .none, waited := .none, sleep := none, walked := false, packet := none }
    pwr := none, wm := [] }

/-- The running state is frozen and goes to the shadow bank, with its window released and its units returned. -/
def State.park (s : State) (w : Who) : State :=
  let s := (s.freezeC w).dropWaits w
  let gs := (s.bank w).c.mats.filterMap (·.grant) ++ (((s.bank w).tf.map (·.grants)).getD [])
  let s := (gs.foldl (fun s g => s.returnGrant w (some g)) s).releaseWindow w
  (s.modCtx w fun c =>
    let b := c.b.stand s.now
    { c with
      status := .swapping s.now, preempt := true
      shadow := some { b with tf := b.tf.map fun t => { t with grants := [] } }
      b := c.b.leave }).toggleAway w

/-- The scheduler's pre-emption takes effect once the queues have drained and the posted stores are performed (R389). -/
def State.tryPark (s : State) (w : Who) : State :=
  let c := s.ctx w
  if c.status = .trapping && c.preempt && c.b.trap.isNone && drained c.b 0 && c.b.pairWait.isEmpty then
    match (postedFirst w).run.run s with
    | (.ok _, s) => s.park w
    | (.error _, s) => s
  else s

/-! ## What a saved instance keeps (R390, R392) -/

/-- The shadow state is ready to be saved: no sampling request and no copy entry of it is outstanding. -/
def shadowQuiet (s : State) (w : Who) (b : Bank) : Bool :=
  b.smpOut.isEmpty && (s.tile (Who.tile w)).chans.toList.all fun c => !(c.owner == Who.ctx w && c.away) || c.fly.isEmpty

/-- Number of accumulator banks that a state holds. -/
def Bank.accBanks (b : Bank) : Nat := b.z.toList.foldl (fun a z => a + z.banks) 0

/-- The flags of the repeats done stand in FPFLAGS, and nothing of a trap entry holds units (R214, R430). -/
def Bank.keepFlags (b : Bank) : Bank :=
  let drop (es : List Entry) : List Entry := es.map fun e => { e with flags := 0 }
  { b with
    csr := { b.csr with fpflags := (b.q.l ++ b.q.s).foldl (fun a e => a ||| e.flags) b.csr.fpflags }
    q := { b.q with l := drop b.q.l, s := drop b.q.s }
    tf := b.tf.map fun t => { t with grants := [] } }

/-- A slot whose bytes are saved is read: an error in it is corrected, rebuilt, or left as P, and logged (R160). -/
def State.slotRead (s : State) (w : Who) (k : Nat) : State :=
  let e := (s.tile (Who.tile w)).tag k
  if e.v && !e.d then (s.modTile (Who.tile w) fun t => t.inject (4096 * k) 4096 true).meetErrors w (4096 * k) 4096 else s

/-- The shadow state leaves its tile: what is saved, and the tile without it. -/
def State.takeShadow (s : State) (w : Who) (b : Bank) : Saved × State :=
  let s := s.finishReads w true
  let ks := quotaSlots (s.tile (Who.tile w)) b
  let s := ks.foldl (fun s k => s.slotRead w k) s
  let t := s.tile (Who.tile w)
  let mine := (List.finRange 8).filter fun k => (t.chans.get k).owner = Who.ctx w && (t.chans.get k).away
  let s := ((b.tf.map (·.grants)).getD []).foldl (fun s g => s.returnGrant w (some g)) s
  let saved : Saved :=
    { bank := b.topkFlush.keepFlags
      slots := ks.map fun k => (k, t.tag k, if (t.tag k).v && !(t.tag k).d then memRead t.sp (4096 * k) 4096 else [])
      chans := (mine.map fun k => (k, { t.chans.get k with grant := none })).filter fun c => c.2.st != .idle || c.2.armed }
  let s := mine.foldl (fun s k => s.cancelChan (Who.tile w) k) s
  let s := s.modTile (Who.tile w) fun t => ks.foldl clearTag { t with accFree := t.accFree + b.accBanks }
  (saved, s.modCtx w fun c => { c with shadow := none })

/-! ## A saved instance comes back (R391) -/

/-- A handle re-translated from its va with its permissions; a pin that it can no longer name is lowered. -/
def State.retranslate (s : State) (w : Who) (b : Bank) (h : Handle) (counts : Bool) : Handle × State :=
  if !h.valid then (h, s)
  else
    match lookup s w b.csr.asid b.csr.ptroot h.va.toNat with
    | (.leaf e level id, s) =>
      let ok := pteKind e != 3 && (!ptePRV e || b.priv) && (!h.rd || pteRD e) && (!h.w || leafW e level) && (!h.x || pteX e)
      let n := mkHandle e level id h.va.toNat (Tid.die (Who.tile w)) h.pinned 0
      if ok then ({ n with rd := h.rd, w := h.w, x := h.x }, s) else gone s
    | (_, s) => gone s
where
  gone (s : State) : Handle × State := ({ h with valid := false, pinned := false }, if counts && h.pinned then s.lowerPin h.id else s)

/-- A list of handles, in order. -/
def retranslateAll (w : Who) (b : Bank) (counts : Bool) : List Handle → State → List Handle × State
  | [], s => ([], s)
  | h :: hs, s =>
    let (x, s) := s.retranslate w b h counts
    let (xs, s) := retranslateAll w b counts hs s
    (x :: xs, s)

/-- The captured copies of queue entries. -/
def retranslateEntries (w : Who) (b : Bank) : List Entry → State → List Entry × State
  | [], s => ([], s)
  | e :: es, s =>
    let (hs, s) := retranslateAll w b false (e.cp.map (·.2)) s
    let (xs, s) := retranslateEntries w b es s
    ({ e with cp := List.zipWith (fun c h => (c.1, h)) e.cp hs } :: xs, s)

def vecOf16 (hs : List Handle) : Vector Handle 16 := Vector.ofFn fun i : Fin 16 => hs.getD i.val {}

/-- The copies of entries that a frame holds while the handler runs (R382). -/
def TfSave.handles (t : TfSave) : List Handle := t.copies.map (·.2.2.2)

/-- Every handle of a bank, and of the entries in its frame. -/
def State.retranslateBank (s : State) (w : Who) (b : Bank) : Bank × State :=
  let (ts, s) := retranslateAll w b false ((b.tf.map TfSave.handles).getD []) s
  let tf := b.tf.map fun t => { t with copies := List.zipWith (fun c h => (c.1, c.2.1, c.2.2.1, h)) t.copies ts }
  let (hs, s) := retranslateAll w b true (b.r.h.toList ++ [b.h15save]) s
  let (l, s) := retranslateEntries w b b.q.l s
  let (c, s) := retranslateEntries w b b.q.c s
  let (q, s) := retranslateEntries w b b.q.s s
  ({ b with tf, r := { b.r with h := vecOf16 hs }, h15save := hs.getD 16 {}, q := { b.q with l, c, s := q } }, s)

/-- A channel resumes in its state: it reads its launch record again through its re-translated handles; a running one whose record can no
longer be read faults at its next entry, and one whose copy needs a unit asks for it again (R391, R430, log 57). -/
def State.resumeChan (s : State) (w : Who) (b : Bank) (c : CopyChan) : CopyChan × State :=
  let (hs, s) := retranslateAll w b false c.caps.toList s
  let c := { c with caps := vecOf16 hs, fly := [], advs := [{ sc := c.sc }], owner := Who.ctx w }
  if c.st ≠ .run && c.st ≠ .fault then (c, s)
  else
    match s.readRecord w b c with
    | (some c, s) => ({ c with again := c.st == .run && cpBytes c.entries > 65536 }, s)
    | (none, s) => (if c.st = .run then { c with st := .fault, fcause := Cause.staleHandle, entries := [] } else { c with entries := [] }, s)

/-- A page that a saved state re-translates is being moved: its walk waits (R109, R119). -/
def walkMoves (s : State) (w : Who) (c : Csrs) (va : Nat) : Bool :=
  match (lookup s w c.asid c.ptroot va).1 with
  | .moving => true
  | _ => false

/-- The walks of a saved state, before it comes back. -/
def savedMoves (s : State) (w : Who) (x : Saved) : Bool :=
  let b := x.bank
  let hs := b.r.h.toList ++ [b.h15save] ++ ((b.q.l ++ b.q.c ++ b.q.s).flatMap fun e => e.cp.map (·.2)) ++
    ((b.tf.map TfSave.handles).getD []) ++ x.chans.flatMap fun k => k.2.caps.toList
  (hs.any fun h => h.valid && walkMoves s w b.csr h.va.toNat) ||
    x.chans.any fun k => (k.2.st == .run || k.2.st == .fault) && walkMoves s w b.csr k.2.recVa.toNat

/-- A slot saved with D = 1 comes back discarded (R391). -/
def Tile.putSlot (t : Tile) (x : Nat × SlotTag × List Byte) : Tile :=
  let t := t.setTag x.1 (if x.2.1.d then { x.2.1 with v := false, x := true } else x.2.1)
  if x.2.1.v && !x.2.1.d then { t with sp := memWrite t.sp (4096 * x.1) x.2.2 }.slotWritten x.1 else t

/-- Why a saved instance cannot come to a tile: saved data in an unusable slot, too few banks, a channel in use. -/
def loadFails (t : Tile) (x : Saved) : Option (BitVec 8 × Word) :=
  if x.slots.any fun s => s.2.1.v && !s.2.1.d && !usableSlot t s.1 then some (Cause.operandRange, 0)
  else if t.accFree < x.bank.accBanks then some (Cause.accFull, 0)
  else (x.chans.find? fun c => let st := (t.chans.get c.1).st; st == .run || st == .fault).map fun c => (Cause.copyBusy, w64 c.1.val)

/-- The saved state is put on the tile; the answer is its bank. `away` says that it goes to the shadow bank. -/
def State.bringBack (s : State) (w : Who) (x : Saved) (away : Bool) : Bank × State :=
  let s := s.modTile (Who.tile w) fun t => x.slots.foldl Tile.putSlot { t with accFree := t.accFree - x.bank.accBanks }
  let (b, s) := s.retranslateBank w { x.bank with z := x.bank.z.map fun z => if z.disc then { z with elems := [], tag := .empty } else z }
  let s := x.chans.foldl (fun s k =>
    let (c, s) := s.resumeChan w b k.2
    s.modTile (Who.tile w) fun t => { t with chans := t.chans.set k.1.val { c with away } k.1.isLt }) s
  (b, s)

/-! ## The bytes of an image (R392) -/

/-- A captured copy in 16 bytes. -/
def copyBytes (h : Handle) : List Byte := leBytes (h.va.toNat / 2 ^ 16 * 2 ^ 16 + h.attr) 8 ++ leBytes h.base.toNat 8

def handleOfAttr (va attr base id : Nat) : Handle :=
  { valid := bit attr 0, ready := bit attr 1, pinned := bit attr 2, rd := bit attr 3, w := bit attr 4, x := bit attr 5, prv := bit attr 6
    kind := BitVec.ofNat 2 (attr / 2 ^ 7), size := BitVec.ofNat 2 (attr / 2 ^ 9), rep := bit attr 11
    va := BitVec.ofNat 60 va, base := BitVec.ofNat 52 base, id := BitVec.ofNat 49 id }

/-- The privileged block. -/
def privBytes (b : Bank) : List Byte :=
  let c := b.csr
  let i := b.inst.getD { node := 0 }
  leBytes 1 4 ++ leBytes 0x1D8000 4 ++ leBytes i.record.toNat 8 ++ leBytes i.index 4 ++ leBytes i.queue.val 2 ++ leBytes (min i.att 255) 1 ++
    leBytes 0 1 ++ leBytes c.asid.toNat 2 ++ leBytes 0 2 ++ leBytes (c.spFirst.toNat + c.spCount.toNat * 2 ^ 16) 4 ++
    leBytes (c.ptroot.toNat * 2 ^ 16) 8 ++ leBytes c.trapvec.toNat 8 ++ leBytes (framebaseVa c) 8 ++ leBytes b.istate 8 ++
    leBytes c.trapcause 8 ++ leBytes c.trapinfo.toNat 8 ++ leBytes b.pts 8 ++ handleBytes b.h15save ++ leBytes 0 392

def imageHandle (h : Handle) : List Byte :=
  leBytes h.va.toNat 8 ++ leBytes h.attr 8 ++ leBytes h.base.toNat 8 ++ leBytes h.id.toNat 8 ++ leBytes 0 32

/-- The copies of the entries of one queue. -/
def imageCopies (first : Nat) (es : List Entry) : List (Nat × List Byte) :=
  es.mapIdx fun i e => (0x10600 + 32 * (first + i), copyBytes (e.handle 0).2 ++ copyBytes (e.handle 1).2)

def tileBytes (z : AccTile) : List Byte :=
  leBytes (z.rows.toNat + 4 * z.cols.toNat + flag z.int 4) 1 ++ leBytes z.banks 1 ++ leBytes (b2n z.disc) 1 ++ leBytes z.tag.code 1 ++ leBytes 0 12

def topkBytes (t : TopkList) : List Byte :=
  leBytes t.k 4 ++ leBytes t.tag.code 4 ++ leBytes t.entries.length 8 ++ t.entries.flatMap fun e => leBytes e.1.toNat 4 ++ leBytes e.2.toNat 4

/-- A result queue: its count and tags, then its entries. -/
def resultBytes (vs : List Vec) : List Byte :=
  leBytes vs.length 1 ++ leBytes (leNat (vs.map fun v => BitVec.ofNat 8 v.tag.code)) 63 ++ vs.flatMap fun v => leBytes v.bits.toNat 256

def chanBytes (c : CopyChan) : List Byte :=
  leBytes c.status 8 ++ leBytes c.wm 8 ++ leBytes c.lo 8 ++ leBytes c.hi 8 ++ leBytes c.recVa.toNat 8 ++ c.caps.toList.flatMap copyBytes

def pimBytes (p : PimCfg) : List Byte :=
  leBytes (b2n p.valid) 4 ++ leBytes p.k 4 ++ leBytes p.wf 4 ++ leBytes p.p 4 ++ leBytes p.q 4 ++ leBytes 0 44 ++ (List.range 4096).flatMap fun i => leBytes (p.elem i).toNat 2

/-- The contents of a tile's banks, row by row. -/
def accBytes (z : AccTile) : List Byte :=
  (List.range (z.nrows * z.ncols)).flatMap fun n => leBytes (z.get (n / z.ncols) (n % z.ncols)).toNat 4

/-- TRAPCAUSE and TRAPINFO of the frame in an image that a pre-emption saved (R373, R389, log 122). -/
def Csrs.asPreempt (c : Csrs) : Csrs := { c with inh := false, mck := false, trapClass := 0, trapCode := Cause.preempt, trapinfo := 0 }

/-- The channels that a saved state does not use. -/
def idleChans (x : Saved) : List (Fin 8) := (List.finRange 8).filter fun k => !x.chans.any (·.1 == k)

/-- An image, piece by piece; a channel not in use shows CPST 0 (R185, R391). -/
def imagePieces (x : Saved) : List (Nat × List Byte) :=
  let b := x.bank
  framePieces (if x.preempted then { b with csr := b.csr.asPreempt } else b) (b.r.hreg 15) { pc := b.f.pc } ++ [(0x10000, privBytes b), (0x10200, b.r.h.toList.flatMap imageHandle)] ++
    imageCopies 0 b.q.l ++ imageCopies 64 b.q.c ++ imageCopies 128 b.q.s ++ [(0x11E00, b.z.toList.flatMap tileBytes), (0x11F00, topkBytes b.topk)] ++
    [(0x12200, resultBytes b.topkQ), (0x12200 + 2112, resultBytes b.smpQ)] ++
    (x.chans.map fun c => (0x13400 + 512 * c.1.val, chanBytes c.2)) ++ ((idleChans x).map fun k => (0x13400 + 512 * k.val, leBytes 0 8)) ++ (x.slots.map fun s => (0x14400 + 8 * s.1, leBytes s.2.1.bits 8)) ++
    [(0x15000, pimBytes b.pim)] ++ (x.slots.map fun s => (0x18000 + 4096 * s.1, s.2.2)) ++
    ((List.finRange 16).filter fun i => !(b.z.get i).disc).map fun i => (0x198000 + 16384 * i.val, accBytes (b.z.get i))

/-! ## An image read back -/

def copyAt (ps : Pieces) (o : Nat) : Handle :=
  let x := ps.num o 8
  handleOfAttr (x / 2 ^ 16 * 2 ^ 16) (x % 2 ^ 16) (ps.num (o + 8) 8) 0

/-- The instance that an image names, by its node's entry in the table. -/
def instAt (s : State) (ps : Pieces) : Inst :=
  let record := w64 (ps.num 0x10008 8)
  let queue : Fin 1024 := ⟨ps.num 0x10014 2 % 1024, by omega⟩
  let st := ps.num 0x10038 8
  let e := s.hub.table.find? fun e => e.record == record && e.queue == queue
  { node := (e.map (·.id)).getD s.hub.nextId, record, index := ps.num 0x10010 4, queue, att := ps.num 0x10016 1, coop := bit st 3, lstep := bit st 2
    priv := bit st 1, abt := bit st 0, prio := (e.map (·.prio)).getD 0 }

def privCsrs (ps : Pieces) (c : Csrs) : Csrs :=
  let q := ps.num 0x1001C 4
  let tc := ps.num 0x10040 8
  { c with
    asid := BitVec.ofNat 16 (ps.num 0x10018 2), spFirst := BitVec.ofNat 9 q, spCount := BitVec.ofNat 9 (q / 2 ^ 16)
    ptroot := BitVec.ofNat 36 (ps.num 0x10020 8 / 2 ^ 16), trapvec := BitVec.ofNat 60 (ps.num 0x10028 8)
    framebase := BitVec.ofNat 44 (ps.num 0x10030 8 / 2 ^ 16), inh := bit tc 63, mck := bit tc 62, trapClass := BitVec.ofNat 8 (tc / 2 ^ 8)
    trapCode := BitVec.ofNat 8 tc, trapinfo := w64 (ps.num 0x10048 8) }

/-- A tile's configuration and, where it was saved, its contents. -/
def tileOfImage (ps : Pieces) (i : Nat) : AccTile :=
  let o := 0x11E00 + 16 * i
  let c := ps.num o 1
  let z : AccTile :=
    { int := bit c 4, cols := BitVec.ofNat 2 (c / 4), rows := BitVec.ofNat 2 c, banks := ps.num (o + 1) 1 % 16, disc := bit (ps.num (o + 2) 1) 0
      tag := tagAt ps (o + 3) }
  if z.disc then z
  else (List.range (z.nrows * z.ncols)).foldl (fun z n => z.set (n / z.ncols) (n % z.ncols) (BitVec.ofNat 32 (ps.num (0x198000 + 16384 * i + 4 * n) 4))) z

def topkOfImage (ps : Pieces) : TopkList :=
  { k := ps.num 0x11F00 4, tag := tagAt ps 0x11F04
    entries := (List.range (min 64 (ps.num 0x11F08 8))).map fun i =>
      (BitVec.ofNat 32 (ps.num (0x11F10 + 8 * i) 4), BitVec.ofNat 32 (ps.num (0x11F14 + 8 * i) 4)) }

def resultsOfImage (ps : Pieces) (o : Nat) : List Vec :=
  (List.range (min 8 (ps.num o 1))).map fun i => { bits := BitVec.ofNat 2048 (ps.num (o + 64 + 256 * i) 256), tag := tagAt ps (o + 1 + i) }

def chanOfImage (ps : Pieces) (k : Nat) : CopyChan :=
  let o := 0x13400 + 512 * k
  let x := ps.num o 8
  let st : ChanState := match x % 4 with | 1 => .run | 2 => .fault | 3 => .done | _ => .idle
  { st, sc := bits x 48 16, next := bits x 39 9, cnt := bits x 30 9, fcause := BitVec.ofNat 8 (x / 2 ^ 15), armed := bit x 13, armMem := bit x 14
    wm := ps.num (o + 8) 8, lo := ps.num (o + 16) 8, hi := ps.num (o + 24) 8, recVa := BitVec.ofNat 60 (ps.num (o + 32) 8)
    caps := Vector.ofFn fun i : Fin 16 => copyAt ps (o + 40 + 16 * i.val) }

def pimOfImage (ps : Pieces) : PimCfg :=
  ({ valid := bit (ps.num 0x15000 4) 0, k := ps.num 0x15004 4, wf := ps.num 0x15008 4, p := ps.num 0x1500C 4, q := ps.num 0x15010 4 } : PimCfg).setVec 0
    ((List.range 4096).map fun i => BitVec.ofNat 16 (ps.num (0x15040 + 2 * i) 2))

/-- A tag entry from its 64 bits (R162). -/
def SlotTag.ofBits (x : Nat) : SlotTag :=
  { v := bit x 63, f := bit x 62, d := bit x 61, p := bit x 60, vtag := BitVec.ofNat 48 (x / 2 ^ 12), x := bit x 11, own := bit x 10
    lay := BitVec.ofNat 3 (x / 2 ^ 7), fmt := BitVec.ofNat 4 (x / 2 ^ 3) }

/-- The slots of the image's quota. -/
def slotsOfImage (ps : Pieces) (c : Csrs) : List (Nat × SlotTag × List Byte) :=
  (List.range c.spCount.toNat).map fun i =>
    let k := c.spFirst.toNat + i
    let t := SlotTag.ofBits (ps.num (0x14400 + 8 * k) 8)
    (k, t, if t.v && !t.d then leBytes (ps.num (0x18000 + 4096 * k) 4096) 4096 else [])

/-- The state that an image holds. What an image has no place for takes its start value. -/
def savedOf (s : State) (ps : Pieces) : Saved :=
  let h (i : Nat) : Handle := let o := 0x10200 + 64 * i; handleOfAttr (ps.num o 8) (ps.num (o + 8) 8) (ps.num (o + 16) 8) (ps.num (o + 24) 8)
  let first (q : QName) : Nat := match q with | .l => 0 | .c => 64 | .s => 128
  let copies (q : QName) (i : Nat) : List Handle := let o := 0x10600 + 32 * (first q + i); [copyAt ps o, copyAt ps (o + 16)]
  let csr := privCsrs ps {}
  let b0 : Bank := { r := { h := Vector.ofFn fun i : Fin 16 => h i.val }, csr }
  let b := bankAt ps b0 {} copies
  let es := b.q.l ++ b.q.c ++ b.q.s
  { bank := { b with
      f := { b.f with sinceEret := 2, nextPos := es.foldl (fun a e => max a (e.pos + 1)) 0 }
      z := Vector.ofFn fun i : Fin 16 => tileOfImage ps i.val
      pim := pimOfImage ps, topk := topkOfImage ps, topkQ := resultsOfImage ps 0x12200, smpQ := resultsOfImage ps (0x12200 + 2112)
      inst := some (instAt s ps), pts := ps.num 0x10050 8
      h15save := handleOfAttr (ps.num 0x10058 8) (ps.num 0x10060 8) 0 (ps.num 0x10068 8)
      tf := if csr.inh then some {} else none }
    slots := slotsOfImage ps csr
    chans := ((List.finRange 8).map fun k => (k, chanOfImage ps k.val)).filter fun c => c.2.st != .idle || c.2.armed }

/-- The parts of an image that it uses are read. -/
def readImage (w : Who) (pa : Nat) : M Pieces := do
  let info := w64 pa
  let ps ← readFrame w pa info
  let blk ← readPiece w pa info 0x10000 0x7080
  let ps := ps ++ [blk]
  let c := privCsrs ps {}
  let slots ← ((List.range c.spCount.toNat).filter fun i =>
    let t := SlotTag.ofBits (Pieces.num ps (0x14400 + 8 * (c.spFirst.toNat + i)) 8); t.v && !t.d).mapM fun i =>
      readPiece w pa info (0x18000 + 4096 * (c.spFirst.toNat + i)) 4096
  let tiles ← ((List.range 16).filter fun i => let z := tileOfImage ps i; z.banks != 0 && !z.disc).mapM fun i =>
    readPiece w pa info (0x198000 + 16384 * i) 16384
  return ps ++ slots ++ tiles

/-! ## The words (R389 to R391) -/

/-- The address that `ctx.save` and `ctx.load` name: 64 KiB-aligned, in local LP6. -/
def imageAddr (w : Who) (f : FS) : M Nat := do
  let a := (← getB w).r.sreg f.a
  ensure (a.toNat % 65536 = 0 && isLocal a.toNat) Cause.misalignedAddr a
  return a.toNat

/-- `ctx.swap` waits until nothing of the context is under way. -/
def ctxSwapBody (word : BitVec 48) (w : Who) : M Unit := do
  privileged w word
  ensure ((← get).ctx w).shadow.isSome Cause.operandRange (wordInfo word)
  draining do
    let b ← getB w
    if queueBusy b .c || inProgress b then waitFor .drain
    postedFirst w

def execCtxSwap (h : Hdr) (f : FS) (s : State) : Host.Outcome State Fault Refusal :=
  .next (feThen h (wordOf 0xE2 h f.toBody) (ctxSwapBody (wordOf 0xE2 h f.toBody))
    (fun _ s w => s.modCtx w fun c => { c with status := .swapping s.now }) s)

/-- The image is written, line by line, once no copy of its lines is with the host. -/
def writeImage (w : Who) (pa : Nat) (x : Saved) : M Unit := do
  for p in imagePieces x do
    remapWait w (pa + p.1) p.2.length
    snoopHost (pa + p.1) p.2.length
  outbound w
  modS fun s => s.writePieces w pa (imagePieces x)

def ctxSaveBody (f : FS) (word : BitVec 48) (w : Who) : M Unit := do
  privileged w word
  match ((← get).ctx w).shadow with
  | none => trap Cause.operandRange (wordInfo word)
  | some b =>
    let pa ← imageAddr w f
    draining do
      if !shadowQuiet (← get) w b then waitFor .drain
      postedFirst w
      whole do
        let (x, s) := (← get).takeShadow w b
        set (s.releaseWindow w)
        writeImage w pa x

def execCtxSave (h : Hdr) (f : FS) (s : State) : Host.Outcome State Fault Refusal :=
  .next (feWord h (wordOf 0xE3 h f.toBody) (fun w => ctxSaveBody f (wordOf 0xE3 h f.toBody) w) s)

def ctxLoadBody (f : FS) (word : BitVec 48) (w : Who) : M Unit := do
  privileged w word
  ensure ((← get).ctx w).shadow.isNone Cause.operandRange (wordInfo word)
  let pa ← imageAddr w f
  postedFirst w
  remapWait w pa 0x1D8000
  let ps ← readImage w pa
  let s ← get
  let x := savedOf s ps
  let own := (s.bank w).csr
  let clash := rangesMeet (own.spFirst.toNat, own.spCount.toNat) (x.bank.csr.spFirst.toNat, x.bank.csr.spCount.toNat)
  ensure (frameOk ps && ps.num 0x10000 4 = 1 && !clash) Cause.operandRange (wordInfo word)
  if savedMoves s w x then waitFor .other
  match loadFails (s.tile (Who.tile w)) x with
  | some (c, i) => trap c (if c = Cause.operandRange then wordInfo word else i)
  | none =>
    modS fun s =>
      let (b, s) := s.bringBack w x true
      s.modCtx w fun c => { c with shadow := some b }

def execCtxLoad (h : Hdr) (f : FS) (s : State) : Host.Outcome State Fault Refusal :=
  .next (feWord h (wordOf 0xE4 h f.toBody) (fun w => ctxLoadBody f (wordOf 0xE4 h f.toBody) w) s)

/-! ## The end of an exchange (R357, R389) -/

/-- The two banks have changed places; the window stays with the context. -/
def State.exchange (s : State) (w : Who) (incoming : Bank) : State :=
  let s := s.dropWaits w
  let s := (s.modCtx w fun c =>
    { c with
      status := .running
      shadow := some (c.b.stand s.now)
      b := { incoming with pwr := c.b.pwr, pwrSerial := c.b.pwrSerial, c := { incoming.c with lastC := c.b.c.lastC } }.runTimer s.now }).toggleAway w
  (s.thaw w []).syncTime (Who.tile w)

/-- Where an image area of firmware begins: a frame of local LP6 below the last 0x1D8000 bytes (log 62). -/
def imageArea (k : Nat) : Nat := 65536 * (Config.imageArea k % 0x5FFFE0)

/-- The lowest image area that no saved instance uses. -/
def State.freeArea (s : State) : Nat :=
  let used := (s.hub.pool ++ s.hub.d3saved ++ s.hub.pageIns.map (·.pool)).filterMap fun p => p.saved.map (·.area)
  ((List.range (used.length + 1)).find? fun k => !used.contains k).getD 0

/-- The image of a saved state is written to an image area. -/
def State.keepImage (s : State) (w : Who) (x : Saved) : Saved × State :=
  let x := { x with area := s.freeArea }
  (x, s.writePieces w (imageArea x.area) (imagePieces x))

/-- A pre-empted instance is saved: its image is written to an image area, PREEMPT is recorded in the hub log and in what is saved, and it returns to the ready pool with a fresh
wait (R356, R357, R373, R389, logs 62, 122). -/
def State.saveOut (s : State) (w : Who) (b : Bank) : State :=
  let stopped := (s.ctx w).halted
  let (x, s) := s.takeShadow w b
  let s := (s.modCtx w fun c => { c with status := .idle, preempt := false, halted := false }).stopMirror w
  match b.inst with
  | none => s
  | some i =>
    let s := s.hubLog 0 0 (ctxid16 w) 0 Cause.preempt
    let (x, s) := s.keepImage w { x with preempted := true, stopped }
    let p : PoolEnt := { node := i.node, index := i.index, att := i.att, since := 0, saved := some x }
    if s.hub.power == .d0 then s.requeue p else s.modHub fun h => { h with d3saved := h.d3saved ++ [p] }

def execShadowSwapDone (w : Who) (s : State) : Host.Outcome State Fault Refusal :=
  .next (match (s.ctx w).status, (s.ctx w).shadow with
    | .swapping t, some b =>
      if s.now < t + 96 then s
      else if !(s.ctx w).preempt then s.exchange w b
      else if shadowQuiet s w b then s.saveOut w b
      else s
    | _, _ => s)

end Sys2Proof.Machine
end

