-- ==== Sys2Proof/Machine/Place.lean ====
section
/-! DEFINITION. Placement, pre-emption and `task.yield` (R345, R346, R356 to R359, R365, R409). -/
namespace Sys2Proof.Machine

/-! ## What an instance starts with (R345, R346) -/

/-- The value of each level for instance `i`, innermost spatial level fastest, and what is left of the number. -/
def levelValues : List (Nat × Nat) → Nat → List Nat × Nat
  | [], i => ([], i)
  | (k, x) :: ls, i =>
    let (vs, r) := levelValues ls i
    if k = 0 then (x :: vs, r) else (r % x :: vs, r / x)

/-- The die that the instance's `die` level names. -/
def dieIndex (e : NodeEnt) (i : Nat) : Option Nat :=
  ((e.extents.zip (levelValues e.extents i).1).find? (·.1.1 == 2)).map (·.2)

/-- The quota that an instance has on context `x` of a tile. -/
def quotaOf (e : NodeEnt) (p : PoolEnt) (x : Fin 2) : Nat × Nat :=
  match p.saved with
  | some s => (s.bank.csr.spFirst.toNat, s.bank.csr.spCount.toNat)
  | none => if e.qcount = 0 then (192 * x.val, 192) else (e.qfirst, e.qcount)

def startRegs (e : NodeEnt) (p : PoolEnt) (h0 : Handle) : Regs :=
  let vs := (levelValues e.extents p.index).1
  let r : Regs := {}
  { r with
    s := Vector.ofFn fun i : Fin 32 =>
      if i.val = 7 then w64 e.argsOf else if i.val = 8 then w64 p.att else if i.val = 0 then 0 else w64 (if i.val ≤ 6 then vs.getD (i.val - 1) 0 else 0)
    h := r.h.set 0 h0 }

def instOf (e : NodeEnt) (priv : Bool) (p : PoolEnt) : Inst :=
  { node := e.id, record := e.record, index := p.index, queue := e.queue, att := p.att, coop := e.coop, lstep := e.lstep, priv, prio := e.prio }

/-- The CSRs at instance start. -/
def startCsrs (d : QDesc) (e : NodeEnt) (q : Nat × Nat) : Csrs :=
  let c : Csrs := {}
  { c with
    asid := d.asid, ptroot := BitVec.ofNat 36 (d.ptroot.toNat / 2 ^ 16), trapvec := BitVec.ofNat 60 d.trapvec.toNat
    framebase := BitVec.ofNat 44 (d.framebase.toNat / 2 ^ 16), qslip := if e.slip = 0 then 64 else qslipValue (w64 e.slip)
    spFirst := BitVec.ofNat 9 q.1, spCount := BitVec.ofNat 9 q.2 }

/-- What the translation of the argument page comes to. -/
inductive ArgPage where
  | page (h : Handle)
  | absent
  | moving
deriving DecidableEq, Repr

/-- h0: the argument page as `xlat.r` without pin translates it. -/
def State.argPage (s : State) (w : Who) (e : NodeEnt) : ArgPage × State :=
  let va := e.argsOf
  let d := s.qdesc e.queue
  if va = 0 || va ≥ 2 ^ 60 then (.page {}, s)
  else
    match lookup s w d.asid (BitVec.ofNat 36 (d.ptroot.toNat / 2 ^ 16)) va with
    | (.leaf pte level id, s) =>
      if pteKind pte = 3 || (ptePRV pte && !d.priv) || !pteRD pte then (.page {}, s)
      else (.page (mkHandle pte level id va (Tid.die (Who.tile w)) false s.now), s)
    | (.notPresent, s) => (.absent, s)
    | (.poisoned _, s) => (.page {}, s)
    | (.moving, s) => (.moving, s)

/-! ## Which instance comes next, and where it may go (R356 to R358) -/

/-- The effective priority of an instance in the pool. -/
def effPrio (s : State) (e : NodeEnt) (p : PoolEnt) : Nat := min 7 (e.prio + (s.sched16 - p.since) / 1024)

/-- The pool with the nodes of its instances. -/
def poolNodes (s : State) : List (NodeEnt × PoolEnt) := s.hub.pool.filterMap fun p => (s.node? p.node).map fun e => (e, p)

/-- `a` goes before `b`. -/
def goesBefore (s : State) (a b : NodeEnt × PoolEnt) : Bool :=
  let key (x : NodeEnt × PoolEnt) : List Nat := [b2n (!x.2.first), 7 - effPrio s x.1 x.2, x.2.since, x.1.queue.val, x.1.id, x.2.index]
  decide (key a < key b)

def insertBy {α : Type} (lt : α → α → Bool) (x : α) : List α → List α
  | [] => [x]
  | y :: ys => if lt x y then x :: y :: ys else y :: insertBy lt x ys

/-- The pool in the order of placement. -/
def poolOrder (s : State) : List (NodeEnt × PoolEnt) := (poolNodes s).foldl (fun acc x => insertBy (goesBefore s) x acc) []

/-- The tile is one on which the node's instance may be placed, whatever runs there: cluster, die, fence, probation (R345, R357, R407). -/
def tilePermits (s : State) (e : NodeEnt) (p : PoolEnt) (t : Tid) : Bool :=
  bit e.clusters (Tid.cluster t).val && ((dieIndex e p.index).map (· == Tid.die t)).getD true && !s.hub.fenced.contains t && !s.hub.retired.contains t &&
    (match e.katTile with
      | some k => k == t
      | none => !s.hub.probation.contains t)

/-- The instance's quota and saved parts fit on the tile beside what occupies it. -/
def fitsOn (s : State) (e : NodeEnt) (p : PoolEnt) (w : Who) : Bool :=
  !((otherQuotas s w).any (rangesMeet (quotaOf e p (Who.ctx w)))) && (p.saved.bind fun x => loadFails (s.tile (Who.tile w)) x).isNone

/-- The trailing copy of a lockstep instance finds its place. -/
def partnerOk (s : State) (e : NodeEnt) (p : PoolEnt) (w : Who) : Bool :=
  !e.lstep || (match partnerOf w with
    | none => false
    | some v => (s.ctx v).status == .idle && tilePermits s e p (Who.tile v) && fitsOn s e { p with saved := none } v)

/-- The instance may be placed on the context; the clusters of `barred` are closed to it. -/
def suits (s : State) (barred : Nat) (w : Who) (x : NodeEnt × PoolEnt) : Bool :=
  (s.ctx w).status == .idle && !bit barred (Tid.cluster (Who.tile w)).val && tilePermits s x.1 x.2 (Who.tile w) && fitsOn s x.1 x.2 w && partnerOk s x.1 x.2 w

/-- The order in which the scheduler looks for a context: context 0 of every tile, and then context 1 (DESIGN CHOICE, log 138). -/
def contextOrder : List Who := (List.finRange 72).map (who · 0) ++ (List.finRange 72).map (who · 1)

def somewhere (s : State) (barred : Nat) (x : NodeEnt × PoolEnt) : Option Who := contextOrder.find? fun w => suits s barred w x

/-! ## Placing (R346, R359, R391) -/

/-- The trailing copy mirrors the leading one on its own tile (R409). -/
def State.placeMirror (s : State) (w : Who) (e : NodeEnt) (p : PoolEnt) : State :=
  match if e.lstep then partnerOf w else none with
  | none => s
  | some v =>
    s.modCtx v fun c =>
      { c with
        status := .mirror w
        b := { c.b.leave with csr := startCsrs (s.qdesc e.queue) e (quotaOf e p (Who.ctx v)), inst := some (instOf e (s.qdesc e.queue).priv p) } }

/-- The instance leaves the pool and is counted as placed, once (R352, R368). -/
def State.leavePool (s : State) (p : PoolEnt) : State :=
  let s := s.modHub fun h => { h with pool := h.pool.filter (· != p) }
  if p.att = 0 && p.saved.isNone then
    s.modNode p.node fun e => { e with placed := e.placed + 1, st := if e.placed + 1 = e.total then .running else e.st }
  else s

/-- The instance starts on the context, or resumes there as it was saved. -/
def State.place (s : State) (w : Who) (e : NodeEnt) (p : PoolEnt) (h0 : Handle) : State :=
  let s := (s.leavePool p).placeMirror w e p
  match p.saved with
  | none =>
    let d := s.qdesc e.queue
    let b : Bank :=
      { (s.bank w).leave with
        r := startRegs e p h0, csr := startCsrs d e (quotaOf e p (Who.ctx w)), f := { pc := BitVec.ofNat 60 e.entry }, inst := some (instOf e d.priv p)
        pts := max (s.tile (Who.tile w)).lt e.time, hostSeen := e.hostSeen }
    (s.modCtx w fun c => { c with status := .running, b := b.runTimer s.now, preempt := false }).syncTime (Who.tile w)
  | some x =>
    let was := (s.bank w).leave
    let (b, s) := s.bringBack w x false
    let s := s.modCtx w fun c =>
      { c with status := if x.stopped then .stopped else .running, b := { b with pwr := none, pwrSerial := was.pwrSerial, c := { b.c with lastC := was.c.lastC }, pts := max b.pts e.time }.runTimer s.now, preempt := false }
    (s.thaw w []).syncTime (Who.tile w)

/-- The instance leaves the pool until firmware has brought its argument page in (R346). -/
def State.bringArgs (s : State) (x : NodeEnt × PoolEnt) : State :=
  s.modHub fun h =>
    { h with
      pool := h.pool.filter (· != x.2)
      pageIns := h.pageIns ++ [{ va := w64 x.1.argsOf, asid := x.1.asid, pool := x.2, unplaced := true }] }

/-- The instance is placed, unless its argument page must come in first. -/
def State.placeOn (s : State) (w : Who) (x : NodeEnt × PoolEnt) : State :=
  if x.2.saved.isSome then if x.2.saved.any (savedMoves s w) then s else s.place w x.1 x.2 {}
  else
    match s.argPage w x.1 with
    | (.page h, s) => s.place w x.1 x.2 h
    | (.moving, s) => s
    | (.absent, s) => s.bringArgs x

/-- Room for every instance of a list, each placed before the next is considered; `w` is taken first (R358). -/
def roomForAll (barred : Nat) : List (NodeEnt × PoolEnt) → Option Who → State → Option (List ((NodeEnt × PoolEnt) × Who))
  | [], _, _ => some []
  | x :: xs, first, s =>
    match (match first with | some w => if suits s barred w x then some w else none | none => somewhere s barred x) with
    | none => none
    | some w =>
      let s := (s.modCtx w fun c => { c with status := .running, b := { c.b with csr := startCsrs {} x.1 (quotaOf x.1 x.2 (Who.ctx w)) } }).placeMirror w x.1 x.2
      (roomForAll barred xs none s).map fun r => (x, w) :: r

/-- The instances of a cooperative node that are to be placed together. -/
def coopGroup (s : State) (n : Nat) : List (NodeEnt × PoolEnt) := (poolOrder s).filter fun x => x.1.id == n

/-- What the scheduler places next: an instance, or every instance of a cooperative node. -/
inductive Choice where
  | one (x : NodeEnt × PoolEnt)
  | all (n : Nat)
deriving DecidableEq, Repr

/-- The first of the pool that has room. A cooperative node without room keeps the rest out of its clusters (R358); an instance without
room keeps back the later ones of its node (R346, R356). -/
def chooseIn (s : State) : List (NodeEnt × PoolEnt) → Nat → List (Nat × Nat) → Option (Choice × Nat)
  | [], _, _ => none
  | x :: xs, barred, late =>
    if x.1.coop then
      let g := coopGroup s x.1.id
      if s.hub.pageIns.any (·.pool.node == x.1.id) || (roomForAll barred g none s).isNone then chooseIn s xs (barred ||| x.1.clusters) late
      else some (.all x.1.id, barred)
    else if late.any fun y => y.1 == x.1.id && y.2 < x.2.index then chooseIn s xs barred late
    else if (somewhere s barred x).isSome then some (.one x, barred)
    else chooseIn s xs barred ((x.1.id, x.2.index) :: late)

/-- Instances whose argument page is being brought in keep back the later ones of their node too (R346, R356). -/
def chooseNext (s : State) (pool : List (NodeEnt × PoolEnt)) (barred : Nat) : Option (Choice × Nat) :=
  chooseIn s pool barred ((s.hub.pageIns.filter (·.unplaced)).map fun p => (p.pool.node, p.pool.index))

/-- The argument pages of the instances of a group that start afresh: what keeps the group from being placed, with the instance. -/
def State.groupPages (s : State) : List ((NodeEnt × PoolEnt) × Who) → Option (ArgPage × (NodeEnt × PoolEnt)) × State
  | [] => (none, s)
  | (x, w) :: r =>
    if x.2.saved.any (savedMoves s w) then (some (.moving, x), s)
    else if x.2.saved.isSome then s.groupPages r
    else
      match s.argPage w x.1 with
      | (.page _, s) => s.groupPages r
      | (.absent, s) => (some (.absent, x), s)
      | (.moving, s) => (some (.moving, x), s)

/-- Every instance of a cooperative node is placed in one step, or none (R358). -/
def State.placeAll (s : State) (w : Who) (n barred : Nat) : State :=
  match roomForAll barred (coopGroup s n) (some w) s with
  | none | some [] => s
  | some g =>
    match s.groupPages g with
    | (none, s) => g.foldl (fun s x => s.placeOn x.2 x.1) s
    | (some (.absent, x), s) => s.bringArgs x
    | (some (.moving, _), s) | (some (.page _, _), s) => s

/-- The scheduler works: powered, not halted, and not being taken over (R369, R438). -/
def scheduling (s : State) : Bool := s.hub.power == .d0 && !s.hub.cores.down

def execPlaceInstance (w : Who) (s : State) : Host.Outcome State Fault Refusal :=
  .next (if !scheduling s then s
    else
      match chooseNext s (poolOrder s) 0 with
      | some (.one x, barred) => if suits s barred w x then s.placeOn w x else s
      | some (.all n, barred) => s.placeAll w n barred
      | none => s)

/-! ## Pre-emption (R357, R389) -/

/-- The instance that waits without room and would have it on this context, whose own instance is none of its concern. -/
def wantsContext (s : State) (w : Who) (x : NodeEnt × PoolEnt) : Bool :=
  (somewhere s 0 x).isNone && tilePermits s x.1 x.2 (Who.tile w) && fitsOn s x.1 x.2 w

/-- The running instance may be pre-empted for `x`: not cooperative, its shadow bank free, its priority at least 2 below. -/
def mayPreempt (s : State) (x : NodeEnt × PoolEnt) (w : Who) : Bool :=
  let c := s.ctx w
  c.status == .running && c.shadow.isNone && !c.preempt && wantsContext s w x && (match c.b.inst with
    | some i => !i.coop && i.prio + 2 ≤ effPrio s x.1 x.2
    | none => false)

/-- Of these it takes one of the lowest priority. -/
def preempts (s : State) (w : Who) (x : NodeEnt × PoolEnt) : Bool :=
  let prio (v : Who) : Nat := ((s.bank v).inst.map (·.prio)).getD 0
  mayPreempt s x w && ((List.finRange 144).filter (mayPreempt s x)).all fun v => prio w ≤ prio v

/-- A pre-emption that was asked for begins at a recognition point (R375, R389). -/
def State.beginPreempt (s : State) (w : Who) : State :=
  if (s.ctx w).status == .running && (s.ctx w).preempt && atPoint (s.bank w) then
    (s.modCtx w fun c => { c with status := .trapping }).tryPark w
  else s

def execPreempt (w : Who) (s : State) : Host.Outcome State Fault Refusal :=
  .next (if scheduling s && (poolOrder s).any (preempts s w) then (s.modCtx w fun c => { c with preempt := true }).beginPreempt w else s)

/-! ## task.yield (R365) -/

/-- The pool holds an instance permitted on this tile at or above the yielding node's own priority. -/
def yieldsTo (s : State) (w : Who) : Bool :=
  (s.ctx w).shadow.isNone && scheduling s && (match (s.bank w).inst with
    | none => false
    | some i => (poolNodes s).any fun x => tilePermits s x.1 x.2 (Who.tile w) && i.prio ≤ effPrio s x.1 x.2)

def taskYieldBody (w : Who) : M Bool := do
  apxClear w
  draining (quiet w)
  return yieldsTo (← get) w

def execTaskYield (h : Hdr) (f : FS) (s : State) : Host.Outcome State Fault Refusal :=
  .next (feThen h (wordOf 0x37 h f.toBody) taskYieldBody (fun go s w =>
    if go then (s.modCtx w fun c => { c with status := .trapping, preempt := true }).tryPark w else s) s)

end Sys2Proof.Machine
end

