-- ==== Sys2Proof/Machine/Graph.lean ====
section
/-! DEFINITION. The scheduler's own steps: parsing queues, control nodes, nodes of other executors, renamed ranges, triggers,
the take-over (R347 to R355, R368, R369). -/
namespace Sys2Proof.Machine

/-! ## Queues (R347 to R349) -/

def execHostTailWrite (q : Fin 1024) (tail : BitVec 32) (s : State) : Host.Outcome State Fault Refusal := .next ((s.writeTail q tail).modQd q fun d => { d with submitted := s.hub.hostSer })

/-- The flags byte of a descriptor is written; setting EN sets the kick bit. -/
def execQueueEnWrite (q : Fin 1024) (flags : BitVec 8) (s : State) : Host.Outcome State Fault Refusal :=
  .next (let was := (s.qdesc q).en
    let s := s.modQd q fun d => { d with en := flags.getLsbD 0, priv := flags.getLsbD 1, devok := flags.getLsbD 2 }
    if !was && flags.getLsbD 0 then s.setKick q else s)

/-- The event words that the table watches, each once. -/
def watchedWords (s : State) : List (BitVec 52) :=
  ((s.hub.table.filter fun e => e.st == .arriving || e.st == .waitEvt).filterMap (·.evPa)).eraseDups

/-- EVW would be a 257th watched word. -/
def watchFull (s : State) (q : Fin 1024) (evw : Nat) : Bool :=
  evw ≠ 0 && evw % 8 = 0 && (match (s.hubTranslate q evw { rd := true }).1 with
    | none => false
    | some pa => let ws := watchedWords s; ws.length ≥ 256 && !ws.contains (BitVec.ofNat 52 pa))

/-- HEAD moves past an entry that has been taken. -/
def State.advanceHead (s : State) (q : Fin 1024) : State :=
  ((s.modQd q fun d => { d with head := BitVec.ofNat 32 ((d.head.toNat + 1) % 2 ^ d.size.toNat) }).modHub fun h =>
    { h with lastBusy := kvPut h.lastBusy q.val s.sched16 }).resettle

/-- Entries from HEAD to TAIL, at most `n`, as long as there is space (R349). -/
def State.parseQueue (s : State) (q : Fin 1024) : Nat → State
  | 0 => s
  | n + 1 =>
    let d := s.qdesc q
    if d.head.toNat = d.tail.toNat % 2 ^ d.size.toNat then s
    else if s.hub.table.length ≥ 4096 || !s.hub.remap.isEmpty || homeStalls s ((d.ring.toNat + 32 * d.head.toNat) / 64) then s.setKick q
    else
      let pa := d.ring.toNat + 32 * d.head.toNat
      let (b, p, t) := s.hubRead pa 32 2
      let x := leNat b
      if p then ((t.reportFailed q (w64 (bits x 0 64))).advanceHead q).parseQueue q n
      else if watchFull t q (bits x 128 64) then s.setKick q
      else if nodeMoving t q (bits x 0 64) (bits x 64 64) (bits x 128 64) then (s.askArgs q (bits x 64 64) [bits x 0 64]).setKick q
      else ((t.newNode q (bits x 0 64) (bits x 64 64) (bits x 128 64) (bits x 192 64) none (t.timeAt pa)).advanceHead q).parseQueue q n

/-- A set kick bit is taken: it is cleared, and an enabled queue is parsed. -/
def State.takeKick (s : State) (q : Fin 1024) : State :=
  if !bit s.hub.kick.toNat q.val then s
  else
    let s := s.modHub fun h => { h with kick := h.kick &&& ~~~(1#1024 <<< q.val) }
    if (s.qdesc q).en then s.parseQueue q 65536 else s

def execKickParse (q : Fin 1024) (s : State) : Host.Outcome State Fault Refusal := .next (if scheduling s then s.takeKick q else s)

/-! ## Accesses of the hub over several pages -/

/-- Addresses translated with a need; none where one fails. -/
def State.hubAddrs (s : State) (q : Fin 1024) (need : Need) : List Nat → Option (List Nat) × State
  | [] => (some [], s)
  | va :: vs =>
    match s.hubTranslate q va need with
    | (none, s) => (none, s)
    | (some pa, s) =>
      let (r, s) := s.hubAddrs q need vs
      (r.map (pa :: ·), s)

/-- An ordinary write of the hub within a line, seen by the watches; the instances of the node come before it. -/
def State.hubStore (s : State) (pa : Nat) (bs : List Byte) (time : Nat) (poison : Bool := false) : Nat × State :=
  if reaches s pa then
    let (t, s) := s.homeWrite (pa / 64) (byteMask (pa % 64) bs.length) (placeBytes (pa % 64) bs) time none 0xFFFF poison
    (t, s.checkEvents (pa / 64))
  else (time, s.hubLog 13 (w64 pa) 0xFFFF)

/-- The node is DONE at a logical time. -/
def State.doneAt (s : State) (id t : Nat) : State := ((s.modNode id fun e => { e with endTime := max e.endTime t }).nodeDone id).resettle

/-! ## Control nodes (R353) -/

/-- The entry that a loop's body has in the table. -/
def State.bodyOfLoop (s : State) (e : NodeEnt) (va : Nat) : State :=
  match s.hub.table.reverse.find? fun x => x.queue == e.queue && x.record.toNat == va && x.id != e.id with
  | none => s
  | some x => s.modNode x.id fun y => { y with loopOf := some e.id }

def State.evalControl (s : State) (e : NodeEnt) : State :=
  let va := e.ctl
  match if va % 8 = 0 then s.hubTranslate e.queue va { rd := true } else (none, s) with
  | (none, s) => s.failNode e.id
  | (some pa, s) =>
    let (b, p, s) := s.hubRead pa 8 2
    if p then s.failNode e.id
    else
      let v := leNat b
      let s := s.modNode e.id fun x => x.after (s.timeAt pa)
      if e.kind = 1 then s.nodeDoneWith e.id (((if v ≠ 0 then e.succ 0 else e.succ 1).toList) ++ (e.succ 2).toList)
      else if e.kind = 3 then s.nodeDoneWith e.id (if v < 3 then (e.succ v).toList else [])
      else if v = 0 then s.nodeDoneWith e.id (e.succ 1).toList
      else
        match e.succ 0 with
        | none => s.failNode e.id
        | some b =>
          let t := ((s.node? e.id).map (·.time)).getD 0
          ((s.modNode e.id fun x => { x with st := .running }).arrive e.queue b t).bodyOfLoop e b

def execControlEval (n : Nat) (s : State) : Host.Outcome State Fault Refusal :=
  .next (match s.node? n with
    | none => s
    | some e =>
      let succs := (List.range 3).filterMap e.succ
      if !scheduling s || e.st != .eval then s
      else if hubMoving s e.queue e.ctl || succs.any fun va => nodeMoving s e.queue va 0 0 then s.askArgs e.queue 0 succs
      else (s.evalControl e).resettle)

/-! ## Nodes of other executors (R354) -/

/-- The ranges of virtual addresses that a node of another executor names: what its record or its block at ARGS says. -/
def nodeSpans (s : State) (e : NodeEnt) : List (Nat × Nat) :=
  if e.kind = 6 then [(e.entry, 8)]
  else
    match s.hubReadVa e.queue e.argsOf 32 2 with
    | (none, _) => [(e.argsOf, 32)]
    | (some b, _) =>
      let blk := leNat b
      (e.argsOf, 32) :: if e.kind = 5 then [(bits blk 0 64, 256), (bits blk 64 64, 256), (bits blk 128 64, 16)]
        else [(bits blk 0 64, 2 * bits blk 192 16), (bits blk 64 64, 4096 * min 16384 (bits blk 224 32)), (bits blk 128 64, 4 * min 16384 (bits blk 224 32))]

/-- A page that the node names is being moved: its executor waits (R119). -/
def nodeWaitsMove (s : State) (e : NodeEnt) : Bool :=
  (nodeSpans s e).any fun x => (List.range (x.2 / 65536 + 2)).any fun k => hubMoving s e.queue (x.1 + min (65536 * k) (x.2 - 1))

/-- A bank node whose units have been granted runs to completion while the part goes to D3hot (R438). -/
def acceptedNode (s : State) (n : Nat) : Bool :=
  (match s.hub.power with
    | .d3entry _ => !s.hub.cores.down
    | .d0 | .d3hot | .recovery | .off | .boot => false) &&
    s.clusters.toList.any fun c => c.gov.toList.any fun g => g.ready.any (nodeReq n)

/-- A node of a kind that is ready for its executor. -/
def readyNode (s : State) (n kind : Nat) : Option NodeEnt :=
  (s.node? n).filter fun e => e.st == .ready && e.kind == kind && (scheduling s || acceptedNode s n) && !nodeWaitsMove s e

/-- The lowest cluster that CLUSTERS permits (R429). -/
def firstCluster (e : NodeEnt) : Option Cid := (List.finRange 18).find? fun c => bit e.clusters c.val

/-- The bank node's units, granted in the governor's order: whether it has them. -/
def State.nodeUnits (s : State) (c : Cid) (n units : Nat) : Bool × State :=
  let g := (s.cluster c).govAt 1
  let s := if g.reqs.any (nodeReq n) || g.ready.any (nodeReq n) then s
    else s.modCluster c fun x => x.modGov 1 fun g => { g with reqs := g.reqs ++ [{ who := 0, units, node := some n }] }
  let s := if ((s.cluster c).govAt 1).ready.any (nodeReq n) then s else s.serveGrant c 1
  (((s.cluster c).govAt 1).ready.any (nodeReq n), s)

/-- Its units return. -/
def State.dropNodeUnits (s : State) (c : Cid) (n units : Nat) : State :=
  s.modCluster c fun x => x.modGov 1 fun g => { g with used := g.used - units, ready := g.ready.filter fun r => !nodeReq n r }

/-- Rows of a bank node: weight and destination addresses, in order. -/
def State.bankRows (s : State) (cfg : PimCfg) (seen t : Nat) : List (Nat × Nat) → Nat × State
  | [] => (t, s)
  | (wt, dst) :: r =>
    let ((v, _), p, s) := s.pimRow cfg wt seen
    let (t', s) := s.hubStore dst (leBytes v 4) t p
    s.bankRows cfg seen (max t t') r

/-- The parts of a bank node's block. -/
def bankCfg (blk : Nat) (vec : List Byte) : PimCfg :=
  let k := bits blk 192 16
  ({ valid := true, k, wf := bits blk 208 8, p := bits blk 216 4, q := bits blk 220 4 } : PimCfg).setVec 0
    ((List.range k).map fun i => BitVec.ofNat 16 (leNat ((vec.drop (2 * i)).take 2)))

/-- The conditions of `pim.cfg` and `pim.mv` on the block of a bank node (R93 to R95). -/
def bankLegal (blk : Nat) : Bool :=
  let c := bankCfg blk []
  let n := bits blk 224 32
  c.wf ≤ 3 && (c.wf ≠ 3 || (2 ≤ c.p && c.p ≤ 8 && c.p ≤ c.q && c.q ≤ 8)) && pimKOk c.wf c.q c.k && bits blk 0 64 % 64 = 0 &&
    bits blk 64 64 % 4096 = 0 && bits blk 128 64 % 64 = 0 && 1 ≤ n && n ≤ 16384

def State.bankNode (s : State) (e : NodeEnt) : State :=
  match s.hubReadVa e.queue e.argsOf 32 2 with
  | (none, s) => s.failNode e.id
  | (some b, s) =>
    let blk := leNat b
    let n := bits blk 224 32
    if !bankLegal blk then s.failNode e.id
    else
      match s.hubReadVa e.queue (bits blk 0 64) (2 * bits blk 192 16) 130, firstCluster e with
      | (some vec, s), some c =>
        match s.hubAddrs e.queue { rd := true } ((List.range n).map fun i => bits blk 64 64 + 4096 * i) with
        | (none, s) => s.failNode e.id
        | (some ws, s) =>
          match s.hubAddrs e.queue { w := true } ((List.range n).map fun i => bits blk 128 64 + 4 * i) with
          | (none, s) => s.failNode e.id
          | (some ds, s) =>
            if !((ws ++ ds).all isLocal) then s.failNode e.id
            else
              let units := ((ws.map channelOf).eraseDups).length
              let (ok, s) := s.nodeUnits c e.id units
              if !ok then s
              else
                let (free, s) := s.snoopLines ((ds.map (· / 64)).eraseDups)
                if !free then s
                else
                  let (t, s) := s.bankRows (bankCfg blk vec) e.hostSeen e.time (ws.zip ds)
                  (s.dropNodeUnits c e.id units).doneAt e.id t
      | (_, s), _ => s.failNode e.id

def execBankNodeExec (n : Nat) (s : State) : Host.Outcome State Fault Refusal :=
  .next (match readyNode s n 4 with
    | some e => s.bankNode e
    | none => s)

/-- The 16 bytes of a result at an address as the parts that lie in one line each: address and length. -/
def resultParts (va : Nat) : List (Nat × Nat) :=
  let k := min 16 (64 - va % 64)
  if k = 16 then [(va, 16)] else [(va, k), (va + k, 16 - k)]

/-- Bytes written part by part; the answer is the largest write time. -/
def State.hubStores (s : State) : List (Nat × Nat) → List Byte → Nat → Nat × State
  | [], _, t => (t, s)
  | (pa, n) :: ps, bs, t =>
    let (t', s) := s.hubStore pa (bs.take n) t
    s.hubStores ps (bs.drop n) (max t t')

/-- A sample node's draw, with every lane active. -/
def State.sampleNode (s : State) (e : NodeEnt) : State :=
  match s.hubReadVa e.queue e.argsOf 32 2 with
  | (none, s) => s.failNode e.id
  | (some b, s) =>
    let blk := leNat b
    let c := bits blk 200 8
    let wt := bit (bits blk 192 8) 6
    let m : BitVec 256 := BitVec.allOnes 256
    match s.hubReadVa e.queue (bits blk 0 64) 256 6 with
    | (none, s) => s.failNode e.id
    | (some vs, s) =>
      match s.hubReadVa e.queue (bits blk 64 64) 256 6 with
      | (none, s) => s.failNode e.id
      | (some xs, s) =>
        match s.hubAddrs e.queue { w := true } ((resultParts (bits blk 128 64)).map (·.1)) with
        | (none, s) => s.failNode e.id
        | (some pas, s) =>
          let v := BitVec.ofNat 2048 (leNat vs)
          let x := BitVec.ofNat 2048 (leNat xs)
          let lanes := drawLanes wt m v x
          let bad := lanes.isEmpty || lanes.any fun i => fmtFP32.value (elem v 32 i) == .inf false
          if h : c < 18 then
            if bad then s.failNode e.id
            else
              let (free, s) := s.snoopLines (pas.map (· / 64))
              if !free then s
              else
                let slot : BitVec 6 := BitVec.ofNat 6 (bits blk 192 8)
                let (y, r) := smpServe ((s.cluster ⟨c, h⟩).smp.get slot.toFin) (.draw slot wt m v x)
                let s := s.modCluster ⟨c, h⟩ fun z => { z with smp := z.smp.set slot.toNat y slot.isLt }
                let (t, s) := s.hubStores (pas.zip ((resultParts (bits blk 128 64)).map (·.2))) (leBytes ((r.map (·.bits.toNat)).getD 0) 16) e.time
                s.doneAt e.id t
          else s.failNode e.id

def execSampleNodeExec (n : Nat) (s : State) : Host.Outcome State Fault Refusal :=
  .next (match readyNode s n 5 with
    | some e => s.sampleNode e
    | none => s)

/-- The host event word is written, and the vector is sent. -/
def State.hostsigNode (s : State) (e : NodeEnt) : State :=
  match if e.entry % 8 = 0 then s.hubTranslate e.queue e.entry { w := true } else (none, s) with
  | (none, s) => s.failNode e.id
  | (some pa, s) =>
    let (free, s) := s.snoopLines [pa / 64]
    if !free then s
    else
      let (t, s) := s.hubStore pa (leBytes e.argsOf 8) e.time
      let s := if bit e.ctl 63 then s.send (.msix (BitVec.ofNat 11 e.ctl)) else s
      s.doneAt e.id t

def execHostsigNodeExec (n : Nat) (s : State) : Host.Outcome State Fault Refusal :=
  .next (match readyNode s n 6 with
    | some e => s.hostsigNode e
    | none => s)

/-! ## Renamed ranges go home (R351) -/

/-- No node whose order depends on the version is left: its writer, or one that entered before it. A reader of the version reads its chunk
before and after the copy. No older version of the range is to be copied, and no page of either is being moved. -/
def copyHomeDue (s : State) (k : Nat) (v : Rename) : Bool :=
  !v.home && (s.hub.table.all fun e => e.asid != v.asid || !((e.reads ++ e.writes).any v.range.meets) || v.node < e.id) &&
    !((s.hub.renames.take k).any fun u => u.asid == v.asid && u.range.meets v.range && !u.home) &&
    !((List.range v.range.npg).any fun i => hubMoving s v.queue (v.chunk.toNat + 4096 * i) || hubMoving s v.queue (4096 * (v.range.page + i)))

/-- One page of a version is copied home, line by line; the answer is the largest write time. -/
def State.copyPageHome (s : State) (v : Rename) (i t : Nat) : Nat × State :=
  match s.hubTranslate v.queue (v.chunk.toNat + 4096 * i) { rd := true } with
  | (none, s) => (t, s)
  | (some src, s) =>
    match s.hubTranslate v.queue (4096 * (v.range.page + i)) { w := true } with
    | (none, s) => (t, s)
    | (some dst, s) =>
      (List.range 64).foldl (fun (acc : Nat × State) j =>
        let (b, p, s) := acc.2.hubRead (src + 64 * j) 64 2
        let (t', s) := s.hubStore (dst + 64 * j) b acc.1 p
        (max acc.1 t', s)) (t, s)

/-- Lines of the home range that the host may cache. -/
def State.homeLines (s : State) (v : Rename) : List Nat :=
  (List.range v.range.npg).flatMap fun i =>
    match (s.hubTranslate v.queue (4096 * (v.range.page + i)) { w := true }).1 with
    | some dst => (List.range 64).map (dst / 64 + ·)
    | none => []

/-- Versions that are home and have no reader left give back their chunks (R351). -/
def Hub.dropVersions (h : Hub) : Hub :=
  let pool (q : Fin 1024) : Nat := ((kvGet h.qd q.val).getD {}).pool.toNat
  let gone := h.renames.filter fun v => v.home && !(h.table.any fun e => e.versions.any (·.2 == v.chunk))
  { h with
    renames := h.renames.filter (!gone.contains ·)
    chunksUsed := h.chunksUsed.filter fun x => !(gone.any fun v =>
      let first := (v.chunk.toNat - pool v.queue) / 65536
      x.1 == v.queue && first ≤ x.2 && x.2 < first + v.chunks) }

def execRenameCopyHome (k : Nat) (s : State) : Host.Outcome State Fault Refusal :=
  .next (match s.hub.renames[k]? with
    | none => s
    | some v =>
      if !scheduling s || !copyHomeDue s k v then s
      else
        let (free, s) := s.snoopLines (s.homeLines v)
        if !free then s
        else
          let (t, s) := (List.range v.range.npg).foldl (fun (acc : Nat × State) i => acc.2.copyPageHome v i acc.1) (0, s)
          (s.modHub fun h => Hub.dropVersions
            { h with
              renames := h.renames.set k { v with home := true }
              table := h.table.map fun e => if e.asid == v.asid && (e.reads ++ e.writes).any v.range.meets then e.after t else e }).resettle)

/-! ## Triggers (R355, R436) -/

/-- The present reading of a counter; sensors are signed. -/
def counterValue (s : State) (id : BitVec 8) : Option Int :=
  let n := id.toNat
  let at' (c : Nat) : Option Cluster := if h : c < 18 then some (s.cluster ⟨c, h⟩) else none
  if n < 0x24 then (at' (n / 2)).map fun c => sext (if n % 2 = 0 then c.t0 else c.t1).toNat 16
  else if 0x40 ≤ n ∧ n < 0x52 then (at' (n - 0x40)).map fun c => (c.vmin.toNat : Int)
  else if 0x60 ≤ n ∧ n < 0x72 then (at' (n - 0x60)).map fun c => (c.proc.toNat : Int)
  else if 0x80 ≤ n ∧ n < 0x92 then (at' (n - 0x80)).map fun c => ((c.gov.toList.foldl (fun a g => a + g.used) 0 : Nat) : Int)
  else if n = 0xA0 then some (s.hub.pkgPower.toNat : Int)
  else none

/-- The source of a trigger has reached its threshold. -/
def triggerDue (s : State) (t : Trigger) : Bool :=
  match t.src with
  | .counter id atLeast => match counterValue s id with
    | some v => if atLeast then decide (t.threshold ≤ v) else decide (v ≤ t.threshold)
    | none => false
  | .idleQueue q =>
    let d := s.qdesc q
    d.head = d.tail && !(s.hub.table.any (·.queue == q)) && ((kvGet s.hub.lastBusy q.val).getD 0 : Int) + t.threshold ≤ s.sched16

/-- A trigger fires: it disarms and its node is posted. -/
def State.fireTrigger (s : State) (k : Nat) (t : Trigger) : State :=
  ((s.modHub fun h => { h with triggers := kvPut h.triggers k { t with armed := false } }).newNode t.queue t.node.toNat 0 0 0 none 0).resettle

def execTriggerFire (k : Fin 64) (s : State) : Host.Outcome State Fault Refusal :=
  .next (match kvGet s.hub.triggers k.val with
    | none => s
    | some t =>
      if !t.armed || !scheduling s || !triggerDue s t || s.hub.table.length ≥ 4096 then s
      else if nodeMoving s t.queue t.node.toNat 0 0 then s.askArgs t.queue 0 [t.node.toNat]
      else s.fireTrigger k.val t)

/-! ## The take-over (R369) -/

/-- The address of the uncorrectable error that the active core consumes in its instruction memory. -/
def Cores.failing (c : Cores) : Nat := (((c.imem.get c.active).errs.find? (·.2)).map (·.1)).getD 0

/-- The active core has consumed an uncorrectable error of its instruction memory: it stops, and the standby starts to take over, or nothing
schedules any more (steps 1 and 2; log 76). -/
def execSchedCoreFailover (s : State) : Host.Outcome State Fault Refusal :=
  .next (if s.hub.cores.halted then s
    else
      let s := s.modHub fun h =>
        { h with
          seq := h.seq + 1
          log := h.log.add 256 { seq := h.seq + 1, time := w64 s.sched16, addr := w64 (h.cores.failing), array := 9, type := 2 } false true }
      if !s.hub.cores.standby then s.modHub fun h => { h with cores := { h.cores with halted := true, taking := false } }
      else
        s.modHub fun h => { h with cores := { h.cores with active := if h.cores.active = 0 then 1 else 0, standby := false, taking := true } })

/-- What was held is done. -/
def State.release (s : State) : Held → State
  | .ended n t => s.instanceEnded n t
  | .failed n => s.failNode n
  | .fatal n => s.failFatal n
  | .back p => s.requeue p

/-- The take-over ends: the checkpoint and the journal rebuild table, pool and watches, every kicked queue is parsed, what was held is
released in arrival order, and the standby is active (steps 3 to 6). -/
def State.takeOver (s : State) : State :=
  if !s.hub.cores.taking then s
  else
    let s := s.rebuild
    let s := if s.hub.power == .d0 then (List.finRange 1024).foldl State.takeKick s else s
    let held := s.hub.cores.held
    let s := s.modHub fun h => { h with cores := { h.cores with taking := false, held := [] } }
    (held.foldl State.release s).resettle

end Sys2Proof.Machine
end

