-- ==== Sys2Proof/Machine/Power.lean ====
section
/-! DEFINITION. Power windows and grants, monitors and thermal limits, register writes, the pair link, SPDM
(R429 to R436, R339, R414, R439, R442). -/
namespace Sys2Proof.Machine

/-! ## Power windows (R431) -/

def pwrReqBody (f : FK) (word : BitVec 48) (w : Who) : M Unit := do
  let rel := fkBit f 3
  let cls := fkImm f 0 3
  if !rel && cls ≥ 5 then illegal word
  let r := (← getB w).r
  let n := bits (r.sreg f.a).toNat 0 8
  let t := bits (r.sreg f.b).toNat 0 32
  modS fun s => s.releaseWindow w
  if !rel then
    ensure (n ≠ 0 && t ≠ 0) Cause.operandRange (wordInfo word)
    modS fun s =>
      let serial := (s.bank w).pwrSerial + 1
      let s := s.modBank w fun b => { b with pwrSerial := serial, pwr := some { serial, cls, n, len := t } }
      let c := Tid.cluster (Who.tile w)
      (s.modCluster c fun x => x.modGov cls fun g => { g with reqs := g.reqs ++ [{ who := w, units := n, win := serial }] }).serveGrant c cls

def execPwrReq (h : Hdr) (f : FK) (s : State) : Host.Outcome State Fault Refusal :=
  .next (feWord h (wordOf 0xE9 h f.toBody) (pwrReqBody f (wordOf 0xE9 h f.toBody)) s)

def execGrant (c : Cid) (k : Fin 5) (s : State) : Host.Outcome State Fault Refusal := .next (s.serveGrant c k.val)

def execPwrWindowExpiry (w : Who) (s : State) : Host.Outcome State Fault Refusal :=
  .next (match (s.bank w).pwr with
    | some p => if p.held && p.ends ≤ s.now then s.releaseWindow w else s
    | none => s)

/-! ## Monitors (R434 to R436) -/

/-- 110.00, 100.00 and 125.00 °C in 0.25 °C. -/
def throttleAt : Int := 440
def releaseAt : Int := 400
def tripAt : Int := 500

def Cluster.temps (c : Cluster) : List Int := [sext c.t0.toNat 16, sext c.t1.toNat 16]

/-- The governor's thermal limit holds or ends. -/
def Cluster.limit (c : Cluster) : Cluster :=
  if c.temps.any (throttleAt ≤ ·) then { c with throttled := true }
  else if c.temps.all (· ≤ releaseAt) then { c with throttled := false }
  else c

/-- A new reading of sensor `k`: whether an event fires, high or low, and the cluster after it. -/
def Cluster.sensor (c : Cluster) (k : Fin 2) (v : BitVec 16) : Bool × Cluster :=
  let old := sext (if k = 0 then c.t0 else c.t1).toNat 16
  let new := sext v.toNat 16
  let i : Fin 3 := ⟨k.val, by omega⟩
  let hi := sext c.thi.toNat 16
  let lo := sext c.tlo.toNat 16
  let high := !(c.fired.get i) && decide (hi ≤ new)
  let low := decide (lo < old) && decide (new ≤ lo)
  let fired := if high then true else if decide (new ≤ lo) then false else c.fired.get i
  let c := if k = 0 then { c with t0 := v } else { c with t1 := v }
  (high || low, { c with fired := c.fired.set i.val fired i.isLt }.limit)

/-- A new reading of the supply: whether the droop event fires, once per crossing of VLO by VMIN (R435, R436). -/
def Cluster.supply (c : Cluster) (v : BitVec 16) : Bool × Cluster :=
  let vmin := if v.toNat < c.vmin.toNat then v else c.vmin
  let droop := !(c.fired.get 2) && vmin.toNat < c.vlo.toNat
  (droop, ({ c with vnow := v, vmin, fired := c.fired.set 2 (c.fired.get 2 || droop) }).rearmDroop)

/-- MONITOR becomes pending in every privileged context of the cluster's tiles. -/
def State.raiseMonitor (s : State) (c : Cid) (id : BitVec 8) : State :=
  (List.finRange 144).foldl (fun s w =>
    if Tid.cluster (Who.tile w) = c && (s.bank w).priv then
      s.modBank w fun b => { b with irq := { b.irq with monitor := if b.irq.monitor.contains id then b.irq.monitor else b.irq.monitor ++ [id] } }
    else s) s

/-- The triggers that name the counter and have reached their thresholds fire. -/
def State.releaseTriggers (s : State) (id : BitVec 8) : State :=
  s.hub.triggers.foldl (fun s x =>
    let named := match x.2.src with
      | .counter i _ => i == id
      | .idleQueue _ => false
    if named && x.2.armed && scheduling s && triggerDue s x.2 && s.hub.table.length < 4096 then s.fireTrigger x.1 x.2 else s) s

/-- An event of a cluster's monitor. -/
def State.monitorFires (s : State) (c : Cid) (id : BitVec 8) (fires : Bool) : State :=
  if fires then (s.raiseMonitor c id).releaseTriggers id else s

/-- The package asserts its thermal-trip output, which stays asserted (R434). -/
def State.trip (s : State) : State := if s.hub.out.contains .thermalTrip then s else s.send .thermalTrip

/-- A counter takes a reading; where it crosses a threshold the event fires, and a sensor at 125 °C or more trips the package. -/
def execMonitorEvent (id : BitVec 8) (reading : BitVec 64) (s : State) : Host.Outcome State Fault Refusal :=
  .next (let n := id.toNat
    let v : BitVec 16 := BitVec.ofNat 16 reading.toNat
    if h : n < 0x24 then
      let c : Cid := ⟨n / 2, by omega⟩
      let (e, x) := (s.cluster c).sensor ⟨n % 2, by omega⟩ v
      let s := (s.modCluster c fun _ => x).monitorFires c id e
      if tripAt ≤ sext v.toNat 16 then s.trip else s
    else if h : 0x40 ≤ n ∧ n < 0x52 then
      let c : Cid := ⟨n - 0x40, by omega⟩
      let (e, x) := (s.cluster c).supply v
      (s.modCluster c fun _ => x).monitorFires c id e
    else if h : 0x60 ≤ n ∧ n < 0x72 then s.modCluster ⟨n - 0x60, by omega⟩ fun x => { x with proc := v }
    else if n = 0xA0 then s.modHub fun x => { x with pkgPower := reading }
    else s)

/-- A read of MONST by a privileged context: its value to s[d]. -/
def execMonstRead (w : Who) (c : Cid) (d : BitVec 5) (s : State) : Host.Outcome State Fault Refusal :=
  .next (if (s.bank w).priv then
      let (v, s) := s.readMonst c
      s.modBank w fun b => b.modR fun r => r.setS d v
    else s)

def execThermalThrottle (c : Cid) (s : State) : Host.Outcome State Fault Refusal :=
  .next (if (s.cluster c).temps.any (throttleAt ≤ ·) then s.modCluster c fun x => { x with throttled := true } else s)

def execThermalRelease (c : Cid) (s : State) : Host.Outcome State Fault Refusal :=
  .next (if (s.cluster c).temps.all (· ≤ releaseAt) then s.modCluster c fun x => { x with throttled := false } else s)

def execThermalTrip (s : State) : Host.Outcome State Fault Refusal :=
  .next (if s.clusters.toList.any fun c => c.temps.any (tripAt ≤ ·) then s.send .thermalTrip else s)

/-! ## Register writes (R339, R413, R414, R435) -/

def execErrinjWrite (t : Tid) (v : BitVec 64) (s : State) : Host.Outcome State Fault Refusal :=
  .next (s.modTile t fun x => { x with errinj := errinjValue v })

/-- A register that no other row names: a CSR as the context may write it, or a hub register by a privileged context. -/
def execRegisterWrite (w : Who) (r : RegAddr) (v : BitVec 64) (s : State) : Host.Outcome State Fault Refusal :=
  .next (match r with
    | .csr n => writeBy n.toNat w v s
    | .hub a => if (s.bank w).priv && a.toNat % 8 = 0 then (s.hubRegWrite a.toNat (leBytes v.toNat 8)).getD s else s)

/-! ## The pair link (R439) -/

def Bank.pairDone (b : Bank) : Bank := { b with pairWait := [] }
def Ctx.pairDone (c : Ctx) : Ctx := { c with b := c.b.pairDone, shadow := c.shadow.map Bank.pairDone }

/-- The link is lost: accesses that wait for the partner count as performed. -/
def execPairLinkLost (s : State) : Host.Outcome State Fault Refusal :=
  .next (if !s.hub.pair then s
    else
      let s : State := { s with ctxs := s.ctxs.map Ctx.pairDone }
      (s.modHub fun h => { h with pair := false, training := false }).hubLog 15 0 0xFFFF)

/-- The link is trained; in bring-up, the ports open then (R440). -/
def execPairLinkTrained (s : State) : Host.Outcome State Fault Refusal :=
  .next (if s.hub.training then s.modHub fun h =>
      { h with
        pair := true, training := false, power := if h.power = .boot then .d0 else h.power
        mbox := if h.power = .boot then Vector.replicate 2 0 else h.mbox }
    else s)

/-! ## The boot image (R441) -/

/-- A field of the image header, little-endian. -/
def imageField (img : List Byte) (off n : Nat) : Nat := leNat ((img.drop off).take n)

/-- The header: magic, security version, payload length, payload digest, key, signature; the payload follows it. -/
def imageHeader : Nat := 176

/-! ## SPDM (R442) -/

/-- A request over DOE is answered by the management controller: the content that it is to give, in the bytes of the protocol. -/
def State.spdmRequest (s : State) (req content : List Byte) : State :=
  (s.modHub fun h => { h with spdm := h.spdm ++ [req] }).send (.doe (Config.spdmAnswer s.hub.spdm req content))

/-- A digest as bytes, the highest first. -/
def digestBytes (m : List Byte) : List Byte := (leBytes (sha256 m).toNat 32).reverse

/-- The digest of slot 0's certificate chain; the other slots are empty. -/
def slot0Digest : List Byte := digestBytes Config.slot0Chain

/-- The value of a measurement: the digests of the ROM, the firmware payload and the boot configuration, and the fused security version. -/
def Boot.measurement (b : Boot) (index : Nat) : Option (List Byte) :=
  match index with
  | 1 => some (digestBytes Config.romImage)
  | 2 => some (digestBytes ((b.flash.drop imageHeader).take (imageField b.flash 8 8)))
  | 3 => some (digestBytes (Config.bootConfiguration b.flash))
  | 4 => some (leBytes b.minVersion.toNat 4)
  | _ => none

/-- What GET_MEASUREMENTS gives for an index: 0 asks how many there are, 255 for all of them (log 142). -/
def Boot.measured (b : Boot) (index : Nat) : List Byte :=
  let one (k : Nat) : List Byte := ((b.measurement k).map fun v => BitVec.ofNat 8 k :: v).getD []
  if index = 0 then [4] else if index = 255 then (List.range' 1 4).flatMap one else one index

/-- GET_VERSION begins a new conversation; SPDM 1.3 is the version. -/
def execGetVersion (s : State) : Host.Outcome State Fault Refusal := .next ((s.modHub fun h => { h with spdm := [] }).spdmRequest [0x84] [0x13])
def execGetCapabilities (s : State) : Host.Outcome State Fault Refusal := .next (s.spdmRequest [0xE1] [])
/-- ECDSA P-256 and SHA-256, by their bits in SPDM (log 142). -/
def execNegotiateAlgorithms (s : State) : Host.Outcome State Fault Refusal := .next (s.spdmRequest [0xE3] [0x10, 0x01])
def execGetDigests (s : State) : Host.Outcome State Fault Refusal := .next (s.spdmRequest [0x81] slot0Digest)
def execGetCertificate (slot : BitVec 4) (s : State) : Host.Outcome State Fault Refusal :=
  .next (s.spdmRequest [0x82, BitVec.ofNat 8 slot.toNat] (if slot = 0 then Config.slot0Chain else []))
/-- The chain's digest, all measurements, and a signature by the identity key over the conversation. -/
def execChallenge (nonce : BitVec 256) (s : State) : Host.Outcome State Fault Refusal :=
  .next (let req : List Byte := 0x83 :: leBytes nonce.toNat 32
    let body := slot0Digest ++ s.hub.boot.measured 255
    s.spdmRequest req (body ++ Config.identitySignature (s.hub.spdm.flatten ++ req ++ body)))

def execGetMeasurements (index : BitVec 8) (s : State) : Host.Outcome State Fault Refusal :=
  .next (s.spdmRequest [0xE0, index] (s.hub.boot.measured index.toNat))

end Sys2Proof.Machine
end

