-- ==== Sys2Proof/Machine/Boot.lean ====
section
/-! DEFINITION. Reset, signed boot, D3hot and power removal (R434, R437, R438, R440, R441). -/
namespace Sys2Proof.Machine

/-! ## The boot image (R441) -/

/-- The ROM accepts the image (R441). The key's coordinates, the digest and the signature's r and s stand with their highest byte first
(log 140). -/
def imageAccepted (b : Boot) (img : List Byte) : Bool :=
  let len := imageField img 8 8
  let big (off n : Nat) : Nat := beNat ((img.drop off).take n)
  imageHeader + len ≤ img.length && img.take 4 == [0x5A, 0x46, 0x57, 0x31] && sha256 ((img.drop 48).take 64) == b.keyDigest &&
    ecdsaVerifies (big 48 32, big 80 32) (sha256 (img.take 112)).toNat (big 112 32) (big 144 32) &&
    (sha256 ((img.drop imageHeader).take len)).toNat == big 16 32 && b.minVersion.toNat ≤ imageField img 4 4

/-! ## Reset (R440) -/

/-- Tile `t` after bring-up with a configuration: protection mode and KV-resident reservation. -/
def bootTile (img : List Byte) (now : Nat) (t : Nat) : Tile :=
  { tileReset t with resetAt := now, ticked := now / 64, bankCode := Config.bootBankCode img t, kvWays := min 8 (Config.bootKvWays img t).toNat }

def Tile.bornAt (now : Nat) (t : Tile) : Tile := { t with resetAt := now, ticked := now / 64 }

/-- The budgets that firmware loads for a row of the power table: 450 W, 300 W or 150 W (R433). -/
def powerRow (k : BitVec 2) : Vector GovClass 5 :=
  match k.toNat with
  | 1 => #v[{ budget := 2 }, { budget := 2 }, { budget := 4 }, { budget := 2 }, { budget := 1 }]
  | 2 => #v[{ budget := 1 }, { budget := 1 }, { budget := 2 }, { budget := 1 }, { budget := 1 }]
  | _ => defaultGov

/-- The part right after reset: memory, the boot flash and fuses, and what has left the part stay. -/
def State.cleared (s : State) : State :=
  { State.reset with
    now := s.now, cur := s.cur, sched := s.sched, draws := s.draws
    hub := { State.reset.hub with
      mem := s.hub.mem, wtq := s.hub.wtq, flips := s.hub.flips, boot := s.hub.boot, out := s.hub.out, pkgPower := s.hub.pkgPower
      resetAt := s.now, periodEnd := s.now + 4096 } }

/-- Bring-up: the image of the boot flash is verified; firmware starts and loads the budgets, the pair link trains where a partner is connected,
and then the ports open; or the device stays in recovery. The mailboxes are BUSY until the ports open. -/
def State.bringUp (s : State) : State :=
  let s := s.cleared
  let img := s.hub.boot.flash
  if imageAccepted s.hub.boot img then
    ({ s with
        tiles := ⟨((List.range 72).map (bootTile img s.now)).toArray, by simp⟩
        clusters := Vector.replicate 18 { gov := powerRow (Config.bootPower img) } }).modHub fun h =>
          if h.boot.partner then { h with power := .boot, training := true, mbox := #v[1, 1] } else { h with power := .d0 }
  else
    ({ s with tiles := s.tiles.map (Tile.bornAt s.now) }).modHub fun h => { h with power := .recovery, training := false, mbox := #v[1, 1] }

def execDeviceReset (s : State) : Host.Outcome State Fault Refusal := .next s.bringUp

/-- A function-level reset is a device reset (R437). -/
def execFunctionLevelReset (s : State) : Host.Outcome State Fault Refusal := .next s.bringUp

/-- Power-good: what the boot flash and the fuses hold is all that is left, and bring-up begins (R434, R440). -/
def State.powerGood (s : State) (partner : Bool) : State :=
  ({ State.reset with
    cur := s.cur, sched := s.sched, draws := s.draws
    hub := { State.reset.hub with boot := { s.hub.boot with partner }, out := s.hub.out } } : State).bringUp

def execPowerRemoval (s : State) : Host.Outcome State Fault Refusal := .next (s.modHub fun h => { h with power := .off })

/-! ## D3hot (R438) -/

/-- No instance and no accepted work is left on the part. -/
def allQuiet (s : State) : Bool :=
  (s.ctxs.toList.all fun c => (c.status == .idle || c.status == .fenced) && c.shadow.isNone) && s.hub.orphans.isEmpty &&
    (s.clusters.toList.all fun c => c.gov.toList.all fun g => g.ready.all (·.node.isNone)) &&
    s.tiles.toList.all fun t => t.qz.isEmpty && t.hidden.isEmpty && t.chans.toList.all fun c => c.st != .run || c.fly.isEmpty

/-- The largest logical time of any tile, context or saved instance. -/
def largestTime (s : State) : Nat :=
  let t := s.tiles.toList.foldl (fun a t => max a t.lt) 0
  let t := s.ctxs.toList.foldl (fun a c => max a c.b.pts) t
  (s.hub.pool ++ s.hub.d3saved).foldl (fun a p => max a ((p.saved.map (·.bank.pts)).getD 0)) t

/-- Host lines that home slices hold go back to the host. -/
def State.releaseHostLines (s : State) : State :=
  (s.hub.home.filter fun x => spaceOf (x.1 * 64) == .host).foldl (fun s x => s.send (.released (BitVec.ofNat 46 x.1) x.2.data)) s

/-- A unit of no accepted operation is left, and what has not been granted is asked for again. -/
def GovClass.powerDown (g : GovClass) : GovClass := { g with used := 0, reqs := [], ready := [] }

/-- What a tile keeps when it is powered down: everything but its memories, caches, TLBs and channels. -/
def Tile.powerDown (t : Tile) : Tile :=
  { t with
    sp := [], tags := Vector.replicate 384 {}, stamps := Vector.replicate 2 0, accFree := 256, l1 := [], tlb1 := [], tlb2 := [], kvMem := [], kvPoison := []
    chans := Vector.replicate 8 {}, qz := [], hidden := [], engine := none, bad := [], errs := [], icode := [] }

def Cluster.powerDown (c : Cluster) : Cluster :=
  { c with smp := Vector.replicate 64 {}, fit := Vector.replicate 16 {}, fitClock := 0, gov := c.gov.map GovClass.powerDown }

/-- The checkpoint holds the state of the scheduler, with nothing journalled after it. -/
def Cores.checkpointed (c : Cores) (x : SchedImage) : Cores := { c with image := x, journal := [], mirror := [], checkpoint := c.jseq }

/-- Steps 4 and 5: write-throughs are performed, host lines are released, the firmware area and a checkpoint are written, and the dies go
down (log 92). -/
def State.sleepDown (s : State) : State :=
  let s := (s.hub.wtq.foldl (fun s x => s.writeThrough x.line) s).releaseHostLines
  let s := s.modHub fun h =>
    { h with
      home := [], times := []
      cores := h.cores.checkpointed s.schedImage
      d3lt := largestTime s
      d3kv := (List.finRange 72).map fun t => (t, (s.tile t).kvMem, (s.tile t).kvPoison)
      d3smp := s.clusters.toList.map (·.smp)
      power := .d3hot }
  { s with tiles := s.tiles.map Tile.powerDown, clusters := s.clusters.map Cluster.powerDown }

/-- The host asks for D3hot: parsing and placing stop; the part goes down once nothing runs. -/
def execD3hotEntry (s : State) : Host.Outcome State Fault Refusal :=
  .next (let s := if s.hub.power == .d0 then s.modHub fun h => { h with power := .d3entry s.sched16 } else s
    match s.hub.power with
    | .d3entry _ => if allQuiet s then s.sleepDown else s
    | .d0 | .d3hot | .recovery | .off | .boot => s)

/-- An idle, running or stopped context holds a shadow state that can be saved now. -/
def State.saveShadow (s : State) (w : Who) : State :=
  let c := s.ctx w
  match c.status, c.shadow with
  | .idle, some b | .running, some b | .stopped, some b =>
    if c.preempt || !shadowQuiet s w b then s
    else
      let (x, s) := s.takeShadow w b
      let (x, s) := s.keepImage w x
      match b.inst with
      | none => s
      | some i => s.modHub fun h =>
          { h with d3saved := h.d3saved ++ [{ node := i.node, index := i.index, att := i.att, since := 0, saved := some x }] }
  | _, _ => s

/-- Every instance of the cooperative node that the context runs can be pre-empted with it: its context's shadow bank is empty. -/
def coopTogether (s : State) (w : Who) : Bool :=
  match (s.bank w).inst with
  | none => true
  | some i => !i.coop || (List.finRange 144).all fun v => (s.bank v).inst.map (·.node) != some i.node || (s.ctx v).shadow.isNone

/-- A running context is asked to give up its instance, a stopped one gives it up; the instances of a cooperative node together. -/
def State.saveForSleep (s : State) (w : Who) : State :=
  let c := s.ctx w
  if c.shadow.isSome || c.preempt || !coopTogether s w then s
  else
    match c.status with
    | .running => s.modCtx w fun c => { c with preempt := true }
    | .stopped => (s.modCtx w fun c => { c with halted := true }).park w
    | .idle | .trapping | .swapping _ | .fenced | .mirror _ => s

/-- The instances that still run when the limit ends are pre-empted (R438). -/
def execD3hotRunLimitExpiry (s : State) : Host.Outcome State Fault Refusal :=
  .next (match s.hub.power with
    | .d3entry t =>
      if t + 2 ^ 24 ≤ s.sched16 then
        let s := (List.finRange 144).foldl State.saveShadow s
        ((List.finRange 144).filter (coopTogether s)).foldl State.saveForSleep s
      else s
    | .d0 | .d3hot | .recovery | .off | .boot => s)

def Tile.timeFrom (n : Nat) (t : Tile) : Tile := { t with lt := n }
def Ctx.timeFrom (n : Nat) (c : Ctx) : Ctx := { c with b := { c.b with pts := max c.b.pts n } }
def Cluster.withSmp (l : List (Vector SmpSlot 64)) (i : Nat) (c : Cluster) : Cluster := { c with smp := l.getD i c.smp }

/-- Return to D0: what the firmware area keeps comes back, logical time goes on above every earlier one, and saved instances are ready again. -/
def execD0Return (s : State) : Host.Outcome State Fault Refusal :=
  .next (if s.hub.power != .d3hot then s
    else
      let s := s.hub.d3kv.foldl (fun s x => s.modTile x.1 fun t => { t with kvMem := x.2.1, kvPoison := x.2.2 }) s
      let s : State := { s with tiles := s.tiles.map (Tile.timeFrom (s.hub.d3lt + 256)), ctxs := s.ctxs.map (Ctx.timeFrom (s.hub.d3lt + 256)), clusters := s.clusters.mapIdx (Cluster.withSmp s.hub.d3smp) }
      let s := s.rebuild
      let saved := s.hub.d3saved
      let s := s.modHub fun h => { h with power := .d0, pair := false, training := true, d3saved := [], d3kv := [], d3smp := [] }
      (saved.foldl State.requeue s).resettle)

end Sys2Proof.Machine
end

