-- ==== Sys2Proof/Machine/Mesh.lean ====
section
/-! DEFINITION. The mesh of vote-class flits: neighbours, routes, travel times, sending (R12, R393, R394, R399). -/
namespace Sys2Proof.Machine

/-- The neighbours of a tile. -/
def neighboursOf (t : Tid) : List Tid := (List.range 4).filterMap fun d => (neighbour t.val d).bind tid?

/-- A vote-class flit (R394). -/
def mkFlit (type src subj reason seq data : Nat) : BitVec 128 :=
  let x := type + src * 2 ^ 8 + subj * 2 ^ 16 + reason * 2 ^ 24 + seq * 2 ^ 32 + data * 2 ^ 64
  BitVec.ofNat 128 (x + (crc32 (leBytes x 12)).toNat * 2 ^ 96)

/-- Mesh cycles of a hop between neighbours (R12). -/
def hopTime (a b : Tid) : Nat := if Tid.die a = Tid.die b then 1 else 12

/-- Mesh cycles of a way in dimension order (R12, R371, log 115). -/
def meshTime (a b : Tid) : Nat :=
  let dx := max (Tid.col a) (Tid.col b) - min (Tid.col a) (Tid.col b)
  let dy := max (Tid.row a) (Tid.row b) - min (Tid.row a) (Tid.row b)
  dx + dy + if Tid.die a = Tid.die b then 0 else 11

/-- The tiles that a route of `k` mesh cycles joins to the goal, added to those that a shorter one does. -/
def reachStep (closed : Tid → Bool) (k : Nat) (r : List (Tid × Nat)) : List (Tid × Nat) :=
  r ++ ((r.flatMap fun x => (neighboursOf x.1).filter fun y => x.2 + hopTime x.1 y = k && !closed y && !(r.any (·.1 == y))).eraseDups.map (·, k))

/-- The tiles joined to a goal, by distance, until `t` is one of them; `n` bounds the distance. -/
def reachTo (closed : Tid → Bool) (t : Tid) (k : Nat) (r : List (Tid × Nat)) : Nat → List (Tid × Nat)
  | 0 => r
  | n + 1 => if r.any (·.1 == t) then r else reachTo closed t (k + 1) (reachStep closed k r) n

/-- The route from `t` to `goal` with the fewest mesh cycles through no closed tile: its time and its first hop, the lower tile number
where several are equal (R399). -/
def route (closed : Tid → Bool) (t goal : Tid) : Option (Nat × Tid) :=
  let r := reachTo closed t 1 [(goal, 0)] 160
  match r.find? (·.1 == t) with
  | none => none
  | some x =>
    let first := (neighboursOf t).filter fun y => r.any fun z => z.1 == y && z.2 + hopTime t y = x.2
    (first.map (·.val)).min?.bind fun y => (tid? y).map fun y => (x.2, y)

/-- The tile at column x and row y (R13). -/
def tileXY (x y : Nat) : Option Tid := tid? (36 * (x / 6) + 6 * y + x % 6)

/-- The tiles of the way in dimension order from `a` to `b`, columns first, without its ends (log 115). -/
def xyWay (a b : Tid) : List Tid :=
  let span (p q : Nat) : List Nat := (List.range (max p q - min p q + 1)).map (min p q + ·)
  (((span (Tid.col a) (Tid.col b)).filterMap fun x => tileXY x (Tid.row a)) ++
    (span (Tid.row a) (Tid.row b)).filterMap fun y => tileXY (Tid.col b) y).filter fun t => t != a && t != b

/-- The first tile after `a` on the way in dimension order to `b`. -/
def xyFirst (a b : Tid) : Option Tid :=
  if a = b then none else (neighboursOf a).find? fun n => n == b || ((xyWay a b).contains n &&
    (Tid.row n == Tid.row a || Tid.col a == Tid.col b))

/-- The way of a flit around the closed tiles: its mesh cycles and its first hop. In dimension order where that way is free, else by the
detour with the fewest mesh cycles (R371, R402, log 115). -/
def wayOf (closed : Tid → Bool) (a b : Tid) : Nat × Option Tid :=
  let plain := (meshTime a b, xyFirst a b)
  if (xyWay a b).any closed then ((route (fun x => closed x && x != a && x != b) a b).map fun r => (r.1, some r.2)).getD plain else plain

/-- The tile whose router the hub port of a die joins: (3, 5) on die 0 and (8, 5) on die 1 (R15). -/
def hubPort (t : Tid) : Tid := if t.val < 36 then 33 else 68

/-- A flit leaves for a tile or the hub and arrives at a mesh cycle. -/
def State.sendAt (s : State) (dst : Option Tid) (f : BitVec 128) (due : Nat) (link : Option (Tid × Tid × Nat) := none) : State :=
  s.modHub fun h => { h with flits := h.flits ++ [{ dst, bits := f, due, link }] }

/-- The link by which a flit leaves tile `t` now (R396). -/
def linkFrom (s : State) (t : Tid) (first : Option Tid) : Option (Tid × Tid × Nat) := first.map fun n => (t, n, s.now + hopTime t n)

/-- A flit from tile `t`, around the tiles that it holds fenced; one for the hub goes to the hub port of its die (R15, R394, R402). -/
def State.sendFrom (s : State) (t : Tid) (dst : Option Tid) (f : BitVec 128) : State :=
  let (time, first) := wayOf (s.tile t).knownFenced.contains t (dst.getD (hubPort t))
  s.sendAt dst f (s.now + time) (linkFrom s t first)

/-- A flit from the hub, through the hub port of the tile's die (R15, R394). -/
def State.sendHub (s : State) (dst : Tid) (f : BitVec 128) : State :=
  s.sendAt (some dst) f (s.now + (wayOf (fun x => s.hub.fenced.contains x || s.hub.retired.contains x) (hubPort dst) dst).1)

/-- Flits that have passed their first link are counted there, against the tile that they are stamped with (R396). -/
def State.linksPass (s : State) : State :=
  let gone (x : Flit) : Bool := x.link.any fun l => l.2.2 ≤ s.now
  let s' := (s.hub.flits.filter gone).foldl (fun s x =>
    match x.link with
    | none => s
    | some (t, n, _) => s.modTile n fun y =>
      { y with views := y.views.mapFinIdx fun d v _ => if neighbour n.val d == some t.val then { v with flits := v.flits + 1 } else v }) s
  s'.modHub fun h => { h with flits := h.flits.map fun x => if gone x then { x with link := none } else x }

end Sys2Proof.Machine
end

