-- ==== Sys2Proof/Machine/Mailbox.lean ====
section
/-! DEFINITION. The commands of the management mailboxes (R443 and the rules that it names). -/
namespace Sys2Proof.Machine

/-! ## Commands (R443) -/

/-- A command of either mailbox is under way, a page operation that waits for its shoot-down, or waits for the controller. -/
def mailboxBusy (s : State) : Bool := (s.hub.moves.any fun m => m.who.isSome) || !s.hub.mcmds.isEmpty

/-- The controller takes commands from step 5 of bring-up on. -/
def mailboxUp (s : State) : Bool :=
  match s.hub.power with
  | .d0 | .d3entry _ => true
  | .d3hot | .recovery | .off | .boot => false

/-- The controller performs commands from step 5 of bring-up on, one at a time. -/
def mailboxOpen (s : State) : Bool := !mailboxBusy s && mailboxUp s

/-- A command arrives: it is performed, or its turn has not come, or it has to wait before it begins; one written while its own mailbox is
BUSY is ignored. The answer of `f` is its status, none while it waits. -/
def State.submit (s : State) (mb : Mailbox) (i : MbCommand) (f : State → Option MbStatus × State) : State :=
  if mailboxOpen s then
    match f s with
    | (some x, s) => s.setStatus mb x
    | (none, s) => s.queueCommand mb i
  else if mailboxUp s && !mbBusy s mb then s.queueCommand mb i
  else s

/-- A command with its status. -/
def State.command (s : State) (mb : Mailbox) (i : MbCommand) (f : State → MbStatus × State) : State :=
  s.submit mb i fun s => let (x, s) := f s; (some x, s)

/-- A command that is valid where `ok` holds. -/
def State.simply (s : State) (mb : Mailbox) (i : MbCommand) (ok : Bool) (f : State → State) : State :=
  s.command mb i fun s => if ok then (.ok, f s) else (.invalid, s)

/-! ## 0x01: the summary record (R370) -/

def tileMap (ts : List Tid) : List Byte := leBytes (ts.foldl (fun a t => a ||| 2 ^ t.val) 0) 16

/-- What a context is doing, as the record says it. -/
def ctxCode (c : Ctx) : Nat :=
  match c.status with
  | .idle => 0
  | .running => if c.b.f.wait = .sleep then 3 else 1
  | .trapping | .mirror _ => 1
  | .stopped => 2
  | .swapping _ => if c.preempt then 4 else 1
  | .fenced => 5

def satSum (xs : List Nat) (top : Nat) : Nat := min top (xs.foldl (· + ·) 0)

/-- The record's 512 bytes. -/
def summaryRecord (s : State) : List Byte :=
  let c := s.hub.cores
  let en := s.hub.qd.foldl (fun a x => if x.2.en then a ||| 2 ^ x.1 else a) 0
  leBytes 1 4 ++ leBytes 512 4 ++ leBytes c.jseq 8 ++ leBytes (if c.halted then 2 else if c.taking then 1 else 0) 1 ++ leBytes (c.active.val + flag c.standby 7) 1 ++ leBytes 0 6 ++
    leBytes (Config.firmwareVersions s.hub.boot.flash).toNat 12 ++ leBytes s.hub.table.length 4 ++ tileMap s.hub.fenced ++ tileMap s.hub.retired ++
    tileMap ((List.finRange 72).filter fun t => (s.tile t).bankCode) ++ leBytes (satSum (s.hub.lp6.toList.map (·.ue.toNat)) (2 ^ 32 - 1)) 4 ++
    leBytes (satSum (s.hub.lp6.toList.map (·.ce.toNat)) (2 ^ 32 - 1)) 4 ++ leBytes 0 8 ++
    (s.clusters.toList.flatMap fun c => leBytes (satSum (c.gov.toList.map (·.used)) 65535) 2) ++ leBytes 0 4 ++
    ((List.finRange 72).flatMap fun t => leBytes (ctxCode (s.ctx (who t 0)) + 16 * ctxCode (s.ctx (who t 1))) 1) ++ leBytes 0 40 ++
    leBytes s.hub.kick.toNat 128 ++ leBytes en 128

/-- The record is written into the host buffer. -/
def execResync (mb : Mailbox) (buf : BitVec 52) (s : State) : Host.Outcome State Fault Refusal :=
  .next (s.submit mb (.resync buf) fun s =>
    if spaceOf buf.toNat != .host then (some .invalid, s)
    else
      let (free, t) := s.snoopLines (linesOf buf.toNat 512)
      if !free || pagesHeld s then (none, t) else (some .ok, t.hubPut buf.toNat (summaryRecord s) 10))

/-! ## 0x02: page operations (R89, R105, R118) -/

/-- The entry of the leaf can be reached. -/
def leafThere (s : State) (leaf : BitVec 49) : Bool := reaches s (ptePa leaf)

/-- A command that writes the entry of a leaf: it begins once the hub may update the entry. -/
def State.pteCommand (s : State) (mb : Mailbox) (i : MbCommand) (leaf : BitVec 49) (f : State → MbStatus × State) : State :=
  s.submit mb i fun s =>
    let (free, s) := s.pteFree leaf
    if free then let (x, s) := f s; (some x, s) else (none, s)

/-- An entry that is not present becomes present. -/
def execPageMap (mb : Mailbox) (leaf : BitVec 49) (pte : BitVec 64) (s : State) : Host.Outcome State Fault Refusal :=
  .next (s.pteCommand mb (.pageMap leaf pte) leaf fun s =>
    if !leafThere s leaf then (.invalid, s)
    else
      let (e, s) := s.pteNow leaf
      if pteV e || !pteV pte then (.invalid, s) else (.ok, s.setPte leaf (pteSet (pteSet pte 10 2 0) 52 12 0)))

/-- The change of a present entry starts; it ends when its shoot-down has been acknowledged. A pinned page is BUSY. -/
def State.changePage (s : State) (mb : Mailbox) (i : MbCommand) (leaf : BitVec 49) (repl : Bool) (ok : BitVec 64 → Bool) (new : BitVec 64 → BitVec 64) : State :=
  s.pteCommand mb i leaf fun s =>
    if !leafThere s leaf then (.invalid, s)
    else
      let (e, s) := s.pteNow leaf
      if !pteV e || !ok e then (.invalid, s)
      else if ptePin e ≠ 0 || pteMST e ≥ 2 then (.busy, s)
      else
        let s := s.modHub fun h => h.dropMove leaf
        (.busy, (s.setPte leaf (pteSet e 10 2 1)).modHub fun h =>
          { h with moves := h.moves ++ [{ id := leaf, repl, oldBase := BitVec.ofNat 52 (pteBase e), newBase := BitVec.ofNat 52 (pteBase (new e)), who := some mb, pte := some (new e) }] })

def execPageRemap (mb : Mailbox) (leaf : BitVec 49) (pte : BitVec 64) (s : State) : Host.Outcome State Fault Refusal :=
  .next (s.changePage mb (.pageRemap leaf pte) leaf false (fun _ => pteV pte) fun _ => pte)

def execPageUnmap (mb : Mailbox) (leaf : BitVec 49) (s : State) : Host.Outcome State Fault Refusal :=
  .next (s.changePage mb (.pageUnmap leaf) leaf false (fun _ => true) fun e => pteSet e 0 1 0)

/-- One copy of a replicated page stays: the one of die 0, which BASE names. -/
def execCollapseReplicas (mb : Mailbox) (leaf : BitVec 49) (s : State) : Host.Outcome State Fault Refusal :=
  .next (s.changePage mb (.collapseReplicas leaf) leaf true pteREP fun e => pteSet e 12 1 0)

/-! ## 0x03 to 0x05: tiles (R129, R159, R375, R414) -/

/-- No instance is placed on the tile. -/
def tileFree (s : State) (t : Tid) : Bool := (s.ctx (who t 0)).b.inst.isNone && (s.ctx (who t 1)).b.inst.isNone
def shadowsFree (s : State) (t : Tid) : Bool := (s.ctx (who t 0)).shadow.isNone && (s.ctx (who t 1)).shadow.isNone

def execSramProtectionMode (mb : Mailbox) (t : Tid) (bankCode : Bool) (s : State) : Host.Outcome State Fault Refusal :=
  .next (s.command mb (.sramProtectionMode t bankCode) fun s =>
    if !(tileFree s t && shadowsFree s t) then (.denied, s)
    else (.ok, s.modTile t fun x => if x.bankCode = bankCode then x else { x with bankCode, tags := Vector.replicate 384 {}, sp := [], bad := [] }))

def execMarkBankFailed (mb : Mailbox) (t : Tid) (bank : BitVec 7) (s : State) : Host.Outcome State Fault Refusal :=
  .next (s.simply mb (.markBankFailed t bank) (bank.toNat < 96) fun s => s.modTile t fun x => { x with failedBanks := bank :: x.failedBanks.filter (· != bank) })

/-- Every line held in a way that is being reserved is dropped without loss (R126, R129). -/
def State.yieldWays (s : State) (t : Tid) (ways : Nat) : State :=
  (s.hub.home.filter fun x => x.2.way < ways && homeOf s x.1 == some t.val).foldl (fun s x => s.dropLine x.1) s

def execKvResidentReservation (mb : Mailbox) (t : Tid) (ways : BitVec 8) (s : State) : Host.Outcome State Fault Refusal :=
  .next (s.command mb (.kvResidentReservation t ways) fun s =>
    if ways.toNat > 8 then (.invalid, s)
    else if !(tileFree s t) then (.denied, s)
    else (.ok, (s.modTile t fun x =>
      { x with
        kvWays := ways.toNat
        kvMem := x.kvMem.filter fun c => c.1 < ways.toNat * 65536
        kvPoison := x.kvPoison.filter fun l => l < ways.toNat * 1024 }).yieldWays t ways.toNat))

def execTileTimerPeriod (mb : Mailbox) (t : Tid) (period : BitVec 64) (s : State) : Host.Outcome State Fault Refusal :=
  .next (s.simply mb (.tileTimerPeriod t period) true fun s => s.modTile t fun x => { x with timerPeriod := period })

/-! ## 0x06, 0x07 (R355, R430) -/

def execTriggerEntry (mb : Mailbox) (k : Fin 64) (tr : Trigger) (s : State) : Host.Outcome State Fault Refusal :=
  .next (s.simply mb (.triggerEntry k tr) true fun s => s.modHub fun h => { h with triggers := kvPut h.triggers k.val tr })

def execGovernorBudgets (mb : Mailbox) (c : Cid) (k : Fin 5) (b : BitVec 8) (s : State) : Host.Outcome State Fault Refusal :=
  .next (s.simply mb (.governorBudgets c k b) true fun s => s.modCluster c fun x => x.modGov k.val fun g => { g with budget := b.toNat })

/-! ## 0x08: fenced tiles (R406, R407) -/

/-- READMIT goes to the tile and its neighbours; the tile is on probation. -/
def State.readmitTile (s : State) (t : Tid) : State :=
  let s := (s.modHub fun h =>
    { h with fenced := h.fenced.filter (· != t), probation := t :: h.probation.filter (· != t), appealed := h.appealed.filter (· != t) }).hubLog 10 (w64 t.val) 0xFFFF
  (t :: neighboursOf t).foldl (fun s n => s.sendHub n (mkFlit 6 t.val t.val 0 0 0)) s

def execReadmitTile (mb : Mailbox) (t : Tid) (s : State) : Host.Outcome State Fault Refusal :=
  .next (s.simply mb (.readmitTile t) (s.hub.fenced.contains t && s.hub.appealed.contains t) fun s => s.readmitTile t)

def execKeepFenced (mb : Mailbox) (t : Tid) (s : State) : Host.Outcome State Fault Refusal :=
  .next (s.simply mb (.keepFenced t) (s.hub.fenced.contains t && s.hub.appealed.contains t) id)

/-- A known-answer task: a node posted by firmware that names a tile on probation. -/
def execPostKatTask (mb : Mailbox) (t : Tid) (node : BitVec 64) (q : Fin 1024) (s : State) : Host.Outcome State Fault Refusal :=
  .next (s.submit mb (.postKatTask t node q) fun s =>
    if !(s.hub.probation.contains t && s.hub.table.length < 4096 && scheduling s) then (some .invalid, s)
    else if nodeMoving s q node.toNat 0 0 then (none, s.askArgs q 0 [node.toNat])
    else
      let id := s.hub.nextId
      (some .ok, ((s.newNode q node.toNat 0 0 0 none 0).modNode id fun e => { e with katTile := some t }).resettle))

/-! ## 0x09 to 0x0F (R117, R369, R378, R439, R441) -/

/-- The core that is not active has a new instruction memory and is the standby. -/
def Cores.reload (c : Cores) : Cores := { c with imem := Vector.ofFn fun k => if k = c.active then c.imem.get k else {}, standby := true }

/-- The failed core is reloaded; after a self-test that passes it is the standby. -/
def execCoreReloadSelftest (mb : Mailbox) (pass : Bool) (s : State) : Host.Outcome State Fault Refusal :=
  .next (s.simply mb (.coreReloadSelftest pass) (!s.hub.cores.standby && pass) fun s => s.modHub fun h => { h with cores := h.cores.reload })

def execResumeContext (mb : Mailbox) (w : Who) (s : State) : Host.Outcome State Fault Refusal :=
  .next (s.simply mb (.resumeContext w) ((s.ctx w).status == .stopped) fun s => s.modCtx w fun c => { c with status := .running })

/-- A discarded context ends as a fatal condition ends it. -/
def execDiscardContext (mb : Mailbox) (w : Who) (s : State) : Host.Outcome State Fault Refusal :=
  .next (s.simply mb (.discardContext w) ((s.ctx w).status == .stopped) fun s => s.fatal w Cause.brk)

/-- The pins that an image holds are lowered. -/
def execDiscardImage (mb : Mailbox) (pa : BitVec 52) (s : State) : Host.Outcome State Fault Refusal :=
  .next (s.submit mb (.discardImage pa) fun s =>
    if pa.toNat % 65536 ≠ 0 || !isLocal pa.toNat then (some .invalid, s)
    else if pagesHeld s then (none, s)
    else
      let (hs, p, s) := s.hubRead (pa.toNat + 0x10200) 1024 18
      let (h15, p', s) := s.hubRead (pa.toNat + 0x10058) 24 3
      if p || p' then (some .invalid, s)
      else
        let at' (i o : Nat) : Nat := leNat ((hs.drop (64 * i + o)).take 8)
        let held := (List.range 16).map (fun i => (at' i 8, at' i 24)) ++ [(leNat ((h15.drop 8).take 8), leNat ((h15.drop 16).take 8))]
        (some .ok, held.foldl (fun s x => if bit x.1 0 && bit x.1 2 then s.lowerPin (BitVec.ofNat 49 x.2) else s) s))

def execPairLinkRetrain (mb : Mailbox) (s : State) : Host.Outcome State Fault Refusal :=
  .next (s.simply mb .pairLinkRetrain true fun s => s.modHub fun h => { h with training := !h.pair })

/-- In recovery an image is loaded and verified; bring-up goes on with it. Elsewhere the command is INVALID. -/
def execImageLoad (mb : Mailbox) (img : List Byte) (s : State) : Host.Outcome State Fault Refusal :=
  .next (if s.hub.power == .recovery then
      if imageAccepted s.hub.boot img then ((s.modHub fun h => { h with boot := { h.boot with flash := img } }).bringUp).setStatus mb .ok else s
    else s.simply mb (.imageLoad img) false id)

end Sys2Proof.Machine
end

