-- ==== Sys2Proof/Machine/Reliab.lean ====
section
/-! DEFINITION. Neighbour voting, fencing, appeal and probation, delayed lockstep (R393 to R410). -/
namespace Sys2Proof.Machine

/-! ## Flits (R394) -/

def flitF (f : BitVec 128) (off n : Nat) : Nat := bits f.toNat (8 * off) (8 * n)
def flitType (f : BitVec 128) : Nat := flitF f 0 1
def flitSrc (f : BitVec 128) : Nat := flitF f 1 1
def flitSubj (f : BitVec 128) : Nat := flitF f 2 1
def flitReason (f : BitVec 128) : Nat := flitF f 3 1
def flitData (f : BitVec 128) : Nat := flitF f 8 4

/-- CHECK holds, TYPE is defined, and the reserved field is 0. -/
def wellFormedFlit (f : BitVec 128) : Bool :=
  flitF f 12 4 = (crc32 (leBytes f.toNat 12)).toNat && 1 ≤ flitType f && flitType f ≤ 7 && flitF f 6 2 = 0

/-- The flit leaves the mesh where it arrives. -/
def State.takeFlit (s : State) (dst : Option Tid) (f : BitVec 128) : State :=
  s.modHub fun h => { h with flits := h.flits.eraseP fun x => x.dst == dst && x.bits == f }

/-! ## HBCFG (R397) -/

def hbEn (s : State) : Bool := bit s.hub.hbcfg.toNat 0
def hbInj (s : State) : Nat := bits s.hub.hbcfg.toNat 8 4
def hbBadf (s : State) : Nat := bits s.hub.hbcfg.toNat 12 4
def hbMiss (s : State) : Nat := bits s.hub.hbcfg.toNat 16 4
def hbLogp (s : State) : Nat := bits s.hub.hbcfg.toNat 20 4 + (if bits s.hub.hbcfg.toNat 20 4 = 0 then 16 else 0)
def hbPeriod (s : State) : Nat := 2 ^ hbLogp s

/-! ## Views (R398 to R401) -/

/-- The tile takes part in the mesh. -/
def meshLive (s : State) (t : Tid) : Bool := !(s.hub.fenced.contains t || s.hub.retired.contains t)

def meshPowered (s : State) : Bool := match s.hub.power with
  | .d0 | .d3entry _ | .boot => true
  | .d3hot | .recovery | .off => false

def viewOf (s : State) (t : Tid) (d : Fin 4) : View := (s.tile t).views.get d
def State.modView (s : State) (t : Tid) (d : Fin 4) (f : View → View) : State :=
  s.modTile t fun x => { x with views := x.views.set d.val (f (x.views.get d)) d.isLt }

/-- The neighbour in a direction, and the direction of a neighbour. -/
def nbr (t : Tid) (d : Fin 4) : Option Tid := (neighbour t.val d.val).bind tid?
def dirOf (t n : Tid) : Option (Fin 4) := (List.finRange 4).find? fun d => nbr t d == some n

/-- VOTE becomes pending in each privileged context of the tile (R401). -/
def State.raiseVote (s : State) (t : Tid) : State :=
  [who t 0, who t 1].foldl (fun s w => if (s.bank w).priv then s.modBank w fun b => { b with irq := { b.irq with vote := true } } else s) s

/-- A view becomes ACCUSED or FENCED, with the interrupt when it changes. -/
def State.setView (s : State) (t : Tid) (d : Fin 4) (st : ViewSt) : State :=
  let was := (viewOf s t d).st
  let s := s.modView t d fun v => { v with st, good := if was = st then v.good else 0 }
  if was ≠ st && (st = .accused || st = .fenced) then s.raiseVote t else s

/-! ## Fencing (R402 to R405) -/

def State.eachTile (s : State) (f : Tile → Tile) : State := { s with tiles := s.tiles.map f }

/-- A tile's home before a fence: the homes as they were when `subj` was no fenced tile. -/
def homeBefore (s : State) (subj : Tid) (line : Nat) : Option Nat :=
  homeOf (s.modHub fun h => { h with fenced := h.fenced.filter (· != subj), retired := h.retired.filter (· != subj) }) line

def coopOf (i : Option Inst) : Bool := (i.map fun x => x.coop).getD false

/-- Lines leave their old home: home-slice lines and the first-level copies leased there. The new home starts with times of 0 (R405). -/
def State.unhome (s : State) (gone : Nat → Bool) : State :=
  (s.eachTile fun t => { t with l1 := t.l1.filter fun x => !gone x.1 }).modHub fun h =>
    { h with home := h.home.filter fun x => !gone x.1, times := h.times.filter fun x => !gone x.1 }

/-- Lines whose home changes leave their old home. -/
def State.rehome (s : State) (f : State → State) : State := (f s).unhome fun l => homeOf s l != homeOf (f s) l

/-- What a tile does when the first notice for T reaches it. Accusations received stay in force as long as R398 says. -/
def State.noticeAt (s : State) (t subj : Tid) : State :=
  if t = subj || (s.tile t).knownFenced.contains subj then s
  else
    let s := s.modTile t fun x =>
      { x with
        knownFenced := subj :: x.knownFenced
        l1 := x.l1.filter fun l => homeBefore s subj l.1 != some subj.val }
    match dirOf t subj with
    | some d => if (viewOf s t d).st = .retired then s else s.setView t d .fenced
    | none => s

/-- A press of a fenced tile is not published: its writes would be writes from the tile (R402, R403). -/
def Bank.dropPresses (b : Bank) : Bank := { b with kvRuns := b.kvRuns.filter fun r => (opOf r.word).toNat != 0x4E }

/-- Its units return. -/
def State.dropPresses (s : State) (w : Who) : State :=
  let of' (b : Bank) : List KvRun := b.kvRuns.filter fun r => (opOf r.word).toNat == 0x4E
  let runs := of' (s.bank w) ++ (((s.ctx w).shadow.map of').getD [])
  (runs.foldl (fun s r => s.returnGrant w r.grant) s).modCtx w fun c => { c with b := c.b.dropPresses, shadow := c.shadow.map Bank.dropPresses }

/-- The leading copy of the pair whose trailing copy a context holds, running or stopped by FENCE (R403, R409). -/
def leadOf (s : State) (w : Who) : Option Who :=
  match (s.ctx w).status with
  | .mirror lead => some lead
  | .fenced =>
    match (s.bank w).inst with
    | some i => if i.lstep then
        (List.finRange 144).find? fun v => v != w && (s.ctx v).status != .mirror w &&
          ((s.bank v).inst.map fun j => (j.lstep, j.node, j.index)) == some (true, i.node, i.index)
      else none
    | none => none
  | .idle | .running | .trapping | .stopped | .swapping _ => none

/-- The orphan on one context of a fenced tile: its instance is requeued, a cooperative one first; both copies of a lockstep pair are requeued
as one instance (R403). -/
def State.orphan (s : State) (w : Who) : State :=
  let c := s.ctx w
  let s := match leadOf s w with
    | some lead => (s.abortRequeue lead (coopOf (s.bank lead).inst)).modCtx w fun c => { c with b := c.b.leave, trail := [], signs := [] }
    | none => if c.b.inst.isSome then s.abortRequeue w (coopOf c.b.inst) else s
  let s := match (s.ctx w).shadow with
    | none => s
    | some b =>
      let s := (s.modCtx w fun c => { c with b, shadow := none }).toggleAway w
      s.abortRequeue w (coopOf b.inst)
  s.modCtx w fun c => { c with status := .fenced }

/-- The hub learns of a fence: it is counted and logged, the third retires the tile, orphans are settled, and the remap begins. The tile
gets no shoot-down any more, and no translation of it outlasts that (R110, R120). -/
def State.hubFence (s : State) (t : Tid) : State :=
  if !meshLive s t then s
  else
    let n := s.hub.fcnts.get t + 1
    let s := s.modHub fun h =>
      { h with
        fcnts := h.fcnts.set t.val n t.isLt
        probation := h.probation.filter (· != t)
        appealed := h.appealed.filter (· != t)
        fenced := if n ≥ 3 then h.fenced else t :: h.fenced
        retired := if n ≥ 3 then t :: h.retired else h.retired
        remap := if h.probation.contains t || h.remap.contains t then h.remap else t :: h.remap
        shots := h.shots.map fun x => (x.1, x.2.filter (· != t)) }
    let s := s.hubLog 8 (w64 t.val) 0xFFFF 0 (BitVec.ofNat 8 n)
    let s := if n ≥ 3 then
        (neighboursOf t).foldl (fun s k => s.sendHub k (mkFlit 7 t.val t.val 0 0 0)) (s.hubLog 11 (w64 t.val) 0xFFFF)
      else s
    let s := (s.tile t).hidden.foldl (fun s c => s.addOrphan (.pend c.who c.desc)) s
    let s := s.modTile t fun x => { x with hidden := [] }
    let s := (((s.dropPresses (who t 0)).dropPresses (who t 1)).orphan (who t 0)).orphan (who t 1)
    let s := (s.tile t).qz.foldl (fun s c => s.returnGrant c.who c.grant) s
    s.modTile t fun x =>
      { x with
        fcnt := min 3 (x.fcnt + 1), prob := false, qz := [], hidden := [], kvMem := [], kvPoison := [], errs := x.errs.filter (·.arr != 2)
        tlb1 := [], tlb2 := [], shots := [] }

/-- The fence count that a FENCE flit for T carries: this fence's. -/
def fenceCount (s : State) (subj : Tid) : Nat := if meshLive s subj then s.hub.fcnts.get subj + 1 else s.hub.fcnts.get subj

/-- A neighbour fences T: FENCE to T, and the notice to every tile and to the hub (R402). -/
def State.fenceBy (s : State) (t subj : Tid) : State :=
  let s := s.noticeAt t subj
  let f := mkFlit 4 t.val subj.val 0 0 (fenceCount s subj)
  let s := s.sendFrom t (some subj) f
  let s := ((List.finRange 72).filter fun x => x != t && x != subj).foldl (fun s x => s.sendFrom t (some x) f) s
  s.sendFrom t none f

/-- Neighbours of T that are live in `t`'s view. -/
def liveNeighbours (s : State) (t subj : Tid) : List Tid := (neighboursOf subj).filter fun n => !((s.tile t).knownFenced.contains n)

/-- Accusations of T in force that `t` counts: from distinct live neighbours of T, its own included (R400). -/
def accusationCount (s : State) (t subj : Tid) : Nat :=
  let live := liveNeighbours s t subj
  let own := match dirOf t subj with
    | some d => (viewOf s t d).judged != 0
    | none => false
  (live.filter fun n => if n = t then own else (s.tile t).accs.any fun a => a.subj == subj && a.src == n && s.now < a.ends).length

/-- The majority of R400 is reached at `t`. -/
def majority (s : State) (t subj : Tid) : Bool :=
  let n := (liveNeighbours s t subj).length
  n > 0 && n / 2 + 1 ≤ accusationCount s t subj

/-- A neighbour that counts the majority fences T. -/
def State.settleVote (s : State) (t : Tid) (d : Fin 4) : State :=
  match nbr t d with
  | none => s
  | some subj =>
    let st := (viewOf s t d).st
    if (st = .ok || st = .suspect || st = .accused) && majority s t subj then s.fenceBy t subj else s

/-- Every neighbour's count anew, as often as a fence can change another count (R400). -/
def State.recount (s : State) (t : Tid) : State :=
  (List.range 4).foldl (fun s _ => (List.finRange 4).foldl (fun s d => s.settleVote t d) s) s

/-- A notice for T reaches a tile, whose counts may then reach a lower majority (R400, R402). -/
def State.noticed (s : State) (t subj : Tid) : State := (s.noticeAt t subj).recount t

/-! ## Accusing (R398, R399) -/

/-- A flit goes from a neighbour of T to each other live neighbour of T that a route reaches which passes through neither T nor a fenced
or retired tile (R399). -/
def State.tellNeighbours (s : State) (t subj : Tid) (f : BitVec 128) : State :=
  let closed (x : Tid) : Bool := x == subj || !meshLive s x || (s.tile t).knownFenced.contains x
  ((liveNeighbours s t subj).filter (· != t)).foldl (fun s n =>
    match route closed t n with
    | none => s
    | some (time, first) => s.sendAt (some n) f (s.now + time) (linkFrom s t (some first))) s

/-- A judgement of T: the view is ACCUSED, SIG is recorded, and ACCUSE goes to T's other live neighbours. -/
def State.accuseOf (s : State) (t : Tid) (d : Fin 4) (reason : Nat) : State :=
  match nbr t d with
  | none => s
  | some subj =>
    let s := (s.modView t d fun v => { v with judged := BitVec.ofNat 8 reason }).setView t d .accused
    let s := s.modTile t fun x => { x with accuseSigs := (subj, (x.views.get d).sig) :: x.accuseSigs }
    s.tellNeighbours t subj (mkFlit 2 t.val subj.val reason 0 0)

/-- The view returns to OK; an ACCUSED one sends WITHDRAW. -/
def State.viewOk (s : State) (t : Tid) (d : Fin 4) : State :=
  match nbr t d with
  | none => s
  | some subj =>
    let was := (viewOf s t d).st
    let s := (s.modView t d fun v => { v with judged := 0 }).setView t d .ok
    if was = .accused then s.tellNeighbours t subj (mkFlit 3 t.val subj.val 0 0 0) else s

/-- A malformed flit arrived over the link: the view is SUSPECT, and a run of BADF is a babbling judgement at once (R396). -/
def State.malformed (s : State) (t : Tid) (d : Fin 4) : State :=
  let st := (viewOf s t d).st
  let s := s.modView t d fun v => { v with badRun := v.badRun + 1 }
  if !hbEn s then s
  else
    let babbles := hbBadf s ≤ (viewOf s t d).badRun
    match st with
    | .ok | .suspect | .accused =>
      let s := if st = .ok then s.setView t d .suspect else s
      if babbles then (s.accuseOf t d 3).settleVote t d else s
    | .probation => if babbles then match nbr t d with | some n => s.fenceBy t n | none => s else s
    | .fenced | .none | .retired => s

/-- A flit over the link from a neighbour whose port is closed is dropped (R402). -/
def portOpen (s : State) (t : Tid) (d : Fin 4) : Bool :=
  match (viewOf s t d).st with
  | .fenced | .retired | .none => false
  | .ok | .suspect | .accused | .probation => true

def dirNat (d : Dir) : Fin 4 := match d with
  | .north => 0
  | .east => 1
  | .south => 2
  | .west => 3

/-! ## HEARTBEAT (R393 to R396) -/

/-- No array has an uncorrectable error that stands unrepaired (R395, R416). -/
def arrOk (x : Tile) : Bool := x.health.arr && !x.health.acc.any id

/-- The health word of a tile. -/
def healthWord (s : State) (t : Tid) : Nat :=
  let x := s.tile t
  let c := s.cluster (Tid.cluster t)
  let idle := (s.ctx (who t 0)).status == .idle && (s.ctx (who t 1)).status == .idle
  b2n (arrOk x) + flag x.health.clk 1 + flag (x.health.vmon && c.vlo.toNat ≤ c.vnow.toNat) 2 + flag (x.fewSeen || idle) 3 + flag x.health.kat 4 +
    (x.sig ^^^ 0xFFFFFFFF).toNat % 2 ^ 24 * 2 ^ 8

/-- The mesh cycle of the running period at which a tile sends its heartbeat (R393). -/
def sendCycle (s : State) (t : Tid) : Nat := s.hub.periodEnd - hbPeriod s + t.val * 2 ^ (hbLogp s - 8)

/-- A live tile sends its heartbeat once per period, at its offset, over the ports that are open. -/
def execHeartbeatSend (t : Tid) (s : State) : Host.Outcome State Fault Refusal :=
  .next (let x := s.tile t
    if !meshPowered s || !meshLive s t || x.stalled || s.hub.periodEnd ≤ x.sentFor || s.now ≠ sendCycle s t then s
    else
      let f := mkFlit 1 t.val t.val 0 x.hbSeq.toNat (healthWord s t)
      let idle := (s.ctx (who t 0)).status == .idle && (s.ctx (who t 1)).status == .idle
      let s := ((neighboursOf t).filter fun n => ((dirOf t n).map (portOpen s t)).getD false).foldl (fun s n => s.sendFrom t (some n) f) s
      s.modTile t fun x =>
        { x with hbSeq := x.hbSeq + 1, sentFor := s.hub.periodEnd, fewSeen := idle, health := { x.health with arr := true, acc := Vector.replicate 2 false } })

def execHeartbeat (t : Tid) (d : Dir) (flit : BitVec 128) (s : State) : Host.Outcome State Fault Refusal :=
  .next (let k := dirNat d
    let from' := ((nbr t k).map (·.val == flitSrc flit)).getD false
    let fresh := from' && !(s.hub.flits.any fun x => x.dst == some t && x.bits == flit)
    let s := (s.takeFlit (some t) flit).modView t k fun v => { v with flits := v.flits + b2n fresh }
    if !meshLive s t || !portOpen s t k then s
    else if !wellFormedFlit flit then s.malformed t k
    else
      s.modView t k fun v =>
        { v with
          badRun := 0
          beats := v.beats + b2n (from' && flitType flit == 1)
          goodBeat := v.goodBeat || (from' && flitType flit == 1 && flitData flit % 32 == 31)
          sig := if from' && flitType flit == 1 then BitVec.ofNat 24 (flitData flit / 2 ^ 8) else v.sig })

/-- What a view counted in the period just ended is put aside. -/
def View.clear (v : View) : View := { v with beats := 0, goodBeat := false, flits := 0, partly := false }

/-- A period that is not judged leaves no run of missed periods (R397). -/
def View.unjudged (v : View) : View := if v.st = .fenced || v.st = .retired then v.clear else { v.clear with missed := 0 }

/-- A view at a period's end: what the tile judges of the neighbour (R396 to R398, R407). -/
def State.judgeView (s : State) (t : Tid) (d : Fin 4) : State :=
  let v := viewOf s t d
  if !hbEn s || (nbr t d).isNone then s.modView t d View.unjudged
  else if v.partly || v.st = .fenced || v.st = .retired then s.modView t d View.clear
  else
  let miss := !v.goodBeat
  let s := s.modView t d fun v =>
    { v.clear with missed := if miss then min 7 (v.missed + 1) else 0, good := if miss then 0 else v.good + 1 }
  let n := viewOf s t d
  let babbles := if v.beats > 2 then 2 else if hbInj s * hbPeriod s < 16 * v.flits then 4 else 0
  let reason := if miss && hbMiss s ≤ n.missed then 1 else babbles
  match v.st, nbr t d with
  | .fenced, _ | .retired, _ | .none, _ | _, none => s
  | .probation, some subj =>
    if miss || babbles ≠ 0 then s.fenceBy t subj
    else if 64 ≤ n.good then s.setView t d .ok
    else s
  | st, some subj =>
    if reason ≠ 0 then s.accuseOf t d reason
    else
      let others := (s.tile t).accs.any fun a => a.subj == subj && a.src != t && s.now < a.ends
      if st ≠ .ok && 2 ≤ n.good && !others then s.viewOk t d
      else if v.judged ≠ 0 then s.accuseOf t d v.judged.toNat
      else if miss && st = .ok then s.setView t d .suspect
      else s

/-- Probation ends: every live neighbour's view is OK again; homes move back, and the KV-resident region is POISON until written (R407). -/
def State.endProbation (s : State) (t : Tid) : State :=
  let live := (neighboursOf t).filter (meshLive s)
  let ok := live.all fun n => ((dirOf n t).map fun d => (viewOf s n d).st == .ok).getD false
  if !s.hub.probation.contains t || live.isEmpty || !ok then s
  else
    let s := s.rehome fun s => s.modHub fun h => { h with probation := h.probation.filter (· != t) }
    let s := s.eachTile fun x => { x with knownFenced := x.knownFenced.filter (· != t) }
    s.modTile t fun x => { x with prob := false, kvMem := [], kvPoison := List.range (x.kvWays * 1024), errs := x.errs.filter (·.arr != 2) }

/-- With EN = 0, every view that is OK, SUSPECT or ACCUSED is OK (R397). -/
def State.unjudge (s : State) : State :=
  if hbEn s then s
  else (List.finRange 72).foldl (fun s t => (List.finRange 4).foldl (fun s d =>
    match (viewOf s t d).st with
    | .ok | .suspect | .accused => s.viewOk t d
    | .fenced | .probation | .none | .retired => s) s) s

/-- The period has ended for every live tile: HBCFG takes effect and the next one runs. -/
def State.nextPeriod (s : State) : State :=
  if (List.finRange 72).all fun t => !meshLive s t || (s.tile t).judgedAt = s.hub.periodEnd then
    let changes := s.hub.hbcfgNext.isSome
    let s := s.modHub fun h => { h with hbcfg := h.hbcfgNext.getD h.hbcfg, hbcfgNext := none }
    let s := s.modHub fun h => { h with periodEnd := h.periodEnd + hbPeriod s }
    if changes then s.unjudge else s
  else s

def execPeriodEndJudgement (t : Tid) (s : State) : Host.Outcome State Fault Refusal :=
  .next (if !meshPowered s || s.now < s.hub.periodEnd || s.hub.periodEnd ≤ (s.tile t).judgedAt || !meshLive s t then s
    else
      let s := s.modTile t fun x => { x with judgedAt := s.hub.periodEnd }
      if (s.tile t).stalled then s.nextPeriod else
      let s := ((List.finRange 4).foldl (fun s d => s.judgeView t d) s).recount t
      ((neighboursOf t).foldl State.endProbation s).nextPeriod)

/-! ## ACCUSE, WITHDRAW and expiry (R398 to R400) -/

/-- What the link of the neighbour that a flit is stamped with sees of it: a malformed one more, or the end of a run of them (R396). -/
def State.overLink (s : State) (t : Tid) (flit : BitVec 128) : State :=
  match (tid? (flitSrc flit)).bind (dirOf t) with
  | none => s
  | some d =>
    if !meshLive s t || !portOpen s t d then s
    else if wellFormedFlit flit then s.modView t d fun v => { v with badRun := 0 }
    else s.malformed t d

/-- A flit other than a heartbeat that a tile takes: well formed, of its type, from a tile that it does not hold fenced. A malformed one counts
against the neighbour that it is stamped with. -/
def State.arrival (s : State) (t : Tid) (flit : BitVec 128) (type : Nat) (f : State → Tid → Tid → State) : State :=
  let s := (s.takeFlit (some t) flit).overLink t flit
  match tid? (flitSrc flit), tid? (flitSubj flit) with
  | some src, some subj =>
    if !meshLive s t || (s.tile t).knownFenced.contains src || !wellFormedFlit flit || flitType flit ≠ type then s else f s src subj
  | _, _ => s

def execAccuse (t : Tid) (flit : BitVec 128) (s : State) : Host.Outcome State Fault Refusal :=
  .next (s.arrival t flit 2 fun s src subj =>
    match dirOf t subj with
    | none => s
    | some d =>
      if !hbEn s || src = t || !((neighboursOf subj).contains src) then s
      else
        let s := s.modTile t fun x =>
          { x with accs := { subj, src, ends := s.now + 2 * hbMiss s * hbPeriod s } :: x.accs.filter fun a => !(a.subj == subj && a.src == src) }
        let s := if (viewOf s t d).st = .ok then s.setView t d .suspect else s
        s.settleVote t d)

def execWithdraw (t : Tid) (flit : BitVec 128) (s : State) : Host.Outcome State Fault Refusal :=
  .next (s.arrival t flit 3 fun s src subj => s.modTile t fun x => { x with accs := x.accs.filter fun a => !(a.subj == subj && a.src == src) })

/-- An accusation that has run out is gone. -/
def execAccusationExpiry (t subj src : Tid) (s : State) : Host.Outcome State Fault Refusal :=
  .next (s.modTile t fun x => { x with accs := x.accs.filter fun a => !(a.subj == subj && a.src == src && a.ends ≤ s.now) })

/-! ## FENCE (R402, R405, R406) -/

/-- A tile without live neighbours is fenced by the hub (R400). -/
def State.fenceLonely (s : State) : State :=
  (List.finRange 72).foldl (fun s t =>
    if meshLive s t && !((neighboursOf t).any (meshLive s)) then ((List.finRange 72).foldl (fun s x => s.noticed x t) s).hubFence t else s) s

/-- A notice reaches a tile or the hub; it names a neighbour of the tile that sent it. -/
def execFenceNotice (dst : Option Tid) (flit : BitVec 128) (s : State) : Host.Outcome State Fault Refusal :=
  .next (match dst with
    | some t => s.arrival t flit 4 fun s src subj => if (neighboursOf subj).contains src then s.noticed t subj else s
    | none =>
      let s := s.takeFlit none flit
      match tid? (flitSrc flit), tid? (flitSubj flit) with
      | some src, some subj =>
        if wellFormedFlit flit && flitType flit = 4 && (neighboursOf subj).contains src && meshLive s src then (s.hubFence subj).fenceLonely else s
      | _, _ => s)

/-- Every live tile has acknowledged: the homes of T are its buddy's (R405). -/
def execFenceRemap (t : Tid) (s : State) : Host.Outcome State Fault Refusal :=
  .next (if s.hub.remap.contains t && (liveTiles s).all fun x => (s.tile x).knownFenced.contains t then
      let moved (l : Nat) : Bool := remapPending s l
      let s' := s.modHub fun h => { h with remap := h.remap.filter (· != t) }
      let gone (l : Nat) : Bool := moved l && !remapPending s' l
      (s'.unhome gone).lowerHeld.resettle
    else s)

/-- A FENCE flit for the tile itself has reached it. -/
def fenceFlit (s : State) (t : Tid) : Option Flit :=
  s.hub.flits.find? fun x => x.dst == some t && x.due ≤ s.now && wellFormedFlit x.bits && flitType x.bits == 4 && flitSubj x.bits == t.val

/-- The fenced tile that receives FENCE stops both contexts and tests itself, once for a fence. -/
def execFenceReceived (t : Tid) (s : State) : Host.Outcome State Fault Refusal :=
  .next (match fenceFlit s t with
    | none => s
    | some x =>
      let s := s.takeFlit (some t) x.bits
      if (s.tile t).tested then s
      else
        let stop (c : Ctx) : Ctx := { c with status := .fenced, trail := [], signs := [] }
        ((s.modTile t fun x => { x with selfTest := true, tested := true }).modCtx (who t 0) stop).modCtx (who t 1) stop)

/-- The self-test ends; on a pass APPEAL goes to each neighbour. -/
def execSelfTestDone (t : Tid) (pass : Bool) (s : State) : Host.Outcome State Fault Refusal :=
  .next (if !(s.tile t).selfTest then s
    else
      let s := s.modTile t fun x => { x with selfTest := false }
      if pass then (neighboursOf t).foldl (fun s n => s.sendFrom t (some n) (mkFlit 5 t.val t.val 0 0 1)) s else s)

/-- An APPEAL passes the closed port and is forwarded to the hub, which drops that of a retired tile (R406, R408). -/
def execAppeal (t : Tid) (flit : BitVec 128) (s : State) : Host.Outcome State Fault Refusal :=
  .next (let s := s.takeFlit (some t) flit
    match tid? (flitSrc flit) with
    | none => s
    | some src =>
      match dirOf t src with
      | none => s
      | some _ =>
        if !meshLive s t then s
        else if !wellFormedFlit flit then s.overLink t flit
        else if flitType flit = 5 && flitSubj flit = src.val && flitData flit = 1 && s.hub.fenced.contains src && !(s.hub.appealed.contains src) then
          (s.modHub fun h => { h with appealed := src :: h.appealed }).hubLog 9 (w64 src.val) 0xFFFF
        else s)

/-- READMIT: the neighbours open their ports and set PROBATION, and the tile sets PROB (R406). What is left of the running period is judged
by neither: periods count from the next boundary (R407). -/
def execReadmit (t : Tid) (flit : BitVec 128) (s : State) : Host.Outcome State Fault Refusal :=
  .next (let s := if wellFormedFlit flit then s.takeFlit (some t) flit else (s.takeFlit (some t) flit).overLink t flit
    match tid? (flitSubj flit) with
    | none => s
    | some subj =>
      if !wellFormedFlit flit || flitType flit ≠ 6 || !(s.hub.probation.contains subj) then s
      else if t = subj then
        let free (c : Ctx) : Ctx := if c.status = .fenced then { c with status := .idle } else c
        ((s.modTile t fun x =>
          { x with prob := true, tested := false, views := x.views.map fun v => { v.clear with partly := true } }).modCtx (who t 0) free).modCtx (who t 1) free
      else
        match dirOf t subj with
        | none => s
        | some d =>
          if (viewOf s t d).st = .fenced then
            (s.modView t d fun v => { v.clear with st := .probation, good := 0, missed := 0, judged := 0, badRun := 0, partly := true }).modTile t
              fun x => { x with knownFenced := x.knownFenced.filter (· != subj) }
          else s)

/-- RETIRE: the view stands until device reset (R408). -/
def execRetire (t : Tid) (flit : BitVec 128) (s : State) : Host.Outcome State Fault Refusal :=
  .next (let s := if wellFormedFlit flit then s.takeFlit (some t) flit else (s.takeFlit (some t) flit).overLink t flit
    match tid? (flitSubj flit) with
    | none => s
    | some subj =>
      if !wellFormedFlit flit || flitType flit ≠ 7 || !(s.hub.retired.contains subj) then s
      else
        match dirOf t subj with
        | none => s
        | some d => (s.noticed t subj).setView t d .retired)

/-! ## Delayed lockstep (R409, R410, log 127) -/

/-- What the trailing copy of `w` follows: the leading bank without what acts outside the pair or holds what only one copy can hold. -/
def Bank.trailing (b : Bank) : Bank :=
  { b with
    posted := [], pairWait := [], pimRuns := [], coll := none, kvRuns := [], smpOut := [], topkRd := [], pwr := none, wm := []
    credit := 0, cmpFrom := none, effSig := none, c := { b.c with mats := [], engSince := none } }

/-- The point that the leading copy is at, due at the trailing one D cycles later. -/
def trailOf (s : State) (w : Who) : Trail :=
  let t := s.tile (Who.tile w)
  let ks := quotaSlots t (s.bank w)
  { due := s.now + lockDelay w, held := (s.bank w).cmpFrom.isSome, b := (s.bank w).trailing, tags := ks.map fun k => (k, t.tag k), sp := t.sp.filter fun c => ks.contains (c.1 / 4096) }

def Trail.same (a b : Trail) : Bool := a.held == b.held && a.b == b.b && a.tags == b.tags && a.sp == b.sp

/-- The CRC-32 that a copy forms of the effect held, over where it stands and the scalars that the effect takes its values from (log 127). -/
def Bank.signature (b : Bank) : BitVec 32 := crc32 (leBytes b.f.pc.toNat 8 ++ b.r.s.toList.flatMap fun x => leBytes x.toNat 8)

/-- A leading copy that holds an effect has formed its signature. -/
def Bank.signHeld (b : Bank) : Bank := if b.cmpFrom.isSome then { b with effSig := some (b.effSig.getD b.signature) } else b

/-- The trailing copy comes to a point, and signs the effect that is held there. -/
def Bank.comeTo (b : Bank) (x : Trail) : Bank := { x.b with effSig := if x.held then some (b.effSig.getD x.b.signature) else none }

/-- Every trailing copy is told the point that its leading copy has come to, and a leading copy signs the effect that it holds. -/
def State.follow (s : State) : State :=
  (List.finRange 144).foldl (fun s v =>
    match (s.ctx v).status with
    | .mirror w =>
      let x := trailOf s w
      let s := if x.held then s.modBank w Bank.signHeld else s
      if ((s.ctx v).trail.getLast?.map (·.same x)).getD ((s.bank v).trailing == x.b && (s.bank v).effSig.isSome == x.held) then s
      else s.modCtx v fun c => { c with trail := c.trail ++ [x] }
    | .idle | .running | .trapping | .stopped | .swapping _ | .fenced => s) s

/-- The bytes and tags of slots, in place of what a tile held there. -/
def Tile.putSlots (t : Tile) (x : Trail) : Tile :=
  let kept := t.sp.filter fun c => !(x.tags.any fun k => k.1 == c.1 / 4096)
  x.tags.foldl (fun t k => t.setTag k.1 k.2) { t with sp := x.sp.foldl (fun m c => memWrite m c.1 [c.2]) kept }

/-- The trailing copies pass the points and retire the words whose cycle has come. -/
def State.trailDue (s : State) : State :=
  (List.finRange 144).foldl (fun s v =>
    let c := s.ctx v
    let words := c.signs.filter (·.1 ≤ s.now)
    let s := if words.isEmpty then s
      else (s.modTile (Who.tile v) fun t => words.foldl (fun t x => t.sign x.2) { t with fewSeen := true }).modCtx v fun c =>
        { c with signs := c.signs.filter fun x => !(x.1 ≤ s.now) }
    match (c.trail.filter (·.due ≤ s.now)).getLast? with
    | some x => (s.modTile (Who.tile v) fun t => t.putSlots x).modCtx v fun c => { c with b := c.b.comeTo x, trail := c.trail.filter fun y => !(y.due ≤ s.now) }
    | none => s) s

/-- An effect of the leading copy is held, and the trailing copy has come to where the leading one held it: the comparator has both
signatures. -/
def compared (s : State) (w : Who) : Bool :=
  ((s.bank w).inst.map (·.lstep)).getD false && ((partnerOf w).any fun v => (s.ctx v).status = .mirror w) &&
    ((s.bank w).cmpFrom.any fun c => c + lockDelay w ≤ s.now)

/-- The comparator finds the two signatures equal. -/
def signaturesMatch (s : State) (w : Who) : Bool := compared s w && (partnerOf w).any fun v => (s.bank w).effSig == (s.bank v).effSig

/-- The comparator has released one effect of the leading copy `w`. -/
def Bank.release (b : Bank) : Bank := { b with credit := b.credit + 1, cmpFrom := none, effSig := none }

/-- The signatures match: one held effect of the leading copy is released. -/
def execLockstepSignatureMatch (w : Who) (s : State) : Host.Outcome State Fault Refusal :=
  .next (if signaturesMatch s w then
      (partnerOf w).toList.foldl (fun s v => s.modBank v fun b => { b with effSig := none }) (s.modBank w Bank.release)
    else s)

/-- The signatures differ: the held effect is discarded and both copies stop. -/
def execLockstepMismatch (w : Who) (lead trail : BitVec 32) (s : State) : Host.Outcome State Fault Refusal :=
  .next (match (s.bank w).inst with
    | none => s
    | some i =>
      if !compared s w || lead = trail then s
      else
        let other := (((List.finRange 144).find? fun v => (s.ctx v).status == .mirror w).map ctxid16).getD 0xFFFF
        let s := s.hubLog 7 (w64 (lead.toNat + trail.toNat * 2 ^ 32)) (ctxid16 w) other
        let n := ((s.node? i.node).map (·.mism)).getD 0 + 1
        let s := s.modNode i.node fun e => { e with mism := n }
        let s := s.modBank w fun b => { b with posted := if i.abt && n < 3 then b.posted else [] }
        if i.abt && n < 3 then s.abortRequeue w else ((s.dropInstance w).goIdle w).failNode i.node)

end Sys2Proof.Machine
end

