-- ==== Sys2Proof/Machine/Clock.lean ====
section
/-! DEFINITION. What happens by itself as tile cycles pass: clocks tick, heartbeats leave, flits arrive, periods and windows end,
waits time out (R83, R85, R87, R131, R368, R393 to R402; log 117). -/
namespace Sys2Proof.Machine

abbrev Out := Host.Outcome State Fault Refusal

/-- One outcome after another. -/
def andThen (o : Out) (f : State → Out) : Out :=
  match o with
  | .next s => f s
  | .fault r => .fault r
  | .refused r => .refused r

def runAll : List (State → Out) → State → Out
  | [], s => .next s
  | f :: fs, s => andThen (f s) (runAll fs)

/-- The tile whose heartbeat leaves in the present mesh cycle (R393). -/
def beatsNow (s : State) : Option Tid :=
  let start := s.hub.periodEnd - hbPeriod s
  let step := 2 ^ (hbLogp s - 8)
  if start ≤ s.now && (s.now - start) % step = 0 then tid? ((s.now - start) / step) else none

def finDir (d : Fin 4) : Dir := if d = 0 then .north else if d = 1 then .east else if d = 2 then .south else .west

/-- What the receiver of a flit does with it, by its type; a heartbeat, or a flit of no type, comes over the link from its source. -/
def receive (x : Flit) (s : State) : Out :=
  match x.dst with
  | none => if flitType x.bits = 4 then execFenceNotice none x.bits s else .next s
  | some t =>
    match flitType x.bits with
    | 2 => execAccuse t x.bits s
    | 3 => execWithdraw t x.bits s
    | 4 => if flitSubj x.bits = t.val then execFenceReceived t s else execFenceNotice (some t) x.bits s
    | 5 => execAppeal t x.bits s
    | 6 => execReadmit t x.bits s
    | 7 => execRetire t x.bits s
    | _ => match (tid? (flitSrc x.bits)).bind (dirOf t) with
      | some d => execHeartbeat t (finDir d) x.bits s
      | none => .next s

/-- A flit arrives, and is in the mesh no longer; one for a stalled tile waits in its input buffer (R456). -/
def deliver (x : Flit) (s : State) : Out :=
  if x.dst.any fun t => (s.tile t).stalled then .next s else
  let count (s : State) : Nat := (s.hub.flits.filter (· == x)).length
  andThen (receive x s) fun t => .next (if count t < count s then t else t.modHub fun h => { h with flits := h.flits.erase x })

/-- A heartbeat period ends: every live tile judges, and the next period runs (R396, R398). -/
def endPeriod (s : State) : Out :=
  if meshPowered s then
    andThen (runAll ((List.finRange 72).map execPeriodEndJudgement) s) fun t =>
      .next (if t.hub.periodEnd = s.hub.periodEnd then t.nextPeriod else t)
  else .next (s.modHub fun h => { h with periodEnd := h.periodEnd + hbPeriod s })

/-- The journal entries written so far stand in LP6 too (R368, log 113). -/
def State.mirrorJournal (s : State) : State := s.modHub fun h => { h with cores := { h.cores with mirror := h.cores.journal } }

/-- Every 64 tile cycles each tile's clock ticks (R131); the journal is mirrored. -/
def ticks (s : State) : List (State → Out) :=
  if s.now % 64 = 0 then (List.finRange 72).map execLtTick ++ [fun s => .next s.mirrorJournal] else []

/-- Waits for the host that have lasted 2^21 scheduler cycles (R85). -/
def timeouts (s : State) : List (State → Out) :=
  (s.hub.backInv.filter fun b => b.since + 2 ^ 21 ≤ s.sched16).map fun b => execBackInvalidationTimeout (BitVec.ofNat 46 b.line)

/-- On the way to D3hot the limit ends by itself, and so does the way once nothing runs (R438). -/
def towardsSleep (s : State) : List (State → Out) :=
  match s.hub.power with
  | .d3entry _ => [execD3hotRunLimitExpiry, execD3hotEntry]
  | .d0 | .d3hot | .recovery | .off | .boot => []

/-- What falls due in the tile cycle just reached. -/
def dueEvents (s : State) : List (State → Out) :=
  ticks s ++ (if s.hub.periodEnd ≤ s.now then [endPeriod] else []) ++ [fun s => .next s.linksPass] ++ ((s.hub.flits.filter (·.due ≤ s.now)).map deliver) ++
    [execMigrationCountWindow] ++ timeouts s ++ [fun s => .next s.pumpOrphan, fun s => .next s.windowsEnd, fun s => .next s.trailDue] ++ towardsSleep s

/-- One tile cycle passes. -/
def passCycle (s : State) : Out :=
  andThen (match beatsNow s with
    | some t => execHeartbeatSend t s
    | none => .next s) fun s =>
    let s := { s with now := s.now + 1 }
    runAll (dueEvents s) s

/-- `n` tile cycles pass. -/
def advance : Nat → State → Out
  | 0, s => .next s
  | n + 1, s => andThen (passCycle s) (advance n)

end Sys2Proof.Machine
end

