-- ==== Sys2Proof/Machine/Vector.lean ====
section
/-! DEFINITION. Vector words: arithmetic, compares and masks, logic, shifts, permutations, conversions, functions, reductions
(R221 to R245). -/
namespace Sys2Proof.Machine

/-! ## Checks and operands (R221, R222, R227) -/

/-- The words that accept every data tag. -/
def tagAll : Tag → Bool := anyData
/-- FP32, FP16, BF16 and the integer tags. -/
def tagArith (t : Tag) : Bool := anyData t && t != .fp8e4 && t != .fp8e5
/-- FP32, FP16, BF16. -/
def tagFloat3 (t : Tag) : Bool := [Tag.fp32, .fp16, .bf16].contains t

/-- ILLEGAL_INSTRUCTION where FMT or a listed VAR field has no meaning. -/
def legal (word : BitVec 48) (ok : Bool) : M Unit := if ok then pure () else illegal word

/-- The operand SA. -/
def operandA (w : Who) (f : FV) (ok : Tag → Bool) : M Vec := do
  let a ← vecOf w f.sa
  checkTag a ok
  return a

/-- The operands SA and SB of one tag. -/
def operandAB (w : Who) (f : FV) (ok : Tag → Bool) : M (Vec × Vec) := do
  let a ← vecOf w f.sa
  let b ← vecOf w f.sb
  checkTags a b ok
  return (a, b)

/-- The operands SA, SB and SC of one tag. -/
def operandABC (w : Who) (f : FV) (ok : Tag → Bool) : M (Vec × Vec × Vec) := do
  let a ← vecOf w f.sa
  let b ← vecOf w f.sb
  let c ← vecOf w f.sc
  checkTag a ok
  checkTag b ok
  checkTag c ok
  if a.tag ≠ b.tag then trap Cause.formatMismatch (tagInfo a.tag b.tag)
  if a.tag ≠ c.tag then trap Cause.formatMismatch (tagInfo a.tag c.tag)
  return (a, b, c)

/-- The belt result of a word: elements with their flags, inactive ones 0 (R223). -/
def vecRes (w : Who) (f : FV) (t : Tag) (latency : Nat) (xs : List (Flagged Nat)) : M CRes := do
  let (v, fl) := flaggedVec (← maskOf w f) t xs
  return beltOf f v latency fl

/-- A result that sets no flag. -/
def noFlags (xs : List Nat) : List (Flagged Nat) := xs.map fun x => (x, 0)

/-- The integer tag that has a tag's width (R231, R241). -/
def intTagOf (t : Tag) : Tag := if t.width = 32 then .int32 else if t.width = 16 then .int16 else .int8

/-! ## Elements -/

/-- An exact integer in a tag: clamped with SAT, else modulo 2^w (R225). -/
def reduceInt (t : Tag) (sat : Bool) (x : Int) : Flagged Nat :=
  let (lo, hi) := intRange t
  if sat && x < lo then (toPat t.width lo, fIS) else if sat && x > hi then (toPat t.width hi, fIS) else (toPat t.width x, 0)

/-- A flagged exact value rounded to a tag's format under RNE without saturation (R224). -/
def roundFlagged (t : Tag) (x : Flagged Num) : Flagged Nat :=
  match t.fmt? with
  | some m => let (p, g) := roundTo m x.1; (p, x.2 ||| g)
  | none => (0, 0)

/-- An operation given on exact integers and on exact values. -/
def arithElem (t : Tag) (sat : Bool) (int : Int → Int → Int) (flt : Num → Num → Flagged Num) (a b : Nat) : Flagged Nat :=
  if t.isFloat then roundFlagged t (flt (elemValue t a) (elemValue t b)) else reduceInt t sat (int (intValue t a) (intValue t b))

/-- `vfma` by form: the product is not rounded (R228). -/
def fmaNum (form : Nat) (a b c : Num) : Flagged Num :=
  let (p, f) := Num.mul a b
  let (x, g) := Num.add (if bit form 1 then p.neg else p) (if bit form 0 then c.neg else c)
  (x, f ||| g)

def fmaElem (t : Tag) (sat : Bool) (form a b c : Nat) : Flagged Nat :=
  if t.isFloat then roundFlagged t (fmaNum form (elemValue t a) (elemValue t b) (elemValue t c))
  else
    let p := intValue t a * intValue t b
    let x := intValue t c
    reduceInt t sat ((if bit form 1 then -p else p) + (if bit form 0 then -x else x))

/-- `vclamp` (R229). -/
def clampElem (t : Tag) (a lo hi : Nat) : Nat :=
  let lt (x y : Nat) : Bool := match elemKey t x, elemKey t y with
    | some _, some _ => (elemValue t x).lt (elemValue t y)
    | _, _ => false
  if elemKey t a = none then nanOf t
  else
    let r := if lt a lo then lo else a
    if lt hi r then hi else r

/-- `vabs` (R230). -/
def absElem (t : Tag) (sat : Bool) (a : Nat) : Flagged Nat :=
  match t.fmt? with
  | some m => if m.value a = .nan then (m.nanPat, 0) else (a % m.signBit, 0)
  | none => reduceInt t sat (intValue t a).natAbs

/-- `vneg` (R230): at UINT8 and IDX it is modular whatever SAT says. -/
def negElem (t : Tag) (sat : Bool) (a : Nat) : Flagged Nat :=
  match t.fmt? with
  | some m => if m.value a = .nan then (m.nanPat, 0) else ((a + m.signBit) % 2 ^ m.width, 0)
  | none => reduceInt t (sat && t != .uint8 && t != .idx) (-intValue t a)

/-- `vrnd` (R230). -/
def rndElem (t : Tag) (mode : Mode) (a : Nat) : Nat :=
  match t.fmt? with
  | none => a
  | some m => match m.value a with
    | .nan => m.nanPat
    | .fin s n d e =>
      let k := (roundUnits mode s n d e 0).1
      if k = 0 then (if s then m.signBit else 0) else (roundTo m (.fin s k 1 0)).1
    | .inf _ | .zero _ => a

/-- A condition of `vcmp` (R231). -/
def cmpElem (t : Tag) (cond a b : Nat) : Bool :=
  let x := elemValue t a
  let y := elemValue t b
  let un := x == .nan || y == .nan
  match cond with
  | 0 => !un && x.eq y
  | 1 => un || !x.eq y
  | 2 => !un && x.lt y
  | 3 => !un && (x.lt y || x.eq y)
  | 4 => !un && y.lt x
  | 5 => !un && (y.lt x || x.eq y)
  | _ => un

/-- `vclass` (R241). -/
def classElem (t : Tag) (a : Nat) : Nat :=
  match t.fmt? with
  | none => 0
  | some m => match m.value a with
    | .nan => 0
    | .inf s => if s then 1 else 8
    | .zero s => if s then 4 else 5
    | .fin s _ _ _ =>
      let sub := bits a m.f (m.width - m.p) = 0
      if s then (if sub then 3 else 2) else (if sub then 6 else 7)

/-! ## Arithmetic (R228 to R230) -/

def vaddRun (f : FV) (word : BitVec 48) (w : Who) : M CRes := do
  legal word (f.fmt = 0)
  let (a, b) ← operandAB w f tagArith
  let t := a.tag
  vecRes w f t (latArith t) (List.zipWith (arithElem t (bit f.var.toNat 0) (· + ·) (fun x y => Num.add x y)) a.lanes b.lanes)

def execVadd (h : Hdr) (f : FV) (s : State) : Host.Outcome State Fault Refusal :=
  .next (cWord (.vadd h f) h (wordOf 0x7A h f.toBody) (latOfTag f latArith tagArith 4) (fun w _ => vaddRun f (wordOf 0x7A h f.toBody) w) s)

def vsubRun (f : FV) (word : BitVec 48) (w : Who) : M CRes := do
  legal word (f.fmt = 0)
  let (a, b) ← operandAB w f tagArith
  let t := a.tag
  vecRes w f t (latArith t) (List.zipWith (arithElem t (bit f.var.toNat 0) (· - ·) (fun x y => Num.add x y.neg)) a.lanes b.lanes)

def execVsub (h : Hdr) (f : FV) (s : State) : Host.Outcome State Fault Refusal :=
  .next (cWord (.vsub h f) h (wordOf 0x7B h f.toBody) (latOfTag f latArith tagArith 4) (fun w _ => vsubRun f (wordOf 0x7B h f.toBody) w) s)

def vmulRun (f : FV) (word : BitVec 48) (w : Who) : M CRes := do
  legal word (f.fmt = 0)
  let (a, b) ← operandAB w f tagArith
  let t := a.tag
  vecRes w f t (latArith t) (List.zipWith (arithElem t (bit f.var.toNat 0) (· * ·) Num.mul) a.lanes b.lanes)

def execVmul (h : Hdr) (f : FV) (s : State) : Host.Outcome State Fault Refusal :=
  .next (cWord (.vmul h f) h (wordOf 0x7C h f.toBody) (latOfTag f latArith tagArith 4) (fun w _ => vmulRun f (wordOf 0x7C h f.toBody) w) s)

/-- Elements of three operands combined. -/
def zip3 (g : Nat → Nat → Nat → Flagged Nat) (a b c : List Nat) : List (Flagged Nat) :=
  List.zipWith (fun (x : Nat × Nat) z => g x.1 x.2 z) (a.zip b) c

def vfmaRun (f : FV) (word : BitVec 48) (w : Who) : M CRes := do
  legal word (f.fmt = 0)
  let (a, b, c) ← operandABC w f tagArith
  let t := a.tag
  vecRes w f t (latFma t) (zip3 (fmaElem t (bit f.var.toNat 2) (f.var.toNat % 4)) a.lanes b.lanes c.lanes)

def execVfma (h : Hdr) (f : FV) (s : State) : Host.Outcome State Fault Refusal :=
  .next (cWord (.vfma h f) h (wordOf 0x7D h f.toBody) (latOfTag f latFma tagArith 4) (fun w _ => vfmaRun f (wordOf 0x7D h f.toBody) w) s)

def minMaxRun (f : FV) (word : BitVec 48) (greater : Bool) (w : Who) : M CRes := do
  legal word (f.fmt = 0)
  let (a, b) ← operandAB w f tagAll
  let t := a.tag
  vecRes w f t (latArith t) (noFlags (List.zipWith (pickElem t greater) a.lanes b.lanes))

def execVmin (h : Hdr) (f : FV) (s : State) : Host.Outcome State Fault Refusal :=
  .next (cWord (.vmin h f) h (wordOf 0x7E h f.toBody) (latOfTag f latArith tagAll 4) (fun w _ => minMaxRun f (wordOf 0x7E h f.toBody) false w) s)

def execVmax (h : Hdr) (f : FV) (s : State) : Host.Outcome State Fault Refusal :=
  .next (cWord (.vmax h f) h (wordOf 0x7F h f.toBody) (latOfTag f latArith tagAll 4) (fun w _ => minMaxRun f (wordOf 0x7F h f.toBody) true w) s)

/-- A word that maps the elements of SA, keeping their tag. -/
def mapRun (f : FV) (word : BitVec 48) (ok : Tag → Bool) (latency : Tag → Nat) (g : Tag → Nat → Flagged Nat) (w : Who) : M CRes := do
  legal word (f.fmt = 0)
  let a ← operandA w f ok
  vecRes w f a.tag (latency a.tag) (a.lanes.map (g a.tag))

def execVabs (h : Hdr) (f : FV) (s : State) : Host.Outcome State Fault Refusal :=
  .next (cWord (.vabs h f) h (wordOf 0x80 h f.toBody) (latOfTag f latArith tagAll 4)
    (fun w _ => mapRun f (wordOf 0x80 h f.toBody) tagAll latArith (fun t => absElem t (bit f.var.toNat 0)) w) s)

def execVneg (h : Hdr) (f : FV) (s : State) : Host.Outcome State Fault Refusal :=
  .next (cWord (.vneg h f) h (wordOf 0x81 h f.toBody) (latOfTag f latArith tagAll 4)
    (fun w _ => mapRun f (wordOf 0x81 h f.toBody) tagAll latArith (fun t => negElem t (bit f.var.toNat 0)) w) s)

def vrndRun (f : FV) (word : BitVec 48) (w : Who) : M CRes := do
  match Mode.ofCode (f.var.toNat % 8) with
  | none => illegal word
  | some mode => mapRun f word tagAll latArith (fun t x => (rndElem t mode x, 0)) w

def execVrnd (h : Hdr) (f : FV) (s : State) : Host.Outcome State Fault Refusal :=
  .next (cWord (.vrnd h f) h (wordOf 0x99 h f.toBody) (latOfTag f latArith tagAll 4) (fun w _ => vrndRun f (wordOf 0x99 h f.toBody) w) s)

def vclampRun (f : FV) (word : BitVec 48) (w : Who) : M CRes := do
  legal word (f.fmt = 0)
  let (a, lo, hi) ← operandABC w f tagAll
  let t := a.tag
  vecRes w f t (latArith t) (zip3 (fun x y z => (clampElem t x y z, 0)) a.lanes lo.lanes hi.lanes)

def execVclamp (h : Hdr) (f : FV) (s : State) : Host.Outcome State Fault Refusal :=
  .next (cWord (.vclamp h f) h (wordOf 0x9A h f.toBody) (latOfTag f latArith tagAll 4) (fun w _ => vclampRun f (wordOf 0x9A h f.toBody) w) s)

/-! ## Compare, masks and select (R231 to R233) -/

def vcmpRun (f : FV) (word : BitVec 48) (w : Who) : M CRes := do
  legal word (f.var.toNat ≤ 6)
  let (a, b) ← operandAB w f tagAll
  let t := intTagOf a.tag
  let xs := List.zipWith (fun x y => if cmpElem a.tag f.var.toNat x y then 2 ^ t.width - 1 else 0) a.lanes b.lanes
  let v := maskedVec (← maskOf w f) t xs
  return .belt { rem := latArith a.tag, val := v, wn := f.wn = 1, nd := f.nd, maskK := BitVec.ofNat 3 f.fmt.toNat, maskMode := if bit f.fmt.toNat 3 then 1 else 0 }

def execVcmp (h : Hdr) (f : FV) (s : State) : Host.Outcome State Fault Refusal :=
  .next (cWord (.vcmp h f) h (wordOf 0x82 h f.toBody) (latOfTag f latArith tagAll 4) (fun w _ => vcmpRun f (wordOf 0x82 h f.toBody) w) s)

/-- The new mask of an `mset`; `v` is the operand of `.v` (R232). -/
def newMask (op : Nat) (v : Vec) (a b : BitVec 256) : BitVec 256 :=
  match op with
  | 0 => BitVec.ofNat 256 (packElems 1 (v.lanes.map fun x => if x = 0 then 0 else 1))
  | 1 => a &&& b
  | 2 => a ||| b
  | 3 => a ^^^ b
  | 4 => a &&& ~~~b
  | 5 => ~~~a
  | 6 => BitVec.allOnes 256
  | _ => 0

def msetRun (f : FV) (word : BitVec 48) (w : Who) : M CRes := do
  legal word (f.var.toNat ≤ 7 && f.me = 0)
  let v ← if f.var = 0 then operandA w f tagAll else pure {}
  let r := (← getB w).r
  let m := newMask f.var.toNat v (r.mreg (BitVec.ofNat 3 f.sa.toNat)) (r.mreg (BitVec.ofNat 3 f.sb.toNat))
  let d : Vec := { bits := ofElems 8 ((List.range 256).map fun i => b2n (m.getLsbD i)), tag := .uint8 }
  return .belt { rem := 1, val := d, wn := f.wn = 1, nd := f.nd, maskK := BitVec.ofNat 3 f.fmt.toNat, maskMode := 1 }

def execMset (h : Hdr) (f : FV) (s : State) : Host.Outcome State Fault Refusal :=
  .next (cWord (.mset h f) h (wordOf 0x79 h f.toBody) (lat 1) (fun w _ => msetRun f (wordOf 0x79 h f.toBody) w) s)

def vselRun (f : FV) (word : BitVec 48) (w : Who) : M CRes := do
  legal word (f.fmt = 0)
  let (a, b) ← operandAB w f tagAll
  let m ← maskOf w f
  let xs := (a.lanes.zip b.lanes).mapIdx fun i x => if isActive m i then x.1 else x.2
  return beltOf f { bits := ofElems a.tag.width xs, tag := a.tag } 1

def execVsel (h : Hdr) (f : FV) (s : State) : Host.Outcome State Fault Refusal :=
  .next (cWord (.vsel h f) h (wordOf 0x78 h f.toBody) (lat 1) (fun w _ => vselRun f (wordOf 0x78 h f.toBody) w) s)

/-! ## Logic and shifts (R234, R235) -/

/-- A bitwise word: the bits of two operands of one tag, inactive elements 0. -/
def logicRun (f : FV) (word : BitVec 48) (g : BitVec 2048 → BitVec 2048 → BitVec 2048) (w : Who) : M CRes := do
  legal word (f.fmt = 0)
  let (a, b) ← operandAB w f tagAll
  vecRes w f a.tag 1 (noFlags ({ a with bits := g a.bits b.bits } : Vec).lanes)

def execVand (h : Hdr) (f : FV) (s : State) : Host.Outcome State Fault Refusal :=
  .next (cWord (.vand h f) h (wordOf 0x8C h f.toBody) (lat 1)
    (fun w _ => logicRun f (wordOf 0x8C h f.toBody) (fun a b => if bit f.var.toNat 0 then a &&& ~~~b else a &&& b) w) s)

def execVor (h : Hdr) (f : FV) (s : State) : Host.Outcome State Fault Refusal :=
  .next (cWord (.vor h f) h (wordOf 0x8D h f.toBody) (lat 1) (fun w _ => logicRun f (wordOf 0x8D h f.toBody) (· ||| ·) w) s)

def execVxor (h : Hdr) (f : FV) (s : State) : Host.Outcome State Fault Refusal :=
  .next (cWord (.vxor h f) h (wordOf 0x8E h f.toBody) (lat 1) (fun w _ => logicRun f (wordOf 0x8E h f.toBody) (· ^^^ ·) w) s)

/-- The three shifts of an element of `n` bits (R235). -/
def shlElem (n a b : Nat) : Nat := if b < n then a * 2 ^ b % 2 ^ n else 0
def shrElem (n a b : Nat) : Nat := if b < n then a / 2 ^ b else 0
def sraElem (n a b : Nat) : Nat := toPat n (sext a n / 2 ^ min b (n - 1))

def shiftRun (f : FV) (word : BitVec 48) (ok : Tag → Bool) (g : Nat → Nat → Nat → Nat) (w : Who) : M CRes := do
  legal word (f.fmt = 0)
  let (a, b) ← operandAB w f ok
  vecRes w f a.tag 1 (noFlags (List.zipWith (g a.tag.width) a.lanes b.lanes))

def execVshl (h : Hdr) (f : FV) (s : State) : Host.Outcome State Fault Refusal :=
  .next (cWord (.vshl h f) h (wordOf 0x8F h f.toBody) (lat 1) (fun w _ => shiftRun f (wordOf 0x8F h f.toBody) Tag.isInt shlElem w) s)

def execVshr (h : Hdr) (f : FV) (s : State) : Host.Outcome State Fault Refusal :=
  .next (cWord (.vshr h f) h (wordOf 0x90 h f.toBody) (lat 1) (fun w _ => shiftRun f (wordOf 0x90 h f.toBody) Tag.isInt shrElem w) s)

/-- INT32, INT16 and INT8. -/
def tagSigned (t : Tag) : Bool := [Tag.int32, .int16, .int8].contains t

def execVsra (h : Hdr) (f : FV) (s : State) : Host.Outcome State Fault Refusal :=
  .next (cWord (.vsra h f) h (wordOf 0x91 h f.toBody) (lat 1) (fun w _ => shiftRun f (wordOf 0x91 h f.toBody) tagSigned sraElem w) s)

/-! ## Permutations (R236, R237) -/

/-- The index tags of `vperm` by lane count. -/
def permIndex (n : Nat) (t : Tag) : Bool :=
  if n = 64 then t = .idx || t = .int32 else if n = 128 then t = .int16 else t = .int8 || t = .uint8

def vpermRun (f : FV) (word : BitVec 48) (w : Who) : M CRes := do
  legal word (f.fmt = 0)
  let (a, b) ← operandAB w f tagAll
  let x ← vecOf w f.sc
  checkTag x (permIndex a.tag.lanes)
  let xs := a.lanes ++ b.lanes
  vecRes w f a.tag 3 (noFlags (x.lanes.map fun k => if k < xs.length then elem (if k < a.tag.lanes then a.bits else b.bits) a.tag.width (k % a.tag.lanes) else 0))

def execVperm (h : Hdr) (f : FV) (s : State) : Host.Outcome State Fault Refusal :=
  .next (cWord (.vperm h f) h (wordOf 0x76 h f.toBody) (lat 3) (fun w _ => vpermRun f (wordOf 0x76 h f.toBody) w) s)

/-- The source of result element `i` of a `vshuf` pattern over `n` lanes: whether it is b's, and its number. -/
def shufSource (pat n i : Nat) : Bool × Nat :=
  let h := n / 2
  match pat with
  | 0 => (false, n - 1 - i)
  | 1 => (i % 2 = 1, i / 2)
  | 2 => (i % 2 = 1, h + i / 2)
  | 3 => (i ≥ h, 2 * (i % h))
  | 4 => (i ≥ h, 2 * (i % h) + 1)
  | _ => (false, i ^^^ 1)

def vshufRun (f : FV) (word : BitVec 48) (w : Who) : M CRes := do
  legal word (f.fmt = 0 && f.var.toNat ≤ 5)
  let a ← operandA w f tagAll
  let b ← if f.var = 0 || f.var = 5 then pure a else (·.2) <$> operandAB w f tagAll
  let n := a.tag.lanes
  vecRes w f a.tag 3 (noFlags ((List.range n).map fun i =>
    let (other, k) := shufSource f.var.toNat n i
    elem (if other then b.bits else a.bits) a.tag.width k))

def execVshuf (h : Hdr) (f : FV) (s : State) : Host.Outcome State Fault Refusal :=
  .next (cWord (.vshuf h f) h (wordOf 0x77 h f.toBody) (lat 3) (fun w _ => vshufRun f (wordOf 0x77 h f.toBody) w) s)

/-! ## Conversions (R238 to R241) -/

/-- The mode of VAR[2:0]; 5 to 7 are illegal. -/
def modeOf (word : BitVec 48) (f : FV) : M Mode :=
  match Mode.ofCode (f.var.toNat % 8) with
  | none => illegal word
  | some m => pure m

/-- The elements of a `vcvt`, part `q`. -/
def cvtElems (m : BitVec 256) (a : Vec) (t : Tag) (q : Nat) (mode : Mode) (sat : Bool) : List (Flagged Nat) :=
  let ls := a.tag.lanes
  let at' (k i : Nat) : Flagged Nat := if isActive m i then convert a.tag t mode sat (elem a.bits a.tag.width k) else (0, 0)
  (List.range t.lanes).map fun i =>
    if t.lanes > ls then (if i / ls = q then at' (i % ls) (i % ls) else (0, 0)) else at' (q * t.lanes + i) i

def vcvtRun (f : FV) (word : BitVec 48) (w : Who) : M CRes := do
  let mode ← modeOf word f
  let t ← fmtTag word f
  let a ← operandA w f tagAll
  let q := f.sc.toNat % 4
  legal word (q < max (t.lanes / a.tag.lanes) (a.tag.lanes / t.lanes))
  let xs := cvtElems (← maskOf w f) a t q mode (satFor t (bit f.var.toNat 3))
  let (v, fl) := flaggedVec (BitVec.allOnes 256) t xs
  return beltOf f v 2 fl

def execVcvt (h : Hdr) (f : FV) (s : State) : Host.Outcome State Fault Refusal :=
  .next (cWord (.vcvt h f) h (wordOf 0x8A h f.toBody) (lat 2) (fun w _ => vcvtRun f (wordOf 0x8A h f.toBody) w) s)

/-- x × 2^k. -/
def Num.scale2 (x : Num) (k : Int) : Num :=
  match x with
  | .fin s n d e => .fin s n d (e + k)
  | x => x

def vscaleRun (f : FV) (word : BitVec 48) (w : Who) : M CRes := do
  legal word (f.fmt = 0)
  let mode ← modeOf word f
  let a ← operandA w f Tag.isFloat
  let n ← vecOf w f.sb
  let t := a.tag
  checkTag n (· == intTagOf t)
  let sat := satFor t (bit f.var.toNat 3)
  vecRes w f t 2 (List.zipWith (fun x k => match t.fmt? with
    | some m => roundTo m ((m.value x).scale2 (intValue n.tag k)) mode sat
    | none => (0, 0)) a.lanes n.lanes)

def execVscale (h : Hdr) (f : FV) (s : State) : Host.Outcome State Fault Refusal :=
  .next (cWord (.vscale h f) h (wordOf 0x8B h f.toBody) (lat 2) (fun w _ => vscaleRun f (wordOf 0x8B h f.toBody) w) s)

def vpackRun (f : FV) (word : BitVec 48) (w : Who) : M CRes := do
  legal word (f.fmt = 0)
  let (a, b) ← operandAB w f fun t => t = .int32 || t = .int16
  let u := bit f.var.toNat 0
  legal word (!(a.tag = .int32 && u))
  let t : Tag := if a.tag = .int32 then .int16 else if u then .uint8 else .int8
  vecRes w f t 3 ((a.lanes ++ b.lanes).map fun x => reduceInt t (!bit f.var.toNat 1) (intValue a.tag x))

def execVpack (h : Hdr) (f : FV) (s : State) : Host.Outcome State Fault Refusal :=
  .next (cWord (.vpack h f) h (wordOf 0x96 h f.toBody) (lat 3) (fun w _ => vpackRun f (wordOf 0x96 h f.toBody) w) s)

def vunpkRun (f : FV) (word : BitVec 48) (w : Who) : M CRes := do
  legal word (f.fmt = 0)
  let a ← operandA w f fun t => t = .int16 || t = .int8 || t = .uint8
  let t : Tag := if a.tag = .int16 then .int32 else .int16
  vecRes w f t 3 (noFlags ((List.range t.lanes).map fun i =>
    toPat t.width (intValue a.tag (elem a.bits a.tag.width (t.lanes * b2n (bit f.var.toNat 0) + i)))))

def execVunpk (h : Hdr) (f : FV) (s : State) : Host.Outcome State Fault Refusal :=
  .next (cWord (.vunpk h f) h (wordOf 0x97 h f.toBody) (lat 3) (fun w _ => vunpkRun f (wordOf 0x97 h f.toBody) w) s)

def vclassRun (f : FV) (word : BitVec 48) (w : Who) : M CRes := do
  legal word (f.fmt = 0)
  let a ← operandA w f Tag.isFloat
  vecRes w f (intTagOf a.tag) 1 (noFlags (a.lanes.map (classElem a.tag)))

def execVclass (h : Hdr) (f : FV) (s : State) : Host.Outcome State Fault Refusal :=
  .next (cWord (.vclass h f) h (wordOf 0x98 h f.toBody) (lat 1) (fun w _ => vclassRun f (wordOf 0x98 h f.toBody) w) s)

/-! ## Functions (R215, R242) -/

/-- A word that gives a correctly rounded function of each element. -/
def functionRun (f : FV) (word : BitVec 48) (g : Num → Flagged Num) (w : Who) : M CRes :=
  mapRun f word tagFloat3 (fun _ => 8) (fun t x => roundFlagged t (g (elemValue t x))) w

def execVrcp (h : Hdr) (f : FV) (s : State) : Host.Outcome State Fault Refusal :=
  .next (cWord (.vrcp h f) h (wordOf 0x83 h f.toBody) (lat 8) (fun w _ => functionRun f (wordOf 0x83 h f.toBody) rcpNum w) s)

def execVrsqrt (h : Hdr) (f : FV) (s : State) : Host.Outcome State Fault Refusal :=
  .next (cWord (.vrsqrt h f) h (wordOf 0x84 h f.toBody) (lat 8) (fun w _ => functionRun f (wordOf 0x84 h f.toBody) rsqrtNum w) s)

def execVsqrt (h : Hdr) (f : FV) (s : State) : Host.Outcome State Fault Refusal :=
  .next (cWord (.vsqrt h f) h (wordOf 0x85 h f.toBody) (lat 8) (fun w _ => functionRun f (wordOf 0x85 h f.toBody) sqrtNum w) s)

def execVexp2 (h : Hdr) (f : FV) (s : State) : Host.Outcome State Fault Refusal :=
  .next (cWord (.vexp2 h f) h (wordOf 0x86 h f.toBody) (lat 8)
    (fun w _ => functionRun f (wordOf 0x86 h f.toBody) (fun x => (exp2Num x, 0)) w) s)

def execVlog2 (h : Hdr) (f : FV) (s : State) : Host.Outcome State Fault Refusal :=
  .next (cWord (.vlog2 h f) h (wordOf 0x87 h f.toBody) (lat 8) (fun w _ => functionRun f (wordOf 0x87 h f.toBody) log2Num w) s)

def execVsig (h : Hdr) (f : FV) (s : State) : Host.Outcome State Fault Refusal :=
  .next (cWord (.vsig h f) h (wordOf 0x88 h f.toBody) (lat 8)
    (fun w _ => functionRun f (wordOf 0x88 h f.toBody) (fun x => (sigNum x, 0)) w) s)

def execVtanh (h : Hdr) (f : FV) (s : State) : Host.Outcome State Fault Refusal :=
  .next (cWord (.vtanh h f) h (wordOf 0x89 h f.toBody) (lat 8)
    (fun w _ => functionRun f (wordOf 0x89 h f.toBody) (fun x => (tanhNum x, 0)) w) s)

/-! ## Reductions, scan and dot products (R243 to R245) -/

/-- The active elements of an operand. -/
def activeElems (m : BitVec 256) (a : Vec) : List Nat :=
  ((a.lanes.mapIdx fun i x => (i, x)).filter fun x => isActive m x.1).map (·.2)

/-- A vector with one element, in lane 0. -/
def lane0 (t : Tag) (x : Nat) : Vec := { bits := ofElems t.width [x], tag := t }

/-- The tag of a `vredsum` result. -/
def sumTag (t : Tag) : Tag := if t.isFloat then .fp32 else if t = .idx then .idx else .int32

def vredsumRun (f : FV) (word : BitVec 48) (w : Who) : M CRes := do
  legal word (f.fmt = 0)
  let a ← operandA w f tagArith
  let xs := activeElems (← maskOf w f) a
  let t := sumTag a.tag
  let (x, fl) :=
    if a.tag.isFloat then roundFlagged t (sumNum (xs.map (elemValue a.tag)))
    else reduceInt t (bit f.var.toNat 0 && a.tag != .idx) ((xs.map (intValue a.tag)).foldl (· + ·) 0)
  return beltOf f (lane0 t x) 6 fl

def execVredsum (h : Hdr) (f : FV) (s : State) : Host.Outcome State Fault Refusal :=
  .next (cWord (.vredsum h f) h (wordOf 0x92 h f.toBody) (lat 6) (fun w _ => vredsumRun f (wordOf 0x92 h f.toBody) w) s)

/-- The pattern of −∞ (or −448, or the smallest integer), and of its mirror. -/
def extreme (t : Tag) (greatest : Bool) : Nat :=
  match t.fmt? with
  | some m => (if m.hasInf then m.infPat else m.maxPat) + (if greatest then 0 else m.signBit)
  | none => toPat t.width (if greatest then (intRange t).2 else (intRange t).1)

/-- The largest or smallest of the elements; an all-NaN set gives the canonical NaN. -/
def pickAll (t : Tag) (greater : Bool) (xs : List Nat) : Nat :=
  match xs with
  | [] => extreme t (!greater)
  | x :: xs => xs.foldl (pickElem t greater) (pickElem t greater x x)

def redPickRun (f : FV) (word : BitVec 48) (greater : Bool) (w : Who) : M CRes := do
  legal word (f.fmt = 0)
  let a ← operandA w f tagAll
  return beltOf f (lane0 a.tag (pickAll a.tag greater (activeElems (← maskOf w f) a))) 6

def execVredmax (h : Hdr) (f : FV) (s : State) : Host.Outcome State Fault Refusal :=
  .next (cWord (.vredmax h f) h (wordOf 0x93 h f.toBody) (lat 6) (fun w _ => redPickRun f (wordOf 0x93 h f.toBody) true w) s)

def execVredmin (h : Hdr) (f : FV) (s : State) : Host.Outcome State Fault Refusal :=
  .next (cWord (.vredmin h f) h (wordOf 0x94 h f.toBody) (lat 6) (fun w _ => redPickRun f (wordOf 0x94 h f.toBody) false w) s)

/-- Running sums of numbers: element `i` sums the active elements up to `i`, or before `i` with EXCL. -/
def scanWith {α : Type} (m : BitVec 256) (excl : Bool) (push : α → Nat → α) (out : α → Flagged Nat) : Nat → α → List Nat → List (Flagged Nat)
  | _, _, [] => []
  | i, acc, x :: xs =>
    let next := if isActive m i then push acc x else acc
    out (if excl then acc else next) :: scanWith m excl push out (i + 1) next xs

def scanElems (m : BitVec 256) (t : Tag) (sat excl : Bool) (xs : List Nat) : List (Flagged Nat) :=
  if t.isFloat then scanWith m excl (fun a x => SumAcc.push a (elemValue t x)) (fun a => roundFlagged t a.value) 0 {} xs
  else scanWith m excl (fun a x => a + intValue t x) (reduceInt t sat) 0 (0 : Int) xs

def vscanRun (f : FV) (word : BitVec 48) (w : Who) : M CRes := do
  legal word (f.fmt = 0)
  let a ← operandA w f tagArith
  let m ← maskOf w f
  vecRes w f a.tag 6 (scanElems m a.tag (bit f.var.toNat 0) (bit f.var.toNat 1) a.lanes)

def execVscan (h : Hdr) (f : FV) (s : State) : Host.Outcome State Fault Refusal :=
  .next (cWord (.vscan h f) h (wordOf 0x95 h f.toBody) (lat 6) (fun w _ => vscanRun f (wordOf 0x95 h f.toBody) w) s)

/-- One dot product of four with an addend. -/
def dotElem (t : Tag) (sat : Bool) (a b : List Nat) (c : Nat) : Flagged Nat :=
  if t.isFloat then
    let ps := List.zipWith (fun x y => Num.mul (elemValue t x) (elemValue t y)) a b
    let (v, g) := sumNum (fmtFP32.value c :: ps.map (·.1))
    roundFlagged .fp32 (v, ps.foldl (fun acc p => acc ||| p.2) g)
  else reduceInt .int32 sat ((List.zipWith (fun x y => intValue t x * intValue t y) a b).foldl (· + ·) (intValue .int32 c))

def vdot4Run (f : FV) (word : BitVec 48) (w : Who) : M CRes := do
  legal word (f.fmt = 0)
  let (a, b) ← operandAB w f fun t => t.width = 8
  let t : Tag := if a.tag.isFloat then .fp32 else .int32
  let c ← vecOf w f.sc
  checkTag c (· == t)
  vecRes w f t 6 (c.lanes.mapIdx fun j x =>
    dotElem a.tag (bit f.var.toNat 0) ((a.lanes.drop (4 * j)).take 4) ((b.lanes.drop (4 * j)).take 4) x)

def execVdot4 (h : Hdr) (f : FV) (s : State) : Host.Outcome State Fault Refusal :=
  .next (cWord (.vdot4 h f) h (wordOf 0x9B h f.toBody) (lat 6) (fun w _ => vdot4Run f (wordOf 0x9B h f.toBody) w) s)

end Sys2Proof.Machine
end

