-- ==== Sys2Proof/Machine/Attention.lean ====
section
/-! DEFINITION. Attention words (R290 to R298). -/
namespace Sys2Proof.Machine

def isFp32 (t : Tag) : Bool := t = .fp32

/-! ## The tree mask (R291) -/

/-- The parent list keeps its rule: every present node's parent is an earlier present node, or the root. -/
def parentsOk (par : List Nat) : Bool :=
  ((List.range 64).drop 1).all fun i =>
    let p := par.getD i 0
    p = 255 || (p < i && (p = 0 || par.getD p 0 ≠ 255))

/-- Node `j` is node `i` or an ancestor of it. -/
def isAncestor (par : List Nat) (j : Nat) : Nat → Nat → Bool
  | 0, i => i = j
  | n + 1, i => i = j || (i ≠ 0 && isAncestor par j n (par.getD i 0))

def tmaskRun (f : FV) (word : BitVec 48) (w : Who) (e : Entry) : M CRes := do
  let a ← operandA w f fun t => t = .uint8
  let j := (e.s 0).toNat
  ensure (j ≤ 63 && parentsOk a.lanes) Cause.operandRange (wordInfo word)
  let xs := (List.range 256).map fun i =>
    if i < 64 && (i = 0 || a.lanes.getD i 0 ≠ 255) && isAncestor a.lanes j 64 i then 1 else 0
  return .belt
    { rem := 1, val := maskedVec (← maskOf w f) .uint8 xs, wn := f.wn = 1, nd := f.nd, maskK := BitVec.ofNat 3 f.fmt.toNat, maskMode := if bit f.fmt.toNat 3 then 1 else 0 }

def execTmask (h : Hdr) (f : FV) (s : State) : Host.Outcome State Fault Refusal :=
  .next (cWord (.tmask h f) h (wordOf 0xB0 h f.toBody) (lat 1) (tmaskRun f (wordOf 0xB0 h f.toBody)) s)

/-! ## Running maxima and weights (R292, R293) -/

/-- max(m, x) of one lane (R292): a NaN x leaves m as it stands; R224 answers for a NaN m beside a number x. -/
def smxMaxLane (x m : Nat) : Nat :=
  if (elemKey .fp32 x).isNone then m else if (elemKey .fp32 m).isNone then nanOf .fp32 else pickElem .fp32 true m x

def smxMaxRun (f : FV) (word : BitVec 48) (w : Who) : M CRes := do
  legal word (f.fmt = 0)
  let (x, m) ← operandAB w f isFp32
  let act ← maskOf w f
  let xs := (List.zipWith (fun x m => (x, m)) x.lanes m.lanes).mapIdx fun i p =>
    if isActive act i then smxMaxLane p.1 p.2 else p.2
  return beltOf f { bits := ofElems 32 xs, tag := .fp32 } 8

def execSmxMax (h : Hdr) (f : FV) (s : State) : Host.Outcome State Fault Refusal :=
  .next (cWord (.smxMax h f) h (wordOf 0xB1 h f.toBody) (lat 8) (fun w _ => smxMaxRun f (wordOf 0xB1 h f.toBody) w) s)

/-- A selector that may name a pair (R294): an even named register, in a word that writes no named register. The check
depends on the word alone and is made with the other legality checks, before the tags. DEDUCED, log entry 21. -/
def pairLegal (f : FV) (sel : BitVec 5) : Bool := sel.toNat ≥ 16 && sel.toNat % 2 = 0 && f.wn = 0

/-- A pair operand: its number and the elements of its two registers, EMPTY ones +0 (R294). -/
def pairOperand (w : Who) (sel : BitVec 5) : M (BitVec 3 × List Nat × List Nat) := do
  let r := (← getB w).r
  let part (sel : BitVec 5) : M (List Nat) := do
    let v := r.vec sel
    if v.tag = .poison then throw (.mcheck Cause.poison 0 0 8)
    if v.tag ≠ .fp32 && v.tag ≠ .empty then trap Cause.formatMismatch (tagInfo v.tag)
    return if v.tag = .empty then List.replicate 64 0 else v.lanes
  return (BitVec.ofNat 3 (sel.toNat / 2), ← part sel, ← part (sel + 1))

/-- PairAdd of a term to one lane (R294). -/
def pairAdd (hi lo : Nat) (t : Num) : Flagged (Nat × Nat) :=
  let (x, f0) := Num.add (fmtFP32.value hi) t
  let (s, f1) := roundFP32 x
  let v := fmtFP32.value s
  if v.isFinite then
    let (l, f2) := roundFP32 (Num.add (fmtFP32.value lo) (Num.add x v.neg).1).1
    ((s, l), f0 ||| f1 ||| f2)
  else ((s, 0), f0 ||| f1)

/-- One lane of `smx.exp`: the weight's pattern, the term for the sum if there is one, flags, and whether it rounded to zero. -/
structure ExpLane where
  p : Nat := 0
  term : Option Num := none
  flags : Flags := 0
  zero : Bool := false
deriving DecidableEq, Repr

def expLane (q8 : Bool) (x m : Num) : ExpLane :=
  if x = .nan || x = .inf true then {}
  else if !m.isFinite || x = .inf false then { p := fmtFP32.nanPat, term := some .nan, flags := fNV }
  else
    let y := exp2Num (Num.add x m.neg).1
    if q8 then
      let (p8, fl) := roundTo fmtFP8E4 (y.scale2 8) .rne true
      let v := fmtFP8E4.value p8
      { p := (roundFP32 v).1, term := some (v.scale2 (-8)), flags := fl, zero := p8 = 0 }
    else
      let (p, fl) := roundFP32 y
      { p, term := some (fmtFP32.value p), flags := fl, zero := p = 0 }

/-- The lanes of a pair after their terms, with flags; a lane without a term keeps its pair. -/
def pairLanes (hi lo : List Nat) (terms : List (Option Num)) : List (Flagged (Nat × Nat)) :=
  (List.zip (List.zip hi lo) terms).map fun x => match x.2 with
    | some t => pairAdd x.1.1 x.1.2 t
    | none => (x.1, 0)

def orFlags (fs : List Flags) : Flags := fs.foldl (· ||| ·) 0

/-- A pair as a latch carries it. -/
def pairOf (k : BitVec 3) (ls : List (Flagged (Nat × Nat))) : Option (BitVec 3 × Vec × Vec) :=
  some (k, { bits := ofElems 32 (ls.map (·.1.1)), tag := .fp32 }, { bits := ofElems 32 (ls.map (·.1.2)), tag := .fp32 })

def smxExpRun (f : FV) (word : BitVec 48) (w : Who) : M CRes := do
  let sum := bit f.var.toNat 1
  legal word (f.fmt = 0 && (!sum || pairLegal f f.sc))
  let (x, m) ← operandAB w f isFp32
  let act ← maskOf w f
  let ls := (List.zip x.lanes m.lanes).mapIdx fun i p =>
    if isActive act i then expLane (bit f.var.toNat 0) (fmtFP32.value p.1) (fmtFP32.value p.2) else {}
  let latch : Latch :=
    { rem := 8, val := { bits := ofElems 32 (ls.map (·.p)), tag := .fp32 }, wn := f.wn = 1, nd := f.nd
      flags := orFlags (ls.map (·.flags)), attz := BitVec.ofNat 32 (ls.filter (·.zero)).length }
  if sum then
    let (k, hi, lo) ← pairOperand w f.sc
    let ps := pairLanes hi lo (ls.map (·.term))
    return .belt { latch with pair := pairOf k ps, flags := latch.flags ||| orFlags (ps.map (·.2)) }
  else return .belt latch

def execSmxExp (h : Hdr) (f : FV) (s : State) : Host.Outcome State Fault Refusal :=
  .next (cWord (.smxExp h f) h (wordOf 0xB2 h f.toBody) (lat 8) (fun w _ => smxExpRun f (wordOf 0xB2 h f.toBody) w) s)

/-! ## Rescaling and merging (R294, R295) -/

/-- One lane of `smx.resc`. -/
def rescLane (a mo mn : Num) : Flagged Num :=
  if a = .nan || mo = .nan || mn = .nan then (.nan, fNV)
  else if mo.eq mn then (a, 0)
  else
    match (Num.add mo mn.neg).1 with
    | .inf true => Num.mul a (.zero false)
    | .inf false | .nan => (.nan, fNV)
    | d => Num.mul a (exp2Num d)

def smxRescRun (f : FV) (word : BitVec 48) (w : Who) : M CRes := do
  legal word (f.fmt = 0)
  let (a, mo, mn) ← operandABC w f isFp32
  let v := fmtFP32.value
  vecRes w f .fp32 8 (zip3 (fun a mo mn => roundFlagged .fp32 (rescLane (v a) (v mo) (v mn))) a.lanes mo.lanes mn.lanes)

def execSmxResc (h : Hdr) (f : FV) (s : State) : Host.Outcome State Fault Refusal :=
  .next (cWord (.smxResc h f) h (wordOf 0xB3 h f.toBody) (lat 8) (fun w _ => smxRescRun f (wordOf 0xB3 h f.toBody) w) s)

def smxMergeRun (f : FV) (word : BitVec 48) (w : Who) : M CRes := do
  legal word (f.fmt = 0 && pairLegal f f.sb)
  let t ← operandA w f isFp32
  let (k, hi, lo) ← pairOperand w f.sb
  let act ← maskOf w f
  let ps := pairLanes hi lo (t.lanes.mapIdx fun i x => if isActive act i then some (fmtFP32.value x) else none)
  let rs := ps.map fun x => roundFlagged .fp32 (Num.add (fmtFP32.value x.1.1) (fmtFP32.value x.1.2))
  let (v, fl) := flaggedVec act .fp32 rs
  return .belt { rem := 8, val := v, wn := false, nd := f.nd, flags := fl ||| orFlags (ps.map (·.2)), pair := pairOf k ps }

def execSmxMerge (h : Hdr) (f : FV) (s : State) : Host.Outcome State Fault Refusal :=
  .next (cWord (.smxMerge h f) h (wordOf 0xB4 h f.toBody) (lat 8) (fun w _ => smxMergeRun f (wordOf 0xB4 h f.toBody) w) s)

/-! ## Linear attention, rotation, sums of squares (R297, R298) -/

def linFeatRun (f : FV) (word : BitVec 48) (w : Who) : M CRes :=
  mapRun f word tagFloat3 (fun _ => 8) (fun t x => roundFlagged t (phiNum (elemValue t x), 0)) w

def execLinFeat (h : Hdr) (f : FV) (s : State) : Host.Outcome State Fault Refusal :=
  .next (cWord (.linFeat h f) h (wordOf 0xB5 h f.toBody) (lat 8) (fun w _ => linFeatRun f (wordOf 0xB5 h f.toBody) w) s)

def linPartRun (f : FV) (word : BitVec 48) (w : Who) : M CRes := do
  legal word (f.fmt = 0)
  let x ← operandA w f isFp32
  let g ← vecOf w f.sb
  checkTag g fun t => t = .fp32 || t = .bf16
  let k := elemValue g.tag (elem g.bits g.tag.width 0)
  vecRes w f .fp32 8 (x.lanes.map fun x => roundFlagged .fp32 (Num.mul (fmtFP32.value x) k))

def execLinPart (h : Hdr) (f : FV) (s : State) : Host.Outcome State Fault Refusal :=
  .next (cWord (.linPart h f) h (wordOf 0xB6 h f.toBody) (lat 8) (fun w _ => linPartRun f (wordOf 0xB6 h f.toBody) w) s)

/-- Lane `i` of `rope`. -/
def ropeLane (x c s : Nat → Num) (i : Nat) : Flagged Num :=
  let (p, f1) := Num.mul (x i) (c i)
  let (q, f2) := Num.mul (x (i ^^^ 1)) (s i)
  let (r, f3) := Num.add p (if i % 2 = 0 then q.neg else q)
  (r, f1 ||| f2 ||| f3)

def ropeRun (f : FV) (word : BitVec 48) (w : Who) : M CRes := do
  legal word (f.fmt = 0)
  let (x, c, s) ← operandABC w f tagFloat3
  let t := x.tag
  let val (v : Vec) (i : Nat) : Num := elemValue t (elem v.bits t.width i)
  vecRes w f t 4 ((List.range t.lanes).map fun i => roundFlagged t (ropeLane (val x) (val c) (val s) i))

def execRope (h : Hdr) (f : FV) (s : State) : Host.Outcome State Fault Refusal :=
  .next (cWord (.rope h f) h (wordOf 0xB7 h f.toBody) (lat 4) (fun w _ => ropeRun f (wordOf 0xB7 h f.toBody) w) s)

/-- The sum starts at acc_0, so that with no active lane its sign stays (R298; DEDUCED, log 154). -/
def vrmsRun (f : FV) (word : BitVec 48) (w : Who) : M CRes := do
  legal word (f.fmt = 0)
  let x ← operandA w f tagFloat3
  let acc ← vecOf w f.sb
  checkTag acc isFp32
  let sq := (activeElems (← maskOf w f) x).map fun a => (Num.mul (elemValue x.tag a) (elemValue x.tag a)).1
  let (v, fl) := roundFlagged .fp32 (sumNum (fmtFP32.value (elem acc.bits 32 0) :: sq))
  return beltOf f (lane0 .fp32 v) 6 fl

def execVrms (h : Hdr) (f : FV) (s : State) : Host.Outcome State Fault Refusal :=
  .next (cWord (.vrms h f) h (wordOf 0xB8 h f.toBody) (lat 6) (fun w _ => vrmsRun f (wordOf 0xB8 h f.toBody) w) s)

end Sys2Proof.Machine
end

