-- ==== Sys2Proof/Machine/Coll.lean ====
section
/-! DEFINITION. Collectives: `coll.bsum`, `coll.bar`, arrival, completion and timeout (R317 to R321). -/
namespace Sys2Proof.Machine

/-! ## Records (R317) -/

/-- A field of a record. -/
def collField (w : Who) (pa : BitVec 52) (off n : Nat) : M Nat := do
  let (b, s) := (← get).engRead w (pa.toNat + off) n 2
  set s
  return numOf b

def setCollField (w : Who) (pa : BitVec 52) (off n v : Nat) : M Unit :=
  modS fun s => s.engWrite w (pa.toNat + off) (plain (leBytes v n)) 2

/-! ## Issue (R318, R319) -/

/-- Block count, source and destination of a `coll.bsum`. -/
def bsumN (e : Entry) : Nat := bits (e.s 2).toNat 0 9
def bsumSrc (e : Entry) : Nat := bits (e.s 1).toNat 0 21
def bsumDst (e : Entry) : Nat := bits (e.s 1).toNat 21 21

/-- The scratchpad operands of a `coll.bsum`: its checks and waits. -/
def bsumChecks (w : Who) (word : BitVec 48) (e : Entry) : M Unit := do
  ensure (1 ≤ bsumN e && bsumN e ≤ 256) Cause.operandRange (wordInfo word)
  ensure (bsumSrc e % 256 = 0) Cause.misalignedAddr (w64 (bsumSrc e))
  ensure (bsumDst e % 256 = 0) Cause.misalignedAddr (w64 (bsumDst e))
  checkSP w (bsumSrc e) (256 * bsumN e) (some 0) (some 1)
  checkSP w (bsumDst e) (256 * bsumN e) (some 0) (some 1)
  watermarkWait w .l false (bsumSrc e) (256 * bsumN e)
  watermarkWait w .l false (bsumDst e) (256 * bsumN e)

/-- A collective word at the head: checked, granted, and then in wait of its arrival and of the end of its generation. An entry
whose generation has ended carries MPC 1. -/
def collBody (w : Who) (word : BitVec 48) (bsum : Bool) (e : Entry) : M Bool := do
  if e.mpc = 1 then return true
  if (← getB w).coll.isSome then waitFor .other
  let (hn, h) := e.handle 0
  let off := (e.s 0).toNat
  ensure (off % 64 = 0) Cause.misalignedAddr (e.s 0)
  let pa ← translateRange { rd := true, w := true } hn h off 64
  if bsum then bsumChecks w word e
  watermarkWait w .l true (vaOf h off) 64
  remapWait w pa 64
  let nr ← collField w (BitVec.ofNat 52 pa) 0 4
  ensure (1 ≤ nr && nr ≤ 512) Cause.operandRange (wordInfo word)
  requestUnits w 3 1
  let data ← if bsum then do
      let bs ← spReadChecked w (bsumSrc e) (256 * bsumN e)
      pure ((List.range (64 * bsumN e)).map fun i => BitVec.ofNat 32 (leNat ((bs.drop (4 * i)).take 4)))
    else pure []
  let g ← takeUnits w 3 1
  modS fun s => s.countMig (Who.tile w) h pa
  let timeout := if bsum then bits (e.s 2).toNat 32 32 else bits (e.s 1).toNat 0 32
  let now := (← get).now
  let c : CollRun :=
    { bsum, pa := BitVec.ofNat 52 pa, dst := bsumDst e, n := if bsum then bsumN e else 0, timeout := BitVec.ofNat 32 timeout
      since := now, grant := some g, data, entry := e }
  modB w fun b => { b with coll := some c }
  waitFor .other

def execCollBsum (h : Hdr) (f : FK) (s : State) : Host.Outcome State Fault Refusal :=
  .next (lsWord .l (.collBsum h f) h (wordOf 0x4B h f.toBody) (fun w e => precise w (collBody w (wordOf 0x4B h f.toBody) true e)) s)

def execCollBar (h : Hdr) (f : FK) (s : State) : Host.Outcome State Fault Refusal :=
  .next (lsWord .l (.collBar h f) h (wordOf 0x4C h f.toBody) (fun w e => precise w (collBody w (wordOf 0x4C h f.toBody) false e)) s)

/-! ## Arrival and completion (R319 to R321) -/

/-- Accesses of the context on a path other than COLL that are not performed. -/
def accessesPending (s : State) (w : Who) : Bool :=
  let b := s.bank w
  let t := s.tile (Who.tile w)
  !b.posted.isEmpty || !b.pairWait.isEmpty || !b.kvRuns.isEmpty || !b.pimRuns.isEmpty || t.hidden.any (·.who == w) || t.qz.any (·.who == w) ||
    (stagedChans s w).any fun x => !(chanAccesses x.1 x.1.sc ++ chanEvent x.1 x.1.sc).isEmpty

/-- The members that have arrived at a record. -/
def collMembers (s : State) (pa : BitVec 52) : List (Who × CollRun) :=
  (List.finRange 144).filterMap fun m => match (s.bank m).coll with
    | some c => if c.arrived && c.pa = pa then some (m, c) else none
    | none => none

/-- The result of every block over the members' contributions, and each member's flags. -/
def bsumResult (ms : List (Who × CollRun)) (n : Nat) : List (List Nat) × List Flags :=
  let blocks := (List.range n).map fun k => blockSum (ms.map fun m => ((m.2.data.drop (64 * k)).take 64).map (·.toNat))
  (blocks.map (·.1), ms.zipIdx.map fun m =>
    blocks.foldl (fun a b => a ||| b.2.1 ||| (if b.2.2.getD m.2 false then fNX else 0)) 0)

/-- A member is released: its destination is written, its units return, and its word can retire. -/
def State.releaseMember (s : State) (m : Who) (c : CollRun) (res : List (List Nat)) (fl : Flags) : State :=
  let s := if c.bsum then runM (spWrite m c.dst (res.flatMap fun b => b.flatMap (leBytes · 4))) s else s
  ((s.returnGrant m c.grant).modBank m fun b => { b with coll := none }).modHeadS m .l fun e => { e with mpc := 1, flags := fl, waits := false }

/-- A barrier orders every member's earlier accesses before every member's later ones (R321). -/
def State.barOrder (s : State) (ms : List (Who × CollRun)) : State :=
  let t := ms.foldl (fun a m => max a (s.bank m.1).pts) 0
  (ms.foldl (fun s m => s.raisePts m.1 t) s).writeThroughAll

/-- The generation completes. -/
def collComplete (w : Who) (c : CollRun) : M Unit := do
  let gen ← collField w c.pa 4 4
  setCollField w c.pa 4 4 (gen + 1)
  setCollField w c.pa 8 4 0
  setCollField w c.pa 14 1 0
  modS fun s =>
    let ms := collMembers s c.pa
    let (res, fl) := if c.bsum then bsumResult ms c.n else ([], [])
    let s := if c.bsum then s else s.barOrder ms
    let s := ms.zipIdx.foldl (fun s m => s.releaseMember m.1.1 m.1.2 res (fl.getD m.2 0)) s
    s.modHub fun h => { h with colls := h.colls.filter (· != c.pa) }

/-- The member does not join: KIND or NB differs. -/
def State.collMismatch (s : State) (w : Who) (c : CollRun) : State :=
  ((s.returnGrant w c.grant).modBank w fun b => { b with coll := none }).raiseStop w (.trap Cause.collShape (c.entry.s 0)) 1 0 c.entry.pc
    (s.bank w).f.pc

/-- The arrival, in one step at the record's home. -/
def collArrive (w : Who) (c : CollRun) : M Unit := do
  if !c.bsum then
    postedFirst w
    if accessesPending (← get) w then waitFor .other
  pairTurn w c.pa.toNat
  remapWait w c.pa.toNat 64
  snoopHost c.pa.toNat 64
  modS fun s => s.countMig (Who.tile w) (c.entry.handle 0).2 c.pa.toNat
  let own := if c.bsum then 1 else 2
  let kind ← collField w c.pa 14 1
  let nb ← collField w c.pa 12 2
  if kind ≠ 0 && !(kind = own && nb = c.n) then modS fun s => s.collMismatch w c
  else
    let open' := (← get).hub.colls
    if !open'.contains c.pa && open'.length ≥ 16 then waitFor .other
    outbound w
    modH fun h => { h with colls := if h.colls.contains c.pa then h.colls else h.colls ++ [c.pa] }
    if kind = 0 then
      setCollField w c.pa 14 1 own
      setCollField w c.pa 12 2 c.n
    let arr ← collField w c.pa 8 4
    setCollField w c.pa 8 4 (arr + 1)
    let c' := { c with arrived := true }
    modB w fun b => { b with coll := some c' }
    if arr + 1 = (← collField w c.pa 0 4) then collComplete w c'

def execCollArrival (w : Who) (s : State) : Host.Outcome State Fault Refusal :=
  .next (match (s.bank w).coll with
    | some c => if c.arrived then s else runM (whole (collArrive w c)) s
    | none => s)

/-- The timeout has run out: the member withdraws and traps (R319). -/
def execCollTimeout (w : Who) (s : State) : Host.Outcome State Fault Refusal :=
  .next (match (s.bank w).coll with
    | some c =>
      if c.timeout ≠ 0 && c.since + c.timeout.toNat ≤ s.now then
        (s.withdrawColl w).raiseStop w (.trap Cause.collTimeout (c.entry.s 0)) 1 0 c.entry.pc (s.bank w).f.pc
      else s
    | none => s)

end Sys2Proof.Machine
end

