-- ==== Sys2Proof/Machine/Fetch.lean ====
section
/-! DEFINITION. Fetching and entering packets, co-issue pairs, and dispatch from the front end
(R21 to R29, R43, R109, R323, R373). -/
namespace Sys2Proof.Machine

/-! ## Co-issue (R27, R28) -/

/-- Classes of C-queue words for co-issue; none for any other word. -/
inductive CoClass where
  | va | dm | nc
deriving DecidableEq, Repr

def coClass (op : Nat) : Option CoClass :=
  if op < 0x70 || op > 0xDF || unassignedOp op then none
  else if (0x76 ≤ op && op ≤ 0x9B) || (0xB0 ≤ op && op ≤ 0xB8) then some .va
  else if op ≤ 0x75 || (0xA0 ≤ op && op ≤ 0xAD) then some .dm
  else some .nc

/-- The word at a slot of a packet (R24). -/
def packetWord (bytes : BitVec 256) (slot : Nat) : BitVec 48 := BitVec.ofNat 48 (bits bytes.toNat (16 + 48 * slot) 48)

/-- The slots from `i` to WC that pair with the slot before them, as R28 judges the words after the entry; none where a co-issue
bit is illegal. `paired` says whether slot i − 1 is itself paired. -/
def pairSlots (bytes : BitVec 256) (i : Nat) (paired : Bool) : Nat → Option (List Nat)
  | 0 => some []
  | n + 1 =>
    let cls (k : Nat) := coClass (opOf (packetWord bytes k)).toNat
    if !bit bytes.toNat (3 + i) || (cls i).isNone then pairSlots bytes (i + 1) false n
    else
      match cls (i - 1), cls i with
      | some .va, some .dm | some .dm, some .va => if paired then none else (pairSlots bytes (i + 1) true n).map (i :: ·)
      | _, _ => none

/-- The pairs of a packet of `wc` + 1 words entered at `entry`; none for an illegal packet. -/
def packetPairs (bytes : BitVec 256) (entry wc : Nat) : Option (List Nat) :=
  if entry = 0 && bit bytes.toNat 3 && (coClass (opOf (packetWord bytes 0)).toNat).isSome then none
  else pairSlots bytes (entry + 1) false (wc - entry)

/-! ## Entering a packet (R25, R26, R373) -/

/-- The lookup of an instruction address: the physical address with the page as a handle would hold it, or what stops the fetch. -/
def fetchAddr (w : Who) (pc : Nat) : M (Nat × Handle) := do
  let s ← get
  let b := s.bank w
  match lookup s w b.csr.asid b.csr.ptroot pc with
  | (.leaf e level id, s) =>
    set s
    if pteKind e = 3 then trap Cause.fetchFault (w64 Cause.pageTable.toNat)
    if !pteX e || (ptePRV e && !b.priv) then trap Cause.fetchFault (w64 Cause.permission.toNat)
    let h := mkHandle e level id pc (Tid.die (Who.tile w)) false 0
    return (h.base.toNat + pc % 2 ^ levelBits level, h)
  | (.moving, s) => set s; waitFor .other
  | (.poisoned pa, s) => set s; throw (.mcheck Cause.poison (w64 pc) (w64 pa) 2)
  | (.notPresent, s) =>
    set s
    if (b.inst.map (·.abt)).getD false then
      postedFirst w
      throw (.abort (w64 pc))
    trap Cause.fetchFault (w64 Cause.pageNotPresent.toNat)

/-- Entries of the instruction cache: lines of 64 bytes in 128 KiB (R20, log 120). -/
def icodeLines : Nat := 2048

/-- The instruction cache of a context's tile holds the line of `pa` (log 120). -/
def hasCode (s : State) (w : Who) (pa : Nat) : Bool := kvGet (s.tile (Who.tile w)).icode (pa / 64 % icodeLines) == some (pa / 64)

/-- The packet at `pa` is read in the instruction cache, which holds its line from then on; it shows what the line's home holds. The answer
says that an uncorrectable error was met (R20, log 104, log 120). -/
def State.meetCode (s : State) (w : Who) (pa : Nat) : Bool × State :=
  let t := Who.tile w
  let line := pa / 64
  let k := line % icodeLines
  if hasCode s w pa then
    let (hit, s) := s.meetArray t 4 (64 * k + pa % 64) 32 (ctxid16 w)
    (hit.any (·.ue), if hit.any (·.ue) then s.modTile t fun x => { x with icode := kvDel x.icode k } else s)
  else (false, s.modTile t fun x => ({ x with icode := kvPut x.icode k line }).overArray 4 (64 * k) 64)

/-- The packet at the PC is fetched and its header decoded. -/
def fetchPacket (w : Who) : M Unit := do
  let pc := (← getB w).f.pc
  let base := packetAddr pc
  let (pa, h) ← fetchAddr w base.toNat
  remapWait w pa 32
  modS fun s => if hasCode s w pa then s else s.countMig (Who.tile w) h pa
  let (bs, s) := (← get).ctxRead w pa 32 2
  let (bad, s) := s.meetCode w pa
  set s
  if anyPoison bs || bad then throw (.mcheck Cause.poison (w64 base.toNat) (w64 pa) 4)
  let bytes := BitVec.ofNat 256 (numOf bs)
  let wc := bits bytes.toNat 0 3
  if wc > 4 || slotOf pc > wc || (packetPairs bytes (slotOf pc) wc).isNone then trap Cause.illegalPacket (w64 base.toNat)
  modB w fun b => b.modF fun f => { f with packet := some (base, bytes), entry := slotOf pc, sinceEret := min 2 (f.sinceEret + 1), wait := .none, waited := .none }

/-- The front end of `w` enters the packet at its PC, when it is not inside one. -/
def State.enterPacket (s : State) (w : Who) : State :=
  if (s.bank w).f.packet.isSome then s
  else
    match (fetchPacket w).run.run s with
    | (.ok _, s) => s
    | (.error (.wait k), s) => s.frontWaits w k
    | (.error (.abort va), s) => s.abortInstance w va
    | (.error x, s) => s.raiseStop w x 4 0 (s.bank w).f.pc (s.bank w).f.pc

/-- The context's program runs. -/
def isRunning (s : State) (w : Who) : Bool := (s.ctx w).status == .running

def execPacketDecode (s : State) : Host.Outcome State Fault Refusal := .next (if isRunning s s.cur then s.enterPacket s.cur else s)

/-! ## The word at the front end -/

/-- The word that the PC names in the packet entered. -/
def frontWord (b : Bank) : Option (BitVec 48) := b.f.packet.map fun p => packetWord p.2 (slotOf b.f.pc)

/-- The next word is paired with the word at the PC. -/
def pairsNext (b : Bank) : Bool :=
  match b.f.packet with
  | none => false
  | some (_, bytes) => ((packetPairs bytes b.f.entry b.f.wc).getD []).contains (slotOf b.f.pc + 1)

/-- The header of a word. -/
def hdrAt (word : BitVec 48) : Hdr := hdrOf word

/-- The queue word at the PC, alone or with the word it is paired with, dispatches as soon as it is admitted (R29, R323). -/
def State.dispatchFront (s : State) (w : Who) : State :=
  match frontWord (s.bank w) with
  | none => s
  | some word =>
    let i := decodeWord word
    match queueOf i with
    | none => s
    | some q =>
      if !pairsNext (s.bank w) then s.enqueue w q i (hdrAt word)
      else if !admitted s w q i 2 then s.frontWaits w (if roomFor s w q 2 then .other else .dispatchC)
      else
        let s := s.dispatchNext w q i (hdrAt word)
        match frontWord (s.bank w) with
        | none => s
        | some word2 => s.dispatchNext w .c (decodeWord word2) (hdrAt word2) true

/-! ## Retirement and pushes (R34, R35) -/

/-- Work of the context goes on: it runs, or its queues drain for a trap. -/
def isActive' (s : State) (w : Who) : Bool := (s.ctx w).status == .running || (s.ctx w).status == .trapping

/-- A trap or a pre-emption that waits for its queues is delivered once they have drained. -/
def State.settleTrap (s : State) (w : Who) : State := if (s.ctx w).status = .trapping then (s.tryEnter w).tryPark w else s

/-- TRAP_ENTRY. -/
def execTrapEntry (w : Who) (s : State) : Host.Outcome State Fault Refusal := .next (s.settleTrap w)

def execQueueWordRetire (w : Who) (q : QName) (s : State) : Host.Outcome State Fault Refusal :=
  .next (if isActive' s w then (s.retireOldest w q).settleTrap w else s)

/-- The first push of the list that finds room, behind none of its own queue; the queues after it. -/
def pushScan (x : Queues) (seen : List QName) : List (QName × Push) → List (QName × Push) × Queues
  | [] => ([], x)
  | p :: ps =>
    let (r, y) := x.tryPush p.1 p.2
    if !seen.contains p.1 && r != p.2 then (if r.none then ps else (p.1, r) :: ps, y)
    else
      let (l, y) := pushScan x (p.1 :: seen) ps
      (p :: l, y)

/-- The oldest push that waits finds room (R34). -/
def Queues.pushPending (x : Queues) : Queues :=
  let (l, y) := pushScan x [] x.pend
  { y with pend := l }

def execTokenPush (w : Who) (s : State) : Host.Outcome State Fault Refusal :=
  .next (if isActive' s w then s.modBank w fun b => b.modQ Queues.pushPending else s)

/-- A C-cycle in which no word issues (R190, R193). -/
def execBeltDrop (w : Who) (s : State) : Host.Outcome State Fault Refusal := .next (if isRunning s w && mayIdle (s.bank w) then s.cIdle w else s)

/-- A C-cycle passes, and the chunk due folds (R258). -/
def execMatrixChunkFold (w : Who) (s : State) : Host.Outcome State Fault Refusal := .next (if isRunning s w && mayIdle (s.bank w) && !(s.bank w).c.mats.isEmpty then s.cIdle w else s)

end Sys2Proof.Machine
end

