-- ==== Sys2Proof/Machine/Fit.lean ====
section
/-! DEFINITION. Approximable regions and the fitting engine (R417 to R428). -/
namespace Sys2Proof.Machine

/-! ## The network (R422) -/

/-- Weight or bias `i` as an FP32 pattern: 3,584 weights, then 80 biases. -/
def Net.pattern (n : Net) (i : Nat) : Nat :=
  match n with
  | .fresh f => if i < 3584 then (roundFP32 (Num.ofInt ((drawUniform f.toNat i : Int) - 2 ^ 23) (-26))).1 else 0
  | .trained k => (Config.trainedWeight k i).toNat

def toBf16 (x : Num) : Num := fmtBF16.value (roundTo fmtBF16 x).1
def to32 (x : Num) : Num := fmtFP32.value (roundFP32 x).1

/-- One layer: `rows` sums over `x`, each rounded once to FP32. -/
def Net.layer (n : Net) (rows w0 b0 : Nat) (x : List Num) : List Num :=
  let x := x.map toBf16
  (List.range rows).map fun j =>
    let ws := (List.range x.length).map fun i => toBf16 (fmtFP32.value (n.pattern (w0 + j * x.length + i)))
    to32 (sumNum (fmtFP32.value (n.pattern (b0 + j)) :: List.zipWith (fun a b => (Num.mul a b).1) ws x)).1

/-- The 16 outputs for 64 inputs. -/
def Net.infer (n : Net) (x : List Num) : List Num :=
  let h1 := (n.layer 32 0 3584 x).map fun v => to32 (tanhNum v)
  let h2 := (n.layer 32 2048 3616 h1).map fun v => to32 (tanhNum v)
  n.layer 16 3072 3648 h2

/-- The first `n` lanes of an FP32 vector. -/
def lanesFP32 (v : BitVec 2048) (n : Nat) : List Num := (List.range n).map fun i => fmtFP32.value (elem v 32 i)

def Num.finite : Num → Bool
  | .nan | .inf _ => false
  | .zero _ | .fin .. => true

/-! ## The error (R423) -/

/-- The mean of squares of FP32 values, each operation rounded. -/
def meanSquare (xs : List Num) : Num :=
  let s := xs.foldl (fun a x => to32 (Num.add a (to32 (Num.mul x x).1)).1) (.zero false)
  to32 (Num.div s (Num.ofInt xs.length))

def root32 (x : Num) : Num := to32 (sqrtNum x).1

/-- e of a compared execution. -/
def fitError (y' y : List Num) : Num :=
  if !(y'.all Num.finite) then .inf false
  else
    let d := List.zipWith (fun a b => to32 (Num.add a b.neg).1) y' y
    to32 (Num.div (root32 (meanSquare d)) (to32 (Num.add (root32 (meanSquare y)) (Num.ofInt 1 (-20))).1))

/-- E after a compared execution. -/
def nextError (valid : Bool) (old : BitVec 32) (e : Num) : BitVec 32 :=
  let v := if valid then (Num.add (Num.mul (fmtFP32.value old.toNat) (Num.ofInt 7 (-3))).1 (Num.mul e (Num.ofInt 1 (-3))).1).1 else e
  BitVec.ofNat 32 (roundFP32 v).1

/-- THR as it acts: a NaN or a value below +0 is +0. -/
def thrValue (t : BitVec 32) : Num :=
  match fmtFP32.value t.toNat with
  | .nan | .inf true | .fin true _ _ _ | .zero _ => .zero false
  | x => x

def Num.isNan : Num → Bool
  | .nan => true
  | .inf _ | .zero _ | .fin .. => false

/-- E > THR, and E ≤ THR; a NaN is neither. -/
def exceeds (e thr : BitVec 32) : Bool :=
  let x := fmtFP32.value e.toNat
  !x.isNan && (thrValue thr).lt x
def within (e thr : BitVec 32) : Bool :=
  let x := fmtFP32.value e.toNat
  !x.isNan && !((thrValue thr).lt x)

/-! ## Slots (R421, R424) -/

/-- The slot observes anew. -/
def FitSlot.observe (x : FitSlot) : FitSlot := { x with st := .observe, net := .fresh x.f, fb := 0, samples := [], n := 0, compared := 0, eValid := false }

/-- FALLBACK, which is left at once. -/
def FitSlot.fallBack (x : FitSlot) : FitSlot :=
  let x := { x with fb := x.fb + 1 }
  if x.fb ≥ 3 then { x with st := .invalid, dis := true } else { x with st := .observe, samples := [] }

/-- LR that lets the network learn. -/
def learns (lr : BitVec 32) : Bool := match fmtFP32.value lr.toNat with
  | .fin s _ _ _ => !s
  | .inf s => !s
  | .nan | .zero _ => false

/-- The slot of a context's region, or the one that it takes: the lowest EMPTY one, or the least recently used one that is not in TRAIN. -/
def fitFind (c : Cluster) (id : BitVec 16) (w : Who) : Option (Fin 16 × Bool) :=
  let x (k : Fin 16) : FitSlot := c.fit.get k
  let all := List.finRange 16
  match all.find? fun k => (x k).st != .empty && (x k).id == id && (x k).ctxid == w with
  | some k => some (k, true)
  | none =>
    match all.find? fun k => (x k).st == .empty with
    | some k => some (k, false)
    | none =>
      let free := all.filter fun k => (x k).st != .train
      (free.find? fun k => free.all fun j => (x k).used ≤ (x j).used).map fun k => (k, false)

/-- The slot as a lookup finds or makes it. -/
def FitSlot.looked (x : FitSlot) (known : Bool) (id : BitVec 16) (w : Who) (f : BitVec 32) (ol : Nat) (lr : BitVec 32) (clock : Nat) : FitSlot :=
  let x := if known then (if x.f = f then x else { x with f, st := .invalid }) else { ({ id, ctxid := w, f } : FitSlot).observe with used := 0 }
  let x := if x.st = .invalid && !x.dis then x.observe else x
  { x with ol, lr, used := clock }

/-- What one execution does, by the state of its slot. -/
def FitSlot.mode (x : FitSlot) (a : Apx) (per : Nat) : FitSlot × Apx :=
  match x.st with
  | .observe => (x, { a with samples := true })
  | .shadow => (x, { a with compares := true })
  | .substitute =>
    if !((lanesFP32 a.input 64).all Num.finite) then (x, a)
    else if (x.n + 1) % max 1 per = 0 then ({ x with n := x.n + 1 }, { a with compares := true })
    else (x, { a with subst := true, net := x.net })
  | .empty | .train | .fallback | .invalid => (x, a)

/-- The lookup of an `apx.beg`, in the order in which the engine serves requests; a lockstep context makes none. -/
def State.fitLookup (s : State) (w : Who) (a : Apx) : Apx × State :=
  let b := s.bank w
  let c := Tid.cluster (Who.tile w)
  if (b.inst.map (·.lstep)).getD false then (a, s)
  else
    let cl := s.cluster c
    match fitFind cl a.id w with
    | none => (a, s)
    | some (k, known) =>
      let x := (cl.fit.get k).looked known a.id w a.f a.ol (BitVec.ofNat 32 (b.csr.apxthr.toNat / 2 ^ 32)) (cl.fitClock + 1)
      let (x, a) := x.mode { a with slot := some k } b.csr.apxsamp.toNat
      (a, s.modCluster c fun y => { y with fitClock := y.fitClock + 1, fit := y.fit.set k.val x k.isLt })

/-- The slot still is the one that the execution looked up. -/
def sameSlot (x : FitSlot) (w : Who) (a : Apx) : Bool := x.st != .empty && x.id == a.id && x.ctxid == w && x.f == a.f

/-- A compare (R423, R424). -/
def FitSlot.compare (x : FitSlot) (a : Apx) (y : List Num) : FitSlot :=
  let e := fitError ((x.net.infer (lanesFP32 a.input 64)).take a.ol) y
  let x := { x with e := nextError x.eValid x.e e, eValid := true }
  match x.st with
  | .shadow =>
    let x := { x with compared := x.compared + 1 }
    if x.compared < 64 then x else if within x.e a.thr then { x with st := .substitute, n := 0 } else x.fallBack
  | .substitute => if exceeds x.e a.thr then x.fallBack else x
  | .empty | .observe | .train | .fallback | .invalid => x

/-- A sample (R422): the buffer of 256 starts a TRAIN phase. -/
def FitSlot.sample (x : FitSlot) (a : Apx) (out : BitVec 2048) : FitSlot :=
  let xs := x.samples ++ [(a.input, BitVec.ofNat 512 (out.toNat % 2 ^ (32 * a.ol)))]
  { x with samples := xs, st := if xs.length ≥ 256 then .train else x.st }

/-- The end of a true execution, at its slot. -/
def State.fitEnd (s : State) (w : Who) (a : Apx) (out : BitVec 2048) : State :=
  match a.slot with
  | none => s
  | some k =>
    let c := Tid.cluster (Who.tile w)
    let x := (s.cluster c).fit.get k
    let y := lanesFP32 out a.ol
    if !a.whole || !sameSlot x w a then s
    else
      let x := if a.samples && x.st = .observe && (lanesFP32 a.input 64).all Num.finite && y.all Num.finite then x.sample a out
        else if a.compares then x.compare a y else x
      s.modCluster c fun z => { z with fit := z.fit.set k.val x k.isLt }

/-- 64 training steps are done. -/
def execApxTrainDone (c : Cid) (k : Fin 16) (s : State) : Host.Outcome State Fault Refusal :=
  .next (let x := (s.cluster c).fit.get k
    if x.st ≠ .train then s
    else
      let net := if learns x.lr then Net.trained s.hub.trainings else x.net
      (s.modHub fun h => { h with trainings := h.trainings + 1 }).modCluster c fun z =>
        { z with fit := z.fit.set k.val { x with st := .shadow, net, n := 0, compared := 0, eValid := false } k.isLt })

/-! ## What a region may hold (R417, R419) -/

def apxI (f : FK) : BitVec 4 := BitVec.ofNat 4 f.a.toNat
def apxO (f : FK) : BitVec 4 := BitVec.ofNat 4 f.b.toNat
def apxOl (f : FK) : Nat := f.c.toNat % 16 + 1
def apxId (f : FK) : BitVec 16 := BitVec.ofNat 16 f.imm.toNat

/-- Queue words that R417 admits. -/
def regionOp (op : Nat) : Bool := op = 0x72 || op = 0x75 || op = 0x9C || (0x76 ≤ op && op ≤ 0x9B && op ≠ 0x79)

/-- The selectors that a word of a region reads. -/
def regionReads (op : Nat) (f : FV) : List (BitVec 5) :=
  if op = 0x75 || op = 0x9C then []
  else if [0x76, 0x7D, 0x9A, 0x9B].contains op then [f.sa, f.sb, f.sc]
  else if op = 0x77 && (f.var = 0 || f.var = 5) then [f.sa]
  else if (0x76 ≤ op && op ≤ 0x7F) || op = 0x82 || (0x8B ≤ op && op ≤ 0x91) || op = 0x96 then [f.sa, f.sb]
  else [f.sa]

/-- The word writes n[O]. -/
def writesOut (o : BitVec 4) (word : BitVec 48) : Bool :=
  let op := (opOf word).toNat
  let f := FV.ofBody (bodyOf word)
  regionOp op && op ≠ 0x9C && f.wn = 1 && f.nd = o

/-- The reason for which word `k` of the region, counted from its `apx.beg`, is a breach; of several the lowest code. -/
def wordBreach (beg : FK) (limit k : Nat) (wrote : Bool) (word : BitVec 48) : Option Nat :=
  let op := (opOf word).toNat
  let h := hdrOf word
  let f := FV.ofBody (bodyOf word)
  let v := regionOp op && op ≠ 0x9C
  if op = 0xD0 then some 7
  else if (op ≠ 0xD1 && !regionOp op) || h.gn ≠ 0 || h.gp ≠ 0 then some 1
  else if v && (regionReads op f).any fun x => 16 ≤ x.toNat && BitVec.ofNat 4 x.toNat != apxI beg then some 2
  else if (v && f.wn = 1 && f.nd ≠ apxO beg) || (op = 0xD1 && !wrote) then some 3
  else if (v && f.me = 1) || (op = 0x82 && bit f.fmt.toNat 3) then some 4
  else if h.tk ≠ 0 then some 5
  else if k ≥ limit then some 6
  else none

/-- What the entries after an `apx.beg` come to: a breach with its PC, or how many there are, whether n[O] is written, and whether the `apx.end` is among them. -/
inductive Region where
  | breach (reason : Nat) (pc : BitVec 60)
  | upTo (k : Nat) (wrote ended : Bool)
deriving DecidableEq, Repr

/-- The longest region: 64 words, and QSLIP words, with QSLIP as it stands when its words dispatch (R417). -/
def regionLimit (qslip : BitVec 7) : Nat := min 64 qslip.toNat

def scanRegion (beg : FK) : List Entry → Nat → Bool → Region
  | [], k, wrote => .upTo k wrote false
  | e :: es, k, wrote =>
    match wordBreach beg (regionLimit e.slip) k wrote e.word with
    | some r => .breach r e.pc
    | none => if (opOf e.word).toNat = 0xD1 then .upTo (k + 1) wrote true else scanRegion beg es (k + 1) (wrote || writesOut (apxO beg) e.word)

/-- The region that is open at dispatch: its `apx.beg` and the entries after it. -/
def openRegion : List Entry → Option (Entry × List Entry)
  | [] => none
  | e :: es =>
    match openRegion es with
    | some r => some r
    | none => if (opOf e.word).toNat = 0xD0 && !(es.any fun x => (opOf x.word).toNat = 0xD1) then some (e, es) else none

/-- A word at the front end in an open region: the reason of its breach. Front-end words that end in APX_WAIT or change nothing are none; an
unassigned opcode is one (DEDUCED, log 145). -/
def frontReason (beg : FK) (limit k : Nat) (wrote : Bool) (word : BitVec 48) : Option Nat :=
  let op := (opOf word).toNat
  let h := hdrOf word
  if op = 0 || 0xF0 ≤ op || [0x34, 0x36, 0x37].contains op then none
  else if (op = 0xD0 || op = 0xD1) && (h.gn ≠ 0 || h.gp ≠ 0) then none
  else wordBreach beg limit k wrote word

/-- The word at the front end, or the word paired with it, is a breach of the open region: reason and PC. -/
def frontBreach (b : Bank) : Option (Nat × BitVec 60) :=
  match openRegion b.q.c, frontWord b with
  | some (e, es), some word =>
    let beg := FK.ofBody (bodyOf e.word)
    let limit := regionLimit b.csr.qslip
    match scanRegion beg es 1 false with
    | .breach r pc => some (r, pc)
    | .upTo k wrote _ =>
      match frontReason beg limit k wrote word with
      | some r => some (r, b.f.pc)
      | none =>
        if !pairsNext b then none
        else
          let nb := { b with f := { b.f with pc := b.f.next } }
          (frontWord nb).bind fun w2 => (frontReason beg limit (k + 1) (wrote || writesOut (apxO beg) word) w2).map fun r => (r, nb.f.pc)
  | _, _ => none

/-- The front end stops before a breaching word (R419). -/
def State.regionStops (s : State) (w : Who) : Bool := (frontBreach (s.bank w)).isSome

/-! ## apx.beg (R418, R419, R425) -/

def apxInfo (reason : Nat) (pc : BitVec 60) : Word := w64 (reason * 2 ^ 60 + pc.toNat)

/-- F: the CRC-32 of the region's words and of the PC of its `apx.beg` (R421). -/
def fingerprint (es : List Entry) (pc : BitVec 60) : BitVec 32 :=
  crc32 (es.flatMap (fun e => leBytes e.word.toNat 6) ++ leBytes pc.toNat 8)

def emptyBelt (b : Bank) : Bank := b.modR fun r => { r with belt := Vector.replicate 16 {} }

/-- The dispatch of the region's next word waits on a full C queue or the slip limit, while its `apx.beg` heads the queue (R419). -/
def regionFull (s : State) (w : Who) : Bool :=
  let b := s.bank w
  match frontWord b with
  | none => false
  | some word =>
    let op := (opOf word).toNat
    (regionOp op || op = 0xD1) && !roomFor s w .c (if pairsNext b then 2 else 1)

def apxBegRun (f : FK) (word : BitVec 48) (w : Who) (e : Entry) : M CRes := do
  let b ← getB w
  let es := b.q.c.tail
  let h := hdrOf word
  if h.gn ≠ 0 || h.gp ≠ 0 then trap Cause.apxImpure (apxInfo 1 e.pc)
  if h.tk ≠ 0 then trap Cause.apxImpure (apxInfo 5 e.pc)
  match scanRegion f es 1 false with
  | .breach r pc => trap Cause.apxImpure (apxInfo r pc)
  | .upTo n _ ended =>
    if !ended then
      match frontBreach b with
      | some (r, pc) => trap Cause.apxImpure (apxInfo r pc)
      | none => if regionFull (← get) w then trap Cause.apxImpure (apxInfo 6 b.f.pc) else waitFor .other
    ensure (apxI f ≠ apxO f) Cause.operandRange (wordInfo word)
    let v := b.r.n.get (apxI f).toFin
    if b.c.prep.isNone then checkTag v (· == .fp32)
    modB w fun b => b.modC fun c => { c with prep := some [] }
    if !b.c.latches.isEmpty then waitFor .drain
    modB w emptyBelt
    let a : Apx :=
      { id := apxId f, f := fingerprint (e :: es.take (n - 1)) e.pc, outN := apxO f, ol := apxOl f, input := v.bits, thr := BitVec.ofNat 32 b.csr.apxthr.toNat
        start := b.c.cc }
    let (a, s) := (← get).fitLookup w a
    set (s.modBank w fun b => { b with apx := some a, c := { b.c with prep := none } })
    if a.subst then waitFor .drain
    return .plain

/-- The `apx.beg` at the head leaves the queue with `n` entries and retires. -/
def State.leaveRegion (s : State) (w : Who) (n : Nat) : State :=
  match (s.bank w).q.c with
  | [] => s
  | e :: _ => (s.modBank w fun b => { b with q := { b.q with c := b.q.c.drop n } }.noteWindow e b.c.cc).addRet w (pushOf .c e.word) e.pos

/-- The request is withdrawn: the body issues truly (R425). -/
def State.withdrawSubst (s : State) (w : Who) : State :=
  match (s.bank w).apx with
  | some a =>
    if a.subst && a.start + 64 ≤ (s.bank w).c.cc then
      (s.leaveRegion w 1).modBank w fun b => { b with apx := some { a with subst := false, slot := none } }
    else s
  | none => s

/-- A substituted execution holds the queue. -/
def holdsSubst (b : Bank) : Bool := (b.apx.map (·.subst)).getD false && ((b.q.c.head?.map fun e => (opOf e.word).toNat) == some 0xD0)

/-- A guard on either word is illegal at dispatch (R418). -/
def apxDispatch (h : Hdr) (word : BitVec 48) (s : State) (go : State → State) : State :=
  let w := s.cur
  let pc := (s.bank w).f.pc
  if (h.gn ≠ 0 || h.gp ≠ 0) && ((s.bank w).q.c.head?.map (·.word)) != some word then
    s.raiseStop w (.trap Cause.illegalInstruction (wordInfo word)) 4 0 pc pc
  else go s

def execApxBeg (h : Hdr) (f : FK) (s : State) : Host.Outcome State Fault Refusal :=
  .next (apxDispatch h (wordOf 0xD0 h f.toBody) s fun s =>
    let b := s.bank s.cur
    let w := wordOf 0xD0 h f.toBody
    if !(holdsSubst b && (b.q.c.head?.map (·.word)) == some w) then cWord (.apxBeg h f) h w noLat (apxBegRun f w) s
    else if ((b.apx.map (·.start)).getD 0) + 64 ≤ b.c.cc then s.withdrawSubst s.cur
    else s.cIdle s.cur)

/-- The result arrives at C-cycle t + S, 24 ≤ S ≤ 64; the next word issues in the C-cycle after it. -/
def State.substResult (s : State) (w : Who) : State :=
  let b := s.bank w
  match b.apx with
  | none => s
  | some a =>
    let d := b.c.cc - a.start
    if !holdsSubst b || !isRunning s w || d < 24 || 64 < d then s
    else
      let t := s.cIdle w
      if (t.bank w).c.cc = b.c.cc then t
      else
        let n := 1 + ((b.q.c.takeWhile fun e => (opOf e.word).toNat != 0xD1).length)
        let y := ((a.net.infer (lanesFP32 a.input 64)).take a.ol).map fun v => (roundFP32 v).1
        let t := (t.leaveRegion w n).modBank w fun b =>
          { emptyBelt b with apx := none, r := (emptyBelt b).r.setN a.outN { bits := ofElems 32 y, tag := .fp32 } }
        match a.slot with
        | none => t
        | some k => t.modCluster (Tid.cluster (Who.tile w)) fun z =>
            let x := z.fit.get k
            if sameSlot x w a then { z with fit := z.fit.set k.val { x with n := x.n + 1 } k.isLt } else z

def execApxSubstituteResult (w : Who) (s : State) : Host.Outcome State Fault Refusal := .next (s.substResult w)

def execApxSubstituteWithdraw (w : Who) (s : State) : Host.Outcome State Fault Refusal :=
  .next (if holdsSubst (s.bank w) && isRunning s w then s.withdrawSubst w else s)

/-! ## apx.end (R420) -/

def apxEndRun (w : Who) : M CRes := do
  let b ← getB w
  if !b.c.latches.isEmpty then waitFor .drain
  match b.apx with
  | none => modB w emptyBelt
  | some a =>
    let v := b.r.n.get a.outN.toFin
    checkTag v (· == .fp32)
    modS fun s => (s.fitEnd w a v.bits).modBank w fun b => { emptyBelt b with apx := none }
  return .atOnce

/-- A word of no open region, at its dispatch: reason 8. -/
def strayEnd (s : State) (word : BitVec 48) : Bool :=
  let q := (s.bank s.cur).q.c
  (q.head?.map (·.word)) != some word && (openRegion q).isNone

def execApxEnd (h : Hdr) (x : BitVec 32) (s : State) : Host.Outcome State Fault Refusal :=
  .next (apxDispatch h (wordOf 0xD1 h x) s fun s =>
    let pc := (s.bank s.cur).f.pc
    if strayEnd s (wordOf 0xD1 h x) then s.raiseStop s.cur (.trap Cause.apxImpure (apxInfo 8 pc)) 4 0 pc pc
    else cWord (.apxEnd h x) h (wordOf 0xD1 h x) noLat (fun w _ => apxEndRun w) s)

/-- The word at the front end, in dispatch, is an `apx.beg` or `apx.end` that traps there (R418, R419). -/
def State.apxGate (s : State) (w : Who) (word : BitVec 48) : Option State :=
  let op := (opOf word).toNat
  let h := hdrOf word
  let pc := (s.bank w).f.pc
  if op ≠ 0xD0 && op ≠ 0xD1 then none
  else if h.gn ≠ 0 || h.gp ≠ 0 then some (s.raiseStop w (.trap Cause.illegalInstruction (wordInfo word)) 4 0 pc pc)
  else if op = 0xD1 && (openRegion (s.bank w).q.c).isNone then some (s.raiseStop w (.trap Cause.apxImpure (apxInfo 8 pc)) 4 0 pc pc)
  else none

/-- The word at which the front end is held dispatches, unless a region stops the front end there or it traps there. -/
def State.gatedDispatch (s : State) (w : Who) : State :=
  match (frontWord (s.bank w)).bind (s.apxGate w) with
  | some s => s
  | none => if s.regionStops w then s.frontWaits w .other else s.dispatchFront w

/-- QUEUE_DISPATCH: the queue word at which the front end is held. -/
def execQueueDispatch (w : Who) (s : State) : Host.Outcome State Fault Refusal :=
  .next (if isRunning s w && (s.bank w).f.packet.isSome then s.gatedDispatch w else s)

/-! ## apx.inv (R427) -/

def apxInvBody (f : FS) (word : BitVec 48) (w : Who) : M Unit := do
  let sc := f.fn.toNat % 4
  if sc = 3 then illegal word
  if sc = 2 then privileged w word
  let b ← getB w
  if !(b.q.c.all (·.issued)) then waitFor .other
  let id : BitVec 16 := BitVec.ofNat 16 (b.r.sreg f.a).toNat
  modS fun s => s.modCluster (Tid.cluster (Who.tile w)) fun z =>
    { z with fit := z.fit.map fun x =>
        if x.st != .empty && (sc == 2 || (x.ctxid == w && (sc == 1 || x.id == id))) then { x with st := .invalid, dis := false, fb := 0 } else x }

def execApxInv (h : Hdr) (f : FS) (s : State) : Host.Outcome State Fault Refusal :=
  .next (feWord h (wordOf 0x38 h f.toBody) (apxInvBody f (wordOf 0x38 h f.toBody)) s)

end Sys2Proof.Machine
end

