-- ==== Sys2Proof/Machine/Kv.lean ====
section
/-! DEFINITION. Key-value words and the events that finish them (R272 to R289). -/
namespace Sys2Proof.Machine

/-! ## Order (R146, R280) -/

def KvRun.op (r : KvRun) : Nat := (opOf r.word).toNat

/-- A key-value word waits for the earlier ones of its context; a `kv.get` does not wait for another. -/
def kvOrder (w : Who) (get : Bool) : M Unit := do
  if (← getB w).kvRuns.any fun r => !(get && r.op = 0x48) then waitFor .other
  if (← getT w).hidden.any fun c => c.who = w && c.pos.isSome then waitFor .other

def State.endKvRun (s : State) (w : Who) (pos : Nat) : State :=
  s.modBank w fun b => { b with kvRuns := b.kvRuns.filter (·.entry.pos != pos) }

/-- The fields of a `kv.get` (R281). -/
def getDk (e : Entry) : Nat := bits (e.s 1).toNat 0 21
def getDv (e : Entry) : Nat := bits (e.s 1).toNat 21 21
def getDs (e : Entry) : Nat := bits (e.s 1).toNat 42 21
def kvLayer (e : Entry) : Nat := bits (e.s 2).toNat 0 16
def getP0 (e : Entry) : Nat := bits (e.s 2).toNat 16 24
def getHead (e : Entry) : Nat := bits (e.s 2).toNat 40 8
def getN (e : Entry) : Nat := bits (e.s 2).toNat 48 7
def getPart (f : FK) : Nat := fkImm f 4 2
def getVat (f : FK) : Bool := fkBit f 6

/-- Bytes of the K and V destinations for elements of `e` bytes. -/
def getKBytes (d : KvDesc) (e : Nat) : Nat := 64 * e * d.d
def getVBytes (d : KvDesc) (e : Nat) : Nat := 4096 * e * ((d.d + 63) / 64)

/-- The scratchpad ranges of a `kv.get`, with layout and format. -/
def getRanges (f : FK) (e : Entry) (d : KvDesc) (fp8 : Bool) : List (Nat × Nat × Nat × Nat) :=
  let (n, t) := if fp8 then (1, Tag.fp8e4.code) else (2, Tag.bf16.code)
  (if getPart f = 2 then [] else [(getDk e, getKBytes d n, 2, t)]) ++
    (if getPart f = 1 then [] else [(getDv e, getVBytes d n, 2, t)]) ++ [(getDs e, 512, 0, Tag.fp32.code)]

/-- The STATE word and the entries that hold positions p0 to p0 + 63: one wheel, or four curds. -/
def sampleRange (w : Who) (t : Nat) (s : KvState) (p0 : Nat) : M (List Nat) := do
  let cap ← wcap w t
  (List.range 4).mapM fun g =>
    let p := p0 + 16 * g
    if p < 256 * s.w then kvNum w (wheelAddr t (p / 256)) 16
    else if p < s.len then kvNum w (ringAddr t cap (s.ch + (p - 256 * s.w) / 16)) 16
    else return 0

def kvGetBody (f : FK) (word : BitVec 48) (w : Who) (e : Entry) : M Bool := do
  kvOrder w true
  if getPart f = 3 then illegal word
  let (hn, h) := e.handle 0
  let d ← descChecks w .l { rd := true } hn h (e.s 0).toNat
  ensure (kvLayer e < d.l && getHead e < d.h) Cause.operandRange (wordInfo word)
  let vat := getVat f
  ensure (vat || (getN e ≠ 0 && getN e ≤ 64 && getP0 e % 64 = 0)) Cause.operandRange (wordInfo word)
  ensure (getDk e % 64 = 0) Cause.misalignedAddr (w64 (getDk e))
  ensure (getDv e % 64 = 0) Cause.misalignedAddr (w64 (getDv e))
  ensure (getDs e % 256 = 0) Cause.misalignedAddr (w64 (getDs e))
  let t := d.table (kvLayer e)
  let s ← readState w t
  let es ← if vat then pure [] else sampleRange w t s (getP0 e)
  ensure (vat || (256 * s.fw ≤ getP0 e && getP0 e < s.len)) Cause.operandRange (wordInfo word)
  let fp8 := !vat && (KvBlock.ofNat (es.headD 0)).fp8
  for r in getRanges f e d fp8 do checkSP w r.1 r.2.1 (some r.2.2.1) (some r.2.2.2)
  for r in getRanges f e d fp8 do watermarkWait w .l false r.1 r.2.1
  kvSet w (t + 8) 4 ((← rdr w t) + 1)
  let run : KvRun :=
    { word := e.word, entry := e, desc := BitVec.ofNat 52 d.pa, samp := s.toNat :: es, push := pushOf .l e.word, ser := (← getB w).ser
      spad := (getRanges f e d fp8).map fun r => (r.1, r.2.1) }
  modB w fun b => { b with kvRuns := b.kvRuns ++ [run] }
  return false

def execKvGet (h : Hdr) (f : FK) (s : State) : Host.Outcome State Fault Refusal :=
  .next (lsWord .l (.kvGet h f) h (wordOf 0x48 h f.toBody) (fun w e => precise w (whole (kvGetBody f (wordOf 0x48 h f.toBody) w e))) s)

/-! ## The transfer of a `kv.get` -/

/-- One column: keys, values, and the two scales as FP32 bytes. -/
structure KvCol where
  k : List MByte
  v : List MByte
  ks : List MByte
  vs : List MByte
deriving DecidableEq, Repr

def oneScale : List MByte := plain (leBytes 0x3F800000 4)

/-- Position `p` of a sampled range, at column `j`. -/
def blockCol (w : Who) (d : KvDesc) (b : KvBlock) (h off : Nat) : M KvCol := do
  let n := d.d * widthOf b
  let k ← kvBytes w (keyPlace d b h off) n
  let v ← kvBytes w (valPlace d b h off) n
  if b.fp8 then
    return { k, v, ks := plain [0, 0] ++ (← kvBytes w (keyScale d b h off) 2), vs := plain [0, 0] ++ (← kvBytes w (valScale d b h off) 2) }
  else return { k, v, ks := oneScale, vs := oneScale }

/-- Node `j` of the vat. -/
def nodeCol (w : Who) (d : KvDesc) (j l h : Nat) : M KvCol := do
  let p := nodeData d j l
  let n := 2 * d.d
  return { k := ← kvBytes w (p.plus (h * n)) n, v := ← kvBytes w (p.plus ((d.h + h) * n)) n, ks := oneScale, vs := oneScale }

/-- Column `j` of a `kv.get`; none where it is not valid. -/
def getCol (w : Who) (f : FK) (r : KvRun) (d : KvDesc) (j : Nat) : M (Option KvCol) := do
  let e := r.entry
  if getVat f then
    if j = 0 then return none
    if (← nodeTag w d j) ≠ d.sid then return none
    return some (← nodeCol w d j (kvLayer e) (getHead e))
  else
    let s := KvState.ofNat (r.samp.headD 0)
    let p := getP0 e + j
    if j < getN e && p < s.len then
      let b := KvBlock.ofNat (r.samp.getD (1 + j / 16) 0)
      return some (← blockCol w d b (getHead e) (if p < 256 * s.w then p % 256 else p % 16))
    else return none

/-- Element `i` of a column's keys or values, `n` bytes; absent ones are 0. -/
def colElem (xs : List MByte) (n i : Nat) : List MByte :=
  let e := (xs.drop (n * i)).take n
  if e.isEmpty then List.replicate n (0, false) else e

/-- Marked bytes go to the scratchpad, line by line, POISON with them. -/
def spPut (w : Who) (a : Nat) : Nat → List MByte → M Unit
  | 0, _ => pure ()
  | n + 1, bs => do
    if bs.isEmpty then return
    spWrite w a (bytesOf (bs.take 64)) (anyPoison (bs.take 64))
    spPut w (a + 64) n (bs.drop 64)

/-- The writes of a `kv.get`. -/
def writeGet (w : Who) (f : FK) (r : KvRun) (d : KvDesc) : M Unit := do
  let e := r.entry
  let cols ← (List.range 64).mapM (getCol w f r d)
  let n := if !getVat f && (KvBlock.ofNat (r.samp.getD 1 0)).fp8 then 1 else 2
  let keys (j : Nat) : List MByte := ((cols.getD j none).map (·.k)).getD []
  let vals (j : Nat) : List MByte := ((cols.getD j none).map (·.v)).getD []
  let scale (g : KvCol → List MByte) : List MByte := cols.flatMap fun c => (c.map g).getD (plain [0, 0, 0, 0])
  if getPart f ≠ 2 then
    spPut w (getDk e) 4096 ((List.range d.d).flatMap fun k => (List.range 64).flatMap fun j => colElem (keys j) n k)
  if getPart f ≠ 1 then
    spPut w (getDv e) 4096 ((List.range ((d.d + 63) / 64)).flatMap fun g => (List.range 64).flatMap fun j =>
      (List.range 64).flatMap fun c => colElem (vals j) n (64 * g + c))
  spPut w (getDs e) 8 (scale (·.ks) ++ scale (·.vs))

/-- The oldest `kv.get` of a context ends: its writes, unless they were stopped, and its last step. -/
def finishGet (w : Who) (r : KvRun) : M Unit := do
  let f := FK.ofBody (bodyOf r.word)
  if r.stage ≠ 99 then
    engineWait w false .l r.ser r.spad
    writeGet w f r (← readDesc w r.desc.toNat)
  endGet w r
  modS fun s => (s.endKvRun w r.entry.pos).flyDone w .l r.entry.pos

/-- A step of the engine for a context's oldest word with an opcode. -/
def kvEvent (w : Who) (op : Nat) (m : KvRun → M Unit) (s : State) : State :=
  match (s.bank w).kvRuns.find? (·.op = op) with
  | none => s
  | some r => runM (whole (m r)) s

def execKvGetComplete (w : Who) (s : State) : Host.Outcome State Fault Refusal := .next (kvEvent w 0x48 (finishGet w) s)

/-! ## Appending (R282) and provisional writes (R284) -/

def putNode (f : FK) : Nat := fkImm f 4 6
def putN (f : FK) : Nat := fkImm f 10 4 + 1
def putPos (e : Entry) : Nat := bits (e.s 2).toNat 16 24

/-- The checks that both forms make; the answer is the descriptor and the source bytes. -/
def putChecks (f : FK) (word : BitVec 48) (prov : Bool) (w : Who) (e : Entry) : M (KvDesc × List Byte) := do
  let (hn, h) := e.handle 0
  let d ← descChecks w .s { w := true } hn h (e.s 0).toNat
  ensure (kvLayer e < d.l && (if prov then putN f = 1 else putPos e + putN f ≤ 2 ^ 24)) Cause.operandRange (wordInfo word)
  let a := (e.s 1).toNat
  let n := putN f * 4 * d.h * d.d
  ensure (a % 64 = 0) Cause.misalignedAddr (w64 a)
  checkSP w a n (some 0) (some Tag.bf16.code)
  watermarkWait w .s false a n
  return (d, ← spReadChecked w a n)

def kvPutBody (f : FK) (word : BitVec 48) (w : Who) (e : Entry) : M Bool := do
  kvOrder w false
  outbound w
  let (d, src) ← putChecks f word false w e
  let t := d.table (kvLayer e)
  let s ← readState w t
  let p := putPos e
  let n := putN f
  ensure (256 * s.w ≤ p && p ≤ s.len) Cause.operandRange (wordInfo word)
  let cn' := s.cn (max s.len (p + n))
  let cn := s.cn s.len
  ensure (cn' ≤ 32) Cause.kvFull 0
  ensure (cn' - cn ≤ (← freeBlocks w d false)) Cause.kvFull 1
  addCurds w t s cn (← popBlocks w d (cn' - cn))
  for k in List.range n do
    let row (o : Nat) : List MByte := plain ((src.drop (o + 2 * d.h * d.d * k)).take (2 * d.h * d.d))
    putToken w d t s (p + k) (row 0 ++ row (2 * n * d.h * d.d))
  let now ← readState w t
  writeState w t { now with len := max now.len (p + n) }
  return true

def execKvPut (h : Hdr) (f : FK) (s : State) : Host.Outcome State Fault Refusal :=
  .next (lsWord .s (.kvPut h f) h (wordOf 0x64 h f.toBody) (fun w e => precise w (whole (kvPutBody f (wordOf 0x64 h f.toBody) w e))) s)

/-- Every trap of the provisional form gives NODE as TRAPINFO. -/
def withNode {α : Type} (node : Nat) (m : M α) : M α := do
  let s ← get
  match m.run.run s with
  | (.ok a, s') => set s'; return a
  | (.error (.trap c _), s') => set s'; trap c (w64 node)
  | (.error x, s') => set s'; throw x

/-- Hidden entries are released as long as fewer than 64 entries of the tile are in flight (R174). -/
def Tile.releaseHidden (t : Tile) : Tile :=
  let room := 64 - (t.chans.toList.foldl (fun a c => a + c.fly.length) 0 + (t.hidden.filter (·.released)).length)
  let go := t.hidden.foldl (fun (acc : List HiddenCopy × Nat) c =>
    if c.released then (acc.1 ++ [c], acc.2) else if acc.2 > 0 then (acc.1 ++ [{ c with released := true }], acc.2 - 1) else (acc.1 ++ [c], 0))
    ([], room)
  { t with hidden := go.1 }

def kvProvBody (f : FK) (word : BitVec 48) (w : Who) (e : Entry) : M Bool := do
  if !(← getB w).kvRuns.isEmpty then waitFor .other
  outbound w
  let (d, src) ← withNode (putNode f) (putChecks f word true w e)
  if d.closing then waitFor .other
  setPend w d (d.pend + 1)
  modT w fun t => Tile.releaseHidden
    { t with hidden := t.hidden ++ [{ who := w, desc := BitVec.ofNat 52 d.pa, sid := BitVec.ofNat 32 d.sid, node := BitVec.ofNat 6 (putNode f)
                                      layer := BitVec.ofNat 16 (kvLayer e), data := src, pos := some e.pos }] }
  return false

def execKvPutProvisional (h : Hdr) (f : FK) (s : State) : Host.Outcome State Fault Refusal :=
  .next (lsWord .s (.kvPutProvisional h f) h (wordOf 0x64 h f.toBody)
    (fun w e => precise w (whole (kvProvBody f (wordOf 0x64 h f.toBody) w e))) s)

/-- The engine keeps for which layers entries have landed in the slot of a tree node under its SID (R454, log 143). -/
def Hub.noteLanded (h : Hub) (pa : Nat) (c : HiddenCopy) : Hub :=
  let old := match kvGet h.landed (pa + c.node.toNat) with
    | some (sid, ls) => if sid = c.sid.toNat then ls else []
    | none => []
  { h with landed := kvPut h.landed (pa + c.node.toNat) (c.sid.toNat, c.layer.toNat :: old.filter (· != c.layer.toNat)) }

/-- Some layer of a tree node has not landed under the descriptor's SID, though another has. -/
def layerMissing (h : Hub) (d : KvDesc) (j : Nat) : Bool :=
  match kvGet h.landed (d.pa + j) with
  | some (sid, ls) => sid == d.sid && !((List.range d.l).all ls.contains)
  | none => false

/-- A hidden entry lands: keys, values, tag, and PEND (R284). -/
def landHidden (t : Tid) (c : HiddenCopy) : M Unit := do
  let d ← readDesc c.who c.desc.toNat
  kvPutBytes c.who (nodeData d c.node.toNat c.layer.toNat) (plain c.data)
  kvPutBytes c.who (nodePlace d c.node.toNat) (plain (leBytes c.sid.toNat 4))
  modS fun s => s.modHub fun h => h.noteLanded d.pa c
  setPend c.who d (d.pend - 1)
  modS fun s => s.modTile t fun x => Tile.releaseHidden { x with hidden := x.hidden.eraseP (· == c) }
  match c.pos with
  | some p => modS fun s => s.flyDone c.who .s p
  | none => pure ()

def execKvHiddenLanding (t : Tid) (s : State) : Host.Outcome State Fault Refusal :=
  .next (
    let s := s.modTile t Tile.releaseHidden
    match (s.tile t).hidden.find? (·.released) with
    | none => s
    | some c => runM (whole (landHidden t c)) s)

/-! ## Commit and squash (R285, R286) -/

/-- Unreleased hidden entries of a descriptor whose node is not listed are cancelled, at every tile. -/
def cancelHidden (desc : BitVec 52) (keep : List Nat) : M Unit := do
  let s ← get
  for t in List.finRange 72 do
    let gone := (s.tile t).hidden.filter fun c => c.desc = desc && !c.released && !keep.contains c.node.toNat
    for c in gone do
      pendDown c.who desc
      modS fun s => s.modTile t fun x => { x with hidden := x.hidden.eraseP (· == c) }
      match c.pos with
      | some p => modS fun s => s.flyDone c.who .s p
      | none => pure ()

/-- The nodes are appended to every layer, and SID advances: the part of a commit that nothing can stop. -/
def commitAppend (w : Who) (d : KvDesc) (nodes : List Nat) : M Unit := do
  for l in List.range d.l do
    let t := d.table l
    let s ← readState w t
    let cn := s.cn s.len
    addCurds w t s cn (← popBlocks w d (s.cn (s.len + nodes.length) - cn))
    for x in nodes.zipIdx do
      putToken w d t s (s.len + x.2) (← kvBytes w (nodeData d x.1 l) (4 * d.h * d.d))
    let now ← readState w t
    writeState w t { now with len := max now.len (s.len + nodes.length) }

/-- Why a commit fails, if it does: KV_NODE or KV_FULL with its TRAPINFO. -/
def commitFails (w : Who) (d : KvDesc) (nodes : List Nat) : M (Option (BitVec 8 × Word)) := do
  for j in nodes do
    if (← nodeTag w d j) ≠ d.sid || layerMissing (← get).hub d j then return some (Cause.kvNode, w64 j)
  let mut need := 0
  for l in List.range d.l do
    let s ← readState w (d.table l)
    let cn' := s.cn (s.len + nodes.length)
    if cn' > 32 then return some (Cause.kvFull, 0)
    need := need + (cn' - s.cn s.len)
  if need > (← freeBlocks w d false) then return some (Cause.kvFull, 1)
  return none

/-- Once PEND is 0: the rest of a commit, or of a squash with no nodes. -/
def commitGo (w : Who) (r : KvRun) (nodes : List Nat) : M Unit := do
  let d ← readDesc w r.desc.toNat
  if d.pend ≠ 0 then waitFor .other
  let fails ← if nodes.isEmpty then pure none else commitFails w d nodes
  match fails with
  | some (c, i) =>
    setClosing w d false
    modS fun s => s.endKvRun w r.entry.pos
    trap c i
  | none =>
    if !nodes.isEmpty then commitAppend w d nodes
    setSid w d ((d.sid + 1) % 2 ^ 32)
    setClosing w d false
    modS fun s => s.endKvRun w r.entry.pos

/-- The nodes that a commit or squash lists. -/
def runNodes (r : KvRun) : List Nat := if r.op = 0x65 then commitList (r.entry.s 1) else []

/-- CLOSING rises and what the list leaves out is cancelled; then the word goes on, or waits at the head of its queue. -/
def closeBegin (word : BitVec 48) (w : Who) (e : Entry) (nodes : List Nat) : M Unit := do
  if !(← getB w).kvRuns.isEmpty then waitFor .other
  outbound w
  let (hn, h) := e.handle 0
  let d ← descChecks w .s { w := true } hn h (e.s 0).toNat
  ensure nodes.Nodup Cause.operandRange (wordInfo word)
  if (← getT w).hidden.any fun c => c.who = w && c.pos.isSome && c.desc ≠ BitVec.ofNat 52 d.pa then waitFor .other
  setClosing w d true
  cancelHidden (BitVec.ofNat 52 d.pa) nodes
  modB w fun b => { b with kvRuns := b.kvRuns ++ [{ word := e.word, entry := e, desc := BitVec.ofNat 52 d.pa, stage := 1 }] }

def closeBody (word : BitVec 48) (w : Who) (e : Entry) (nodes : List Nat) : M Bool := do
  if (← getB w).kvRuns.any (·.entry.pos = e.pos) then waitFor .other
  precise w (whole (closeBegin word w e nodes))
  match (← getB w).kvRuns.find? (·.entry.pos = e.pos) with
  | none => return true
  | some r =>
    whole (commitGo w r nodes)
    return true

def execKvCommit (h : Hdr) (f : FK) (s : State) : Host.Outcome State Fault Refusal :=
  .next (lsWord .s (.kvCommit h f) h (wordOf 0x65 h f.toBody) (fun w e => closeBody (wordOf 0x65 h f.toBody) w e (commitList (e.s 1))) s)

def execKvSquash (h : Hdr) (f : FK) (s : State) : Host.Outcome State Fault Refusal :=
  .next (lsWord .s (.kvSquash h f) h (wordOf 0x66 h f.toBody) (fun w e => closeBody (wordOf 0x66 h f.toBody) w e []) s)

/-- The commit or squash that waits at the head of the S queue goes on, and retires or traps there. -/
def execKvCommitResume (w : Who) (s : State) : Host.Outcome State Fault Refusal :=
  .next (match (s.bank w).kvRuns.find? fun r => r.op = 0x65 || r.op = 0x66 with
    | none => s
    | some r =>
      match (whole (commitGo w r (runNodes r))).run.run s with
      | (.ok _, s) => s.takeHead w .s r.entry true
      | (.error (.wait _), s) => s
      | (.error x, s) => s.raiseStop w x 3 0 r.entry.pc (s.bank w).f.pc)

/-! ## The press and the fold (R287, R288) -/

/-- The word waits at the table: no effect on it yet. -/
def pressBody (word : BitVec 48) (w : Who) (e : Entry) : M Bool := do
  kvOrder w false
  let (hn, h) := e.handle 0
  let d ← descChecks w .l { w := true } hn h (e.s 0).toNat
  ensure (pressLayer (e.s 1) < d.l) Cause.operandRange (wordInfo word)
  let t := d.table (pressLayer (e.s 1))
  if bit (← kvNum w (t + 13) 1) 0 || (← dcnt w t) > 16 then waitFor .other
  let s ← readState w t
  if s.w ≠ pressExpected (e.s 1) || s.len < 256 * s.w + 256 then return true
  ensure (s.w < (← wcap w t)) Cause.kvFull 3
  ensure ((← freeBlocks w d true) ≠ 0) Cause.kvFull 2
  let wheel ← popBlock w d true
  kvSet w (t + 13) 1 ((← kvNum w (t + 13) 1) / 2 * 2 + 1)
  modB w fun b => { b with kvRuns := b.kvRuns ++
    [{ word := e.word, entry := e, desc := BitVec.ofNat 52 d.pa, samp := [wheel.toNat 0], push := pushOf .l e.word }] }
  return false

def execKvPress (h : Hdr) (f : FK) (s : State) : Host.Outcome State Fault Refusal :=
  .next (lsWord .l (.kvPress h f) h (wordOf 0x4E h f.toBody) (fun w e => precise w (whole (pressBody (wordOf 0x4E h f.toBody) w e))) s)

/-- A quantising press asks for QZ units before its copy. -/
def pressGrant (w : Who) (r : KvRun) : M (Option Grant) := do
  if r.grant.isSome then return r.grant
  if !(← readDesc w r.desc.toNat).qw then return none
  let g ← askGrant w 4 1
  modB w fun b => { b with kvRuns := b.kvRuns.map fun x => if x.entry.pos = r.entry.pos then { x with grant := some g } else x }
  return some g

def finishPress (w : Who) (r : KvRun) : M Unit := do
  let fl ← publishPress w r
  modS fun s => ((s.returnGrant w r.grant).endKvRun w r.entry.pos).flyDone w .l r.entry.pos fl

/-- KV_PRESS_PUBLISH: units are asked for first, and then the copy is made and published. -/
def execKvPressPublish (w : Who) (s : State) : Host.Outcome State Fault Refusal :=
  .next (match (s.bank w).kvRuns.find? (·.op = 0x4E) with
    | none => s
    | some r =>
      match (pressGrant w r).run.run s with
      | (.ok g, s) => runM (whole (finishPress w { r with grant := g })) s
      | (.error _, s) => s)

def foldBody (word : BitVec 48) (w : Who) (e : Entry) : M Bool := do
  kvOrder w false
  let (hn, h) := e.handle 0
  let d ← descChecks w .l { w := true } hn h (e.s 0).toNat
  ensure (pressLayer (e.s 1) < d.l) Cause.operandRange (wordInfo word)
  let t := d.table (pressLayer (e.s 1))
  if (← dcnt w t) > 31 then waitFor .other
  let s ← readState w t
  if s.fw ≠ pressExpected (e.s 1) || s.fw ≥ s.w then return true
  modB w fun b => { b with kvRuns := b.kvRuns ++
    [{ word := e.word, entry := e, desc := BitVec.ofNat 52 d.pa, samp := [s.fw], push := pushOf .l e.word }] }
  return false

def execKvFold (h : Hdr) (f : FK) (s : State) : Host.Outcome State Fault Refusal :=
  .next (lsWord .l (.kvFold h f) h (wordOf 0x4F h f.toBody) (fun w e => precise w (whole (foldBody (wordOf 0x4F h f.toBody) w e))) s)

/-- A fold whose wheel another context has folded since has no effect. -/
def finishFold (w : Who) (r : KvRun) : M Unit := do
  let d ← readDesc w r.desc.toNat
  let t := d.table (pressLayer (r.entry.s 1))
  let s ← readState w t
  let fl ← if s.fw = pressExpected (r.entry.s 1) then do
      if (← dcnt w t) > 31 then waitFor .other
      publishFold w r
    else pure 0
  modS fun s => (s.endKvRun w r.entry.pos).flyDone w .l r.entry.pos fl

def execKvFoldPublish (w : Who) (s : State) : Host.Outcome State Fault Refusal := .next (kvEvent w 0x4F (finishFold w) s)

end Sys2Proof.Machine
end

