-- ==== Sys2Proof/Machine/Quant.lean ====
section
/-! DEFINITION. `qz.run` and the end of its commands (R311 to R314). -/
namespace Sys2Proof.Machine

/-- The offset of the first field that breaks its limit (R312). -/
def qzBad (d : BitVec 512) : Option Nat :=
  let sp := !qzAcc d
  if qzF d 0 1 > 1 then some 0
  else if !([4, 5, 8, 16].contains (qzTgt d)) then some 1
  else if !([16, 32, 48, 64].contains (qzB d)) || (qzPlanes d && qzB d ≠ 48) then some 2
  else if qzPlanes d && !(2 ≤ qzQ d && qzQ d ≤ 8) then some 3
  else if sp && (qzR d = 0 || qzR d > 4096 || (qzPlanes d && qzR d % 48 ≠ 0)) then some 4
  else if sp && (qzCN d = 0 || qzCN d > 4096 || (if qzPlanes d then qzCN d ≠ 64 else qzCN d % qzB d ≠ 0)) then some 6
  else if sp && qzSrc d % 64 ≠ 0 then some 8
  else if sp && qzPitch d % 64 ≠ 0 then some 12
  else if qzData d % 64 ≠ 0 then some 16
  else if !qzPlanes d && qzDataPitch d % 64 ≠ 0 then some 24
  else if qzScale d % 64 ≠ 0 then some 32
  else if qzEv d && qzEvOff d % 8 ≠ 0 then some 40
  else none

/-- The shape of an accumulator source fits the block size and target as R312 asks of R and CN; the offset where it does not. -/
def qzShapeBad (d : BitVec 512) (r n : Nat) : Option Nat :=
  if qzPlanes d then (if r % 48 ≠ 0 then some 4 else if n ≠ 64 then some 6 else none)
  else if n % qzB d ≠ 0 then some 2 else none

/-- The source's checks: whether its elements are FP32, where it lies in scratchpad. A source slot that is not valid gives no format:
the choice is then a free value (log 3). -/
def qzSource (w : Who) (d : BitVec 512) : M Bool := do
  if qzAcc d then
    let z := (← getB w).tileZ (BitVec.ofNat 4 (qzSrc d))
    ensure z.configured Cause.accShape (w64 (qzSrc d % 16))
    if z.tag = .empty then trap Cause.formatMismatch 0
    match qzShapeBad d z.nrows z.ncols with
    | some k => trap Cause.qzDesc (w64 k)
    | none => return z.fmt = .fp32
  else
    let x := (← getT w).tag (qzSrc d / 4096)
    let fp32 ← if x.fmt = 1 then pure true else if x.fmt = 3 then pure false else do
      if x.v then checkSP w (qzSrc d) (qzCN d * 2) (some 0) (some 1)
      let (v, s) := (← get).draw
      set s
      pure (bit v.toNat 0)
    for i in List.range (qzR d) do
      checkSP w (qzSrc d + i * qzPitch d) (qzCN d * if fp32 then 4 else 2) (some 0) (some (if fp32 then 1 else 3))
    return fp32

/-- The ranges that the data goes to: offset and bytes. -/
def qzDataRanges (d : BitVec 512) (r n : Nat) : List (Nat × Nat) :=
  if qzPlanes d then [(qzData d, 64 * qzQ d * (r / 8))] else (List.range r).map fun i => (qzData d + i * qzDataPitch d, n)

/-- Bytes of the scales. -/
def qzScaleBytes (d : BitVec 512) (r n : Nat) : Nat := if qzPlanes d then 128 * (r / 48) else 2 * r * (n / qzB d)

/-- The checks of the destinations: the addresses of the data, the scales and the event word. -/
def qzDests (w : Who) (d : BitVec 512) (r n : Nat) : M (Nat × Nat × Nat) := do
  let hs := (← getB w).r.h
  let hn (k : Fin 16) : BitVec 4 := BitVec.ofNat 4 k.val
  let (data, scale) ← if qzMem d then do
      let h := hs.get (qzHand d)
      for x in qzDataRanges d r n do
        let _ ← translateRange { w := true } (hn (qzHand d)) h x.1 x.2
      let sc ← translateRange { w := true } (hn (qzHand d)) h (qzScale d) (qzScaleBytes d r n)
      pure (h.base.toNat + qzData d, sc)
    else do
      for x in qzDataRanges d r n do
        checkSP w x.1 x.2 (some (if qzPlanes d then 3 else 0)) (some (if qzPlanes d then 8 else qzTgt d))
      checkSP w (qzScale d) (qzScaleBytes d r n) (some 0) (some 3)
      pure (qzData d, qzScale d)
  let ev ← if qzEv d then translateRange { w := true } (hn (qzEvHand d)) (hs.get (qzEvHand d)) (qzEvOff d) 8 else pure 0
  return (data, scale, ev)

/-- Watermarks over the scratchpad and memory ranges of a command (R152). -/
def qzWaits (w : Who) (d : BitVec 512) (fp32 : Bool) (r n : Nat) : M Unit := do
  let hs := (← getB w).r.h
  if !qzAcc d then
    for i in List.range r do watermarkWait w .l false (qzSrc d + i * qzPitch d) (n * if fp32 then 4 else 2)
  let off (k : Fin 16) (x : Nat) : Nat := if qzMem d then vaOf (hs.get k) x else x
  for x in qzDataRanges d r n do watermarkWait w .l (qzMem d) (off (qzHand d) x.1) x.2
  watermarkWait w .l (qzMem d) (off (qzHand d) (qzScale d)) (qzScaleBytes d r n)
  if qzEv d then watermarkWait w .l true (vaOf (hs.get (qzEvHand d)) (qzEvOff d)) 8

/-- The scratchpad ranges of a command (R153). -/
def qzSpad (d : BitVec 512) (fp32 : Bool) (r n : Nat) : List (Nat × Nat) :=
  (if qzAcc d then [] else (List.range r).map fun i => (qzSrc d + i * qzPitch d, n * if fp32 then 4 else 2)) ++
    if qzMem d then [] else (qzScale d, qzScaleBytes d r n) :: qzDataRanges d r n

def qzRunBody (f : FK) (w : Who) (e : Entry) : M Bool := do
  let (hn, h) := e.handle 0
  let off := (e.s 0).toNat
  ensure (off % 64 = 0) Cause.misalignedAddr (e.s 0)
  let pa ← translateRange { rd := true } hn h off 64
  watermarkWait w .l true (vaOf h off) 64
  let d := BitVec.ofNat 512 (leNat (← recordRead w h false off pa 1))
  match qzBad d with
  | some k => trap Cause.qzDesc (w64 k)
  | none =>
    let fp32 ← qzSource w d
    let (r, n) := qzShape d ((← getB w).tileZ (BitVec.ofNat 4 (qzSrc d)))
    let (data, scale, event) ← qzDests w d r n
    qzWaits w d fp32 r n
    requestUnits w 4 1
    if (← getT w).qz.length ≥ 16 then waitFor .other
    let g ← takeUnits w 4 1
    let hs := (← getB w).r.h
    let cmd : QzCmd :=
      { who := w, desc := d, fp32, data, scale, event := BitVec.ofNat 52 event, hand := hs.get (qzHand d), evHand := hs.get (qzEvHand d), wait := fkBit f 4, grant := some g, pos := e.pos, ser := (← getB w).ser
        spad := qzSpad d fp32 r n }
    modT w fun t => { t with qz := t.qz ++ [cmd] }
    return !fkBit f 4

def execQzRun (h : Hdr) (f : FK) (s : State) : Host.Outcome State Fault Refusal :=
  .next (lsWord .l (.qzRun h f) h (wordOf 0x50 h f.toBody) (fun w e => precise w (qzRunBody f w e)) s)

def execQzCommandComplete (t : Tid) (s : State) : Host.Outcome State Fault Refusal := .next (runM (whole (qzComplete t)) s)

end Sys2Proof.Machine
end

