-- ==== Sys2Proof/Machine/Dispatch.lean ====
section
/-! DEFINITION. What each instruction and event does: one call of its meaning per constructor. -/
namespace Sys2Proof.Machine

def exec (i : Instr) (s : State) : Host.Outcome State Fault Refusal :=
  match i with
  | .nop h x => Sys2Proof.Machine.execNop h x s
  | .add h f => Sys2Proof.Machine.execAdd h f s
  | .sub h f => Sys2Proof.Machine.execSub h f s
  | .andR h f => Sys2Proof.Machine.execAnd h f s
  | .orR h f => Sys2Proof.Machine.execOr h f s
  | .xorR h f => Sys2Proof.Machine.execXor h f s
  | .shl h f => Sys2Proof.Machine.execShl h f s
  | .shr h f => Sys2Proof.Machine.execShr h f s
  | .sra h f => Sys2Proof.Machine.execSra h f s
  | .mul h f => Sys2Proof.Machine.execMul h f s
  | .mulh h f => Sys2Proof.Machine.execMulh h f s
  | .div h f => Sys2Proof.Machine.execDiv h f s
  | .rem h f => Sys2Proof.Machine.execRem h f s
  | .minmax h f => Sys2Proof.Machine.execMinmax h f s
  | .spset h f => Sys2Proof.Machine.execSpset h f s
  | .spinv h f => Sys2Proof.Machine.execSpinv h f s
  | .spq h f => Sys2Proof.Machine.execSpq h f s
  | .addi h f => Sys2Proof.Machine.execAddi h f s
  | .andi h f => Sys2Proof.Machine.execAndi h f s
  | .ori h f => Sys2Proof.Machine.execOri h f s
  | .xori h f => Sys2Proof.Machine.execXori h f s
  | .shli h f => Sys2Proof.Machine.execShli h f s
  | .shri h f => Sys2Proof.Machine.execShri h f s
  | .srai h f => Sys2Proof.Machine.execSrai h f s
  | .li h f => Sys2Proof.Machine.execLi h f s
  | .lsh h f => Sys2Proof.Machine.execLsh h f s
  | .bitop h f => Sys2Proof.Machine.execBitop h f s
  | .sptag h f => Sys2Proof.Machine.execSptag h f s
  | .bfx h f => Sys2Proof.Machine.execBfx h f s
  | .bfi h f => Sys2Proof.Machine.execBfi h f s
  | .cmp h f => Sys2Proof.Machine.execCmp h f s
  | .cmpi h f => Sys2Proof.Machine.execCmpi h f s
  | .plog h f => Sys2Proof.Machine.execPlog h f s
  | .br h f => Sys2Proof.Machine.execBr h f s
  | .call h f => Sys2Proof.Machine.execCall h f s
  | .jr h f => Sys2Proof.Machine.execJr h f s
  | .retR h f => Sys2Proof.Machine.execRet h f s
  | .loopLc h f => Sys2Proof.Machine.execLoop h f s
  | .lpbrk h f => Sys2Proof.Machine.execLpbrk h f s
  | .ld h f => Sys2Proof.Machine.execLd h f s
  | .st h f => Sys2Proof.Machine.execSt h f s
  | .amo h f => Sys2Proof.Machine.execAmo h f s
  | .cas h f => Sys2Proof.Machine.execCas h f s
  | .fence h f => Sys2Proof.Machine.execFence h f s
  | .xfence h f => Sys2Proof.Machine.execXfence h f s
  | .xlat h f => Sys2Proof.Machine.execXlat h f s
  | .hfree h f => Sys2Proof.Machine.execHfree h f s
  | .hinfo h f => Sys2Proof.Machine.execHinfo h f s
  | .qsync h f => Sys2Proof.Machine.execQsync h f s
  | .selR h f => Sys2Proof.Machine.execSel h f s
  | .adr h f => Sys2Proof.Machine.execAdr h f s
  | .taskPost h f => Sys2Proof.Machine.execTaskPost h f s
  | .taskEnd h f => Sys2Proof.Machine.execTaskEnd h f s
  | .evtSig h f => Sys2Proof.Machine.execEvtSig h f s
  | .evtWait h f => Sys2Proof.Machine.execEvtWait h f s
  | .taskYield h f => Sys2Proof.Machine.execTaskYield h f s
  | .apxInv h f => Sys2Proof.Machine.execApxInv h f s
  | .hunpin h f => Sys2Proof.Machine.execHunpin h f s
  | .csrr h f => Sys2Proof.Machine.execCsrr h f s
  | .csrw h f => Sys2Proof.Machine.execCsrw h f s
  | .csrs h f => Sys2Proof.Machine.execCsrs h f s
  | .csrc h f => Sys2Proof.Machine.execCsrc h f s
  | .fop h f => Sys2Proof.Machine.execFop h f s
  | .ldsp h f => Sys2Proof.Machine.execLdsp h f s
  | .ldspG h f => Sys2Proof.Machine.execLdspG h f s
  | .ldspT h f => Sys2Proof.Machine.execLdspT h f s
  | .spfill h f => Sys2Proof.Machine.execSpfill h f s
  | .cpLaunch h f => Sys2Proof.Machine.execCpLaunch h f s
  | .cpAdv h f => Sys2Proof.Machine.execCpAdv h f s
  | .cpArm h f => Sys2Proof.Machine.execCpArm h f s
  | .cpCancel h f => Sys2Proof.Machine.execCpCancel h f s
  | .kvGet h f => Sys2Proof.Machine.execKvGet h f s
  | .pimMv h f => Sys2Proof.Machine.execPimMv h f s
  | .pimCfg h f => Sys2Proof.Machine.execPimCfg h f s
  | .collBsum h f => Sys2Proof.Machine.execCollBsum h f s
  | .collBar h f => Sys2Proof.Machine.execCollBar h f s
  | .prf h f => Sys2Proof.Machine.execPrf h f s
  | .kvPress h f => Sys2Proof.Machine.execKvPress h f s
  | .kvFold h f => Sys2Proof.Machine.execKvFold h f s
  | .qzRun h f => Sys2Proof.Machine.execQzRun h f s
  | .spcopy h f => Sys2Proof.Machine.execSpcopy h f s
  | .lnop h x => Sys2Proof.Machine.execLnop h x s
  | .stsp h f => Sys2Proof.Machine.execStsp h f s
  | .stspS h f => Sys2Proof.Machine.execStspS h f s
  | .stspT h f => Sys2Proof.Machine.execStspT h f s
  | .cpAdvs h f => Sys2Proof.Machine.execCpAdvs h f s
  | .kvPut h f => Sys2Proof.Machine.execKvPut h f s
  | .kvCommit h f => Sys2Proof.Machine.execKvCommit h f s
  | .kvSquash h f => Sys2Proof.Machine.execKvSquash h f s
  | .stspAdd h f => Sys2Proof.Machine.execStspAdd h f s
  | .evtSigs h f => Sys2Proof.Machine.execEvtSigs h f s
  | .taskPosts h f => Sys2Proof.Machine.execTaskPosts h f s
  | .snop h x => Sys2Proof.Machine.execSnop h x s
  | .vfetch h f => Sys2Proof.Machine.execVfetch h f s
  | .vput h f => Sys2Proof.Machine.execVput h f s
  | .vmov h f => Sys2Proof.Machine.execVmov h f s
  | .vpop h f => Sys2Proof.Machine.execVpop h f s
  | .vbcast h f => Sys2Proof.Machine.execVbcast h f s
  | .vimm h f => Sys2Proof.Machine.execVimm h f s
  | .vperm h f => Sys2Proof.Machine.execVperm h f s
  | .vshuf h f => Sys2Proof.Machine.execVshuf h f s
  | .vsel h f => Sys2Proof.Machine.execVsel h f s
  | .mset h f => Sys2Proof.Machine.execMset h f s
  | .vadd h f => Sys2Proof.Machine.execVadd h f s
  | .vsub h f => Sys2Proof.Machine.execVsub h f s
  | .vmul h f => Sys2Proof.Machine.execVmul h f s
  | .vfma h f => Sys2Proof.Machine.execVfma h f s
  | .vmin h f => Sys2Proof.Machine.execVmin h f s
  | .vmax h f => Sys2Proof.Machine.execVmax h f s
  | .vabs h f => Sys2Proof.Machine.execVabs h f s
  | .vneg h f => Sys2Proof.Machine.execVneg h f s
  | .vcmp h f => Sys2Proof.Machine.execVcmp h f s
  | .vrcp h f => Sys2Proof.Machine.execVrcp h f s
  | .vrsqrt h f => Sys2Proof.Machine.execVrsqrt h f s
  | .vsqrt h f => Sys2Proof.Machine.execVsqrt h f s
  | .vexp2 h f => Sys2Proof.Machine.execVexp2 h f s
  | .vlog2 h f => Sys2Proof.Machine.execVlog2 h f s
  | .vsig h f => Sys2Proof.Machine.execVsig h f s
  | .vtanh h f => Sys2Proof.Machine.execVtanh h f s
  | .vcvt h f => Sys2Proof.Machine.execVcvt h f s
  | .vscale h f => Sys2Proof.Machine.execVscale h f s
  | .vand h f => Sys2Proof.Machine.execVand h f s
  | .vor h f => Sys2Proof.Machine.execVor h f s
  | .vxor h f => Sys2Proof.Machine.execVxor h f s
  | .vshl h f => Sys2Proof.Machine.execVshl h f s
  | .vshr h f => Sys2Proof.Machine.execVshr h f s
  | .vsra h f => Sys2Proof.Machine.execVsra h f s
  | .vredsum h f => Sys2Proof.Machine.execVredsum h f s
  | .vredmax h f => Sys2Proof.Machine.execVredmax h f s
  | .vredmin h f => Sys2Proof.Machine.execVredmin h f s
  | .vscan h f => Sys2Proof.Machine.execVscan h f s
  | .vpack h f => Sys2Proof.Machine.execVpack h f s
  | .vunpk h f => Sys2Proof.Machine.execVunpk h f s
  | .vclass h f => Sys2Proof.Machine.execVclass h f s
  | .vrnd h f => Sys2Proof.Machine.execVrnd h f s
  | .vclamp h f => Sys2Proof.Machine.execVclamp h f s
  | .vdot4 h f => Sys2Proof.Machine.execVdot4 h f s
  | .vnop h f => Sys2Proof.Machine.execVnop h f s
  | .cnop h x => Sys2Proof.Machine.execCnop h x s
  | .tcfg h f => Sys2Proof.Machine.execTcfg h f s
  | .accAlloc h f => Sys2Proof.Machine.execAccAlloc h f s
  | .accFree h f => Sys2Proof.Machine.execAccFree h f s
  | .accZero h f => Sys2Proof.Machine.execAccZero h f s
  | .mma h f => Sys2Proof.Machine.execMma h f s
  | .mmaSp h f => Sys2Proof.Machine.execMmaSp h f s
  | .mmaBp h f => Sys2Proof.Machine.execMmaBp h f s
  | .vldAcc h f => Sys2Proof.Machine.execVldAcc h f s
  | .vstAcc h f => Sys2Proof.Machine.execVstAcc h f s
  | .tmark h f => Sys2Proof.Machine.execTmark h f s
  | .kat h f => Sys2Proof.Machine.execKat h f s
  | .katcmp h x => Sys2Proof.Machine.execKatcmp h x s
  | .accOut h f => Sys2Proof.Machine.execAccOut h f s
  | .mprio h f => Sys2Proof.Machine.execMprio h f s
  | .tmask h f => Sys2Proof.Machine.execTmask h f s
  | .smxMax h f => Sys2Proof.Machine.execSmxMax h f s
  | .smxExp h f => Sys2Proof.Machine.execSmxExp h f s
  | .smxResc h f => Sys2Proof.Machine.execSmxResc h f s
  | .smxMerge h f => Sys2Proof.Machine.execSmxMerge h f s
  | .linFeat h f => Sys2Proof.Machine.execLinFeat h f s
  | .linPart h f => Sys2Proof.Machine.execLinPart h f s
  | .rope h f => Sys2Proof.Machine.execRope h f s
  | .vrms h f => Sys2Proof.Machine.execVrms h f s
  | .argmax h f => Sys2Proof.Machine.execArgmax h f s
  | .topk h f => Sys2Proof.Machine.execTopk h f s
  | .topkMrg h f => Sys2Proof.Machine.execTopkMrg h f s
  | .topkRd h f => Sys2Proof.Machine.execTopkRd h f s
  | .smpCfg h f => Sys2Proof.Machine.execSmpCfg h f s
  | .smpDraw h f => Sys2Proof.Machine.execSmpDraw h f s
  | .smpAcc h f => Sys2Proof.Machine.execSmpAcc h f s
  | .rng h f => Sys2Proof.Machine.execRng h f s
  | .apxBeg h f => Sys2Proof.Machine.execApxBeg h f s
  | .apxEnd h x => Sys2Proof.Machine.execApxEnd h x s
  | .trapN h f => Sys2Proof.Machine.execTrap h f s
  | .eret h x => Sys2Proof.Machine.execEret h x s
  | .ctxSwap h f => Sys2Proof.Machine.execCtxSwap h f s
  | .ctxSave h f => Sys2Proof.Machine.execCtxSave h f s
  | .ctxLoad h f => Sys2Proof.Machine.execCtxLoad h f s
  | .halt h x => Sys2Proof.Machine.execHalt h x s
  | .brk h f => Sys2Proof.Machine.execBrk h f s
  | .wfe h f => Sys2Proof.Machine.execWfe h f s
  | .tlbInv h f => Sys2Proof.Machine.execTlbInv h f s
  | .pwrReq h f => Sys2Proof.Machine.execPwrReq h f s
  | .mchkAck h f => Sys2Proof.Machine.execMchkAck h f s
  | .hintPf h x => Sys2Proof.Machine.execHintPf h x s
  | .hintHot h x => Sys2Proof.Machine.execHintHot h x s
  | .hintLoop h x => Sys2Proof.Machine.execHintLoop h x s
  | .unassignedOpcode w => Sys2Proof.Machine.execUnassignedOpcode w s
  | .undefinedHint w => Sys2Proof.Machine.execUndefinedHint w s
  | .kvPutProvisional h f => Sys2Proof.Machine.execKvPutProvisional h f s
  | .packetDecode => Sys2Proof.Machine.execPacketDecode s
  | .queueDispatch w => Sys2Proof.Machine.execQueueDispatch w s
  | .queueWordRetire w q => Sys2Proof.Machine.execQueueWordRetire w q s
  | .tokenPush w => Sys2Proof.Machine.execTokenPush w s
  | .beltDrop w => Sys2Proof.Machine.execBeltDrop w s
  | .postedStorePerform w => Sys2Proof.Machine.execPostedStorePerform w s
  | .homeSliceFill line => Sys2Proof.Machine.execHomeSliceFill line s
  | .homeWriteThrough line => Sys2Proof.Machine.execHomeWriteThrough line s
  | .patrolScrubRead line => Sys2Proof.Machine.execPatrolScrubRead line s
  | .ltTick t => Sys2Proof.Machine.execLtTick t s
  | .hostSnoop line => Sys2Proof.Machine.execHostSnoop line s
  | .hostSnoopResponse line data => Sys2Proof.Machine.execHostSnoopResponse line data s
  | .hostCxlMemWrite line mask data => Sys2Proof.Machine.execHostCxlMemWrite line mask data s
  | .hostCxlMemRead line => Sys2Proof.Machine.execHostCxlMemRead line s
  | .backInvalidationResponse line => Sys2Proof.Machine.execBackInvalidationResponse line s
  | .backInvalidationTimeout line => Sys2Proof.Machine.execBackInvalidationTimeout line s
  | .migrationCountWindow => Sys2Proof.Machine.execMigrationCountWindow s
  | .migrationCommit id => Sys2Proof.Machine.execMigrationCommit id s
  | .shootDown t id => Sys2Proof.Machine.execShootDown t id s
  | .shootDownAck t id => Sys2Proof.Machine.execShootDownAck t id s
  | .migrationPublish id => Sys2Proof.Machine.execMigrationPublish id s
  | .pageWalkDone w => Sys2Proof.Machine.execPageWalkDone w s
  | .pageInComplete ok => Sys2Proof.Machine.execPageInComplete ok s
  | .copyEntryRelease t ch => Sys2Proof.Machine.execCopyEntryRelease t ch s
  | .copyEntryComplete t ch k => Sys2Proof.Machine.execCopyEntryComplete t ch k s
  | .matrixChunkFold w => Sys2Proof.Machine.execMatrixChunkFold w s
  | .accUncorrectableError w z operand => Sys2Proof.Machine.execAccUncorrectableError w z operand s
  | .pimRowComplete w => Sys2Proof.Machine.execPimRowComplete w s
  | .grant c k => Sys2Proof.Machine.execGrant c k s
  | .pwrWindowExpiry w => Sys2Proof.Machine.execPwrWindowExpiry w s
  | .smpRequestServe w => Sys2Proof.Machine.execSmpRequestServe w s
  | .topkRdPush w => Sys2Proof.Machine.execTopkRdPush w s
  | .kvHiddenLanding t => Sys2Proof.Machine.execKvHiddenLanding t s
  | .kvCommitResume w => Sys2Proof.Machine.execKvCommitResume w s
  | .kvPressPublish w => Sys2Proof.Machine.execKvPressPublish w s
  | .kvFoldPublish w => Sys2Proof.Machine.execKvFoldPublish w s
  | .kvGetComplete w => Sys2Proof.Machine.execKvGetComplete w s
  | .qzCommandComplete t => Sys2Proof.Machine.execQzCommandComplete t s
  | .collArrival w => Sys2Proof.Machine.execCollArrival w s
  | .collTimeout w => Sys2Proof.Machine.execCollTimeout w s
  | .apxTrainDone c k => Sys2Proof.Machine.execApxTrainDone c k s
  | .apxSubstituteResult w => Sys2Proof.Machine.execApxSubstituteResult w s
  | .apxSubstituteWithdraw w => Sys2Proof.Machine.execApxSubstituteWithdraw w s
  | .timerExpiry w => Sys2Proof.Machine.execTimerExpiry w s
  | .interruptEntry w => Sys2Proof.Machine.execInterruptEntry w s
  | .trapEntry w => Sys2Proof.Machine.execTrapEntry w s
  | .hostTailWrite q tail => Sys2Proof.Machine.execHostTailWrite q tail s
  | .queueEnWrite q flags => Sys2Proof.Machine.execQueueEnWrite q flags s
  | .kickParse q => Sys2Proof.Machine.execKickParse q s
  | .renameCopyHome k => Sys2Proof.Machine.execRenameCopyHome k s
  | .controlEval n => Sys2Proof.Machine.execControlEval n s
  | .bankNodeExec n => Sys2Proof.Machine.execBankNodeExec n s
  | .sampleNodeExec n => Sys2Proof.Machine.execSampleNodeExec n s
  | .hostsigNodeExec n => Sys2Proof.Machine.execHostsigNodeExec n s
  | .triggerFire k => Sys2Proof.Machine.execTriggerFire k s
  | .placeInstance w => Sys2Proof.Machine.execPlaceInstance w s
  | .preempt w => Sys2Proof.Machine.execPreempt w s
  | .schedCoreFailover => Sys2Proof.Machine.execSchedCoreFailover s
  | .heartbeatSend t => Sys2Proof.Machine.execHeartbeatSend t s
  | .heartbeat t d flit => Sys2Proof.Machine.execHeartbeat t d flit s
  | .periodEndJudgement t => Sys2Proof.Machine.execPeriodEndJudgement t s
  | .accuse t flit => Sys2Proof.Machine.execAccuse t flit s
  | .withdraw t flit => Sys2Proof.Machine.execWithdraw t flit s
  | .accusationExpiry t subj src => Sys2Proof.Machine.execAccusationExpiry t subj src s
  | .fenceNotice dst flit => Sys2Proof.Machine.execFenceNotice dst flit s
  | .fenceRemap t => Sys2Proof.Machine.execFenceRemap t s
  | .fenceReceived t => Sys2Proof.Machine.execFenceReceived t s
  | .selfTestDone t pass => Sys2Proof.Machine.execSelfTestDone t pass s
  | .appeal t flit => Sys2Proof.Machine.execAppeal t flit s
  | .readmit t flit => Sys2Proof.Machine.execReadmit t flit s
  | .retire t flit => Sys2Proof.Machine.execRetire t flit s
  | .lockstepMismatch w lead trail => Sys2Proof.Machine.execLockstepMismatch w lead trail s
  | .monitorEvent id reading => Sys2Proof.Machine.execMonitorEvent id reading s
  | .monstRead w c d => Sys2Proof.Machine.execMonstRead w c d s
  | .thermalThrottle c => Sys2Proof.Machine.execThermalThrottle c s
  | .thermalRelease c => Sys2Proof.Machine.execThermalRelease c s
  | .thermalTrip => Sys2Proof.Machine.execThermalTrip s
  | .deviceReset => Sys2Proof.Machine.execDeviceReset s
  | .functionLevelReset => Sys2Proof.Machine.execFunctionLevelReset s
  | .d3hotEntry => Sys2Proof.Machine.execD3hotEntry s
  | .d0Return => Sys2Proof.Machine.execD0Return s
  | .pairLinkLost => Sys2Proof.Machine.execPairLinkLost s
  | .getVersion => Sys2Proof.Machine.execGetVersion s
  | .getCapabilities => Sys2Proof.Machine.execGetCapabilities s
  | .negotiateAlgorithms => Sys2Proof.Machine.execNegotiateAlgorithms s
  | .getDigests => Sys2Proof.Machine.execGetDigests s
  | .getCertificate slot => Sys2Proof.Machine.execGetCertificate slot s
  | .challenge nonce => Sys2Proof.Machine.execChallenge nonce s
  | .getMeasurements index => Sys2Proof.Machine.execGetMeasurements index s
  | .resync mb buf => Sys2Proof.Machine.execResync mb buf s
  | .pageMap mb leaf pte => Sys2Proof.Machine.execPageMap mb leaf pte s
  | .pageRemap mb leaf pte => Sys2Proof.Machine.execPageRemap mb leaf pte s
  | .pageUnmap mb leaf => Sys2Proof.Machine.execPageUnmap mb leaf s
  | .collapseReplicas mb leaf => Sys2Proof.Machine.execCollapseReplicas mb leaf s
  | .sramProtectionMode mb t bankCode => Sys2Proof.Machine.execSramProtectionMode mb t bankCode s
  | .markBankFailed mb t bank => Sys2Proof.Machine.execMarkBankFailed mb t bank s
  | .kvResidentReservation mb t ways => Sys2Proof.Machine.execKvResidentReservation mb t ways s
  | .tileTimerPeriod mb t period => Sys2Proof.Machine.execTileTimerPeriod mb t period s
  | .triggerEntry mb k tr => Sys2Proof.Machine.execTriggerEntry mb k tr s
  | .governorBudgets mb c k b => Sys2Proof.Machine.execGovernorBudgets mb c k b s
  | .readmitTile mb t => Sys2Proof.Machine.execReadmitTile mb t s
  | .keepFenced mb t => Sys2Proof.Machine.execKeepFenced mb t s
  | .postKatTask mb t node q => Sys2Proof.Machine.execPostKatTask mb t node q s
  | .coreReloadSelftest mb pass => Sys2Proof.Machine.execCoreReloadSelftest mb pass s
  | .resumeContext mb w => Sys2Proof.Machine.execResumeContext mb w s
  | .discardContext mb w => Sys2Proof.Machine.execDiscardContext mb w s
  | .discardImage mb pa => Sys2Proof.Machine.execDiscardImage mb pa s
  | .pairLinkRetrain mb => Sys2Proof.Machine.execPairLinkRetrain mb s
  | .imageLoad mb img => Sys2Proof.Machine.execImageLoad mb img s
  | .errinjWrite t v => Sys2Proof.Machine.execErrinjWrite t v s
  | .hbcfgWrite w v => Sys2Proof.Machine.execHbcfgWrite w v s
  | .spquotaWrite w v => Sys2Proof.Machine.execSpquotaWrite w v s
  | .trapvecWrite w v => Sys2Proof.Machine.execTrapvecWrite w v s
  | .leaseWrite w v => Sys2Proof.Machine.execLeaseWrite w v s
  | .qslipWrite w v => Sys2Proof.Machine.execQslipWrite w v s
  | .ptrootWrite w v => Sys2Proof.Machine.execPtrootWrite w v s
  | .apxsampWrite w v => Sys2Proof.Machine.execApxsampWrite w v s
  | .registerWrite w r v => Sys2Proof.Machine.execRegisterWrite w r v s
  | .evtWaitWake w => Sys2Proof.Machine.execEvtWaitWake w s
  | .wfeWake w => Sys2Proof.Machine.execWfeWake w s
  | .shadowSwapDone w => Sys2Proof.Machine.execShadowSwapDone w s
  | .pairLinkTrained => Sys2Proof.Machine.execPairLinkTrained s
  | .partnerAccessArrival line mask data => Sys2Proof.Machine.execPartnerAccessArrival line mask data s
  | .pairAcknowledgement w => Sys2Proof.Machine.execPairAcknowledgement w s
  | .lockstepSignatureMatch w => Sys2Proof.Machine.execLockstepSignatureMatch w s
  | .d3hotRunLimitExpiry => Sys2Proof.Machine.execD3hotRunLimitExpiry s
  | .powerRemoval => Sys2Proof.Machine.execPowerRemoval s

end Sys2Proof.Machine
end

