-- ==== Sys2Proof/Machine/Run.lean ====
section
/-! DEFINITION. What moves: a front end, the head of a queue, a pair, a replay, an event, an eviction; and what happens when the
schedule names nothing (R26, R29, R35, R43, R126, R130, R190, R270; log 2). -/
namespace Sys2Proof.Machine

/-- The meaning of a word for a context. -/
def runWord (w : Who) (word : BitVec 48) (s : State) : Out := exec (decodeWord word) { s with cur := w }

/-! ## The C queue: pairs and replays -/

/-- The pair at the head of the C queue. -/
def pairAtHead (b : Bank) : Option (Entry × Entry) :=
  match b.q.c with
  | a :: c :: _ => if c.co && !a.co then some (a, c) else none
  | _ => none

def setPhase (w : Who) (p : PairPhase) (s : State) : State := s.modBank w fun b => b.modC fun c => { c with phase := p, stopped := none }

/-- A pair does not issue: neither word has any effect (R29). -/
def stopPair (old cycle tried : State) (w : Who) (e : Entry) (fidx : Nat) : CStop → State
  | .freeze => (keepAsked w old tried).markC w
  | .hold => (keepAsked w cycle tried).endCycle w
  | .trap c i => (old.modBank w fun b => (b.popAt 0).popAt 1).raiseStop w (.trap c i) 2 fidx e.pc (old.bank w).f.pc
  | .mcheck c i l a => (old.modBank w fun b => (b.popAt 0).popAt 1).raiseStop w (.mcheck c i l a) 2 fidx e.pc (old.bank w).f.pc

/-- Both words of the pair find the tokens that they pop (R29). -/
def Bank.pairPops (b : Bank) (a c : Entry) : Bool :=
  let pop (x : Queues) (e : Entry) : Option Queues := if e.popped then some x else x.pop .c (tkOf e.word)
  ((pop b.q a).bind fun x => pop x c).isSome

/-- The stop of the first word that is to be taken, where one is: a freeze of either word comes before everything else (R29). -/
def pairStop (x y : Option CStop) : Option (CStop × Bool) :=
  match x, y with
  | some .freeze, _ => some (.freeze, false)
  | _, some .freeze => some (.freeze, true)
  | some z, _ => some (z, false)
  | none, some z => some (z, true)
  | none, none => none

/-- Both words of a pair issue in one C-cycle, or neither does (R29). -/
def pairIssue (w : Who) (a c : Entry) (s : State) : Out :=
  let s := s.claimEngine w
  let b := s.bank w
  if a.pf ≠ 0 then runWord w a.word s
  else if c.pf ≠ 0 then
    let s := s.modBank w fun b => { b with q := { b.q with c := b.q.c.mapIdx fun i e => if i = 1 then { e with pf := 0, pfInfo := 0 } else e } }
    .next (s.raise w
      { cls := if c.pf.toNat < 0xC0 then 1 else 3, code := c.pf, info := c.pfInfo, fq := 2, fidx := 1, fpc := c.pc, pc := b.f.pc, time := s.now })
  else if s.cFrozen w || !b.pairPops a c then .next (s.markC w)
  else if b.c.vhold > 0 || b.c.accOut.isSome || (b.c.draining && cBusy b) then .next (s.cIdle w)
  else if replayFirst b a then .next (s.markC w)
  else
    let t := s.cTick w
    andThen (runWord w a.word (setPhase w .first t)) fun t1 =>
      let x := (t1.bank w).c.stopped
      let u := match x with
        | none => t1
        | some _ => (keepAsked w t t1).modBank w fun b => { b with q := { b.q with c := b.q.c.tail } }
      andThen (runWord w c.word (setPhase w .second u)) fun t2 =>
        match pairStop x (t2.bank w).c.stopped with
        | none => .next ((setPhase w .alone t2).endCycle w)
        | some (z, second) => .next (stopPair s t t2 w (if second then c else a) (b2n second) z)

/-- C-cycles for which an entry holds before it issues, to read its AUX lines (R257). -/
def auxHold (b : Bank) (e : Entry) : Nat :=
  let r : MatRun := { word := e.word, da := e.s 0, db := e.s 1 }
  if 0xA4 ≤ (opOf e.word).toNat && (opOf e.word).toNat ≤ 0xA6 && e.guard && !e.skip && matUsesAux r (b.tileZ r.ft.z) then
    (linesOf (descAux r.db) (matBytesAux r)).length
  else 0

/-- A replay puts its next entries at the head of the C queue when the C-cycle of their issue, or of the reads before it, has come; none
otherwise (R270). -/
def State.replayHead (s : State) (w : Who) : Option State :=
  match (s.bank w).c.window with
  | none => none
  | some x =>
    match x.replaying, x.left with
    | true, l :: ls =>
      let due := x.left.length = x.entries.length || l.1 ≤ (s.bank w).c.cc - x.start + auxHold (s.bank w) l.2
      let there := ((s.bank w).q.c.head?.map (·.pos)) == some l.2.pos
      if there then none
      else if due then
        let second := (ls.takeWhile fun y => y.1 = l.1 && y.2.co).take 1
        some (s.modBank w fun b => { b with q := { b.q with c := l.2 :: (second.map (·.2) ++ b.q.c) } })
      else some (s.cIdle w)
    | _, _ => none

/-- A queue stands while a trap is being taken: the C queue, the queue that raised it, and one whose head holds a fault (R376). -/
def stands (s : State) (w : Who) (q : QName) : Bool :=
  (s.ctx w).status == .trapping &&
    (q == .c || ((s.bank w).trap.map (·.fq)) == some (fqOf q) || (((s.bank w).q.get q).head?.map fun e => e.pf != 0).getD false)

/-- The head of a queue issues. -/
def issueMove (w : Who) (q : QName) (s : State) : Out :=
  if !isActive' s w || stands s w q then .next s
  else
    let s := if q == .c then (s.replayHead w).getD s else s
    let o :=
      match if q == .c then pairAtHead (s.bank w) else none with
      | some (a, c) => pairIssue w a c s
      | none =>
        match (s.bank w).q.get q with
        | [] => .next s
        | e :: _ => runWord w e.word s
    andThen o fun s => .next (s.settleTrap w)

/-! ## The front end -/

/-- The front end of a context: an interrupt that is due is taken, a pre-emption begins, or its word goes on: it enters a packet
where it must, and its word executes or dispatches; a word that dispatches into an empty queue issues at once (R26, R43, R375). -/
def frontMove (w : Who) (s : State) : Out :=
  andThen (execTimerExpiry w s) fun s =>
  if irqDue s w then .next (s.takeIrq w)
  else
    let s := s.beginPreempt w
    if !isRunning s w || (s.bank w).f.wait == .sleep then .next s
    else
      let s := s.enterPacket w
      match frontWord (s.bank w) with
      | none => .next s
      | some word =>
        let i := decodeWord word
        let s := s.modBank w fun b => b.modF fun f => { f with wait := .none }
        match queueOf i with
        | none => if s.regionStops w then .next (s.frontWaits w .other) else exec i { s with cur := w }
        | some q =>
          let empty := ((s.bank w).q.get q).isEmpty
          if empty && !pairsNext (s.bank w) then
            match s.apxGate w word with
            | some s => .next s
            | none => if s.regionStops w then .next (s.frontWaits w .other) else exec i { s with cur := w }
          else
            let s := s.gatedDispatch w
            if empty && isRunning s w then issueMove w q s else .next s

/-! ## When the schedule is empty (log 2) -/

/-- The oldest posted store is performed; a line that its home slice does not hold is filled first. -/
def storePump (w : Who) (s : State) : Out :=
  andThen (execPostedStorePerform w s) fun s =>
    match (s.bank w).posted with
    | p :: _ => if p.waitFill then execHomeSliceFill (BitVec.ofNat 46 (p.pa.toNat / 64)) s else .next s
    | [] => .next s

/-- Events that may be due for a context and its tile; each has no effect when it is not due. -/
def pumps (w : Who) (s : State) : List (State → Out) :=
  let t := Who.tile w
  let c := Tid.cluster t
  [storePump w, execPageWalkDone w, execTokenPush w, execPimRowComplete w, execSmpRequestServe w, execTopkRdPush w, execKvHiddenLanding t,
    execKvCommitResume w, execKvPressPublish w, execKvFoldPublish w, execKvGetComplete w, execQzCommandComplete t, execCollArrival w,
    execApxSubstituteResult w, execEvtWaitWake w, execWfeWake w, execPwrWindowExpiry w, execLockstepSignatureMatch w, fun s => .next s.takeOver] ++
    ((List.finRange 5).map fun k => execGrant c k) ++ ((List.finRange 16).map fun k => execApxTrainDone c k) ++
    (List.finRange 8).flatMap fun k =>
      [execCopyEntryRelease t k] ++ ((s.tile t).chans.get k).fly.map fun e => execCopyEntryComplete t k e.idx

/-- Waiting heads and the front end are tried again. -/
def clearWaits (w : Who) (s : State) : State :=
  s.modBank w fun b =>
    let un (es : List Entry) : List Entry := es.map fun e => { e with waits := false }
    { b with
      q := { b.q with l := un b.q.l, c := un b.q.c, s := un b.q.s }
      f := { b.f with wait := if b.f.wait = .walk || b.f.wait = .sleep then b.f.wait else .none } }

/-- The head of a queue is there and has not been tried in vain. -/
def headReady (s : State) (w : Who) (q : QName) : Bool :=
  (((s.bank w).q.get q).head?.map fun e => !e.waits).getD (q == .c && replaying (s.bank w)) && !stands s w q

def canRetire (s : State) (w : Who) (q : QName) : Bool := (s.toRetire w q).isSome

/-- Nothing could move: engines go on, waits end, and in a drain a C-cycle passes. -/
def idleMove (w : Who) (s : State) : Out :=
  let s := if isRunning s w && mayIdle (s.bank w) then s.cIdle w else s
  andThen (runAll (pumps w s) s) fun s => .next (clearWaits w s)

/-- The tile in whose logic an event takes place; none for one of the hub, of a home slice's memory, of firmware or of the mesh. -/
def eventTile : Instr → Option Tid
  | .queueDispatch w | .queueWordRetire w _ | .tokenPush w | .beltDrop w | .postedStorePerform w | .pageWalkDone w | .matrixChunkFold w
  | .accUncorrectableError w _ _ | .pimRowComplete w | .topkRdPush w | .kvCommitResume w | .kvPressPublish w | .kvFoldPublish w | .kvGetComplete w
  | .collArrival w | .apxSubstituteResult w | .timerExpiry w | .interruptEntry w | .trapEntry w | .preempt w | .evtWaitWake w | .wfeWake w
  | .shadowSwapDone w | .pairAcknowledgement w => some (Who.tile w)
  | .shootDown t _ | .shootDownAck t _ | .copyEntryRelease t _ | .copyEntryComplete t _ _ | .kvHiddenLanding t | .qzCommandComplete t
  | .heartbeat t _ _ | .accuse t _ | .withdraw t _ | .fenceReceived t | .selfTestDone t _ | .appeal t _ | .readmit t _ | .retire t _ => some t
  | .fenceNotice t _ => t
  | _ => none

/-- The tile in whose logic a move takes place. -/
def moveTile : What → Option Tid
  | .front w | .issue w _ => some (Who.tile w)
  | .event i => eventTile i
  | .evictL1 t _ | .evictTlb t | .qzRow t => some t
  | .evictHome _ | .flip _ _ | .powerGood _ | .takeOver | .coreError _ _ _ | .clockMonitor _ _ | .stall _ _ | .traffic _ _ _ | .partnerWrite _ _ _ => none

/-- Nothing moves in a stalled tile (R456). -/
def stallsTile (s : State) (t : Option Tid) : Bool := t.any fun t => (s.tile t).stalled

def defaultMove (w : Who) (s : State) : Out :=
  if stallsTile s (some (Who.tile w)) then .next s else
  andThen (if (s.now + w.val) % 31 = 0 then runAll (pumps w s) s else .next s) fun s =>
  let b := s.bank w
  match (s.ctx w).status with
  | .running =>
    if canRetire s w .l then execQueueWordRetire w .l s
    else if canRetire s w .s then execQueueWordRetire w .s s
    else if headReady s w .l then issueMove w .l s
    else if headReady s w .s then issueMove w .s s
    else if headReady s w .c then issueMove w .c s
    else if b.f.wait = .none then frontMove w s
    else idleMove w s
  | .trapping =>
    if canRetire s w .l then execQueueWordRetire w .l s
    else if canRetire s w .s then execQueueWordRetire w .s s
    else if headReady s w .l then issueMove w .l s
    else if headReady s w .s then issueMove w .s s
    else andThen (runAll (pumps w s) s) fun s => .next (s.settleTrap w)
  | .swapping _ => execShadowSwapDone w s
  | .idle | .stopped | .fenced | .mirror _ => .next s

/-! ## Moves of the schedule -/

/-- What a move of the schedule does (log 2). -/
def doMove (m : What) (s : State) : Out :=
  if stallsTile s (moveTile m) then .next s else
  match m with
  | .front w => frontMove w s
  | .issue w q => issueMove w q s
  | .event i => if (encodeWord i).isSome then .next s else exec i s
  | .evictHome line => .next (s.dropLine line)
  | .evictL1 t line => .next (s.modTile t fun x => x.dropOldest line)
  | .evictTlb t => .next (s.modTile t fun x => { x with tlb1 := x.tlb1.dropLast, tlb2 := x.tlb2.dropLast })
  | .flip line p => .next (s.modHub fun h => { h with flips := kvPut h.flips line (((kvGet h.flips line).getD 0) ^^^ p) })
  | .qzRow t => .next (s.qzReadRow t)
  | .powerGood _ => .next s
  | .takeOver => .next s.takeOver
  | .stall t on => .next (s.modTile t fun x => { x with stalled := on, views := x.views.map fun v => { v with partly := v.partly || !on } })
  | .coreError k a ue => .next (s.modHub fun h =>
      { h with cores := { h.cores with imem := h.cores.imem.set k.val { errs := (a % 262144 / 8 * 8, ue) :: (h.cores.imem.get k).errs } k.isLt } })
  | .clockMonitor t ok => .next (s.modTile t fun x => { x with health := { x.health with clk := ok } })
  | .traffic t d n => .next (s.modView t d fun v => { v with flits := v.flits + n })
  | .partnerWrite line mask data =>
    .next (if spaceOf (line.toNat * 64) = .pair && s.hub.pair then (s.outsideWrite line.toNat mask.toNat data).2 else s)

/-- A command of a mailbox. -/
def runCommand (mb : Mailbox) (c : MbCommand) (s : State) : Out :=
  match c with
  | .resync buf => execResync mb buf s
  | .pageMap leaf pte => execPageMap mb leaf pte s
  | .pageRemap leaf pte => execPageRemap mb leaf pte s
  | .pageUnmap leaf => execPageUnmap mb leaf s
  | .collapseReplicas leaf => execCollapseReplicas mb leaf s
  | .sramProtectionMode t bankCode => execSramProtectionMode mb t bankCode s
  | .markBankFailed t bank => execMarkBankFailed mb t bank s
  | .kvResidentReservation t ways => execKvResidentReservation mb t ways s
  | .tileTimerPeriod t period => execTileTimerPeriod mb t period s
  | .triggerEntry k tr => execTriggerEntry mb k tr s
  | .governorBudgets c k b => execGovernorBudgets mb c k b s
  | .readmitTile t => execReadmitTile mb t s
  | .keepFenced t => execKeepFenced mb t s
  | .postKatTask t node q => execPostKatTask mb t node q s
  | .coreReloadSelftest pass => execCoreReloadSelftest mb pass s
  | .resumeContext w => execResumeContext mb w s
  | .discardContext w => execDiscardContext mb w s
  | .discardImage pa => execDiscardImage mb pa s
  | .pairLinkRetrain => execPairLinkRetrain mb s
  | .imageLoad img => execImageLoad mb img s

/-- The controller performs the mailbox command that has waited longest, once no page operation is under way (R443). -/
def serveMailbox (s : State) : Out :=
  match s.hub.mcmds with
  | [] => .next s
  | (mb, i) :: rest =>
    if s.hub.moves.any fun m => m.who.isSome then .next s
    else andThen (runCommand mb i (s.modHub fun h => { h with mcmds := [] })) fun t => .next (t.modHub fun h => { h with mcmds := h.mcmds ++ rest })

/-- The nodes that wait for a word of a line written in the move are checked again (R352). -/
def State.checkTouched (s : State) : State := s.hub.touched.foldl State.checkEvents (s.modHub fun h => { h with touched := [] })

/-- The end of every move: lines that wait for a way of their slice take one, event words are checked, what the scheduler did is
journalled, and trailing copies are told of it. -/
def State.endMove (s old : State) : State := (s.takeWays.checkTouched.journalFrom old).follow

/-- The next move of the schedule, or the default one for the current context: the tile cycles before it pass, it is made, a mailbox command
is performed, and the move ends. -/
def nextMove (s : State) : Out :=
  andThen (match s.sched with
    | m :: rest => andThen (advance m.dt { s with sched := rest }) (doMove m.what)
    | [] => andThen (advance 1 s) (defaultMove s.cur)) fun t => andThen (serveMailbox t) fun t => .next (t.endMove s)

/-- The next move of a part without power: only the return of power has an effect (R434, R440). -/
def offMove (s : State) : Out :=
  match s.sched with
  | [] => .fault .poweredOff
  | m :: rest =>
    .next (match m.what with
      | .powerGood p => { s with sched := rest }.powerGood p
      | _ => { s with sched := rest })

/-! ## A word placed for the next step -/

/-- The current context runs, at slot 0 of its PC's packet; that packet holds the one word, in the frame at physical address 0,
which the tile's TLB gives for the page; and the next move is that front end's. -/
def State.placeWord (s : State) (word : BitVec 48) : State :=
  let w := s.cur
  let pc := packetAddr (s.bank w).f.pc
  let pa := pc.toNat % 65536
  let x : TlbEntry := { asid := (s.bank w).csr.asid, vpn := BitVec.ofNat 44 (pc.toNat / 65536), level := 3, leaf := 0x11, id := 0 }
  let s := s.modCtx w fun c =>
    { c with status := .running, b := c.b.modF fun f => { f with pc, packet := none, wait := .none, waited := .none, sleep := none, walked := false } }
  let s := s.modTile (Who.tile w) fun t => { t with tlb1 := x :: t.tlb1 }
  let s := s.modHub fun h =>
    { h with
      mem := memWrite h.mem pa (leBytes (word.toNat * 2 ^ 16) 32)
      home := kvDel h.home (pa / 64)
      wtq := h.wtq.filter (·.line != pa / 64)
      flips := kvDel h.flips (pa / 64) }
  { s with sched := { dt := 1, what := .front w } :: s.sched }

end Sys2Proof.Machine
end

