-- ==== Sys2Proof/Machine/Step.lean ====
section
/-! DEFINITION. The step of the part, and the placing of one word where the next step runs it. -/
namespace Sys2Proof.Machine

/-- One step: the next move. Without power a move has no effect but the return of power, and with none left the part stays off (R434, R440). -/
def step (s : State) : Host.Outcome State Fault Refusal :=
  match s.hub.power with
  | .off => offMove s
  | .d0 | .d3entry _ | .d3hot | .recovery | .boot => nextMove s

/-- The word placed as a packet of one word at address 0 of the current context, which runs there under a resident translation. -/
def State.withFetchWord (s : State) (_nbits w : Nat) : State := s.placeWord (BitVec.ofNat 48 w)

end Sys2Proof.Machine
end

