-- ==== Sys2Proof/Safety.lean ====
section
/-! DEFINITION. What counts as a safe run, and the words in which the statements speak of one step. -/
namespace Sys2Proof.Machine

/-! ## Runs -/

/-- A step is safe when it ends in neither a fault nor a refusal. -/
def Safe (o : Host.Outcome State Fault Refusal) : Prop := ∃ t, o = .next t

/-- The 48 bits of an instruction that is a word of the instruction set. -/
def word48 (i : Instr) : BitVec 48 := (encodeWord i).getD 0

/-! ## Front-end words (R26, R31, R322) -/

/-- The bank of the context whose words `exec` runs. -/
def State.curBank (s : State) : Bank := s.bank s.cur

/-- The slot of a PC in its packet of 32 bytes (R26). -/
def pcSlot (pc : BitVec 60) : Nat := pc.toNat / 4 % 8

/-- The address of the packet that a PC lies in (R26). -/
def pcPacket (pc : BitVec 60) : BitVec 60 := BitVec.ofNat 60 (pc.toNat - pc.toNat % 32)

/-- The last slot of the packet entered: WC of its header (R24). -/
def lastSlot (f : Front) : Nat := match f.packet with
  | some (_, bytes) => bytes.toNat % 8
  | none => 4

/-- The PC of the word after the present one: the next slot, or slot 0 of the next packet (R26). -/
def followPc (f : Front) : BitVec 60 := if pcSlot f.pc < lastSlot f then f.pc + 4 else pcPacket f.pc + 32

/-- The front end after a word that falls through. -/
def fallThrough (f : Front) : Front :=
  { f with
    pc := followPc f, packet := if pcSlot f.pc < lastSlot f then f.packet else none
    wait := .none, waited := .none, sleep := none, walked := false }

/-- The front end after a word that transfers control. -/
def goTo (f : Front) (target : BitVec 60) : Front :=
  { f with pc := target, packet := none, wait := .none, waited := .none, sleep := none, walked := false }

/-- The notes of watermark waits of the front end's word are gone. -/
def waitsGone (b : Bank) : Bank := { b with wm := b.wm.filter (·.site != .front) }

/-- The state after a front-end word of the current context that leaves its bank as `b`, its waits on watermarks over: apart from that
bank, only the tile's signature, which covers the word, the note that a word was executed, and the word that a trailing copy of the
context still has to retire (R395, R409) differ from `s`. -/
def frontDone (s : State) (i : Instr) (b : Bank) : State :=
  let t := (s.setCtx s.cur { s.ctx s.cur with b := waitsGone b }).modTile (Who.tile s.cur) fun t =>
    { t with sig := BitVec.ofNat 32 (crcUpd t.sig.toNat (leBytes (word48 i).toNat 6)), fewSeen := true }
  match partnerOf s.cur with
  | none => t
  | some v =>
    if (s.ctx v).status = .mirror s.cur then t.modCtx v fun c => { c with signs := c.signs ++ [(s.now + lockDelay s.cur, word48 i)] } else t

/-- A front-end word that leaves the registers `r` and falls through. -/
def regsDone (s : State) (i : Instr) (r : Regs) : State :=
  frontDone s i { s.curBank with r, f := fallThrough s.curBank.f }

/-- The guard of a word holds in the current context (R31): p[GP] as GN asks. -/
def guardOn (h : Hdr) (s : State) : Bool := xor (s.curBank.r.preg h.gp) (h.gn == 1)

/-! ## What integer words compute (R328 to R330) -/

/-- The three-register integer words: the word's fields and the value of s[d] from s[a] and s[b] (R328). `mulh` with function 3 is
not among them. -/
def threeReg : Instr → Option (Hdr × FS × (Word → Word → Word))
  | .add h f => some (h, f, fun a b => BitVec.ofNat 64 (a.toNat + b.toNat))
  | .sub h f => some (h, f, fun a b => BitVec.ofInt 64 ((a.toNat : Int) - b.toNat))
  | .andR h f => some (h, f, fun a b => a &&& b)
  | .orR h f => some (h, f, fun a b => a ||| b)
  | .xorR h f => some (h, f, fun a b => a ^^^ b)
  | .shl h f => some (h, f, fun a b => BitVec.ofNat 64 (a.toNat * 2 ^ (b.toNat % 64)))
  | .shr h f => some (h, f, fun a b => BitVec.ofNat 64 (a.toNat / 2 ^ (b.toNat % 64)))
  | .sra h f => some (h, f, fun a b => BitVec.ofInt 64 (a.toInt / 2 ^ (b.toNat % 64)))
  | .mul h f => some (h, f, fun a b => BitVec.ofNat 64 (a.toNat * b.toNat))
  | .mulh h f =>
    if f.fn.toNat % 4 = 0 then some (h, f, fun a b => BitVec.ofInt 64 (a.toInt * b.toInt / 2 ^ 64))
    else if f.fn.toNat % 4 = 1 then some (h, f, fun a b => BitVec.ofNat 64 (a.toNat * b.toNat / 2 ^ 64))
    else if f.fn.toNat % 4 = 2 then some (h, f, fun a b => BitVec.ofInt 64 (a.toInt * b.toNat / 2 ^ 64))
    else none
  | .div h f => some (h, f, fun a b =>
      if b = 0 then BitVec.allOnes 64
      else if f.fn.getLsbD 0 then BitVec.ofNat 64 (a.toNat / b.toNat) else BitVec.ofInt 64 (a.toInt.tdiv b.toInt))
  | .rem h f => some (h, f, fun a b =>
      if b = 0 then a
      else if f.fn.getLsbD 0 then BitVec.ofNat 64 (a.toNat % b.toNat) else BitVec.ofInt 64 (a.toInt.tmod b.toInt))
  | .minmax h f => some (h, f, fun a b =>
      if f.fn.toNat % 4 = 0 then BitVec.ofInt 64 (min a.toInt b.toInt)
      else if f.fn.toNat % 4 = 1 then BitVec.ofInt 64 (max a.toInt b.toInt)
      else if f.fn.toNat % 4 = 2 then BitVec.ofNat 64 (min a.toNat b.toNat)
      else BitVec.ofNat 64 (max a.toNat b.toNat))
  | _ => none

/-- The immediate integer words: destination and its value from the registers (R329, R330). -/
def immReg : Instr → Option (Hdr × BitVec 5 × (Regs → Word))
  | .addi h f => some (h, f.d, fun r => BitVec.ofInt 64 ((r.sreg f.a).toInt + f.imm.toInt))
  | .andi h f => some (h, f.d, fun r => r.sreg f.a &&& BitVec.ofInt 64 f.imm.toInt)
  | .ori h f => some (h, f.d, fun r => r.sreg f.a ||| BitVec.ofInt 64 f.imm.toInt)
  | .xori h f => some (h, f.d, fun r => r.sreg f.a ^^^ BitVec.ofInt 64 f.imm.toInt)
  | .shli h f => some (h, f.d, fun r => BitVec.ofNat 64 ((r.sreg f.a).toNat * 2 ^ (f.imm.toNat % 64)))
  | .shri h f => some (h, f.d, fun r => BitVec.ofNat 64 ((r.sreg f.a).toNat / 2 ^ (f.imm.toNat % 64)))
  | .srai h f => some (h, f.d, fun r => BitVec.ofInt 64 ((r.sreg f.a).toInt / 2 ^ (f.imm.toNat % 64)))
  | .li h f => some (h, f.d, fun _ => BitVec.ofInt 64 f.imm.toInt)
  | .lsh h f => some (h, f.d, fun r => BitVec.ofNat 64 ((r.sreg f.d).toNat * 2 ^ 22 + f.imm.toNat))
  | _ => none

/-- What `bitop` answers by code: leading zeros, trailing zeros, ones, and the mirror image (R330). -/
def bitopSays (code : Nat) (x v : Word) : Prop :=
  match code with
  | 0 => (x = 0 ∧ v = 64) ∨ (v.toNat < 64 ∧ 2 ^ (63 - v.toNat) ≤ x.toNat ∧ x.toNat < 2 ^ (64 - v.toNat))
  | 1 => (x = 0 ∧ v = 64) ∨ (v.toNat < 64 ∧ x.toNat % 2 ^ v.toNat = 0 ∧ x.toNat / 2 ^ v.toNat % 2 = 1)
  | 2 => v.toNat = ((List.range 64).filter fun k => x.getLsbD k).length
  | _ => ∀ k, k < 64 → v.getLsbD k = x.getLsbD (63 - k)

/-- The predicate words: the predicate written and its value from the registers (R331, R332). The reserved codes of `cmp` and
`cmpi` are not among them. -/
def predReg : Instr → Option (Hdr × BitVec 5 × (Regs → Bool))
  | .cmp h f => (cond (f.fn.toNat % 8)).map fun c => (h, f.d, fun r => c (r.sreg f.a) (r.sreg f.b))
  | .cmpi h f =>
    (cond (f.imm.toNat / 2 ^ 19)).map fun c => (h, f.d, fun r => c (r.sreg f.a) (BitVec.ofInt 64 (BitVec.ofNat 19 f.imm.toNat).toInt))
  | .plog h f =>
    let p (r : Regs) := r.preg (BitVec.ofNat 3 f.a.toNat)
    let q (r : Regs) := r.preg (BitVec.ofNat 3 f.b.toNat)
    some (h, f.d, fun r => match f.fn.toNat % 8 with
      | 0 => p r && q r
      | 1 => p r || q r
      | 2 => xor (p r) (q r)
      | 3 => p r && !q r
      | 4 => p r || !q r
      | 5 => p r
      | 6 => true
      | _ => false)
  | _ => none
where
  cond : Nat → Option (Word → Word → Bool)
    | 0 => some fun a b => a == b
    | 1 => some fun a b => a != b
    | 2 => some fun a b => decide (a.toInt < b.toInt)
    | 3 => some fun a b => decide (b.toInt ≤ a.toInt)
    | 4 => some fun a b => decide (a.toNat < b.toNat)
    | 5 => some fun a b => decide (b.toNat ≤ a.toNat)
    | _ => none

/-! ## Control transfer (R39, R334 to R337) -/

/-- The target of an FB word: OFF packets from the present one, at its slot (R39). -/
def fbGoal (pc : BitVec 60) (f : FB) : BitVec 60 :=
  BitVec.ofInt 60 ((pc.toNat - pc.toNat % 32 : Nat) + f.off.toInt * 32 + 4 * f.slot.toNat)

/-- A PC in a register is legal (R334): one of the five slots of a packet, in 60 bits. -/
def legalTarget (t : Word) : Prop := t.toNat < 2 ^ 60 ∧ t.toNat % 4 = 0 ∧ t.toNat % 32 < 20

/-! ## The ends of front-end words -/

/-- A front-end word whose effect `t` holds: its signature and the next PC. -/
def wordDone (t : State) (i : Instr) : State := t.endWord t.cur (word48 i) Front.advance

/-- The guard of a front-end word, for the words that evaluate one (R31, R46, R337). -/
def feHdr : Instr → Option Hdr
  | .add h _ | .sub h _ | .andR h _ | .orR h _ | .xorR h _ | .shl h _ | .shr h _ | .sra h _ | .mul h _ | .mulh h _ | .div h _
  | .rem h _ | .minmax h _ | .bitop h _ | .bfx h _ | .bfi h _ | .cmp h _ | .plog h _ | .selR h _ | .jr h _ | .retR h _ => some h
  | .addi h _ | .andi h _ | .ori h _ | .xori h _ | .shli h _ | .shri h _ | .srai h _ | .lsh h _ | .cmpi h _ => some h
  | .li h _ | .adr h _ | .trapN h _ | .brk h _ => some h
  | .br h _ | .call h _ | .loopLc h _ | .lpbrk h _ => some h
  | .spset h _ | .spinv h _ | .spq h _ | .sptag h _ | .ld h _ | .st h _ | .fence h _ | .xfence h _ | .xlat h _ | .hfree h _
  | .hinfo h _ | .hunpin h _ | .qsync h _ | .evtWait h _ | .taskEnd h _ | .taskYield h _ | .apxInv h _ | .fop h _ => some h
  | .csrr h _ | .csrw h _ | .csrs h _ | .csrc h _ => some h
  | .eret h _ | .halt h _ => some h
  | .ctxSwap h _ | .ctxSave h _ | .ctxLoad h _ | .wfe h _ | .tlbInv h _ | .mchkAck h _ => some h
  | .pwrReq h _ => some h
  | _ => none

/-- A trap at the word of the front end: the cause and TRAPINFO, with the word's own PC (R373, R376). -/
def State.trapHere (s : State) (code : BitVec 8) (info : Word) : State :=
  s.raise s.cur
    { cls := 1, code, info, fq := 4, fidx := 0, fpc := s.curBank.f.pc, pc := s.curBank.f.pc, time := s.now }

/-- The 48 bits of a word as TRAPINFO (R373). -/
def wordAsInfo (i : Instr) : Word := (word48 i).setWidth 64

/-- The forms of front-end words that are illegal whatever the state: reserved codes and slots (R39, R135, R167, R328 to R331, R338, and R360
by log 54). -/
def illegalForm : Instr → Option Hdr
  | .mulh h f => if f.fn.toNat % 4 = 3 then some h else none
  | .bfx h f | .bfi h f => if 64 < f.fn.toNat % 64 + (f.fn.toNat / 64 % 64 + 1) then some h else none
  | .cmp h f => if 6 ≤ f.fn.toNat % 8 then some h else none
  | .cmpi h f => if 6 ≤ f.imm.toNat / 2 ^ 19 then some h else none
  | .fop h f => if 15 ≤ f.fn.toNat % 32 ∨ 4 < f.fn.toNat / 32 % 8 then some h else none
  | .br h f | .call h f | .lpbrk h f => if 4 < f.slot.toNat then some h else none
  | .ld h f => if f.fn.toNat / 2 ^ 14 = 7 then some h else none
  | .st h f => if 4 ≤ f.fn.toNat / 2 ^ 14 then some h else none
  | .evtWait h f => if 4 ≤ f.fn.toNat / 16 % 8 then some h else none
  | .spset h f =>
    if f.fn.toNat % 16 = 0 ∨ 11 ≤ f.fn.toNat % 16 ∨ 4 < f.fn.toNat / 16 % 8 then some h else none
  | _ => none

/-! ## Memory as a context sees it (R126, R132) -/

/-- The bytes of a line at its home and whether they are POISON: in the slice, else in the newest queued write-through, else as
LP6 delivers them. -/
def lineNow (s : State) (line : Nat) : BitVec 512 × Bool :=
  match kvGet s.hub.home line with
  | some x => (x.data, x.poison)
  | none =>
    match queuedLine s.hub.wtq line with
    | some x => (x.data, x.poison)
    | none => ((lp6Read s line 0 0).1, (lp6Read s line 0 0).2.1)

/-- One byte of memory at its home. -/
def byteAt (s : State) (a : Nat) : Byte := (lineNow s (a / 64)).1.extractLsb' (8 * (a % 64)) 8

/-- The line as context `w` reads it (R132, R134): a first-level copy whose lease holds, else the line at its home. A line of the pair window
is read at its home (R142). -/
def lineFor (s : State) (w : Who) (line : Nat) : BitVec 512 × Bool :=
  match kvGet (s.tile (Who.tile w)).l1 line with
  | some c =>
    if spaceOf (line * 64) ≠ .pair ∧ (s.bank w).pts ≤ c.rts ∧ s.now < c.ends then (c.data, c.poison) else lineNow s line
  | none => lineNow s line

/-- `n` bytes at address `a` of a line's data, as a number. -/
def valueIn (d : BitVec 512) (a n : Nat) : Nat := d.toNat / 2 ^ (8 * (a % 64)) % 2 ^ (8 * n)

/-- Every byte of memory reads as before. -/
def memSame (s t : State) : Prop := ∀ a, byteAt t a = byteAt s a

/-- Memory holds `bs` from address `pa`, and every byte outside reads as before. -/
def memHolds (s t : State) (pa : Nat) (bs : List Byte) : Prop :=
  ∀ a, byteAt t a = if pa ≤ a ∧ a < pa + bs.length then bs.getD (a - pa) 0 else byteAt s a

/-- A handle register lets an access of `n` bytes at `off` through (R109, R112, R135): aligned, valid and ready, in the page, with
the permissions; its frame is aligned, as every frame is (R104). -/
def accessOk (s : State) (need : Need) (k : BitVec 4) (off n : Nat) : Prop :=
  let x := s.curBank.r.hreg k
  off % n = 0 ∧ x.valid = true ∧ x.readyAt ≤ s.now ∧ off < x.bytes ∧ (need.rd = true → x.rd = true) ∧ (need.w = true → x.w = true) ∧
    x.base.toNat % 2 ^ 16 = 0

/-- The physical address of an access (R112). -/
def accessPa (s : State) (k : BitVec 4) (off : Nat) : Nat := (s.curBank.r.hreg k).base.toNat + off

/-- No injected error is armed or stands in an array of a tile (R414). -/
def arraysSound (s : State) : Prop := ∀ t : Tid, (s.tile t).sound = true

/-- The requests of the current context for the lines of [pa, pa + n) reach their homes: no remap of theirs is pending, and neither
tile holds the other fenced (R402, R405). -/
def linesOpen (s : State) (pa n : Nat) : Prop := ∀ l ∈ linesOf pa n, lineHeld s s.cur l = false

/-- The context runs no delayed lockstep (R409). -/
def noLstep (s : State) : Prop := (s.curBank.inst.map (·.lstep)).getD false = false

/-- No node waits for its event word, so that no write to memory changes the dependence table (R352). -/
def noWatch (s : State) : Prop := ∀ e ∈ s.hub.table, e.st ≠ .waitEvt

/-- Where the access of the context goes to the pair window, no engine work of it there stands before it (R157). -/
def pairClear (w : Who) (s : State) (pa : Nat) : Prop :=
  inPair pa = true → pairBefore (s.tile (Who.tile w)) w false (s.bank w).ser = false

/-- An access of the current context to memory at `pa` waits for nothing: it reaches memory that exists (R74), no store is posted,
its request reaches the home (R405), the line is not with the host (R85), no comparator holds it (R409), no waiting node
watches memory (R352), the page is not migratable (R87), no array holds an injected error (R414), and no engine access to the pair window
stands before it (R157). -/
def memReady (s : State) (k : BitVec 4) (pa : Nat) : Prop :=
  reaches s pa = true ∧ s.curBank.posted = [] ∧ lineHeld s s.cur (pa / 64) = false ∧ s.hub.filter.contains (pa / 64) = false ∧
    noLstep s ∧ noWatch s ∧ (s.curBank.r.hreg k).mig = false ∧ arraysSound s ∧ pairClear s.cur s pa

/-- No watermark of the context holds an access of `n` bytes at `off` (R152). -/
def noWatermark (s : State) (k : BitVec 4) (off n : Nat) : Prop :=
  watermarkHolds (s.tile (Who.tile s.cur)) (Who.ctx s.cur) true ((s.curBank.r.hreg k).va.toNat + off) n = false

/-- The offset of an `ld` or `st` (R135): s[b] plus the signed 14-bit displacement, modulo 2^64. -/
def offsetOf (s : State) (f : FS) : Nat :=
  (s.curBank.r.sreg f.b + BitVec.ofInt 64 (BitVec.ofNat 14 f.fn.toNat).toInt).toNat

/-- A loaded value by SZ (R135): zero-extended, or sign-extended for SZ 4 to 6. -/
def loaded (sz v : Nat) : Word :=
  match sz with
  | 4 => (BitVec.ofNat 8 v).signExtend 64
  | 5 => (BitVec.ofNat 16 v).signExtend 64
  | 6 => (BitVec.ofNat 32 v).signExtend 64
  | _ => BitVec.ofNat 64 v

/-- The bank `b` with registers, flags and front end given, at the logical time of `c` and aware of the host writes that `c` has seen;
the instance no longer abortable when `ends` (R123). -/
def bankWith (b c : Bank) (r : Regs) (fl : BitVec 6) (f : Front) (ends : Bool) : Bank :=
  { waitsGone b with
    r, f, pts := c.pts, hostSeen := c.hostSeen, csr := { b.csr with fpflags := b.csr.fpflags ||| fl }
    inst := if ends then b.inst.map fun i => { i with abt := false } else b.inst }

/-- An atomic word of `n` bytes at `pa` completes (R137, R362): the registers become `r`, FPFLAGS gain `fl`, memory holds `v`, and
nothing else of the context changes but its logical time and what it knows of host writes. -/
def atomicDone (i : Instr) (s : State) (pa n v : Nat) (r : Regs) (fl : BitVec 6) : Prop :=
  ∃ t, exec i s = .next t ∧ memHolds s t pa (leBytes v n) ∧ s.curBank.pts ≤ t.curBank.pts ∧
    t.curBank = bankWith s.curBank t.curBank r fl (fallThrough s.curBank.f) true

/-! ## Quiet contexts -/

/-- Every queue of the current context has retired its words, and no store is posted. -/
def quietNow (s : State) : Prop := (∀ q, queueBusy s.curBank q = false) ∧ s.curBank.posted = []

/-- The context is idle of C words in progress and of words issued and not retired, and no store is posted. -/
def swapReady (s : State) : Prop := queueBusy s.curBank .c = false ∧ inProgress s.curBank = false ∧ s.curBank.posted = []

/-! ## Frames and queue words -/

/-- The `n` bytes at offset `o` of a list of bytes, as a little-endian number (R1). -/
def fieldAt (bs : List Byte) (o n : Nat) : Nat := leNat ((bs.drop o).take n)

/-- Word `i` stands as entry `e` at the head of queue `q` of the current context, with no fault pending and its tokens there. -/
def headOf (q : QName) (i : Instr) (e : Entry) (s : State) : Prop :=
  (∃ es, s.curBank.q.get q = e :: es) ∧ e.word = word48 i ∧ e.pf = 0 ∧
    (e.popped = true ∨ (s.curBank.q.pop q (tkOf e.word)).isSome = true)

/-- The entry is to run: its guard was true at dispatch and it is not marked to be skipped (R32, R384). -/
def entryRuns (e : Entry) : Prop := e.guard = true ∧ e.skip = false

/-- The state in which the head of an L or S queue runs: its tokens are popped, once (R33). -/
def lsStart (q : QName) (e : Entry) (s : State) : State :=
  (s.modBank s.cur fun b => { b with q := if e.popped then b.q else (b.q.pop q (tkOf e.word)).getD b.q }).modHeadS s.cur q
    fun e => { e with popped := true }

/-- The head of an L or S queue has issued in state `t`: it leaves the queue and is in flight, its work done or not (R35). -/
def lsIssued (w : Who) (q : QName) (e : Entry) (done : Bool) (t : State) : State := t.takeHead w q e done

/-- The repeats of a run-length word one after the other, each noted when it is done; none when one of them stops (R40, R41). -/
def repeatsRun (q : QName) (body : Nat → M Unit) (w : Who) : List Nat → State → Option State
  | [], s => some s
  | j :: js, s => match (body j).run.run s with
    | (.ok _, t) => repeatsRun q body w js ((t.modBank w fun b => b.clearWm (siteOf q)).modHeadS w q fun e => { e with mpc := j + 1 })
    | (.error _, _) => none

/-- A computation answers `a` from state `s` and leaves `t`. -/
def answers {α : Type} (m : M α) (s : State) (a : α) (t : State) : Prop := m.run.run s = (.ok a, t)

/-- Word `i` heads its L or S queue, is to run, and no store of its context is posted. -/
def lsReady (q : QName) (i : Instr) (e : Entry) (s : State) : Prop := headOf q i e s ∧ entryRuns e ∧ s.curBank.posted = []

/-- The captured handle copy `k` of an entry lets an access of `n` bytes at `off` through (R112); its frame is aligned (R104) and its
page is not migratable (R87). -/
def copyOk (e : Entry) (k : Nat) (need : Need) (off n : Nat) : Prop :=
  let x := (e.handle k).2
  x.valid = true ∧ off < x.bytes ∧ off + n - 1 < x.bytes ∧ (need.rd = true → x.rd = true) ∧ (need.w = true → x.w = true) ∧
    x.base.toNat % 2 ^ 16 = 0 ∧ x.mig = false

/-- The physical address of an access by a captured copy. -/
def copyPa (e : Entry) (k off : Nat) : Nat := (e.handle k).2.base.toNat + off

/-- An access of the current context to [pa, pa + n) waits for nothing (R74, R85, R157, R352, R405, R409, R414). -/
def memClear (s : State) (pa n : Nat) : Prop :=
  (∀ i, i < n → reaches s (pa + i) = true) ∧ s.curBank.posted = [] ∧ linesOpen s pa n ∧ s.hub.filter = [] ∧ noLstep s ∧ noWatch s ∧
    arraysSound s ∧ pairClear s.cur s pa

/-- One byte of the scratchpad of the current context's tile. -/
def spByte (s : State) (a : Nat) : Byte := memGet (s.tile (Who.tile s.cur)).sp a

/-- The scratchpad of the current tile holds `bs` from address `a`, and every byte outside reads as before. -/
def spHolds (s t : State) (a : Nat) (bs : List Byte) : Prop :=
  ∀ x, memGet (t.tile (Who.tile s.cur)).sp x = if a ≤ x ∧ x < a + bs.length then bs.getD (x - a) 0 else spByte s x

/-- Context `w` may access [a, a + n) of the scratchpad without a trap, a wait, a discarded slot or an array error (R152, R153, R160,
R163). -/
def spReadyAt (w : Who) (s : State) (a n : Nat) : Prop :=
  let t := s.tile (Who.tile w)
  checkSpFail t (s.bank w) a n none none = none ∧ watermarkHolds t (Who.ctx w) false a n = false ∧
    engineHolds t (s.bank w) w .l a n = false ∧ engineHolds t (s.bank w) w .s a n = false ∧ t.bad = [] ∧
    t.sound = true ∧ t.sp.wf = true ∧ ∀ k ∈ slotsOf a n, (t.tag k).x = false ∧ (t.tag k).p = false

/-- The same of the current context. -/
def spReady (s : State) (a n : Nat) : Prop := spReadyAt s.cur s a n

/-- A repeat that moves lines between offset `m` of its page and scratchpad address `sj` can run: both aligned, the page and the quota
hold them, and nothing holds the access (R112, R152, R153, R171). -/
def moveReady (e : Entry) (f : FM) (need : Need) (s : State) (m : Nat) (sj : Int) : Prop :=
  m % 64 = 0 ∧ copyOk e 0 need m (fmBytes f) ∧ memClear s (copyPa e 0 m) (fmBytes f) ∧
    watermarkHolds (s.tile (Who.tile s.cur)) (Who.ctx s.cur) true (vaOf (e.handle 0).2 m) (fmBytes f) = false ∧
    ∃ a : Nat, sj = a ∧ a % 64 = 0 ∧ spReady s a (fmBytes f)

/-- The scratchpad address of the index of repeat `j` of a gather or scatter, and the index there (R172, R315). -/
def indexAddr (e : Entry) (j : Nat) : Nat := (e.s 3).toNat % 2 ^ 32 + 4 * j
def indexNow (s : State) (e : Entry) (j : Nat) : Nat := leNat (memRead (s.tile (Who.tile s.cur)).sp (indexAddr e j) 4)

/-- The index of repeat `j` can be read: aligned, in the quota, in a slot of format IDX where it is valid (R172). -/
def indexReady (e : Entry) (s : State) (j : Nat) : Prop :=
  indexAddr e j % 4 = 0 ∧ spReady s (indexAddr e j) 4 ∧
    checkSpFail (s.tile (Who.tile s.cur)) s.curBank (indexAddr e j) 4 none (some 10) = none

/-- The scratchpad address that repeat `j` of a gather or scatter names. -/
def packedSpad (e : Entry) (f : FM) (j : Nat) : Nat := (e.s 1).toNat + j * fmBytes f

/-- The bytes of the scratchpad that a repeat of a tile word names: its lines, or a slot in a layout (R172). -/
def tileBytesOf (f : FM) : Nat := if tileCv f = 0 then fmBytes f else 4096

/-- Repeat `j` of a tile word can run (R172, R315): its form is legal, its rows and its part of the scratchpad are within reach, and
nothing holds them. -/
def tileReady (e : Entry) (f : FM) (need : Need) (s : State) (j : Nat) : Prop :=
  let t := s.tile (Who.tile s.cur)
  let n := tileBytesOf f
  tileCv f ≠ 3 ∧ f.flg.toNat / 4 % 4 ≠ 3 ∧ (e.s 0).toNat % 64 = 0 ∧ sext (e.s 3).toNat 32 % 64 = 0 ∧
    (∃ a : Nat, fmSpad e j = a ∧ (tileCv f ≠ 0 → a % 4096 = 0) ∧ spReady s a n ∧ checkSpFail t s.curBank a n (some (tileCv f)) none = none) ∧
    ∀ m ∈ tileRows e f j, copyOk e 0 need m 64 ∧ memClear s (copyPa e 0 m) 64 ∧
      watermarkHolds t (Who.ctx s.cur) true (vaOf (e.handle 0).2 m) 64 = false

/-- The run-length words (R40): queue, header, body, and what one repeat does. -/
def fmWord : Instr → Option (QName × FM × (Who → Entry → Nat → M Unit))
  | .ldsp _ f => some (.l, f, fun w e j => ldspMove w e f (fmOffset e j) (fmSpad e j))
  | .ldspG _ f => some (.l, f, fun w e j => ldspGRepeat w e f j)
  | .ldspT h f => some (.l, f, fun w e j => ldspTRepeat w (word48 (.ldspT h f)) e f j)
  | .spfill _ f => some (.l, f, fun w e j => spfillRepeat w e f j)
  | .spcopy _ f => some (.l, f, fun w e j => spcopyRepeat w e f j)
  | .prf _ f => some (.l, f, fun w e j => prfRepeat w e f j)
  | .stsp _ f => some (.s, f, fun w e j => stspMove w e f (fmOffset e j) (fmSpad e j))
  | .stspS _ f => some (.s, f, fun w e j => stspSRepeat w e f j)
  | .stspT h f => some (.s, f, fun w e j => stspTRepeat w (word48 (.stspT h f)) e f j)
  | .stspAdd _ f => some (.s, f, fun w e j => stspAddRepeat w e f j)
  | _ => none

/-- What an engine does for context `w` waits for nothing: its requests reach their homes, the host holds no line, and no comparator holds
a write (R85, R405, R409). A tile that is stalled answers no request (R456). -/
def engReady (w : Who) (s : State) : Prop :=
  (∀ l, lineHeld s w l = false) ∧ s.hub.filter = [] ∧ ((s.bank w).inst.map (·.lstep)).getD false = false ∧ ∀ t, (s.tile t).stalled = false

/-- No earlier key-value word of the context is under way, and no hidden entry of it has a word to retire (R146, R280). -/
def kvQuiet (s : State) : Prop :=
  s.curBank.kvRuns = [] ∧ (s.tile (Who.tile s.cur)).hidden.any (fun c => c.who = s.cur && c.pos.isSome) = false

/-! ## Words of the C queue -/

/-- The C-cycle in which the head of the C queue issues: its folds, drops and retirements have taken place (R190, R191). -/
def cStart (s : State) : State := (s.claimEngine s.cur).cTick s.cur

/-- The registers that a C word issuing now reads: those after the drops of its C-cycle. -/
def cRegs (s : State) : Regs := (cStart s).curBank.r

/-- Word `i` heads the C queue as entry `e` and issues in this C-cycle: nothing freezes or holds the queue, and it is no word of a pair
(R192, R193, R204, R266, R270). -/
def cReady (i : Instr) (e : Entry) (s : State) : Prop :=
  let z := s.claimEngine s.cur
  let b := z.bank s.cur
  headOf .c i e s ∧ b.c.phase = .alone ∧ z.cFrozen s.cur = false ∧ b.c.vhold = 0 ∧ b.c.accOut = none ∧
    (b.c.draining = false ∨ cBusy b = false) ∧ replayFirst b e = false

/-- The entry has issued with result `r` in state `t`: its tokens are popped, its result is in flight, and it stands in the open
window (R33, R190, R269). -/
def cPlaced (w : Who) (e : Entry) (r : CRes) (t : State) : State :=
  let x := if e.popped then (t.bank w).q else ((t.bank w).q.pop .c (tkOf e.word)).getD (t.bank w).q
  ((t.putRes w e (if e.pushed then { word := e.word } else pushOf .c e.word) r).modBank w fun b =>
    { b with q := { x with c := b.q.c.tail, fly := b.q.fly, pend := b.q.pend } }).modBank w fun b => b.noteWindow e b.c.cc

/-- The same at the end of the C-cycle. -/
def cIssued (w : Who) (e : Entry) (r : CRes) (t : State) : State := (cPlaced w e r t).endCycle w

/-- A C word that is to run issues in this C-cycle. -/
def cRuns (i : Instr) (e : Entry) (s : State) : Prop := cReady i e s ∧ entryRuns e

/-- The latency at which a C word drops EMPTY when its guard is false (R32, R194); none for a word without a belt result. For a word
whose latency depends on a tag it is that of the tag of SA. -/
def skipLatency (i : Instr) (r : Regs) : Option (Option Nat) :=
  match i with
  | .vfetch .. | .vredsum .. | .vredmax .. | .vredmin .. | .vscan .. | .vdot4 .. | .vrms .. | .argmax .. => some (some 6)
  | .vpop .. | .vcvt .. | .vscale .. | .rng .. => some (some 2)
  | .vmov .. | .vbcast .. | .vimm .. | .vsel .. | .mset .. | .vand .. | .vor .. | .vxor .. | .vshl .. | .vshr .. | .vsra ..
  | .vclass .. | .tmask .. => some (some 1)
  | .vperm .. | .vshuf .. | .vpack .. | .vunpk .. => some (some 3)
  | .vrcp .. | .vrsqrt .. | .vsqrt .. | .vexp2 .. | .vlog2 .. | .vsig .. | .vtanh .. | .smxMax .. | .smxExp .. | .smxResc ..
  | .smxMerge .. | .linFeat .. | .linPart .. => some (some 8)
  | .rope .. => some (some 4)
  | .vldAcc .. => some (some 5)
  | .vadd _ f | .vsub _ f | .vmul _ f => some (some (if tagArith (r.vec f.sa).tag then latArith (r.vec f.sa).tag else 4))
  | .vmin _ f | .vmax _ f | .vclamp _ f | .vabs _ f | .vneg _ f | .vrnd _ f | .vcmp _ f =>
    some (some (if anyData (r.vec f.sa).tag then latArith (r.vec f.sa).tag else 4))
  | .vfma _ f => some (some (if tagArith (r.vec f.sa).tag then latFma (r.vec f.sa).tag else 4))
  | .vput .. | .vnop .. | .cnop .. | .tcfg .. | .accAlloc .. | .accFree .. | .accZero .. | .mma .. | .mmaSp .. | .mmaBp .. | .vstAcc ..
  | .tmark .. | .kat .. | .katcmp .. | .accOut .. | .mprio .. | .topk .. | .topkMrg .. | .topkRd .. | .smpCfg .. | .smpDraw ..
  | .smpAcc .. => some none
  | _ => none

/-! ## Lanes (R187 to R189, R223) -/

/-- Element `k` of a value by its own tag. -/
def laneOf (v : Vec) (k : Nat) : Nat := elem v.bits v.tag.width k

/-- A result of tag `t` whose element `k` is `(g k).1` where active and 0 elsewhere, with the flags of the active elements. -/
def laneResult (t : Tag) (m : BitVec 256) (g : Nat → Flagged Nat) (v : Vec) (fl : Flags) : Prop :=
  v.tag = t ∧ (∀ k, k < t.lanes → laneOf v k = if m.getLsbD k then (g k).1 % 2 ^ t.width else 0) ∧
    ∀ j, fl.getLsbD j = true ↔ ∃ k, k < t.lanes ∧ m.getLsbD k = true ∧ (g k).2.getLsbD j = true

/-- The word issues with that belt result at its latency. -/
def dropsLanes (i : Instr) (e : Entry) (s : State) (f : FV) (t : Tag) (n : Nat) (g : Nat → Flagged Nat) : Prop :=
  ∃ v fl, exec i s = .next (cIssued s.cur e (beltOf f v n fl) (cStart s)) ∧ laneResult t (activeMask (cRegs s) f) g v fl

/-- What a word of lanes gives: its body, the tag of the result, its latency, and its elements. -/
abbrev LaneWord := Option (FV × Tag × Nat × (Nat → Flagged Nat))

/-- A word of one operand that keeps the tag, of two operands of one tag, and of three. -/
def oneLane (f : FV) (r : Regs) (ok : Tag → Bool) (n : Tag → Nat) (g : Tag → Nat → Flagged Nat) : LaneWord :=
  let a := r.vec f.sa
  if f.fmt = 0 ∧ ok a.tag then some (f, a.tag, n a.tag, fun k => g a.tag (laneOf a k)) else none

def twoLanes (f : FV) (r : Regs) (ok : Tag → Bool) (n : Tag → Nat) (g : Tag → Nat → Nat → Flagged Nat) : LaneWord :=
  let a := r.vec f.sa
  let b := r.vec f.sb
  if f.fmt = 0 ∧ ok a.tag ∧ a.tag = b.tag then some (f, a.tag, n a.tag, fun k => g a.tag (laneOf a k) (laneOf b k)) else none

def threeLanes (f : FV) (r : Regs) (ok : Tag → Bool) (n : Tag → Nat) (g : Tag → Nat → Nat → Nat → Flagged Nat) : LaneWord :=
  let a := r.vec f.sa
  let b := r.vec f.sb
  let c := r.vec f.sc
  if f.fmt = 0 ∧ ok a.tag ∧ a.tag = b.tag ∧ a.tag = c.tag then
    some (f, a.tag, n a.tag, fun k => g a.tag (laneOf a k) (laneOf b k) (laneOf c k))
  else none

/-- Arithmetic of lanes (R225, R228 to R230): one rounding at float tags, exact integers clamped with SAT or taken modulo 2^w. -/
def arithLane (i : Instr) (r : Regs) : LaneWord :=
  let sum (f : FV) (neg : Bool) : LaneWord := twoLanes f r tagArith latArith fun t x y =>
    if t.isFloat then roundFlagged t (Num.add (elemValue t x) (if neg then (elemValue t y).neg else elemValue t y))
    else reduceInt t (f.var.getLsbD 0) (intValue t x + (if neg then -intValue t y else intValue t y))
  match i with
  | .vadd _ f => sum f false
  | .vsub _ f => sum f true
  | .vmul _ f => twoLanes f r tagArith latArith fun t x y =>
      if t.isFloat then roundFlagged t (Num.mul (elemValue t x) (elemValue t y))
      else reduceInt t (f.var.getLsbD 0) (intValue t x * intValue t y)
  | .vfma _ f => threeLanes f r tagArith latFma fun t x y z =>
      if t.isFloat then roundFlagged t (fmaNum (f.var.toNat % 4) (elemValue t x) (elemValue t y) (elemValue t z))
      else reduceInt t (f.var.getLsbD 2) ((if f.var.getLsbD 1 then -(intValue t x * intValue t y) else intValue t x * intValue t y) +
        (if f.var.getLsbD 0 then -intValue t z else intValue t z))
  | .vmin _ f => twoLanes f r anyData latArith fun t x y => (pickElem t false x y, 0)
  | .vmax _ f => twoLanes f r anyData latArith fun t x y => (pickElem t true x y, 0)
  | .vclamp _ f => threeLanes f r anyData latArith fun t x y z => (clampElem t x y z, 0)
  | .vabs _ f => oneLane f r anyData latArith fun t x => absElem t (f.var.getLsbD 0) x
  | .vneg _ f => oneLane f r anyData latArith fun t x => negElem t (f.var.getLsbD 0) x
  | .vrnd _ f => match Mode.ofCode (f.var.toNat % 8) with
    | some mode => oneLane f r anyData latArith fun t x => (rndElem t mode x, 0)
    | none => none
  | _ => none

/-- Logic, shifts and permutations (R234 to R237). -/
def bitLane (i : Instr) (r : Regs) : LaneWord :=
  let one : Tag → Nat := fun _ => 1
  match i with
  | .vand _ f => twoLanes f r anyData one fun t x y => (x &&& (if f.var.getLsbD 0 then 2 ^ t.width - 1 - y else y), 0)
  | .vor _ f => twoLanes f r anyData one fun _ x y => (x ||| y, 0)
  | .vxor _ f => twoLanes f r anyData one fun _ x y => (x ^^^ y, 0)
  | .vshl _ f => twoLanes f r Tag.isInt one fun t x y => (if y < t.width then x * 2 ^ y else 0, 0)
  | .vshr _ f => twoLanes f r Tag.isInt one fun t x y => (if y < t.width then x / 2 ^ y else 0, 0)
  | .vsra _ f => twoLanes f r tagSigned one fun t x y => (toPat t.width (sext x t.width / 2 ^ min y (t.width - 1)), 0)
  | .vperm _ f =>
    let a := r.vec f.sa
    let b := r.vec f.sb
    let x := r.vec f.sc
    if f.fmt = 0 ∧ anyData a.tag ∧ a.tag = b.tag ∧ permIndex a.tag.lanes x.tag then
      some (f, a.tag, 3, fun k =>
        (if laneOf x k < a.tag.lanes then laneOf a (laneOf x k)
         else if laneOf x k < 2 * a.tag.lanes then laneOf b (laneOf x k - a.tag.lanes) else 0, 0))
    else none
  | .vshuf _ f =>
    let a := r.vec f.sa
    let b := r.vec f.sb
    let n := a.tag.lanes
    let odd (k x : Nat) : Nat := if k % 2 = 1 then laneOf b x else laneOf a x
    let half (k x : Nat) : Nat := if k < n / 2 then laneOf a x else laneOf b x
    if f.fmt = 0 ∧ anyData a.tag ∧ f.var.toNat ≤ 5 ∧ (1 ≤ f.var.toNat ∧ f.var.toNat ≤ 4 → a.tag = b.tag) then
      some (f, a.tag, 3, fun k =>
        (match f.var.toNat with
         | 0 => laneOf a (n - 1 - k)
         | 1 => odd k (k / 2)
         | 2 => odd k (n / 2 + k / 2)
         | 3 => half k (2 * (k % (n / 2)))
         | 4 => half k (2 * (k % (n / 2)) + 1)
         | _ => laneOf a (if k % 2 = 0 then k + 1 else k - 1), 0))
    else none
  | _ => none

/-- Conversions of form and the correctly rounded functions (R215, R239 to R242, R297). -/
def functionLane (i : Instr) (r : Regs) : LaneWord :=
  let fn (f : FV) (g : Num → Flagged Num) : LaneWord :=
    oneLane f r tagFloat3 (fun _ => 8) fun t x => roundFlagged t (g (elemValue t x))
  match i with
  | .vrcp _ f => fn f rcpNum
  | .vrsqrt _ f => fn f rsqrtNum
  | .vsqrt _ f => fn f sqrtNum
  | .vexp2 _ f => fn f fun x => (exp2Num x, 0)
  | .vlog2 _ f => fn f log2Num
  | .vsig _ f => fn f fun x => (sigNum x, 0)
  | .vtanh _ f => fn f fun x => (tanhNum x, 0)
  | .linFeat _ f => fn f fun x => (phiNum x, 0)
  | .vscale _ f =>
    let a := r.vec f.sa
    let b := r.vec f.sb
    match Mode.ofCode (f.var.toNat % 8), a.tag.fmt? with
    | some mode, some m =>
      if f.fmt = 0 ∧ b.tag = intTagOf a.tag then
        some (f, a.tag, 2, fun k => roundTo m ((m.value (laneOf a k)).scale2 (intValue b.tag (laneOf b k))) mode (satFor a.tag (f.var.getLsbD 3)))
      else none
    | _, _ => none
  | .vpack _ f =>
    let a := r.vec f.sa
    let b := r.vec f.sb
    let u := f.var.getLsbD 0
    let t : Tag := if a.tag = .int32 then .int16 else if u then .uint8 else .int8
    if f.fmt = 0 ∧ a.tag = b.tag ∧ ((a.tag = .int32 ∧ u = false) ∨ a.tag = .int16) then
      some (f, t, 3, fun k =>
        reduceInt t (!f.var.getLsbD 1) (intValue a.tag (if k < a.tag.lanes then laneOf a k else laneOf b (k - a.tag.lanes))))
    else none
  | .vunpk _ f =>
    let a := r.vec f.sa
    let t : Tag := if a.tag = .int16 then .int32 else .int16
    if f.fmt = 0 ∧ (a.tag = .int16 ∨ a.tag = .int8 ∨ a.tag = .uint8) then
      some (f, t, 3, fun k => (toPat t.width (intValue a.tag (laneOf a (k + if f.var.getLsbD 0 then t.lanes else 0))), 0))
    else none
  | .vclass _ f =>
    let a := r.vec f.sa
    if f.fmt = 0 ∧ a.tag.isFloat then some (f, intTagOf a.tag, 1, fun k => (classElem a.tag (laneOf a k), 0)) else none
  | _ => none

/-- Words of attention that give lanes (R295, R297, R298). -/
def attentionLane (i : Instr) (r : Regs) : LaneWord :=
  let v := fmtFP32.value
  match i with
  | .smxResc _ f => threeLanes f r isFp32 (fun _ => 8) fun _ x y z => roundFlagged .fp32 (rescLane (v x) (v y) (v z))
  | .linPart _ f =>
    let a := r.vec f.sa
    let b := r.vec f.sb
    if f.fmt = 0 ∧ a.tag = .fp32 ∧ (b.tag = .fp32 ∨ b.tag = .bf16) then
      some (f, .fp32, 8, fun k => roundFlagged .fp32 (Num.mul (v (laneOf a k)) (elemValue b.tag (laneOf b 0))))
    else none
  | .rope _ f =>
    let x := r.vec f.sa
    let c := r.vec f.sb
    let n := r.vec f.sc
    let t := x.tag
    if f.fmt = 0 ∧ tagFloat3 t ∧ t = c.tag ∧ t = n.tag then
      some (f, t, 4, fun k => roundFlagged t (ropeLane (fun j => elemValue t (laneOf x j)) (fun j => elemValue t (laneOf c j))
        (fun j => elemValue t (laneOf n j)) k))
    else none
  | _ => none

/-- The active lanes of an operand, in order. -/
def activeLanes (m : BitVec 256) (v : Vec) : List Nat := ((List.range v.tag.lanes).filter (m.getLsbD ·)).map (laneOf v)

/-- The belt result of a word that writes one element, in lane 0. -/
def oneResult (f : FV) (t : Tag) (n : Nat) (x : Flagged Nat) : CRes :=
  .belt { rem := n, val := { bits := BitVec.ofNat 2048 (x.1 % 2 ^ t.width), tag := t }, wn := f.wn = 1, nd := f.nd, flags := x.2 }

end Sys2Proof.Machine
end

