-- ==== Sys2Proof/Certificates/Slice0/Obligations.lean ====
section
/-! DEFINITION. The statements for the provers. -/
open Sys2Proof Sys2Proof.Machine

/-! ## Front-end words of registers -/

/-- R31, R32: a front-end word whose guard is false has no effect but the advance of the PC (its signature covers it, R395). The words of
`feHdr` read a guard, and `amo`, `cas`, `evt.sig` and `task.post` with them, which end abortability at their execution whatever their guard
(R123). That a false guard shuts out the traps of reserved field values too (log 107) and that the signature covers such a word (log 14) are the
model's choice. -/
def Obligations.FrontEndGuardFalse : Prop :=
  ∀ (i : Instr) (h : Hdr) (s : State), guardOn h s = false →
    (feHdr i = some h → exec i s = .next (regsDone s i s.curBank.r)) ∧
    ((∃ f, i = .amo h f ∨ i = .cas h f ∨ i = .evtSig h f ∨ i = .taskPost h f) →
      exec i s = .next (regsDone (s.nonAbortable s.cur) i s.curBank.r))

/-- R328: each three-register integer word writes s[d] with its result modulo 2^64, reads both sources before it writes, and
changes nothing else of the registers and no flag; a write to s0 is discarded (R6). `mulh` with code 3 raises ILLEGAL_INSTRUCTION. -/
def Obligations.ThreeRegisterWords : Prop :=
  (∀ (i : Instr) (h : Hdr) (f : FS) (g : Word → Word → Word) (s : State), threeReg i = some (h, f, g) → guardOn h s = true →
    exec i s = .next (regsDone s i (s.curBank.r.setS f.d (g (s.curBank.r.sreg f.a) (s.curBank.r.sreg f.b))))) ∧
  ∀ (h : Hdr) (f : FS) (s : State), guardOn h s = true → f.fn.toNat % 4 = 3 →
    exec (.mulh h f) s = .next (s.trapHere Cause.illegalInstruction (wordAsInfo (.mulh h f)))

/-- R329: each immediate word writes s[d] with the value of the table. -/
def Obligations.ImmediateWords : Prop :=
  ∀ (i : Instr) (h : Hdr) (d : BitVec 5) (g : Regs → Word) (s : State), immReg i = some (h, d, g) → guardOn h s = true →
    exec i s = .next (regsDone s i (s.curBank.r.setS d (g s.curBank.r)))

/-- R330: `bitop` counts or mirrors bits of s[a]; `bfx` extracts and `bfi` inserts the field of LEN bits at POS; a field that
passes bit 63 raises ILLEGAL_INSTRUCTION. -/
def Obligations.BitFieldWords : Prop :=
  ∀ (h : Hdr) (f : FS) (s : State), guardOn h s = true →
    let r := s.curBank.r
    let pos := f.fn.toNat % 64
    let len := f.fn.toNat / 64 % 64 + 1
    (∃ v, bitopSays (f.fn.toNat % 4) (r.sreg f.a) v ∧ exec (.bitop h f) s = .next (regsDone s (.bitop h f) (r.setS f.d v))) ∧
    (pos + len ≤ 64 →
      (∃ v : Word, exec (.bfx h f) s = .next (regsDone s (.bfx h f) (r.setS f.d v)) ∧
        ∀ k, k < 64 → v.getLsbD k =
          if k < len then (r.sreg f.a).getLsbD (pos + k) else f.fn.getLsbD 12 && (r.sreg f.a).getLsbD (pos + len - 1)) ∧
      (∃ v : Word, exec (.bfi h f) s = .next (regsDone s (.bfi h f) (r.setS f.d v)) ∧
        ∀ k, k < 64 → v.getLsbD k =
          if pos ≤ k ∧ k < pos + len then (r.sreg f.a).getLsbD (k - pos) else (r.sreg f.d).getLsbD k)) ∧
    (64 < pos + len → exec (.bfx h f) s = .next (s.trapHere Cause.illegalInstruction (wordAsInfo (.bfx h f))) ∧
      exec (.bfi h f) s = .next (s.trapHere Cause.illegalInstruction (wordAsInfo (.bfi h f))))

/-- R331, R332: `cmp`, `cmpi` and `plog` write p[PD], PD = d[2:0], with the condition of their code; a write to p0 is
discarded. The condition codes 6 and 7 raise ILLEGAL_INSTRUCTION. -/
def Obligations.PredicateWords : Prop :=
  (∀ (i : Instr) (h : Hdr) (d : BitVec 5) (g : Regs → Bool) (s : State), predReg i = some (h, d, g) → guardOn h s = true →
    exec i s = .next (regsDone s i (s.curBank.r.setP (BitVec.ofNat 3 d.toNat) (g s.curBank.r)))) ∧
  ∀ (h : Hdr) (s : State), guardOn h s = true →
    (∀ f : FS, 6 ≤ f.fn.toNat % 8 → exec (.cmp h f) s = .next (s.trapHere Cause.illegalInstruction (wordAsInfo (.cmp h f)))) ∧
    (∀ f : FI, 6 ≤ f.imm.toNat / 2 ^ 19 → exec (.cmpi h f) s = .next (s.trapHere Cause.illegalInstruction (wordAsInfo (.cmpi h f))))

/-- R333: `sel` sets s[d] to s[a] where p[PS] XOR N is 1 and to s[b] otherwise. -/
def Obligations.SelectWord : Prop :=
  ∀ (h : Hdr) (f : FS) (s : State), guardOn h s = true → exec (.selR h f) s = .next (regsDone s (.selR h f) (s.curBank.r.setS f.d
    (if xor (s.curBank.r.preg (BitVec.ofNat 3 f.fn.toNat)) (f.fn.getLsbD 3) then s.curBank.r.sreg f.a else s.curBank.r.sreg f.b)))

/-- R335: `br` goes to its target, `call` also saves the PC of the next word in s31, `jr` goes to s[a] and with LINK saves the
PC of the next word in s[d], `ret` goes to s31, and `adr` gives the packet address plus 4 × imm27. With a false guard each of them
falls through. -/
def Obligations.BranchWords : Prop :=
  (∀ (h : Hdr) (s : State) (i : Instr), guardOn h s = false →
    (∃ f g k, i = .br h f ∨ i = .call h f ∨ i = .jr h g ∨ i = .retR h g ∨ i = .adr h k) → exec i s = .next (regsDone s i s.curBank.r)) ∧
  ∀ (h : Hdr) (s : State), guardOn h s = true →
    let b := s.curBank
    (∀ f : FL, exec (.adr h f) s = .next (regsDone s (.adr h f) (b.r.setS f.d
      (BitVec.ofInt 64 (((b.f.pc.toNat - b.f.pc.toNat % 32 : Nat) : Int) + f.imm.toInt * 4))))) ∧
    (∀ f : FB, f.slot.toNat ≤ 4 →
      exec (.br h f) s = .next (frontDone s (.br h f) { b with f := goTo b.f (fbGoal b.f.pc f) }) ∧
      exec (.call h f) s = .next (frontDone s (.call h f)
        { b with r := b.r.setS 31 ((followPc b.f).setWidth 64), f := goTo b.f (fbGoal b.f.pc f) })) ∧
    (∀ f : FS, legalTarget (b.r.sreg f.a) → exec (.jr h f) s = .next (frontDone s (.jr h f)
      { b with
        r := if f.fn.getLsbD 0 then b.r.setS f.d ((followPc b.f).setWidth 64) else b.r
        f := goTo b.f ((b.r.sreg f.a).setWidth 60) })) ∧
    (∀ f : FS, legalTarget (b.r.sreg 31) →
      exec (.retR h f) s = .next (frontDone s (.retR h f) { b with f := goTo b.f ((b.r.sreg 31).setWidth 60) }))

/-- R39, R336: `loop` falls through with LC at 0 or 1, leaving 0, and otherwise counts down and goes to its target; `lpbrk` clears LC
and goes to its target. A `loop` that is taken raises ILLEGAL_INSTRUCTION where its slot is above 4, and LC stays. -/
def Obligations.LoopWords : Prop :=
  ∀ (h : Hdr) (f : FB) (k : Fin 4) (s : State), guardOn h s = true → f.cond.toNat % 4 = k.val →
    let b := s.curBank
    ((b.r.lc[k.val]).toNat ≤ 1 → exec (.loopLc h f) s = .next (regsDone s (.loopLc h f) { b.r with lc := b.r.lc.set k.val 0 })) ∧
    (1 < (b.r.lc[k.val]).toNat → f.slot.toNat ≤ 4 → exec (.loopLc h f) s = .next (frontDone s (.loopLc h f)
      { b with r := { b.r with lc := b.r.lc.set k.val (b.r.lc[k.val] - 1) }, f := goTo b.f (fbGoal b.f.pc f) })) ∧
    (1 < (b.r.lc[k.val]).toNat → 4 < f.slot.toNat → exec (.loopLc h f) s =
      .next (s.trapHere Cause.illegalInstruction (wordAsInfo (.loopLc h f)))) ∧
    (f.slot.toNat ≤ 4 → exec (.lpbrk h f) s = .next (frontDone s (.lpbrk h f)
      { b with r := { b.r with lc := b.r.lc.set k.val 0 }, f := goTo b.f (fbGoal b.f.pc f) }))

/-- R338: `fop` writes s[d] with its result on the operand patterns and adds its flags to FPFLAGS, for every operation and
rounding mode of the table; the other codes raise ILLEGAL_INSTRUCTION. -/
def Obligations.ScalarFloatWords : Prop :=
  (∀ (h : Hdr) (f : FS) (s : State), guardOn h s = true → 15 ≤ f.fn.toNat % 32 ∨ 5 ≤ f.fn.toNat / 32 % 8 →
    exec (.fop h f) s = .next (s.trapHere Cause.illegalInstruction (wordAsInfo (.fop h f)))) ∧
  ∀ (h : Hdr) (f : FS) (m : Mode) (s : State), guardOn h s = true → f.fn.toNat % 32 < 15 → Mode.ofCode (f.fn.toNat / 32 % 8) = some m →
    let b := s.curBank
    let x := fopResult (f.fn.toNat % 32) m (b.r.sreg f.a) (b.r.sreg f.b) (b.r.sreg f.d)
    exec (.fop h f) s = .next (frontDone s (.fop h f)
      { b with r := b.r.setS f.d x.1, csr := { b.csr with fpflags := b.csr.fpflags ||| x.2 }, f := fallThrough b.f })

/-- R46, R337: `nop`, the hints and the undefined hints have no effect and read no guard, enter no queue, and take part in no
co-issue pair. -/
def Obligations.WordsWithoutEffect : Prop :=
  (∀ op, 0xF0 ≤ op → coClass op = none ∧ queueOfOp op = none) ∧
  (∀ (h : Hdr) (x : BitVec 32) (s : State),
    exec (.nop h x) s = .next (regsDone s (.nop h x) s.curBank.r) ∧
    exec (.hintPf h x) s = .next (regsDone s (.hintPf h x) s.curBank.r) ∧
    exec (.hintHot h x) s = .next (regsDone s (.hintHot h x) s.curBank.r) ∧
    exec (.hintLoop h x) s = .next (regsDone s (.hintLoop h x) s.curBank.r)) ∧
  ∀ (w : BitVec 48) (s : State), exec (.undefinedHint w) s = .next (regsDone s (.undefinedHint w) s.curBank.r)

/-- R39, R135, R137, R167, R328, R330, R331, R338, R362, R387, R427: the reserved codes of front-end words raise ILLEGAL_INSTRUCTION with
the word in TRAPINFO, at the word's own PC, and change nothing before; those of `amo` and of `evt.sig` end abortability first (R123). A
taken `loop` is in `LoopWords`. That the codes 4 to 7 of `evt.wait` (R360) are met before APX_WAIT is the model's choice (log 54). -/
def Obligations.IllegalFormsTrap : Prop :=
  (∀ (i : Instr) (h : Hdr) (s : State), illegalForm i = some h → guardOn h s = true →
    exec i s = .next (s.trapHere Cause.illegalInstruction (wordAsInfo i))) ∧
  ∀ (h : Hdr) (f : FS) (s : State), guardOn h s = true →
    let t := s.nonAbortable s.cur
    let opc := f.fn.toNat / 2 ^ 8 % 16
    let sz := f.fn.toNat / 2 ^ 6 % 4
    (2 ≤ sz ∨ 10 ≤ opc ∨ (opc = 9 ∧ sz = 1) →
      exec (.amo h f) s = .next (t.trapHere Cause.illegalInstruction (wordAsInfo (.amo h f)))) ∧
    (f.fn.toNat / 2 ^ 4 % 4 = 3 → (t.curBank.r.hreg (f.fn.extractLsb' 0 4)).readyAt ≤ s.now →
      exec (.evtSig h f) s = .next (t.trapHere Cause.illegalInstruction (wordAsInfo (.evtSig h f)))) ∧
    (f.fn.toNat % 4 = 3 → s.curBank.priv = true →
      exec (.tlbInv h f) s = .next (s.trapHere Cause.illegalInstruction (wordAsInfo (.tlbInv h f)))) ∧
    (f.fn.toNat % 4 = 3 → exec (.apxInv h f) s = .next (s.trapHere Cause.illegalInstruction (wordAsInfo (.apxInv h f))))

/-- R334: a target register that is no legal PC raises MISALIGNED_PC with the target in TRAPINFO. -/
def Obligations.MisalignedTargetsTrap : Prop :=
  ∀ (h : Hdr) (f : FS) (s : State), guardOn h s = true →
    (¬ legalTarget (s.curBank.r.sreg f.a) → exec (.jr h f) s = .next (s.trapHere Cause.misalignedPc (s.curBank.r.sreg f.a))) ∧
    (¬ legalTarget (s.curBank.r.sreg 31) → exec (.retR h f) s = .next (s.trapHere Cause.misalignedPc (s.curBank.r.sreg 31)))

/-- R45, R385: `trap n` and `brk n` raise their causes with n in TRAPINFO and the PC of the next word as the PC of return; an
unassigned opcode raises ILLEGAL_INSTRUCTION at its own PC, whatever its guard. -/
def Obligations.SoftwareTrapsAndUnassigned : Prop :=
  (∀ (h : Hdr) (f : FL) (s : State), guardOn h s = true →
    let raised (code : BitVec 8) (i : Instr) : State := (s.signWord s.cur (word48 i)).raise s.cur
      { cls := 1, code, info := f.imm.setWidth 64, fq := 4, fidx := 0, fpc := s.curBank.f.pc, pc := followPc s.curBank.f, time := s.now }
    exec (.trapN h f) s = .next (raised Cause.soft (.trapN h f)) ∧ exec (.brk h f) s = .next (raised Cause.brk (.brk h f))) ∧
  ∀ (w : BitVec 48) (s : State),
    exec (.unassignedOpcode w) s = .next (s.trapHere Cause.illegalInstruction (w.setWidth 64))

/-! ## CSR and tag words -/

/-- R339, R340: a CSR word that the map allows answers the old value in s[d] and writes the new one, which is s[a], o OR s[a] or
o AND NOT s[a], where o is ATTZ without what hardware adds to it in this tile cycle; a write to a read-only CSR is discarded. -/
def Obligations.CsrWords : Prop :=
  ∀ (h : Hdr) (f : FI) (a : CsrAccess) (s : State), guardOn h s = true →
    let n := f.imm.toNat % 4096
    let o := csrRead s s.cur n
    let was := if n = 0x001 then s.curBank.attzBefore s.now else o
    let x := s.curBank.r.sreg f.a
    let done (i : Instr) (v : Word) : State :=
      wordDone ((if a = .ro then s else csrWrite s s.cur n v).modBank s.cur fun b => b.modR fun r => r.setS f.d o) i
    csrAccess n = some a →
    (a ≠ .p ∨ s.curBank.priv = true → exec (.csrr h f) s = .next (regsDone s (.csrr h f) (s.curBank.r.setS f.d o))) ∧
    (a = .rw ∨ a = .ro ∨ s.curBank.priv = true →
      (csrRefuses s s.cur n x = false → exec (.csrw h f) s = .next (done (.csrw h f) x)) ∧
      (csrRefuses s s.cur n (was ||| x) = false → exec (.csrs h f) s = .next (done (.csrs h f) (was ||| x))) ∧
      (csrRefuses s s.cur n (was &&& ~~~x) = false → exec (.csrc h f) s = .next (done (.csrc h f) (was &&& ~~~x))))

/-- R339, R340: a number outside the map raises ILLEGAL_INSTRUCTION, an access that the map forbids to the context raises
PRIVILEGE, and both before the CSR or s[d] changes. -/
def Obligations.CsrTraps : Prop :=
  ∀ (i : Instr) (h : Hdr) (f : FI) (s : State),
    i = .csrr h f ∨ i = .csrw h f ∨ i = .csrs h f ∨ i = .csrc h f → guardOn h s = true →
    (csrAccess (f.imm.toNat % 4096) = none → exec i s = .next (s.trapHere Cause.illegalInstruction (wordAsInfo i))) ∧
    (csrAccess (f.imm.toNat % 4096) = some .p → s.curBank.priv = false →
      exec i s = .next (s.trapHere Cause.privilege (wordAsInfo i))) ∧
    (csrAccess (f.imm.toNat % 4096) = some .rwp → s.curBank.priv = false → i ≠ .csrr h f →
      exec i s = .next (s.trapHere Cause.privilege (wordAsInfo i)))

/-- R133, R161, R213, R296, R324, R340, R374, R397, R426: what a CSR reads after a write of `v`: its field of `v`, brought into its range
where the rule gives one. FPFLAGS, ATTZ and SPDISC read so in a tile cycle in which hardware has not set them. A write of HBCFG is held for
the next period, and HBCFG reads as before until then. -/
def Obligations.CsrReadBack : Prop :=
  ∀ (s : State) (w : Who) (v : Word),
    (∀ n, n = 0x040 ∨ n = 0x200 → csrRead (csrWrite s w n v) w n = v) ∧
    ((s.bank w).hw.stamp ≠ s.now + 1 → (csrRead (csrWrite s w 0x000 v) w 0x000).toNat = v.toNat % 2 ^ 6 ∧
      (csrRead (csrWrite s w 0x001 v) w 0x001).toNat = v.toNat % 2 ^ 32 ∧ (csrRead (csrWrite s w 0x004 v) w 0x004).toNat = v.toNat % 2) ∧
    (csrRead (csrWrite s w 0x002 v) w 0x002).toNat = max 1 (v.toNat % 2 ^ 8) ∧
    (csrRead (csrWrite s w 0x003 v) w 0x003).toNat = max 1 (min 64 (v.toNat % 2 ^ 7)) ∧
    (∀ n, 0x008 ≤ n → n ≤ 0x00B → (csrRead (csrWrite s w n v) w n).toNat = v.toNat % 2 ^ 32) ∧
    (csrRead (csrWrite s w 0x041 v) w 0x041).toNat = max 1 (v.toNat % 2 ^ 16) ∧
    (csrRead (csrWrite s w 0x101 v) w 0x101).toNat = v.toNat % 2 ^ 16 ∧
    (csrRead (csrWrite s w 0x102 v) w 0x102).toNat = v.toNat / 2 ^ 16 % 2 ^ 36 * 2 ^ 16 ∧
    (csrRead (csrWrite s w 0x103 v) w 0x103).toNat = v.toNat % 2 ^ 9 + v.toNat / 2 ^ 16 % 2 ^ 9 * 2 ^ 16 ∧
    (csrRead (csrWrite s w 0x180 v) w 0x180).toNat = v.toNat % 2 ^ 60 ∧
    (csrRead (csrWrite s w 0x183 v) w 0x183).toNat = v.toNat / 2 ^ 16 % 2 ^ 44 * 2 ^ 16 ∧
    csrRead (csrWrite s w 0x202 v) w 0x202 = csrRead s w 0x202 ∧
    ∃ y, (csrWrite s w 0x202 v).hub.hbcfgNext = some y ∧ y.getLsbD 0 = v.getLsbD 0 ∧ y.toNat / 2 % 2 ^ 7 = 0 ∧
      y.toNat / 2 ^ 8 % 2 ^ 4 = max 1 (v.toNat / 2 ^ 8 % 2 ^ 4) ∧ y.toNat / 2 ^ 12 % 2 ^ 4 = max 1 (v.toNat / 2 ^ 12 % 2 ^ 4) ∧
      y.toNat / 2 ^ 16 % 2 ^ 4 = min 7 (max 2 (v.toNat / 2 ^ 16 % 2 ^ 4)) ∧ y.toNat / 2 ^ 20 = max 10 (v.toNat / 2 ^ 20 % 2 ^ 4)

/-- R162, R166 to R169: `spset`, `spinv`, `spq` and `sptag` complete, for a slot in Quota() and, of `spset`, the codes that R167 admits.
`spset` fills the tag of the slot with a new stamp, `spinv` clears it, or every tag of the quota, `spq` reads its 64 bits, and `sptag`
finds the lowest slot of this context with the address, or else sets bit 63 and answers 511, the lowest slot without V, or the slot with
the smallest stamp. The data of the slots stays. -/
def Obligations.TagWords : Prop :=
  ∀ (h : Hdr) (f : FS) (s : State), guardOn h s = true →
    let b := s.curBank
    let t := s.tile (Who.tile s.cur)
    let c := Who.ctx s.cur
    let quota (k : Nat) : Prop := inQuota t b k = true
    let cleared (x : Tile) (k : Nat) : Tile := x.setTag k { stamp := (x.tag k).stamp }
    (quota (b.r.sreg f.d).toNat → 1 ≤ f.fn.toNat % 16 → f.fn.toNat % 16 ≤ 10 → f.fn.toNat / 16 % 8 ≤ 4 →
      exec (.spset h f) s = .next (wordDone (s.modTile (Who.tile s.cur) fun t =>
        { t.setTag (b.r.sreg f.d).toNat
            { v := true, f := f.fn.getLsbD 8, d := f.fn.getLsbD 7, vtag := (b.r.sreg f.a).extractLsb' 12 48, own := c.val == 1
              lay := f.fn.extractLsb' 4 3, fmt := f.fn.extractLsb' 0 4, stamp := t.stamps.get c + 1 } with
          stamps := t.stamps.set c.val (t.stamps.get c + 1) }) (.spset h f))) ∧
    (quota (b.r.sreg f.d).toNat → f.fn.getLsbD 0 = false →
      exec (.spinv h f) s = .next (wordDone (s.modTile (Who.tile s.cur) fun t => cleared t (b.r.sreg f.d).toNat) (.spinv h f))) ∧
    (f.fn.getLsbD 0 = true →
      let u := (quotaSlots t b).foldl cleared t
      exec (.spinv h f) s = .next (wordDone (s.modTile (Who.tile s.cur) fun _ => u) (.spinv h f)) ∧ u.sp = t.sp ∧
        ∀ k, u.tag k = if inQuota t b k then { stamp := (t.tag k).stamp } else t.tag k) ∧
    (quota (b.r.sreg f.a).toNat →
      let x := t.tag (b.r.sreg f.a).toNat
      let bit (k : Nat) (y : Bool) : Nat := if y then 2 ^ k else 0
      exec (.spq h f) s = .next (regsDone s (.spq h f) (b.r.setS f.d (BitVec.ofNat 64 (x.fmt.toNat * 2 ^ 3 + x.lay.toNat * 2 ^ 7 + bit 10 x.own +
        bit 11 x.x + x.vtag.toNat * 2 ^ 12 + bit 60 x.p + bit 61 x.d + bit 62 x.f + bit 63 x.v))))) ∧
    ∃ (v : Word) (p : Bool), exec (.sptag h f) s = .next (regsDone s (.sptag h f) ((b.r.setS f.d v).setP (f.fn.extractLsb' 0 3) p)) ∧
      let hit (k : Nat) : Prop := quota k ∧ (t.tag k).v = true ∧ (t.tag k).vtag = (b.r.sreg f.a).extractLsb' 12 48 ∧ (t.tag k).own = (c.val == 1)
      (∀ k, hit k → (∀ j, j < k → ¬ hit j) → p = true ∧ v.toNat = (if (t.tag k).f then 2 ^ 62 else 0) + k) ∧
      ((∀ k, ¬ hit k) → p = false ∧ ∃ x : Nat, v.toNat = 2 ^ 63 + x ∧
        ((∀ k, ¬ quota k) → x = 511) ∧
        (∀ k, quota k → (t.tag k).v = false → (∀ j, j < k → quota j → (t.tag j).v = true) → x = k) ∧
        ((∃ k, quota k) → (∀ k, quota k → (t.tag k).v = true) → quota x ∧ ∀ k, quota k → (t.tag x).stamp ≤ (t.tag k).stamp))

/-! ## Scalar memory access -/

/-- R135, R132: `ld` reads its bytes through the first-level cache, extends them by SZ into s[d], and changes no byte of memory. -/
def Obligations.LoadWord : Prop :=
  ∀ (h : Hdr) (f : FS) (sz : Nat) (s : State), guardOn h s = true → sz = f.fn.toNat / 2 ^ 14 → sz ≤ 6 →
    let k := BitVec.ofNat 4 f.a.toNat
    let off := offsetOf s f
    let pa := accessPa s k off
    let d := lineFor s s.cur (pa / 64)
    accessOk s { rd := true } k off (2 ^ (sz % 4)) → noWatermark s k off (2 ^ (sz % 4)) → memReady s k pa → d.2 = false →
    ∃ t, exec (.ld h f) s = .next t ∧ memSame s t ∧ s.curBank.pts ≤ t.curBank.pts ∧
      t.curBank = bankWith s.curBank t.curBank (s.curBank.r.setS f.d (loaded sz (valueIn d.1 pa (2 ^ (sz % 4))))) 0
        (fallThrough s.curBank.f) false

/-- R135, R136: `st` posts the write of the low bytes of s[d] and changes nothing else of the context, and no memory; the post is
the youngest of at most 16. -/
def Obligations.StoreWord : Prop :=
  ∀ (h : Hdr) (f : FS) (sz : Nat) (s : State), guardOn h s = true → sz = f.fn.toNat / 2 ^ 14 → sz ≤ 3 →
    let k := BitVec.ofNat 4 f.a.toNat
    let off := offsetOf s f
    accessOk s { w := true } k off (2 ^ sz) → noWatermark s k off (2 ^ sz) → s.curBank.posted.length < 16 →
    (s.curBank.r.hreg k).mig = false → pairClear s.cur s (accessPa s k off) →
    exec (.st h f) s = .next (frontDone s (.st h f)
      { s.curBank with
        f := fallThrough s.curBank.f
        posted := s.curBank.posted ++
          [{ pa := BitVec.ofNat 52 (accessPa s k off), bytes := leBytes (s.curBank.r.sreg f.d).toNat (2 ^ sz), prv := (s.curBank.r.hreg k).prv }] })

/-- R137, R138, R362: `amo` and `evt.sig` replace a memory word by the value of their operation and answer the old one; `cas` writes
s[e] where the old value is s[c], answers the old value and whether they were equal. Each ends abortability (R123). -/
def Obligations.AtomicWords : Prop :=
  ∀ (h : Hdr) (f : FS) (s : State), guardOn h s = true →
    let r := s.curBank.r
    let k := BitVec.ofNat 4 f.a.toNat
    let off := (r.sreg f.b).toNat
    let pa := accessPa s k off
    let d := lineNow s (pa / 64)
    let c := r.sreg (f.fn.extractLsb' 12 5)
    let need : Need := { rd := true, w := true }
    (∀ op n : Nat, op = f.fn.toNat / 2 ^ 8 % 16 → op < 10 → n = (if f.fn.toNat / 2 ^ 6 % 4 = 0 then 4 else 8) →
      f.fn.toNat / 2 ^ 6 % 4 < 2 → (op = 9 → n = 4) →
      accessOk s need k off n → noWatermark s k off n → memReady s k pa → d.2 = false →
      let o := valueIn d.1 pa n
      let x := amoValue op (8 * n) o (c.toNat % 2 ^ (8 * n))
      atomicDone (.amo h f) s pa n x.1 (r.setS f.d (BitVec.ofNat 64 o)) x.2) ∧
    (∀ n : Nat, n = (if f.fn.getLsbD 6 then 8 else 4) →
      accessOk s need k off n → noWatermark s k off n → memReady s k pa → d.2 = false →
      let o := valueIn d.1 pa n
      let hit := o == c.toNat % 2 ^ (8 * n)
      atomicDone (.cas h f) s pa n (if hit then (r.sreg (f.fn.extractLsb' 7 5)).toNat else o)
        ((r.setS f.d (BitVec.ofNat 64 o)).setP (f.fn.extractLsb' 3 3) hit) 0) ∧
    (let k := f.fn.extractLsb' 0 4
     let off := (r.sreg f.a).toNat
     let pa := accessPa s k off
     let d := lineNow s (pa / 64)
     let op := f.fn.toNat / 2 ^ 4 % 4
     op < 3 → accessOk s need k off 8 → memReady s k pa → d.2 = false →
     let o := valueIn d.1 pa 8
     let v := (r.sreg f.b).toNat
     atomicDone (.evtSig h f) s pa 8 (if op = 0 then v else if op = 1 then (o + v) % 2 ^ 64 else o ||| v)
       (r.setS f.d (BitVec.ofNat 64 o)) 0)

/-- R135, R137, R138, R362: the checks of a scalar access come in the order alignment, handle, bounds, permission, and each trap names
the offset, or the handle where it is not valid (R373). `amo`, `cas` and `evt.sig` need both permissions, and end abortability first
(R123); `evt.sig` waits for its handle before its checks, the others before they translate. -/
def Obligations.ScalarAccessTraps : Prop :=
  ∀ (i : Instr) (h : Hdr) (f : FS) (k : BitVec 4) (n off : Nat) (need : Need) (s t : State), guardOn h s = true →
    (let both : Need := { rd := true, w := true }
     let page := BitVec.ofNat 4 f.a.toNat
     let sz := f.fn.toNat / 2 ^ 6 % 4
     let opc := f.fn.toNat / 2 ^ 8 % 16
     (i = .ld h f ∧ f.fn.toNat / 2 ^ 14 ≤ 6 ∧ n = 2 ^ (f.fn.toNat / 2 ^ 14 % 4) ∧ k = page ∧ off = offsetOf s f ∧ need = { rd := true } ∧ t = s) ∨
     (i = .st h f ∧ f.fn.toNat / 2 ^ 14 ≤ 3 ∧ n = 2 ^ (f.fn.toNat / 2 ^ 14) ∧ k = page ∧ off = offsetOf s f ∧ need = { w := true } ∧ t = s) ∨
     (i = .amo h f ∧ sz < 2 ∧ opc < 10 ∧ (opc = 9 → sz = 0) ∧ n = (if sz = 0 then 4 else 8) ∧ k = page ∧ off = (s.curBank.r.sreg f.b).toNat ∧
       need = both ∧ t = s.nonAbortable s.cur) ∨
     (i = .cas h f ∧ n = (if f.fn.getLsbD 6 then 8 else 4) ∧ k = page ∧ off = (s.curBank.r.sreg f.b).toNat ∧ need = both ∧
       t = s.nonAbortable s.cur) ∨
     (i = .evtSig h f ∧ f.fn.toNat / 2 ^ 4 % 4 < 3 ∧ n = 8 ∧ k = f.fn.extractLsb' 0 4 ∧ off = (s.curBank.r.sreg f.a).toNat ∧ need = both ∧
       (s.curBank.r.hreg k).readyAt ≤ s.now ∧ t = s.nonAbortable s.cur)) →
    let x := s.curBank.r.hreg k
    (off % n ≠ 0 → exec i s = .next (t.trapHere Cause.misalignedAddr (BitVec.ofNat 64 off))) ∧
    (off % n = 0 → x.readyAt ≤ s.now →
      (x.valid = false → exec i s = .next (t.trapHere Cause.staleHandle (BitVec.ofNat 64 k.toNat))) ∧
      (x.valid = true → x.bytes ≤ off → exec i s = .next (t.trapHere Cause.handleBounds (BitVec.ofNat 64 off))) ∧
      (x.valid = true → off < x.bytes → (need.rd = true ∧ x.rd = false ∨ need.w = true ∧ x.w = false) →
        exec i s = .next (t.trapHere Cause.permission (BitVec.ofNat 64 off))))

/-- R139, R150, R326: `fence` and `fence.fresh`, an `xfence` with nothing to wait for, and a `qsync` of queues whose words have all
retired complete and advance. -/
def Obligations.FenceWords : Prop :=
  ∀ (h : Hdr) (f : FS) (s : State), guardOn h s = true →
    (f.fn.getLsbD 0 = false ∨ s.curBank.posted = [] →
      exec (.fence h f) s = .next (wordDone
        (if f.fn.getLsbD 1 then s.raisePts s.cur (s.curBank.pts + s.curBank.csr.lease.toNat) else s) (.fence h f))) ∧
    (f.fn.toNat % 2 ^ 8 = 0 ∨ f.fn.toNat / 2 ^ 8 % 2 ^ 8 = 0 → exec (.xfence h f) s = .next (regsDone s (.xfence h f) s.curBank.r)) ∧
    (f.fn.toNat % 2 ^ 8 ≠ 0 → f.fn.toNat / 2 ^ 8 % 2 ^ 8 ≠ 0 → s.curBank.posted = [] →
      (∀ k, k < 8 → f.fn.getLsbD k = true → pathPending s s.cur k = false) →
      exec (.xfence h f) s = .next (wordDone
        (let t := if f.fn.getLsbD 11 then s.writeThroughAll else s
         let t := if f.fn.getLsbD 6 then t.raisePts s.cur t.hub.hostWts else t
         if f.fn.getLsbD 7 then t.raisePts s.cur t.hub.pairWts else t) (.xfence h f))) ∧
    ((f.fn.getLsbD 0 = true → queueBusy s.curBank .l = false) → (f.fn.getLsbD 1 = true → queueBusy s.curBank .c = false) →
      (f.fn.getLsbD 2 = true → queueBusy s.curBank .s = false) →
      exec (.qsync h f) s = .next (regsDone s (.qsync h f) s.curBank.r))

/-! ## Handles -/

/-- R109, R111, R114 to R116: `xlat` of an address whose leaf the first-level TLB holds fills h[H] with it, after releasing what h[H]
held, pins a 64 KiB leaf with PN, and with NF sets p[PD]; `hfree` releases a handle, `hunpin` lowers its pin, `hinfo` reads a
field of it. -/
def Obligations.HandleWords : Prop :=
  ∀ (h : Hdr) (f : FS) (s : State), guardOn h s = true →
    let b := s.curBank
    let hd := BitVec.ofNat 4 f.d.toNat
    let x := b.r.hreg hd
    let y := b.r.hreg (BitVec.ofNat 4 f.a.toNat)
    let va := b.r.sreg f.a
    (∀ e : TlbEntry, va.toNat < 2 ^ 60 → tlb1Find s s.cur b.csr.asid va.toNat = some e → b.f.walked = false →
      pteKind e.leaf ≠ 3 → (ptePRV e.leaf = true → b.priv = true) → (f.fn.getLsbD 2 = true → pteRD e.leaf = true) →
      (f.fn.getLsbD 3 = true → leafW e.leaf e.level = true) → (f.fn.getLsbD 4 = true → pteX e.leaf = true) →
      let nf (r : Regs) : Regs := if f.fn.getLsbD 1 then r.setP (BitVec.ofNat 3 f.b.toNat) true else r
      let new (pin : Bool) : Handle := mkHandle e.leaf e.level e.id va.toNat (Tid.die (Who.tile s.cur)) pin (s.now + 12)
      (f.fn.getLsbD 0 = false ∨ e.level ≠ 3 →
        exec (.xlat h f) s = .next (wordDone ((s.releaseHandle s.cur hd).modBank s.cur fun b =>
          b.modR fun r => (nf r).setH hd (new false)) (.xlat h f))) ∧
      (f.fn.getLsbD 0 = true → e.level = 3 →
        homeHeld s (ptePa e.id / 64) = false → s.hub.filter.contains (ptePa e.id / 64) = false →
        let s1 := (s.pteNow e.id).2.releaseHandle s.cur hd
        let s2 := (s1.pteNow e.id).2
        pteMST (s.pteNow e.id).1 < 2 → ptePin (s1.pteNow e.id).1 ≠ 4095 →
        let s3 := s2.modBank s.cur fun b => b.modR nf
        exec (.xlat h f) s = .next (wordDone ((s3.raisePin e.id).2.modBank s.cur fun b => b.modR fun r => r.setH hd (new true))
          (.xlat h f)))) ∧
    exec (.hfree h f) s = .next (wordDone (s.releaseHandle s.cur hd) (.hfree h f)) ∧
    (x.pinned = true → exec (.hunpin h f) s = .next (wordDone ((s.lowerPin x.id).modBank s.cur fun b =>
      b.modR fun r => r.setH hd { x with pinned := false }) (.hunpin h f))) ∧
    (x.pinned = false → exec (.hunpin h f) s = .next (regsDone s (.hunpin h f) b.r)) ∧
    (y.readyAt ≤ s.now → exec (.hinfo h f) s = .next (regsDone s (.hinfo h f)
      (b.r.setS f.d (match f.fn.toNat % 4 with
        | 0 => BitVec.ofNat 64 y.attr
        | 1 => if b.priv = true ∧ y.valid = true then y.base.setWidth 64 else 0
        | 2 => y.va.setWidth 64
        | _ => if y.valid then y.id.setWidth 64 else 0))))

/-! ## System, task and event words -/

/-- R386 to R389, R427, R431: what the system words do in a context that may run them: `halt` stops a quiet context, `tlb.inv` drops
the TLB entries of its scope in every tile, `mchk.ack` answers the number of the machine check and clears MCK, `ctx.swap` starts
the exchange of banks, `apx.inv` marks the slots of its scope INVALID, `pwr.req` queues a request for a window or releases it. -/
def Obligations.SystemWords : Prop :=
  ∀ (h : Hdr) (s : State), guardOn h s = true →
    let w := s.cur
    let b := s.curBank
    (∀ x : BitVec 32, b.priv = true → quietNow s →
      exec (.halt h x) s = .next ((wordDone s (.halt h x)).modCtx w fun c => { c with status := .stopped })) ∧
    (∀ f : FS, b.priv = true → f.fn.toNat % 4 ≠ 3 →
      let gone (x : TlbEntry) : Bool := f.fn.toNat % 4 == 0 || (x.asid == (b.r.sreg f.a).setWidth 16 && (f.fn.toNat % 4 == 1 ||
        x.vpn.toNat / 2 ^ (levelBits x.level - 16) == (b.r.sreg f.b).toNat / 2 ^ 16 % 2 ^ 44 / 2 ^ (levelBits x.level - 16)))
      let gone2 (x : TlbEntry) : Bool := f.fn.toNat % 4 == 0 || (x.asid == (b.r.sreg f.a).setWidth 16 && (f.fn.toNat % 4 == 1 ||
        x.vpn.toNat == (b.r.sreg f.b).toNat / 2 ^ 16 % 2 ^ 44))
      exec (.tlbInv h f) s = .next (wordDone
        { s with tiles := s.tiles.map fun t => { t with tlb1 := t.tlb1.filter fun x => !gone x, tlb2 := t.tlb2.filter fun x => !gone2 x } }
        (.tlbInv h f))) ∧
    (∀ f : FS, exec (.mchkAck h f) s = .next (frontDone s (.mchkAck h f)
      { b with r := b.r.setS f.d (if b.csr.mck then b.mckSeq else 0), csr := { b.csr with mck := false }, f := fallThrough b.f })) ∧
    (∀ f : FS, b.priv = true → (s.ctx w).shadow.isSome = true → swapReady s →
      exec (.ctxSwap h f) s = .next ((wordDone s (.ctxSwap h f)).modCtx w fun c => { c with status := .swapping s.now })) ∧
    (∀ f : FS, f.fn.toNat % 4 ≠ 3 → (f.fn.toNat % 4 = 2 → b.priv = true) → b.q.c.all (·.issued) = true →
      exec (.apxInv h f) s = .next (wordDone (s.modCluster (Tid.cluster (Who.tile w)) fun z =>
        { z with fit := z.fit.map fun x =>
            if x.st ≠ .empty ∧ (f.fn.toNat % 4 = 2 ∨ x.ctxid = w ∧ (f.fn.toNat % 4 = 1 ∨ x.id = (b.r.sreg f.a).setWidth 16))
            then { x with st := .invalid, dis := false, fb := 0 } else x }) (.apxInv h f))) ∧
    (∀ f : FK, f.imm.getLsbD 3 = true → exec (.pwrReq h f) s = .next (wordDone (s.releaseWindow w) (.pwrReq h f))) ∧
    (∀ f : FK, f.imm.getLsbD 3 = false → f.imm.toNat % 8 < 5 → (b.r.sreg f.a).toNat % 2 ^ 8 ≠ 0 → (b.r.sreg f.b).toNat % 2 ^ 32 ≠ 0 →
      let win : PwrWin := { serial := b.pwrSerial + 1, cls := f.imm.toNat % 8, n := (b.r.sreg f.a).toNat % 2 ^ 8, len := (b.r.sreg f.b).toNat % 2 ^ 32 }
      let c := Tid.cluster (Who.tile w)
      exec (.pwrReq h f) s = .next (wordDone
        ((((s.releaseWindow w).modBank w fun b => { b with pwrSerial := win.serial, pwr := some win }).modCluster c fun x =>
          x.modGov win.cls fun g => { g with reqs := g.reqs ++ [{ who := w, units := win.n, win := win.serial }] }).serveGrant c win.cls)
        (.pwrReq h f)))

/-- R386, R387, R389, R390, R427: the privileged words raise PRIVILEGE in a context that is not privileged: `halt`, `tlb.inv`, `ctx.swap`,
`ctx.save`, `ctx.load`, and `apx.inv` of every context. That `ctx.load` is privileged is an inference from R390 and R391, which name it
beside `ctx.save`. -/
def Obligations.PrivilegedWordsTrap : Prop :=
  ∀ (i : Instr) (h : Hdr) (s : State), guardOn h s = true → s.curBank.priv = false →
    (∃ f : FS, i = .ctxSwap h f ∨ i = .ctxSave h f ∨ i = .ctxLoad h f ∨ i = .tlbInv h f ∨ (i = .apxInv h f ∧ f.fn.toNat % 4 = 2)) ∨
    (∃ x, i = .halt h x) →
    exec i s = .next (s.trapHere Cause.privilege (wordAsInfo i))

/-- R390 to R392: `ctx.save` writes the image of the shadow bank at s[a] and empties the bank; `ctx.load` fills an empty shadow bank
from the image at s[a], whose limits it checks first. The places of fields within an area whose inner layout R390 leaves open (log 58), what an image leaves out and
its start value at the load (log 59), the units that frozen words give back (log 57) and the pin of a handle that is not translated again
(log 63) are the model's choice. -/
def Obligations.ContextImageWords : Prop :=
  ∀ (h : Hdr) (f : FS) (s : State), guardOn h s = true → s.curBank.priv = true → s.curBank.posted = [] →
    (∀ l, lineHeld s s.cur l = false) →
    let w := s.cur
    let a := (s.curBank.r.sreg f.a).toNat
    a % 2 ^ 16 = 0 → isLocal a = true →
    (∀ b, (s.ctx w).shadow = some b → shadowQuiet s w b = true → s.hub.filter = [] → noLstep s →
      exec (.ctxSave h f) s = .next (wordDone
        (((s.takeShadow w b).2.releaseWindow w).writePieces w a (imagePieces (s.takeShadow w b).1)) (.ctxSave h f))) ∧
    (∀ ps t, (s.ctx w).shadow = none → (readImage w a).run.run s = (.ok ps, t) →
      let x := savedOf t ps
      rangesMeet ((t.bank w).csr.spFirst.toNat, (t.bank w).csr.spCount.toNat) (x.bank.csr.spFirst.toNat, x.bank.csr.spCount.toNat) = false →
      frameOk ps = true → ps.num 0x10000 4 = 1 → savedMoves t w x = false → loadFails (t.tile (Who.tile w)) x = none →
      exec (.ctxLoad h f) s = .next (wordDone
        ((t.bringBack w x true).2.modCtx w fun c => { c with shadow := some (t.bringBack w x true).1 }) (.ctxLoad h f)))

/-- R360, R361, R363 to R365, R386: `task.post` writes an entry of 32 bytes at TAIL of its ring and moves TAIL; `task.end` ends an
instance that holds no running channel and no accumulator bank; `task.yield` goes on where no other instance is to run, and else starts to save its context;
`evt.wait` answers 1 when its condition holds; `wfe` goes on when its sleep is over, and begins one otherwise. That a
`task.yield` goes on while the shadow bank is occupied, and passes over scratchpad quotas, is the model's choice (log 56). -/
def Obligations.TaskAndEventWords : Prop :=
  ∀ (h : Hdr) (f : FS) (s : State), guardOn h s = true →
    let w := s.cur
    let b := s.curBank
    (let q : Fin 1024 := ⟨f.fn.toNat % 1024, Nat.mod_lt _ (by decide)⟩
     let d := s.qdesc q
     let k := BitVec.ofNat 4 f.a.toNat
     let off := (b.r.sreg f.b).toNat
     let pa := d.ring.toNat + 32 * d.tail.toNat
     d.en = true → d.devok = true → (d.asid = b.csr.asid ∨ b.priv = true) → off % 128 = 0 → accessOk s { rd := true } k off 1 →
     (d.tail.toNat + 1) % 2 ^ d.size.toNat ≠ d.head.toNat → b.posted = [] → pairClear w s pa → linesOpen s pa 32 → s.hub.filter = [] → noLstep s →
     exec (.taskPost h f) s = .next (wordDone
       (((s.nonAbortable w).ctxPut w pa
         (plain (leBytes ((b.r.hreg k).va.toNat + off) 8 ++ leBytes (b.r.sreg f.d).toNat 8 ++ leBytes 0 16)) 2).writeTail q
           (BitVec.ofNat 32 ((d.tail.toNat + 1) % 2 ^ d.size.toNat))) (.taskPost h f))) ∧
    (apxOpen b = false → quietNow s → b.smpOut = [] → (∀ x ∈ ownChans s w, x.2.st ≠ .run ∧ x.2.st ≠ .fault) →
      b.z.all (·.banks == 0) = true → exec (.taskEnd h f) s = .next ((wordDone s (.taskEnd h f)).endInstance w)) ∧
    (apxOpen b = false → quietNow s → yieldsTo s w = false →
      exec (.taskYield h f) s = .next (regsDone s (.taskYield h f) b.r)) ∧
    (apxOpen b = false → quietNow s → yieldsTo s w = true →
      exec (.taskYield h f) s = .next
        (((wordDone s (.taskYield h f)).modCtx w fun c => { c with status := .trapping, preempt := true }).tryPark w)) ∧
    (let k := f.fn.extractLsb' 0 4
     let off := (b.r.sreg f.a).toNat
     let pa := accessPa s k off
     let d := lineNow s (pa / 64)
     let cond := f.fn.toNat / 2 ^ 4 % 8
     apxOpen b = false → accessOk s { rd := true } k off 8 → memReady s k pa → d.2 = false →
     evtCond cond (valueIn d.1 pa 8) (b.r.sreg f.b).toNat = true → cond < 4 →
     ∃ t, exec (.evtWait h f) s = .next t ∧ memSame s t ∧
       t.curBank = bankWith b t.curBank (b.r.setP (f.fn.extractLsb' 7 3) true) 0 (fallThrough b.f) false) ∧
    (∀ x, b.f.sleep = some x → wfeOver s w x = true → exec (.wfe h f) s = .next (regsDone s (.wfe h f) b.r)) ∧
    (let k := f.fn.extractLsb' 0 4
     let off := (b.r.sreg f.a).toNat
     b.f.sleep = none → accessOk s { rd := true } k off 8 → b.posted = [] → pairClear w s (accessPa s k off) → linesOpen s (accessPa s k off) 8 →
     exec (.wfe h f) s = .next ((s.modBank w fun b => b.modF fun x => { x with
       sleep := some { pa := BitVec.ofNat 52 (accessPa s k off), since := s.now, checked := s.now, line := true } }).frontWaits w .sleep))

/-! ## Taking a trap and returning from it -/

/-- R376: a trap that waits is taken once the L and S queues have drained: the context runs at TRAPVEC with INH set, the cause and
its information recorded, h15 saved and replaced by a handle on the frame page, no queue entry, latch or token left. It is stated for a
context with no posted store, matrix word, `acc.out` or pim request under way, whose frame may be written at once. That the flags of
the repeats of an `stsp.add` that are done join FPFLAGS then is the model's choice (log 39). -/
def Obligations.TrapEntry : Prop :=
  ∀ (w : Who) (s s1 : State) (t : TrapPend) (pa : Nat) (page : Handle) (m : Bool),
    let b := s.bank w
    (s.ctx w).status = .trapping → (s.ctx w).preempt = false → b.trap = some t → b.csr.inh = false → drained b t.fq = true →
    b.posted = [] → b.csr.trapvec ≠ 0 → b.csr.framebase ≠ 0 → s.framePage w = (some (pa, page), m, s1) →
    (∀ l, lineHeld s w l = false) → s.hub.filter = [] → (b.inst.map (·.lstep)).getD false = false →
    b.c.mats = [] → b.c.accOut = none → b.pimRuns = [] →
    ∃ t', exec (.trapEntry w) s = .next t' ∧ (t'.ctx w).status = .running ∧
      let b' := t'.bank w
      b'.trap = none ∧ b'.f.pc = b.csr.trapvec ∧ b'.q = {} ∧ b'.c.latches = [] ∧
      b'.csr = { b.csr with
        fpflags := b.q.s.foldl (fun a e => a ||| e.flags) b.csr.fpflags
        inh := true, mck := b.csr.mck || t.cls = 3, trapClass := t.cls, trapCode := t.code, trapinfo := t.info } ∧
      b'.h15save = b.r.hreg 15 ∧ b'.r = b.r.setH 15 page ∧ b'.c.cc = b.c.cc

/-- R379: header and register areas of a frame, field by field. The bytes that the rule calls reserved hold 0, which is the model's choice
(log 8). -/
def Obligations.FrameLayout : Prop :=
  ∀ (b : Bank) (h15 : Handle) (k : FrameHead),
    let fr := frameHeader b h15 k
    fr.length = 0x2600 ∧
    (∀ o ∈ [(0x26, 2), (0x34, 4), (0x3A, 6), (0x98, 104), (0x520, 224)], fieldAt fr o.1 o.2 = 0) ∧
    fieldAt fr 0 8 = b.csr.trapcause % 2 ^ 64 ∧ fieldAt fr 8 8 = b.csr.trapinfo.toNat ∧
    fieldAt fr 0x10 8 = k.pc.toNat ∧ fieldAt fr 0x18 8 = k.fpc.toNat ∧ fieldAt fr 0x20 1 = k.fq.toNat ∧
    fieldAt fr 0x21 1 = k.fidx % 2 ^ 8 ∧ fieldAt fr 0x22 1 = b.q.l.length % 2 ^ 8 ∧ fieldAt fr 0x23 1 = b.q.c.length % 2 ^ 8 ∧
    fieldAt fr 0x24 1 = b.q.s.length % 2 ^ 8 ∧ fieldAt fr 0x25 1 = b.c.latches.length % 2 ^ 8 ∧
    fieldAt fr 0x28 1 = b.q.lc % 2 ^ 8 ∧ fieldAt fr 0x29 1 = b.q.cl % 2 ^ 8 ∧ fieldAt fr 0x2A 1 = b.q.cs % 2 ^ 8 ∧
    fieldAt fr 0x2B 1 = b.q.sc % 2 ^ 8 ∧ fieldAt fr 0x2C 4 = b.c.vhold % 2 ^ 32 ∧ fieldAt fr 0x30 4 = b.c.mskip % 2 ^ 32 ∧
    (∀ j : Fin 8, (fieldAt fr 0x38 1).testBit j.val = b.r.preg (BitVec.ofNat 3 j.val)) ∧ fieldAt fr 0x39 1 = b.c.mprio.toNat ∧
    fieldAt fr 0x40 8 = b.ccycle % 2 ^ 64 ∧ fieldAt fr 0x48 8 = b.pts % 2 ^ 64 ∧
    fieldAt fr 0x50 8 = b.csr.fpflags.toNat ∧ fieldAt fr 0x58 8 = b.csr.attz.toNat ∧ fieldAt fr 0x60 8 = b.csr.lease.toNat ∧
    fieldAt fr 0x68 8 = b.csr.qslip.toNat ∧ fieldAt fr 0x70 8 = b2n b.csr.spdisc ∧
    (∀ j : Fin 4, fieldAt fr (0x78 + 8 * j.val) 8 = (b.r.lc[j]).toNat) ∧
    (∀ j : Fin 32, fieldAt fr (0x100 + 8 * j.val) 8 = (b.r.sreg (BitVec.ofNat 5 j.val)).toNat) ∧
    (∀ j : Fin 16, (fr.drop (0x200 + 32 * j.val)).take 32 = handleBytes (if j.val = 15 then h15 else b.r.h[j])) ∧
    (∀ j : Fin 8, fieldAt fr (0x400 + 32 * j.val) 32 = (b.r.m[j]).toNat) ∧
    (∀ j : Fin 16, fieldAt fr (0x500 + j.val) 1 = (b.r.belt[j]).tag.code ∧ fieldAt fr (0x510 + j.val) 1 = (b.r.n[j]).tag.code ∧
      fieldAt fr (0x600 + 256 * j.val) 256 = (b.r.belt[j]).bits.toNat ∧ fieldAt fr (0x1600 + 256 * j.val) 256 = (b.r.n[j]).bits.toNat)

/-- R383: `eret` in a handler of a quiet context restores from the frame the scalars, predicates, counts, queues and PC, and clears
INH; outside a handler it raises ILLEGAL_INSTRUCTION. The frame keeps the limits of the rule, its PC is legal, and no machine check is
pending. -/
def Obligations.EretWord : Prop :=
  ∀ (h : Hdr) (x : BitVec 32) (s : State), guardOn h s = true →
    let w := s.cur
    let i := Instr.eret h x
    (s.curBank.csr.inh = false → exec i s = .next (s.trapHere Cause.illegalInstruction (wordAsInfo i))) ∧
    (∀ s1 s2 pa page m ps, s.curBank.csr.inh = true → quietNow s → s.framePage w = (some (pa, page), m, s1) → linesOpen s1 pa 0xC600 →
      (readFrame w pa (w64 (framebaseVa (s1.bank w).csr))).run.run s1 = (.ok ps, s2) → frameOk ps = true → s.curBank.csr.mck = false →
      ps.num 0x10 8 % 4 = 0 → ps.num 0x10 8 % 32 < 20 →
      ∃ t, exec i s = .next t ∧ t = (wordDone s2 i).restoreFrame w ps ∧
        let b := t.bank w
        b.csr.inh = false ∧ b.f.pc = BitVec.ofNat 60 (ps.num 0x10 8) ∧ b.r.hreg 15 = s.curBank.h15save ∧
        (∀ j : Fin 32, b.r.sreg (BitVec.ofNat 5 j.val) = if j.val = 0 then 0 else w64 (ps.num (0x100 + 8 * j.val) 8)) ∧
        (∀ j : Fin 4, b.r.lc[j] = BitVec.ofNat 32 (ps.num (0x78 + 8 * j.val) 8)) ∧
        (∀ j : Fin 8, b.r.preg (BitVec.ofNat 3 j.val) = (j.val = 0 || (ps.num 0x38 1).testBit j.val)) ∧
        b.csr.fpflags = BitVec.ofNat 6 (ps.num 0x50 8) ∧
        b.q.l.length = ps.num 0x22 1 ∧ b.q.s.length = ps.num 0x24 1 ∧ b.c.latches.length = ps.num 0x25 1)

/-! ## Words of the L and S queues -/

/-- R29, R43, R44, R323: a queue word at the front end whose queue is headed by another word dispatches when it is admitted: an entry
with its captured operands joins the tail of its queue, and the front end goes on; no word issues. The words of an approximable region
that trap at their dispatch are left out (R418, R419). A word that issues with a false guard, or marked to be skipped, does its token actions and nothing else (R32), as do `lnop` and `snop` (R316, R366). -/
def Obligations.QueueWords : Prop :=
  ∀ (i : Instr) (q : QName) (e : Entry) (s : State), queueOf i = some q →
    (s.curBank.q.get q).head? = some e →
    (e.word ≠ word48 i → admitted s s.cur q i 1 = true → s.apxGate s.cur (word48 i) = none →
      exec i s = .next ((((if abortsEnd i then s.nonAbortable s.cur else s).modTile (Who.tile s.cur) fun t => { t with fewSeen := true }).modBank
        s.cur fun b =>
          { b with
            q := b.q.set q (b.q.get q ++ [capture b i (hdrOf (word48 i)) b.f.pc b.f.nextPos false])
            f := { b.f with nextPos := b.f.nextPos + 1 } }).modBank s.cur fun b => b.modF Front.advance)) ∧
    (headOf q i e s → q ≠ .c → ¬ entryRuns e → exec i s = .next (lsIssued s.cur q e true (lsStart q e s))) ∧
    (headOf q i e s → s.curBank.posted = [] → (∃ h x, i = .lnop h x ∨ i = .snop h x) →
      exec i s = .next (lsIssued s.cur q e true (lsStart q e s)))

/-- R40, R41, R140, R171 to R173, R315: a run-length word does its repeats from MPC to REP in order, each noted in MPC when it is done, and
is then in flight with its work done. So `ldsp`, `ldsp.g`, `ldsp.t`, `spfill`, `spcopy`, `stsp`, `stsp.s`, `stsp.t` and `stsp.add` complete
where every repeat that is left is aligned, in its page and in its quota, and nothing holds it; of a gather no row that it writes may reach
its table of indexes. `prf` completes always. -/
def Obligations.RunLengthWords : Prop :=
  (∀ (i : Instr) (q : QName) (f : FM) (body : Who → Entry → Nat → M Unit) (e : Entry) (s t : State), fmWord i = some (q, f, body) →
    lsReady q i e s →
    repeatsRun q (body s.cur e) s.cur ((List.range (f.rep.toNat + 1)).drop e.mpc) (lsStart q e s) = some t →
    exec i s = .next (lsIssued s.cur q e true t)) ∧
  ∀ (h : Hdr) (f : FM) (e : Entry) (s : State),
    let left (j : Nat) : Prop := e.mpc ≤ j ∧ j ≤ f.rep.toNat
    let lines (x : Int) : Prop := ∃ a : Nat, x = a ∧ a % 64 = 0 ∧ spReady s a (fmBytes f)
    let none' (j : Nat) : Prop := indexNow s e j = 0xFFFFFFFF
    (lsReady .l (.ldsp h f) e s → (∀ j, left j → moveReady e f { rd := true } s (fmOffset e j) (fmSpad e j)) →
      ∃ t, exec (.ldsp h f) s = .next (lsIssued s.cur .l e true t)) ∧
    (lsReady .l (.ldspG h f) e s →
      (∀ j, left j → indexReady e s j ∧ (none' j → lines (packedSpad e f j)) ∧
        (¬ none' j → moveReady e f { rd := true } s (rowOffset e (indexNow s e j)) (packedSpad e f j)) ∧
        ∀ k, left k → indexAddr e j / 4096 ∉ slotsOf (packedSpad e f k) (fmBytes f)) →
      ∃ t, exec (.ldspG h f) s = .next (lsIssued s.cur .l e true t)) ∧
    (lsReady .l (.ldspT h f) e s → (∀ j, left j → tileReady e f { rd := true } s j) →
      ∃ t, exec (.ldspT h f) s = .next (lsIssued s.cur .l e true t)) ∧
    (lsReady .l (.spfill h f) e s → (∀ j, left j → lines (fmSpad e j)) → ∃ t, exec (.spfill h f) s = .next (lsIssued s.cur .l e true t)) ∧
    (lsReady .l (.spcopy h f) e s → (∀ j, left j → lines (fmSpad e j) ∧ lines ((e.s 0).toNat + j * sext (e.s 3).toNat 32)) →
      ∃ t, exec (.spcopy h f) s = .next (lsIssued s.cur .l e true t)) ∧
    (lsReady .l (.prf h f) e s → ∃ t, exec (.prf h f) s = .next (lsIssued s.cur .l e true t)) ∧
    (lsReady .s (.stsp h f) e s → (∀ j, left j → moveReady e f { w := true } s (fmOffset e j) (fmSpad e j)) →
      ∃ t, exec (.stsp h f) s = .next (lsIssued s.cur .s e true t)) ∧
    (lsReady .s (.stspS h f) e s →
      (∀ j, left j → indexReady e s j ∧
        (¬ none' j → moveReady e f { w := true } s (rowOffset e (indexNow s e j)) (packedSpad e f j))) →
      ∃ t, exec (.stspS h f) s = .next (lsIssued s.cur .s e true t)) ∧
    (lsReady .s (.stspT h f) e s → (∀ j, left j → tileReady e f { w := true } s j) →
      ∃ t, exec (.stspT h f) s = .next (lsIssued s.cur .s e true t)) ∧
    (lsReady .s (.stspAdd h f) e s →
      (∀ j, left j → moveReady e f { rd := true, w := true } s (fmOffset e j) (fmSpad e j) ∧
        checkSpFail (s.tile (Who.tile s.cur)) s.curBank (fmSpad e j).toNat (fmBytes f) none (some (if f.flg.getLsbD 0 then 6 else 1)) = none) →
      ∃ t, exec (.stspAdd h f) s = .next (lsIssued s.cur .s e true t))

/-- R140, R171 to R173, R315: one repeat of `spfill` writes the captured scalar to every 8 bytes of its range, one of `spcopy` copies its range,
one of `ldsp` copies memory to the scratchpad, and one of `stsp` copies the scratchpad to memory; nothing else of either changes. One of
`ldsp.g` and of `stsp.s` does so with the row that its index names, or writes zeros, or nothing, where the index is 0xFFFF_FFFF; one of
`ldsp.t` takes its rows to lines or to a tile in a layout, one of `stsp.t` takes them back, one of `stsp.add` adds element by element, and
one of `prf` brings lines nearer and changes no byte. Lines of a first-level cache are left out of the statement. -/
def Obligations.LineMoves : Prop :=
  ∀ (e : Entry) (f : FM) (j a : Nat) (s : State),
    let w := s.cur
    let n := fmBytes f
    let m := fmOffset e j
    let pa := copyPa e 0 m
    fmSpad e j = (a : Int) → a % 64 = 0 → spReady s a n →
    (∃ t, answers (spfillRepeat w e f j) s () t ∧ spHolds s t a ((List.range n).map fun k => BitVec.ofNat 8 ((e.s 0).toNat / 2 ^ (8 * (k % 8))))) ∧
    (∀ src : Nat, (src : Int) = (e.s 0).toNat + j * sext (e.s 3).toNat 32 → src % 64 = 0 → spReady s src n →
      ∃ t, answers (spcopyRepeat w e f j) s () t ∧ spHolds s t a ((List.range n).map fun k => spByte s (src + k))) ∧
    (m % 64 = 0 → watermarkHolds (s.tile (Who.tile w)) (Who.ctx w) true (vaOf (e.handle 0).2 m) n = false → memClear s pa n →
      (copyOk e 0 { rd := true } m n → (s.tile (Who.tile w)).l1 = [] → (∀ k, k < n → (lineNow s ((pa + k) / 64)).2 = false) →
        ∃ t, answers (ldspMove w e f m a) s () t ∧ memSame s t ∧ spHolds s t a ((List.range n).map fun k => byteAt s (pa + k))) ∧
      (copyOk e 0 { w := true } m n → inPair pa = false →
        ∃ t, answers (stspMove w e f m a) s () t ∧ memHolds s t pa ((List.range n).map fun k => spByte s (a + k))) ∧
      (copyOk e 0 { rd := true, w := true } m n → (∀ k, k < n → (lineNow s ((pa + k) / 64)).2 = false) →
        checkSpFail (s.tile (Who.tile w)) s.curBank a n none (some (if f.flg.getLsbD 0 then 6 else 1)) = none →
        ∃ t, answers (stspAddRepeat w e f j) s () t ∧ (∀ b, (b < pa ∨ pa + n ≤ b) → byteAt t b = byteAt s b) ∧
          ∀ k, k < n / 4 →
            let old := valueIn (lineNow s ((pa + 4 * k) / 64)).1 (pa + 4 * k) 4
            let x := leNat (memRead (s.tile (Who.tile w)).sp (a + 4 * k) 4)
            valueIn (lineNow t ((pa + 4 * k) / 64)).1 (pa + 4 * k) 4 =
              if f.flg.getLsbD 0 then (old + x) % 2 ^ 32 else (roundFP32 (Machine.Num.add (fmtFP32.value old) (fmtFP32.value x)).1).1)) ∧
    (indexReady e s j → a = packedSpad e f j →
      let x := indexNow s e j
      (x = 0xFFFFFFFF →
        (∃ t, answers (ldspGRepeat w e f j) s () t ∧ spHolds s t a (List.replicate n 0)) ∧ answers (stspSRepeat w e f j) s () s) ∧
      (x ≠ 0xFFFFFFFF → (ldspGRepeat w e f j).run.run s = (ldspMove w e f (rowOffset e x) a).run.run s ∧
        (stspSRepeat w e f j).run.run s = (stspMove w e f (rowOffset e x) a).run.run s)) ∧
    (tileReady e f { rd := true } s j → (s.tile (Who.tile w)).l1 = [] → (∀ m ∈ tileRows e f j, (lineNow s (copyPa e 0 m / 64)).2 = false) →
      ∀ word, let rows := (tileRows e f j).map fun m => (List.range 64).map fun k => byteAt s (copyPa e 0 m + k)
      ∃ t, answers (ldspTRepeat w word e f j) s () t ∧ memSame s t ∧
        spHolds s t a (if tileCv f = 0 then rows.flatten else placeRows (tileCv f) (tileE f) rows)) ∧
    (tileReady e f { w := true } s j → (tileRows e f j).Nodup → ∀ word,
      ∃ t, answers (stspTRepeat w word e f j) s () t ∧
        (∀ (i : Fin 256) (m : Nat), (tileRows e f j)[i.val]? = some m → ∀ k, k < 64 → byteAt t (copyPa e 0 m + k) =
          if tileCv f = 0 then spByte s (a + 64 * i.val + k)
          else (takeRow (tileCv f) (tileE f) (memRead (s.tile (Who.tile w)).sp a 4096) i.val).getD k 0) ∧
        ∀ b, (∀ m ∈ tileRows e f j, b < copyPa e 0 m ∨ copyPa e 0 m + 64 ≤ b) → byteAt t b = byteAt s b) ∧
    (arraysSound s → (e.handle 0).2.mig = false →
      ∃ t, answers (prfRepeat w e f j) s () t ∧ memSame s t ∧ (t.tile (Who.tile w)).sp = (s.tile (Who.tile w)).sp ∧ t.curBank.r = s.curBank.r ∧
        (f.len = 0 → f.flg.getLsbD 0 = false → copyOk e 0 { rd := true } m 1 → reaches s (copyPa e 0 m) = true →
          ((e.handle 0).2.size = 0 → pteMST (s.pteNow (e.handle 0).2.id).1 = 0) → (kvGet t.hub.home (copyPa e 0 m / 64)).isSome = true))

/-- R152, R181 to R184: `cp.launch` starts a channel on the record that it has read and checked, or restarts a faulted one; `cp.adv`
and `cp.advs` raise SC of a busy channel of the context; `cp.arm` sets or clears the watermark of a channel and ends the waits on it;
`cp.cancel` cancels one channel of the context, or all, and ends the waits on them. -/
def Obligations.CopyWords : Prop :=
  ∀ (h : Hdr) (f : FK) (e : Entry) (s : State),
    let w := s.cur
    let t := Who.tile w
    let k : Fin 8 := ⟨f.imm.toNat % 8, Nat.mod_lt _ (by decide)⟩
    let c := s.chan t k
    let own (x : CopyChan) : CopyChan := { x with owner := Who.ctx w, away := false }
    let busy := c.st = .run ∨ c.st = .fault
    let up (q : QName) (x : CopyChan) : CopyChan :=
      let sc := min 65535 (x.sc + f.imm.toNat / 8 % 2 ^ 14)
      { x with sc, advs := if sc = x.sc then x.advs else x.advs ++ [{ sc, q, ser := s.curBank.ser }] }
    (∀ s1 header es, lsReady .l (.cpLaunch h f) e s → f.imm.getLsbD 7 = false → ¬ busy → answers (launchRecord w e) (lsStart .l e s) (header, es) s1 →
      cpBytes es ≤ 65536 →
      exec (.cpLaunch h f) s = .next (lsIssued s.cur .l e true (s1.modChan t k fun x =>
        { own x with
          st := .run, sc := 0, next := 0, cnt := es.length, header, entries := es
          recVa := BitVec.ofNat 60 ((e.handle 0).2.va.toNat + (e.s 0).toNat), caps := (s1.bank w).r.h, fly := [], advs := [{ sc := 0, ser := (s1.bank w).ser }], compl := [], counted := 0, grant := none }))) ∧
    (lsReady .l (.cpLaunch h f) e s → f.imm.getLsbD 7 = true → c.st = .fault → c.entries.length = c.cnt → c.next < c.entries.length →
      exec (.cpLaunch h f) s = .next (lsIssued s.cur .l e true ((lsStart .l e s).modChan t k fun x =>
        { own x with st := .run, caps := s.curBank.r.h, advs := [{ sc := x.sc, ser := s.curBank.ser }] }))) ∧
    (lsReady .l (.cpAdv h f) e s → exec (.cpAdv h f) s = .next (lsIssued s.cur .l e true
      (if c.ofCtx (Who.ctx w) = true ∧ busy then (lsStart .l e s).modChan t k (up .l) else lsStart .l e s))) ∧
    (lsReady .s (.cpAdvs h f) e s → exec (.cpAdvs h f) s = .next (lsIssued s.cur .s e true
      (if c.ofCtx (Who.ctx w) = true ∧ busy then (lsStart .s e s).modChan t k (up .s) else lsStart .s e s))) ∧
    (lsReady .l (.cpArm h f) e s → (f.imm.getLsbD 4 = true ∨ (e.s 0).toNat ≤ (e.s 1).toNat) →
      exec (.cpArm h f) s = .next (lsIssued s.cur .l e true
        (if c.ofCtx (Who.ctx w) = false ∧ busy then lsStart .l e s else ((lsStart .l e s).endWaits w k).modChan t k fun x =>
          if f.imm.getLsbD 4 then { own x with armed := false }
          else { own x with armed := true, armMem := f.imm.getLsbD 3, lo := (e.s 0).toNat, hi := (e.s 1).toNat, wm := (e.s 0).toNat }))) ∧
    (lsReady .l (.cpCancel h f) e s → exec (.cpCancel h f) s = .next (lsIssued s.cur .l e true
      (if f.imm.getLsbD 3 then ((List.finRange 8).foldl (fun s k => s.endWaits w k) (lsStart .l e s)).cancelAll w
       else if c.ofCtx (Who.ctx w) then ((lsStart .l e s).endWaits w k).cancelChan t k else lsStart .l e s)))

/-- R281, R282, R284 to R288: the key-value words complete, where no earlier one of the context is under way and the descriptor passes
its checks. `kv.get` raises RDR and is under way; `kv.put` takes the curds it needs, writes the tokens and LEN; the provisional form raises
PEND and hands its source bytes to a hidden entry; `kv.commit` and `kv.squash` with nothing pending append their nodes, advance SID and
clear CLOSING; `kv.press` takes a wheel and is under way, or has no effect; `kv.fold` is under way, or has no effect. R283, R289: the
engine's steps that finish the words complete too, where its accesses wait for nothing. The step of `kv.get` has written the keys, the values
and the scales of its 64 columns and lowers RDR; that of `kv.press` copies the wheel, publishes it in the table and in STATE, and defers
the 16 curds; that of `kv.fold` folds the wheel into the brine state, raises FW and defers the wheel; a hidden entry lands in its
node and lowers PEND; `kv.commit` and `kv.squash` go on once PEND is 0. -/
def Obligations.KeyValueWords : Prop :=
  (∀ (h : Hdr) (f : FK) (e : Entry) (s : State), kvQuiet s → noLstep s →
      let w := s.cur
      let hn := (e.handle 0).1
      let x := (e.handle 0).2
      let off := (e.s 0).toNat
      (∀ d s1 st s2 es s3 n s4 s5, lsReady .l (.kvGet h f) e s → getPart f ≠ 3 →
        answers (descChecks w .l { rd := true } hn x off) (lsStart .l e s) d s1 → kvLayer e < d.l → getHead e < d.h →
        (getVat f = false → getN e ≠ 0 ∧ getN e ≤ 64 ∧ getP0 e % 64 = 0) → getDk e % 64 = 0 → getDv e % 64 = 0 → getDs e % 256 = 0 →
        answers (readState w (d.table (kvLayer e))) s1 st s2 →
        answers (if getVat f then pure [] else sampleRange w (d.table (kvLayer e)) st (getP0 e)) s2 es s3 →
        (getVat f = false → 256 * st.fw ≤ getP0 e ∧ getP0 e < st.len) → (s3.tile (Who.tile w)).sound = true →
        let ranges := getRanges f e d (!getVat f && (KvBlock.ofNat (es.headD 0)).fp8)
        (∀ r ∈ ranges, checkSpFail (s3.tile (Who.tile w)) (s3.bank w) r.1 r.2.1 (some r.2.2.1) (some r.2.2.2) = none ∧
          watermarkHolds (s3.tile (Who.tile w)) (Who.ctx w) false r.1 r.2.1 = false ∧
          engineHolds (s3.tile (Who.tile w)) (s3.bank w) w .l r.1 r.2.1 = false) →
        answers (rdr w (d.table (kvLayer e))) s3 n s4 → answers (kvSet w (d.table (kvLayer e) + 8) 4 (n + 1)) s4 () s5 →
        exec (.kvGet h f) s = .next (lsIssued s.cur .l e false (s5.modBank w fun b => { b with kvRuns := b.kvRuns ++
          [{ word := e.word, entry := e, desc := BitVec.ofNat 52 d.pa, samp := st.toNat :: es, push := pushOf .l e.word
             ser := (s5.bank w).ser, spad := ranges.map fun r => (r.1, r.2.1) }] }))) ∧
      (∀ d src s1 st s2 room s3 bs s4 s5 s6 now s7 s8, lsReady .s (.kvPut h f) e s →
        answers (putChecks f (word48 (.kvPut h f)) false w e) (lsStart .s e s) (d, src) s1 →
        let t := d.table (kvLayer e)
        let p := putPos e
        let need := st.cn (max st.len (p + putN f)) - st.cn st.len
        let row (o : Nat) : List MByte := plain ((src.drop o).take (2 * d.h * d.d))
        answers (readState w t) s1 st s2 → 256 * st.w ≤ p → p ≤ st.len → st.cn (max st.len (p + putN f)) ≤ 32 →
        answers (freeBlocks w d false) s2 room s3 → need ≤ room → answers (popBlocks w d need) s3 bs s4 →
        answers (addCurds w t st (st.cn st.len) bs) s4 () s5 →
        let put (k : Nat) : M Unit := putToken w d t st (p + k) (row (0 + 2 * d.h * d.d * k) ++ row (2 * putN f * d.h * d.d + 2 * d.h * d.d * k))
        answers (do for k in List.range (putN f) do put k) s5 () s6 →
        answers (readState w t) s6 now s7 → answers (writeState w t { now with len := max now.len (p + putN f) }) s7 () s8 →
        exec (.kvPut h f) s = .next (lsIssued s.cur .s e true s8)) ∧
      (∀ d src s1 s2, lsReady .s (.kvPutProvisional h f) e s →
        answers (putChecks f (word48 (.kvPutProvisional h f)) true w e) (lsStart .s e s) (d, src) s1 → d.closing = false →
        answers (setPend w d (d.pend + 1)) s1 () s2 →
        exec (.kvPutProvisional h f) s = .next (lsIssued s.cur .s e false (s2.modTile (Who.tile w) fun t => Tile.releaseHidden
          { t with hidden := t.hidden ++ [{ who := w, desc := BitVec.ofNat 52 d.pa, sid := BitVec.ofNat 32 d.sid, node := BitVec.ofNat 6 (putNode f)
                                            layer := BitVec.ofNat 16 (kvLayer e), data := src, pos := some e.pos }] }))) ∧
      (∀ i nodes d s1 s2 s3 d' s5 s6 s7 s8 s9,
        (i = .kvCommit h f ∧ nodes = commitList (e.s 1) ∨ i = .kvSquash h f ∧ nodes = []) → lsReady .s i e s →
        answers (descChecks w .s { w := true } hn x off) (lsStart .s e s) d s1 → nodes.Nodup → answers (setClosing w d true) s1 () s2 →
        answers (cancelHidden (BitVec.ofNat 52 d.pa) nodes) s2 () s3 → (s3.bank w).kvRuns = [] →
        let s4 := s3.modBank w fun b => { b with kvRuns := [{ word := e.word, entry := e, desc := BitVec.ofNat 52 d.pa, stage := 1 }] }
        answers (readDesc w (BitVec.ofNat 52 d.pa).toNat) s4 d' s5 → d'.pend = 0 →
        (if nodes = [] then s6 = s5 ∧ s7 = s5 else answers (commitFails w d' nodes) s5 none s6 ∧ answers (commitAppend w d' nodes) s6 () s7) →
        answers (setSid w d' ((d'.sid + 1) % 2 ^ 32)) s7 () s8 → answers (setClosing w d' false) s8 () s9 →
        exec i s = .next (lsIssued s.cur .s e true (s9.endKvRun w e.pos))) ∧
      (∀ d s1 flag s2 dn s3 st s4, lsReady .l (.kvPress h f) e s →
        answers (descChecks w .l { w := true } hn x off) (lsStart .l e s) d s1 → pressLayer (e.s 1) < d.l →
        let t := d.table (pressLayer (e.s 1))
        answers (kvNum w (t + 13) 1) s1 flag s2 → flag % 2 = 0 → answers (dcnt w t) s2 dn s3 → dn ≤ 16 → answers (readState w t) s3 st s4 →
        (st.w ≠ pressExpected (e.s 1) ∨ st.len < 256 * st.w + 256 → exec (.kvPress h f) s = .next (lsIssued s.cur .l e true s4)) ∧
        (∀ cap s5 room s6 wheel s7 g s8 s9, st.w = pressExpected (e.s 1) → 256 * st.w + 256 ≤ st.len → answers (wcap w t) s4 cap s5 → st.w < cap →
          answers (freeBlocks w d true) s5 room s6 → room ≠ 0 → answers (popBlock w d true) s6 wheel s7 → answers (kvNum w (t + 13) 1) s7 g s8 →
          answers (kvSet w (t + 13) 1 (g / 2 * 2 + 1)) s8 () s9 →
          exec (.kvPress h f) s = .next (lsIssued s.cur .l e false (s9.modBank w fun b => { b with kvRuns := b.kvRuns ++
            [{ word := e.word, entry := e, desc := BitVec.ofNat 52 d.pa, samp := [wheel.toNat 0], push := pushOf .l e.word }] })))) ∧
      (∀ d s1 dn s2 st s3, lsReady .l (.kvFold h f) e s →
        answers (descChecks w .l { w := true } hn x off) (lsStart .l e s) d s1 → pressLayer (e.s 1) < d.l →
        let t := d.table (pressLayer (e.s 1))
        answers (dcnt w t) s1 dn s2 → dn ≤ 31 → answers (readState w t) s2 st s3 →
        (st.fw ≠ pressExpected (e.s 1) ∨ st.w ≤ st.fw → exec (.kvFold h f) s = .next (lsIssued s.cur .l e true s3)) ∧
        (st.fw = pressExpected (e.s 1) → st.fw < st.w →
          exec (.kvFold h f) s = .next (lsIssued s.cur .l e false (s3.modBank w fun b => { b with kvRuns := b.kvRuns ++
            [{ word := e.word, entry := e, desc := BitVec.ofNat 52 d.pa, samp := [st.fw], push := pushOf .l e.word }] }))))) ∧
  ∀ (w : Who) (t : Tid) (s : State),
    let oldest (r : KvRun) (ops : List Nat) : Prop := (s.bank w).kvRuns.find? (fun r => ops.contains (opOf r.word).toNat) = some r
    let spOf (u : State) (a : Nat) : Byte := memGet (u.tile (Who.tile w)).sp a
    (∀ r, oldest r [0x48] → engReady w s →
      (r.stage = 99 → ∃ u, answers (endGet w r) s () u ∧ exec (.kvGetComplete w) s = .next ((u.endKvRun w r.entry.pos).flyDone w .l r.entry.pos)) ∧
      (r.stage ≠ 99 → (∀ x ∈ r.spad, engineBefore (s.tile (Who.tile w)) (s.bank w) w false .l r.ser x.1 x.2 = false) →
        ∃ d s1 s2 s3, answers (readDesc w r.desc.toNat) s d s1 ∧ answers (writeGet w (FK.ofBody (bodyOf r.word)) r d) s1 () s2 ∧
        answers (endGet w r) s2 () s3 ∧ exec (.kvGetComplete w) s = .next ((s3.endKvRun w r.entry.pos).flyDone w .l r.entry.pos))) ∧
    (∀ r d cols s1, let f := FK.ofBody (bodyOf r.word)
      let e := r.entry
      let n := if getVat f = false ∧ (KvBlock.ofNat (r.samp.getD 1 0)).fp8 = true then 1 else 2
      let col (g : KvCol → List MByte) (j k : Nat) : Byte := match cols.getD j none with
        | some c => ((g c).getD k (0, false)).1
        | none => 0
      answers ((List.range 64).mapM (getCol w f r d)) s cols s1 → d.broken = none → (s1.tile (Who.tile w)).sound = true →
      (s1.tile (Who.tile w)).sp.wf = true → (getRanges f e d (n == 1)).Pairwise (fun x y => x.1 + x.2.1 ≤ y.1 ∨ y.1 + y.2.1 ≤ x.1) →
      ∃ u, answers (writeGet w f r d) s () u ∧
        (getPart f ≠ 2 → ∀ k j i, k < d.d → j < 64 → i < n → spOf u (getDk e + n * (64 * k + j) + i) = col (·.k) j (n * k + i)) ∧
        (getPart f ≠ 1 → ∀ g j c i, g < (d.d + 63) / 64 → j < 64 → c < 64 → i < n →
          spOf u (getDv e + n * (4096 * g + 64 * j + c) + i) = col (·.v) j (n * (64 * g + c) + i)) ∧
        ∀ j i, j < 64 → i < 4 → spOf u (getDs e + 4 * j + i) = col (·.ks) j i ∧ spOf u (getDs e + 256 + 4 * j + i) = col (·.vs) j i) ∧
    (∀ r g u, oldest r [0x4E] → engReady w s → answers (pressGrant w r) s g u →
      let y := pressLayer (r.entry.s 1)
      let wheel := KvBlock.ofNat (r.samp.getD 0 0)
      ∃ d s1 st s2 cap s3 fl s4 s5 s6 s7 n s8 s9 s10, answers (readDesc w r.desc.toNat) u d s1 ∧ answers (readState w (d.table y)) s1 st s2 ∧
        answers (wcap w (d.table y)) s2 cap s3 ∧ answers (copyWheel w d (d.table y) st wheel d.qw) s3 fl s4 ∧
        answers (kvSet w (wheelAddr (d.table y) st.w) 16 ({ wheel with wheel := true, fp8 := d.qw }.toNat (256 * st.w))) s4 () s5 ∧
        answers (writeState w (d.table y) { st with w := st.w + 1, ch := (st.ch + 16) % 32 }) s5 () s6 ∧
        answers (do for k in List.range 16 do deferEntry w (d.table y) cap (← kvNum w (ringAddr (d.table y) cap (st.ch + k)) 16)) s6 () s7 ∧
        answers (kvNum w (d.table y + 13) 1) s7 n s8 ∧ answers (kvSet w (d.table y + 13) 1 (n / 2 * 2)) s8 () s9 ∧
        answers (releaseDeferred w d (d.table y)) s9 () s10 ∧
        exec (.kvPressPublish w) s = .next (((s10.returnGrant w g).endKvRun w r.entry.pos).flyDone w .l r.entry.pos fl)) ∧
    (∀ r, oldest r [0x4F] → engReady w s →
      let y := pressLayer (r.entry.s 1)
      ∃ d s1 st s2, answers (readDesc w r.desc.toNat) s d s1 ∧ answers (readState w (d.table y)) s1 st s2 ∧
        (st.fw ≠ pressExpected (r.entry.s 1) → exec (.kvFoldPublish w) s = .next ((s2.endKvRun w r.entry.pos).flyDone w .l r.entry.pos)) ∧
        (st.fw = pressExpected (r.entry.s 1) → ∃ n s3, answers (dcnt w (d.table y)) s2 n s3 ∧
          (n ≤ 31 → ∃ d' s4 st' s5 cap s6 fl s7 x s8 now s9 s10 s11 s12, answers (readDesc w r.desc.toNat) s3 d' s4 ∧
            answers (readState w (d'.table y)) s4 st' s5 ∧ answers (wcap w (d'.table y)) s5 cap s6 ∧ answers (foldWheel w d' y st'.fw) s6 fl s7 ∧
            answers (kvNum w (wheelAddr (d'.table y) st'.fw) 16) s7 x s8 ∧ answers (readState w (d'.table y)) s8 now s9 ∧
            answers (writeState w (d'.table y) { now with fw := st'.fw + 1 }) s9 () s10 ∧ answers (deferEntry w (d'.table y) cap x) s10 () s11 ∧
            answers (releaseDeferred w d' (d'.table y)) s11 () s12 ∧
            exec (.kvFoldPublish w) s = .next ((s12.endKvRun w r.entry.pos).flyDone w .l r.entry.pos fl)))) ∧
    (∀ c, let s1 := s.modTile t Tile.releaseHidden
      (s1.tile t).hidden.find? (·.released) = some c → engReady c.who s1 →
      ∃ d s2 s3 s4 s5, answers (readDesc c.who c.desc.toNat) s1 d s2 ∧
        answers (kvPutBytes c.who (nodeData d c.node.toNat c.layer.toNat) (plain c.data)) s2 () s3 ∧
        answers (kvPutBytes c.who (nodePlace d c.node.toNat) (plain (leBytes c.sid.toNat 4))) s3 () s4 ∧
        answers (setPend c.who d (d.pend - 1)) (s4.modHub fun h => h.noteLanded d.pa c) () s5 ∧
        let u := s5.modTile t fun x => Tile.releaseHidden { x with hidden := x.hidden.eraseP (· == c) }
        exec (.kvHiddenLanding t) s = .next (match c.pos with
          | some p => u.flyDone c.who .s p
          | none => u)) ∧
    (∀ r d s1, oldest r [0x65, 0x66] → engReady w s → answers (readDesc w r.desc.toNat) s d s1 → d.pend = 0 →
      (runNodes r ≠ [] → ∃ s2, answers (commitFails w d (runNodes r)) s1 none s2) →
      ∃ s2 s3 s4 s5, (if runNodes r = [] then s3 = s1 else answers (commitFails w d (runNodes r)) s1 none s2 ∧ answers (commitAppend w d (runNodes r)) s2 () s3) ∧
        answers (setSid w d ((d.sid + 1) % 2 ^ 32)) s3 () s4 ∧ answers (setClosing w d false) s4 () s5 ∧
        exec (.kvCommitResume w) s = .next ((s5.endKvRun w r.entry.pos).takeHead w .s r.entry true))

/-- R92 to R98, R311 to R314, R317 to R320, R361, R362: the words of the engines complete. `pim.cfg` takes the vector and the format for
the rows to come; `pim.mv` is under way once it holds units for its channels, and each row writes its result, or adds it, the last one
ending the word; `qz.run` queues its command, and the command's completion reads its rows, writes data, scales and event word, and gives
its units back; a collective word joins its generation by an arrival at the record, of which the last one ends the generation, and
retires when that has ended; `evt.sigs` and `task.posts` do what `evt.sig` and `task.post` do, after the stores of the S queue. That a
member of a collective reads its contribution, and starts its timeout, at its issue (log 23), that a command of the quantisation engine has read its
rows one at a time (log 24), and that a watermark holds an `evt.sigs` (log 53) are the model's choice. -/
def Obligations.EngineWords : Prop :=
  (∀ (h : Hdr) (f : FK) (e : Entry) (s : State),
      let w := s.cur
      let t := Who.tile w
      let stored := s.curBank.q.fly.any (fun x => x.q == .s && !x.done) = false
      (let k := (e.s 1).toNat % 2 ^ 16
       let a := (e.s 0).toNat
       let wf := f.imm.toNat % 8
       let p := f.imm.toNat / 2 ^ 3 % 16
       let q := f.imm.toNat / 2 ^ 7 % 16
       lsReady .l (.pimCfg h f) e s → (wf < 3 ∨ wf = 3 ∧ 2 ≤ p ∧ p ≤ q ∧ q ≤ 8) → pimKOk wf q k = true → a % 64 = 0 → spReady s a (2 * k) →
       checkSpFail (s.tile t) s.curBank a (2 * k) (some 0) (some 3) = none →
       exec (.pimCfg h f) s = .next (lsIssued s.cur .l e true ((lsStart .l e s).modBank w fun b =>
         { b with pim := { b.pim.setVec 0 ((List.range k).map fun i => spByte s (a + 2 * i + 1) ++ spByte s (a + 2 * i)) with
             valid := true, k, wf, p, q } }))) ∧
      (∀ s1 s2 g s3, lsReady .l (.pimMv h f) e s → answers (mvChecks f (word48 (.pimMv h f)) w e) (lsStart .l e s) () s1 → e.mpc < mvRows e →
        answers (mvPin w e) s1 () s2 → answers (askGrant w 1 (mvUnits (copyPa e 0 (e.s 0).toNat) (mvRows e))) s2 g s3 →
        exec (.pimMv h f) s = .next (lsIssued s.cur .l e false (s3.modBank w fun b => { b with pimRuns := b.pimRuns.map fun r =>
          if r.pos = e.pos then
            { r with cfg := b.pim, acc := f.imm.getLsbD 9, mem := f.imm.getLsbD 8, hd := (e.handle 1).2, base := e.s 0, dst := e.s 1
                     rows := mvRows e, seen := b.hostSeen, ser := b.ser, grant := some g }
          else r }))) ∧
      (∀ pa s1 ln s2 fp32 s3 r n data scale event s4 s5 s6 g s7, lsReady .l (.qzRun h f) e s → (e.s 0).toNat % 64 = 0 →
        answers (translateRange { rd := true } (e.handle 0).1 (e.handle 0).2 (e.s 0).toNat 64) (lsStart .l e s) pa s1 →
        watermarkHolds (s1.tile t) (Who.ctx w) true (vaOf (e.handle 0).2 (e.s 0).toNat) 64 = false →
        answers (recordRead w (e.handle 0).2 false (e.s 0).toNat pa 1) s1 ln s2 →
        let d := BitVec.ofNat 512 (leNat ln)
        qzBad d = none → answers (qzSource w d) s2 fp32 s3 → qzShape d ((s3.bank w).tileZ (BitVec.ofNat 4 (qzSrc d))) = (r, n) →
        answers (qzDests w d r n) s3 (data, scale, event) s4 → answers (qzWaits w d fp32 r n) s4 () s5 → answers (requestUnits w 4 1) s5 () s6 →
        (s6.tile t).qz.length < 16 → answers (takeUnits w 4 1) s6 g s7 →
        exec (.qzRun h f) s = .next (lsIssued s.cur .l e (!f.imm.getLsbD 4) (s7.modTile t fun y =>
          { y with qz := y.qz ++
            [{ who := w, desc := d, fp32, data, scale, event := BitVec.ofNat 52 event, hand := (s7.bank w).r.h.get (qzHand d)
               evHand := (s7.bank w).r.h.get (qzEvHand d), wait := f.imm.getLsbD 4, grant := some g, pos := e.pos, ser := (s7.bank w).ser, spad := qzSpad d fp32 r n }] }))) ∧
      (e.mpc = 1 → (lsReady .l (.collBsum h f) e s → exec (.collBsum h f) s = .next (lsIssued s.cur .l e true (lsStart .l e s))) ∧
        (lsReady .l (.collBar h f) e s → exec (.collBar h f) s = .next (lsIssued s.cur .l e true (lsStart .l e s)))) ∧
      (∀ i bsum pa s1 nr s2 s3 g s4 data, (i = .collBsum h f ∧ bsum = true ∨ i = .collBar h f ∧ bsum = false) → lsReady .l i e s → e.mpc ≠ 1 →
        s.curBank.coll = none → (e.s 0).toNat % 64 = 0 →
        answers (translateRange { rd := true, w := true } (e.handle 0).1 (e.handle 0).2 (e.s 0).toNat 64) (lsStart .l e s) pa s1 →
        (bsum = true → answers (bsumChecks w (word48 i) e) s1 () s1) →
        watermarkHolds (s1.tile t) (Who.ctx w) true (vaOf (e.handle 0).2 (e.s 0).toNat) 64 = false → linesOpen s1 pa 64 → (e.handle 0).2.mig = false →
        answers (collField w (BitVec.ofNat 52 pa) 0 4) s1 nr s2 → 1 ≤ nr → nr ≤ 512 → answers (requestUnits w 3 1) s2 () s3 →
        (bsum = true → spReadyAt w s3 (bsumSrc e) (256 * bsumN e)) →
        data = (if bsum then (List.range (64 * bsumN e)).map fun i => BitVec.ofNat 32 (leNat (memRead (s3.tile t).sp (bsumSrc e + 4 * i) 4)) else []) →
        answers (takeUnits w 3 1) s3 g s4 →
        let c : CollRun :=
          { bsum, pa := BitVec.ofNat 52 pa, dst := bsumDst e, n := if bsum then bsumN e else 0
            timeout := BitVec.ofNat 32 (if bsum then (e.s 2).toNat / 2 ^ 32 else (e.s 1).toNat % 2 ^ 32)
            since := s4.now, grant := some g, data, entry := e }
        exec i s = .next ((s4.modBank w fun b => { b with coll := some c }).modHeadS w .l fun e => { e with waits := true })) ∧
      (let off := (e.s 0).toNat
       let pa := copyPa e 0 off
       let op := f.imm.toNat / 2 ^ 4 % 4
       let o := valueIn (lineNow s (pa / 64)).1 pa 8
       let v := (e.s 1).toNat
       lsReady .s (.evtSigs h f) e s → stored → op < 3 → off % 8 = 0 → copyOk e 0 { rd := true, w := true } off 8 →
       watermarkHolds (s.tile t) (Who.ctx w) true (vaOf (e.handle 0).2 off) 8 = false → memClear s pa 8 → (lineNow s (pa / 64)).2 = false →
       ∃ y, exec (.evtSigs h f) s = .next (lsIssued s.cur .s e true y) ∧
         memHolds s y pa (leBytes (if op = 0 then v else if op = 1 then (o + v) % 2 ^ 64 else o ||| v) 8)) ∧
      (let q : Fin 1024 := ⟨f.imm.toNat / 2 ^ 4 % 1024, Nat.mod_lt _ (by decide)⟩
       let d := s.qdesc q
       let off := (e.s 0).toNat
       let pa := d.ring.toNat + 32 * d.tail.toNat
       lsReady .s (.taskPosts h f) e s → stored → d.en = true → d.devok = true → (d.asid = s.curBank.csr.asid ∨ s.curBank.priv = true) →
       off % 128 = 0 → copyOk e 0 { rd := true } off 1 → (d.tail.toNat + 1) % 2 ^ d.size.toNat ≠ d.head.toNat → pairClear w s pa → linesOpen s pa 32 →
       s.hub.filter = [] → noLstep s →
       exec (.taskPosts h f) s = .next (lsIssued s.cur .s e true (((lsStart .s e s).ctxPut w pa
         (plain (leBytes ((e.handle 0).2.va.toNat + off) 8 ++ leBytes (e.s 1).toNat 8 ++ leBytes 0 16)) 2).writeTail q
           (BitVec.ofNat 32 ((d.tail.toNat + 1) % 2 ^ d.size.toNat)))))) ∧
  ∀ (w : Who) (t : Tid) (s : State),
    (∀ r, (s.bank w).pimRuns.find? (·.grant.isSome) = some r →
      (∀ a ∈ r.memAccesses, watermarkHolds (s.tile (Who.tile w)) (Who.ctx w) true a.1 a.2 = false) →
      let y := s.pimRow r.cfg (r.hw.base.toNat + r.base.toNat + 4096 * r.mpc) r.seen
      let pa := r.hd.base.toNat + r.dst.toNat + 4 * r.mpc
      let a := r.dst.toNat + 4 * r.mpc
      let next (fl : Flags) (u : State) : State :=
        let u := u.modBank w fun b => b.clearWm .pim
        let z := { r with mpc := r.mpc + 1, flags := r.flags ||| fl }
        if z.mpc < r.rows then u.modBank w fun b => { b with pimRuns := b.pimRuns.map fun x => if x.pos = r.pos then z else x }
        else (((u.unpinPim z).returnGrant w r.grant).modBank w fun b => { b with pimRuns := b.pimRuns.filter (·.pos != r.pos) }).flyDone w .l r.pos z.flags
      (r.mem = true → engReady w s →
        exec (.pimRowComplete w) s = .next (next y.1.2 ((y.2.2.countLines w r.hd pa 4).pathWrite w pa (leBytes y.1.1 4) y.2.1 0xFFFF r.hd.prv))) ∧
      (r.mem = false → watermarkHolds (s.tile (Who.tile w)) (Who.ctx w) false a 4 = false →
        engineBefore (s.tile (Who.tile w)) (s.bank w) w false .l r.ser a 4 = false →
        ∃ fl u, answers (pimToSpad w r.acc a y.1 y.2.1) y.2.2 fl u ∧ exec (.pimRowComplete w) s = .next (next fl u) ∧
          ((y.2.2.tile (Who.tile w)).sound = true → (y.2.2.tile (Who.tile w)).bad = [] → (y.2.2.tile (Who.tile w)).sp.wf = true →
            ((y.2.2.tile (Who.tile w)).tag (a / 4096)).x = false → a % 4 = 0 →
            let old := leNat (memRead (y.2.2.tile (Who.tile w)).sp a 4)
            let v := if r.acc then (roundFP32 (Machine.Num.add (fmtFP32.value old) (fmtFP32.value y.1.1)).1).1 else y.1.1
            ∀ b, memGet (u.tile (Who.tile w)).sp b =
              if a ≤ b ∧ b < a + 4 then (leBytes v 4).getD (b - a) 0 else memGet (s.tile (Who.tile w)).sp b))) ∧
    (∀ c cs, (s.tile t).qz = c :: cs → ((qzMem c.desc || qzEv c.desc) = true → engReady c.who s) →
      (∀ x ∈ c.spad, engineBefore (s.tile (Who.tile c.who)) (s.ownBank c.who c.away) c.who c.away .l c.ser x.1 x.2 = false) →
      (∀ a ∈ [c.data, c.event.toNat], inPair a = true → pairBefore (s.tile (Who.tile c.who)) c.who c.away c.ser = false) →
      ∃ d s1 s2 s3, answers (qzAllRows (qzCount s c + 1) c) s d s1 ∧
        let out := if qzPlanes d.desc then qzPlaneOut d.desc (qzValues d) else qzLinear d.desc (qzValues d)
        answers (qzStore d d.data out.1) s1 () s2 ∧ answers (qzStore d d.scale out.2) s2 () s3 ∧
        let s4 := if qzEv d.desc then
            (s3.countLines d.who d.evHand d.event.toNat 8).pathWrite d.who d.event.toNat (leBytes (qzEvVal d.desc) 8) false (ctxid16 d.who) d.evHand.prv
          else s3
        exec (.qzCommandComplete t) s = .next (((s4.modTile t fun x => { x with qz := x.qz.tail }).returnGrant d.who d.grant).modBank d.who fun b =>
          if d.wait then { b with q := { b.q with fly := b.q.fly.map fun f => if f.q == .l && f.pos == d.pos then { f with done := true } else f } }
          else b)) ∧
    (∀ r, (s.bank w).coll = some r → r.arrived = false → engReady w s → pairClear w s r.pa.toNat →
      (r.bsum = false → (s.bank w).posted = [] ∧ accessesPending s w = false) → (s.hub.colls.contains r.pa = true ∨ s.hub.colls.length < 16) →
      let own := if r.bsum then 1 else 2
      ∃ kind s1 nb s2, answers (collField w r.pa 14 1) (s.countMig (Who.tile w) (r.entry.handle 0).2 r.pa.toNat) kind s1 ∧
        answers (collField w r.pa 12 2) s1 nb s2 ∧
        (kind ≠ 0 → ¬(kind = own ∧ nb = r.n) → exec (.collArrival w) s = .next (s2.collMismatch w r)) ∧
        (kind = 0 ∨ (kind = own ∧ nb = r.n) → ∃ s4 arr s5 nr s6,
          let s3 := s2.modHub fun h => { h with colls := if h.colls.contains r.pa then h.colls else h.colls ++ [r.pa] }
          (if kind = 0 then answers (do setCollField w r.pa 14 1 own; setCollField w r.pa 12 2 r.n) s3 () s4 else s4 = s3) ∧
          answers (collField w r.pa 8 4) s4 arr s5 ∧
          answers (collField w r.pa 0 4) ((s5.engWrite w (r.pa.toNat + 8) (plain (leBytes (arr + 1) 4)) 2).modBank w fun b =>
            { b with coll := some { r with arrived := true } }) nr s6 ∧
          (arr + 1 ≠ nr → exec (.collArrival w) s = .next s6) ∧
          (arr + 1 = nr → ∃ u, answers (collComplete w { r with arrived := true }) s6 () u ∧ exec (.collArrival w) s = .next u)))

/-! ## Words of the C queue -/

/-- R32, R190, R194: a C word whose guard is false, or that is marked to be skipped, does its token actions, and drops EMPTY at its
latency, writing no named register; a word without a belt result retires. The words whose latency a tag gives take that of SA, which
is the model's reading (log 22). -/
def Obligations.SkippedWords : Prop :=
  ∀ (i : Instr) (e : Entry) (s : State) (n : Option Nat), cReady i e s → ¬ entryRuns e → skipLatency i (cRegs s) = some n →
    exec i s = .next (cIssued s.cur e (match n with
      | some n => .belt { rem := n, val := {} }
      | none => .plain 0) (cStart s))

/-- R194, R222 to R225, R228 to R230: arithmetic of lanes, element by element of the tag of the operands, inactive elements 0, with the
flags of the active elements. -/
def Obligations.ArithmeticLanes : Prop :=
  ∀ (i : Instr) (e : Entry) (s : State) (f : FV) (t : Tag) (n : Nat) (g : Nat → Flagged Nat), cRuns i e s →
    arithLane i (cRegs s) = some (f, t, n, g) → dropsLanes i e s f t n g

/-- R194, R231 to R237: logic, shifts and permutations element by element; `vsel` takes each element by its mask bit; `vcmp` writes all
ones where its condition holds and, by its form, a mask register with it; `mset` writes a mask register and its image. -/
def Obligations.BitwiseLanes : Prop :=
  ∀ (e : Entry) (s : State),
    let r := cRegs s
    (∀ i f t n g, cRuns i e s → bitLane i r = some (f, t, n, g) → dropsLanes i e s f t n g) ∧
    (∀ (h : Hdr) (f : FV),
      let m := activeMask r f
      let a := r.vec f.sa
      let b := r.vec f.sb
      (cRuns (.vsel h f) e s → f.fmt = 0 → anyData a.tag = true → a.tag = b.tag →
        ∃ v, exec (.vsel h f) s = .next (cIssued s.cur e (beltOf f v 1) (cStart s)) ∧ v.tag = a.tag ∧
          ∀ k, k < a.tag.lanes → laneOf v k = if m.getLsbD k then laneOf a k else laneOf b k) ∧
      (cRuns (.vcmp h f) e s → f.var.toNat ≤ 6 → anyData a.tag = true → a.tag = b.tag →
        ∃ v, exec (.vcmp h f) s = .next (cIssued s.cur e
            (.belt { rem := latArith a.tag, val := v, wn := f.wn = 1, nd := f.nd, maskK := f.fmt.extractLsb' 0 3
                     maskMode := if f.fmt.getLsbD 3 then 1 else 0 }) (cStart s)) ∧ v.tag = intTagOf a.tag ∧
          ∀ k, k < a.tag.lanes → laneOf v k =
            if m.getLsbD k ∧ cmpElem a.tag f.var.toNat (laneOf a k) (laneOf b k) = true then 2 ^ a.tag.width - 1 else 0) ∧
      (cRuns (.mset h f) e s → f.var.toNat ≤ 7 → f.me = 0 → (f.var = 0 → anyData a.tag = true) →
        let x := r.mreg (f.sa.extractLsb' 0 3)
        let y := r.mreg (f.sb.extractLsb' 0 3)
        ∃ v, exec (.mset h f) s = .next (cIssued s.cur e
            (.belt { rem := 1, val := v, wn := f.wn = 1, nd := f.nd, maskK := f.fmt.extractLsb' 0 3, maskMode := 1 }) (cStart s)) ∧
          v.tag = .uint8 ∧ ∀ k, k < 256 → laneOf v k = b2n (match f.var.toNat with
            | 0 => k < a.tag.lanes && laneOf a k != 0
            | 1 => x.getLsbD k && y.getLsbD k
            | 2 => x.getLsbD k || y.getLsbD k
            | 3 => xor (x.getLsbD k) (y.getLsbD k)
            | 4 => x.getLsbD k && !y.getLsbD k
            | 5 => !x.getLsbD k
            | 6 => true
            | _ => false)))

/-- R194, R215, R238 to R242, R297: conversions and functions, each result rounded once; `vcvt` converts part Q of its lanes, narrowing or widening. -/
def Obligations.FunctionLanes : Prop :=
  ∀ (e : Entry) (s : State),
    let r := cRegs s
    (∀ i f t n g, cRuns i e s → functionLane i r = some (f, t, n, g) → dropsLanes i e s f t n g) ∧
    (∀ (h : Hdr) (f : FV) (mode : Mode) (t : Tag),
      let a := r.vec f.sa
      let m := activeMask r f
      let q := f.sc.toNat % 4
      let c (j i : Nat) : Flagged Nat := if m.getLsbD i then convert a.tag t mode (satFor t (f.var.getLsbD 3)) (laneOf a j) else (0, 0)
      cRuns (.vcvt h f) e s → Mode.ofCode (f.var.toNat % 8) = some mode → f.fmt ≠ 0 → Tag.ofCode f.fmt.toNat = some t → t ≠ .poison →
      anyData a.tag = true → q < max (t.lanes / a.tag.lanes) (a.tag.lanes / t.lanes) →
      ∃ v fl, exec (.vcvt h f) s = .next (cIssued s.cur e (beltOf f v 2 fl) (cStart s)) ∧
        laneResult t (BitVec.allOnes 256) (fun k =>
          if a.tag.lanes < t.lanes then (if k / a.tag.lanes = q then c (k % a.tag.lanes) (k % a.tag.lanes) else (0, 0))
          else c (q * t.lanes + k) k) v fl)

/-- R194, R243 to R245, R298, R299: sums, extremes, running sums and dot products over the active elements. -/
def Obligations.ReducingWords : Prop :=
  ∀ (h : Hdr) (f : FV) (e : Entry) (s : State),
    let r := cRegs s
    let a := r.vec f.sa
    let b := r.vec f.sb
    let c := r.vec f.sc
    let m := activeMask r f
    let xs := activeLanes m a
    let sumOf (t : Tag) (sat : Bool) (ys : List Nat) : Flagged Nat :=
      if a.tag.isFloat then roundFlagged t (sumNum (ys.map (elemValue a.tag)))
      else reduceInt t sat ((ys.map (intValue a.tag)).foldl (· + ·) 0)
    (cRuns (.vredsum h f) e s → f.fmt = 0 → tagArith a.tag = true →
      exec (.vredsum h f) s = .next (cIssued s.cur e (oneResult f (sumTag a.tag) 6 (sumOf (sumTag a.tag) (f.var.getLsbD 0 && a.tag != .idx) xs)) (cStart s))) ∧
    (cRuns (.vredmax h f) e s → f.fmt = 0 → anyData a.tag = true →
      exec (.vredmax h f) s = .next (cIssued s.cur e (oneResult f a.tag 6 (pickAll a.tag true xs, 0)) (cStart s))) ∧
    (cRuns (.vredmin h f) e s → f.fmt = 0 → anyData a.tag = true →
      exec (.vredmin h f) s = .next (cIssued s.cur e (oneResult f a.tag 6 (pickAll a.tag false xs, 0)) (cStart s))) ∧
    (cRuns (.vscan h f) e s → f.fmt = 0 → tagArith a.tag = true →
      ∃ v fl, exec (.vscan h f) s = .next (cIssued s.cur e (beltOf f v 6 fl) (cStart s)) ∧
        laneResult a.tag m (fun k => sumOf a.tag (f.var.getLsbD 0) (((List.range (if f.var.getLsbD 1 then k else k + 1)).filter (m.getLsbD ·)).map (laneOf a))) v fl) ∧
    (cRuns (.vdot4 h f) e s → f.fmt = 0 → a.tag.width = 8 → a.tag = b.tag → c.tag = (if a.tag.isFloat then .fp32 else .int32) →
      ∃ v fl, exec (.vdot4 h f) s = .next (cIssued s.cur e (beltOf f v 6 fl) (cStart s)) ∧
        laneResult c.tag m (fun k =>
          let ps := [0, 1, 2, 3].map fun j => (laneOf a (4 * k + j), laneOf b (4 * k + j))
          if a.tag.isFloat then
            let x := sumNum (fmtFP32.value (laneOf c k) :: ps.map fun p => (Machine.Num.mul (elemValue a.tag p.1) (elemValue a.tag p.2)).1)
            roundFlagged .fp32 (x.1, ps.foldl (fun u p => u ||| (Machine.Num.mul (elemValue a.tag p.1) (elemValue a.tag p.2)).2) x.2)
          else reduceInt .int32 (f.var.getLsbD 0)
            ((ps.map fun p => intValue a.tag p.1 * intValue a.tag p.2).foldl (· + ·) (intValue .int32 (laneOf c k)))) v fl) ∧
    (cRuns (.vrms h f) e s → f.fmt = 0 → tagFloat3 a.tag = true → b.tag = .fp32 →
      exec (.vrms h f) s = .next (cIssued s.cur e (oneResult f .fp32 6 (roundFlagged .fp32 (sumNum (fmtFP32.value (laneOf b 0) ::
        xs.map fun x => (Machine.Num.mul (elemValue a.tag x) (elemValue a.tag x)).1)))) (cStart s))) ∧
    (cRuns (.argmax h f) e s → anyData a.tag = true →
      exec (.argmax h f) s = .next (cIssued s.cur e (oneResult f .idx 6
        (match argmaxLane m a with
         | none => 0xFFFFFFFF
         | some k => (e.s 0).toNat + k, 0)) (cStart s)))

/-- R194 to R204, R304: the words that move values between scratchpad, belt, named registers and result queues, and that make values.
`vfetch` and `vput` are stated where the scratchpad is read and written without an error. -/
def Obligations.BeltWords : Prop :=
  ∀ (h : Hdr) (f : FV) (e : Entry) (s : State),
    let t := cStart s
    let r := cRegs s
    let m := activeMask r f
    let a := r.vec f.sa
    let base := (e.s 0).toNat + 256 * f.var.toNat
    let fill (x : Nat) : Nat → Flagged Nat := fun _ => (x, 0)
    (∀ g : Tag, cRuns (.vfetch h f) e s → f.fmt.toNat < 11 → base % 256 = 0 → spReadyAt s.cur t base 256 → bankClash t.curBank base 256 = none →
      (if f.fmt = 0 then ((t.tile (Who.tile s.cur)).tag (base / 4096)).v = true ∧ Tag.ofCode ((t.tile (Who.tile s.cur)).tag (base / 4096)).fmt.toNat = some g
       else Tag.ofCode f.fmt.toNat = some g) → anyData g = true →
      dropsLanes (.vfetch h f) e s f g 6 (fun k => (leNat (memRead (t.tile (Who.tile s.cur)).sp (base + g.width / 8 * k) (g.width / 8)), 0))) ∧
    (cRuns (.vput h f) e s → anyData a.tag = true → base % 256 = 0 → spReadyAt s.cur t base 256 → bankClash t.curBank base 256 = none →
      checkSpFail (t.tile (Who.tile s.cur)) t.curBank base 256 none (some a.tag.code) = none →
      ∃ t', exec (.vput h f) s = .next (cIssued s.cur e (.plain 0) t') ∧ t'.cur = s.cur ∧ spHolds t t' base ((List.range 256).map fun k =>
        if m.getLsbD (k / (a.tag.width / 8)) then BitVec.ofNat 8 (a.bits.toNat / 2 ^ (8 * k)) else spByte t (base + k))) ∧
    (∀ g : Tag, cRuns (.vmov h f) e s → f.fmt.toNat < 11 → anyData a.tag = true → (if f.fmt = 0 then g = a.tag else Tag.ofCode f.fmt.toNat = some g) →
      dropsLanes (.vmov h f) e s f g 1 (fun k => (elem a.bits g.width k, 0))) ∧
    (cRuns (.vmov h f) e s → f.fmt = 0 → a.tag = .empty → exec (.vmov h f) s = .next (cIssued s.cur e (beltOf f a 1) t)) ∧
    (∀ q, cRuns (.vpop h f) e s → q = f.var.toNat % 8 → q < 2 → f.me = 0 →
      let nr := f.var.getLsbD 3
      let out (v : Vec) (mode : BitVec 2) : CRes :=
        .belt { rem := 2, val := v, wn := f.wn = 1, nd := f.nd, maskK := f.sa.extractLsb' 0 3, maskMode := if nr then mode else 0 }
      let queue := if q = 0 then t.curBank.topkQ else t.curBank.smpQ
      (queue = [] → nr = true → exec (.vpop h f) s = .next (cIssued s.cur e (out {} 3) t)) ∧
      (∀ v vs, queue = v :: vs → exec (.vpop h f) s = .next (cIssued s.cur e (out v 2) (t.modBank s.cur fun b =>
        if q = 0 then { b with topkQ := vs } else { b with smpQ := vs })))) ∧
    (∀ g : Tag, cRuns (.vbcast h f) e s → f.var.getLsbD 0 = false → f.fmt ≠ 0 → f.fmt.toNat < 11 → Tag.ofCode f.fmt.toNat = some g →
      dropsLanes (.vbcast h f) e s f g 1 (fill (e.s 0).toNat)) ∧
    (cRuns (.vbcast h f) e s → f.var.getLsbD 0 = true → f.fmt = 0 → anyData a.tag = true → (e.s 0).toNat % 256 < a.tag.lanes →
      dropsLanes (.vbcast h f) e s f a.tag 1 (fill (laneOf a ((e.s 0).toNat % 256)))) ∧
    (∀ g : Tag, cRuns (.vimm h f) e s → f.fmt ≠ 0 → f.fmt.toNat < 11 → Tag.ofCode f.fmt.toNat = some g →
      dropsLanes (.vimm h f) e s f g 1 (fill (match g with
        | .fp32 => imm19 f * 2 ^ 16
        | .int32 => toPat 32 (sext (imm19 f) 19)
        | _ => imm19 f))) ∧
    (∀ x : FL, cRuns (.vnop h x) e s → exec (.vnop h x) s = .next (cIssued s.cur e (.hold x.imm.toNat) t)) ∧
    (∀ x : BitVec 32, cRuns (.cnop h x) e s → exec (.cnop h x) s = .next (cIssued s.cur e (.plain 0) t)) ∧
    (cRuns (.rng h f) e s →
      let k := (e.s 0).toNat % 2 ^ 32
      let c (j : Nat) : Nat := ((e.s 0).toNat / 2 ^ 32 + j) % 2 ^ 32
      dropsLanes (.rng h f) e s f (if f.var.getLsbD 0 then .fp32 else .idx) 2 fun j =>
        (if f.var.getLsbD 0 then (roundFP32 (Machine.Num.ofInt (drawUniform k (c j)) (-24))).1 else drawRaw k (c j), 0))

/-- R194, R291 to R298: the words of attention. `smx.exp` and `smx.merge` are stated with the pair registers that their rules update. -/
def Obligations.AttentionWords : Prop :=
  ∀ (h : Hdr) (f : FV) (e : Entry) (s : State),
    let t := cStart s
    let r := cRegs s
    let m := activeMask r f
    let a := r.vec f.sa
    let b := r.vec f.sb
    let both := f.fmt = 0 ∧ a.tag = .fp32 ∧ b.tag = .fp32
    let part (sel : BitVec 5) : List Nat := (List.range 64).map fun k => if (r.vec sel).tag = .empty then 0 else laneOf (r.vec sel) k
    let fits (sel : BitVec 5) : Prop := ∀ x ∈ [sel, sel + 1], (r.vec x).tag = .fp32 ∨ (r.vec x).tag = .empty
    let pair (sel : BitVec 5) (ps : List (Flagged (Nat × Nat))) := pairOf (BitVec.ofNat 3 (sel.toNat / 2)) ps
    (∀ i f t n g, cRuns i e s → attentionLane i r = some (f, t, n, g) → dropsLanes i e s f t n g) ∧
    (cRuns (.tmask h f) e s → a.tag = .uint8 → (e.s 0).toNat ≤ 63 → parentsOk a.lanes = true →
      ∃ v, exec (.tmask h f) s = .next (cIssued s.cur e
          (.belt { rem := 1, val := v, wn := f.wn = 1, nd := f.nd, maskK := f.fmt.extractLsb' 0 3, maskMode := if f.fmt.getLsbD 3 then 1 else 0 }) t) ∧
        v.tag = .uint8 ∧ ∀ k, k < 256 → laneOf v k =
          if m.getLsbD k ∧ k < 64 ∧ (k = 0 ∨ laneOf a k ≠ 255) ∧ isAncestor a.lanes (e.s 0).toNat 64 k = true then 1 else 0) ∧
    (cRuns (.smxMax h f) e s → both →
      ∃ v, exec (.smxMax h f) s = .next (cIssued s.cur e (beltOf f v 8) t) ∧ v.tag = .fp32 ∧
        ∀ k, k < 64 → laneOf v k =
          if m.getLsbD k = false ∨ fmtFP32.value (laneOf a k) = .nan then laneOf b k
          else if fmtFP32.value (laneOf b k) = .nan then 0x7FC00000 else pickElem .fp32 true (laneOf b k) (laneOf a k)) ∧
    (let ls : List ExpLane := (List.range 64).map fun k =>
       if m.getLsbD k then expLane (f.var.getLsbD 0) (fmtFP32.value (laneOf a k)) (fmtFP32.value (laneOf b k)) else {}
     let latch : Latch :=
       { rem := 8, val := { bits := ofElems 32 (ls.map (·.p)), tag := .fp32 }, wn := f.wn = 1, nd := f.nd
         flags := orFlags (ls.map (·.flags)), attz := BitVec.ofNat 32 (ls.filter (·.zero)).length }
     let ps := pairLanes (part f.sc) (part (f.sc + 1)) (ls.map (·.term))
     cRuns (.smxExp h f) e s → both →
     (f.var.getLsbD 1 = false → exec (.smxExp h f) s = .next (cIssued s.cur e (.belt latch) t)) ∧
     (f.var.getLsbD 1 = true → pairLegal f f.sc = true → fits f.sc →
       exec (.smxExp h f) s = .next (cIssued s.cur e (.belt { latch with pair := pair f.sc ps, flags := latch.flags ||| orFlags (ps.map (·.2)) }) t))) ∧
    (let ps := pairLanes (part f.sb) (part (f.sb + 1)) ((List.range 64).map fun k => if m.getLsbD k then some (fmtFP32.value (laneOf a k)) else none)
     cRuns (.smxMerge h f) e s → f.fmt = 0 → a.tag = .fp32 → pairLegal f f.sb = true → fits f.sb →
     ∃ v fl, exec (.smxMerge h f) s = .next (cIssued s.cur e
         (.belt { rem := 8, val := v, wn := false, nd := f.nd, flags := fl ||| orFlags (ps.map (·.2)), pair := pair f.sb ps }) t) ∧
       laneResult .fp32 m (fun k =>
         let p := (ps.map (·.1)).getD k (0, 0)
         roundFlagged .fp32 (Machine.Num.add (fmtFP32.value p.1) (fmtFP32.value p.2))) v fl)

/-- R299 to R302, R305, R308: the words of the top-k unit change the list, or ask for its entries; those of the sampling unit send their
requests. -/
def Obligations.SelectionWords : Prop :=
  ∀ (h : Hdr) (f : FV) (e : Entry) (s : State),
    let t := cStart s
    let r := cRegs s
    let b := t.curBank
    let m := activeMask r f
    let x := r.vec f.sa
    let y := r.vec f.sb
    let k := (e.s 0).toNat / 2 ^ 32 % 2 ^ 7
    let done (u : State) : State := cIssued s.cur e (.plain 0) u
    let send (q : SmpReq) : State := done (t.modBank s.cur fun b => { b with smpOut := b.smpOut ++ [q] })
    let room := b.smpQ.length + b.drawsOut < 8
    (cRuns (.topk h f) e s → (if f.var.getLsbD 0 then 1 ≤ k ∧ k ≤ 64 ∧ x.tag ∈ [Tag.fp32, .fp16, .bf16, .int32] else b.topk.tag = x.tag ∧ anyData x.tag = true) →
      exec (.topk h f) s = .next (done (t.modBank s.cur fun b =>
        let b := b.topkFlush
        { b with topk := (if f.var.getLsbD 0 then { tag := x.tag, k, entries := [] } else b.topk).feed m x ((e.s 0).toNat % 2 ^ 32) }))) ∧
    (cRuns (.topkMrg h f) e s → anyData x.tag = true → b.topk.tag = x.tag → y.tag = .idx →
      exec (.topkMrg h f) s = .next (done (t.modBank s.cur fun b =>
        let b := b.topkFlush
        { b with topk := b.topk.merge m x y }))) ∧
    (cRuns (.topkRd h f) e s → f.me = 0 → b.topk.tag ≠ .empty → b.topkQ.length + 2 * b.topkRd.length ≤ 6 →
      exec (.topkRd h f) s = .next (done (t.modBank s.cur fun b => { b with topkRd := b.topkRd ++ [f.var.getLsbD 0] }))) ∧
    (∀ g : FK, cRuns (.smpCfg h g) e s →
      let tp := BitVec.ofNat 32 (e.s 1).toNat
      let pp := BitVec.ofNat 32 ((e.s 1).toNat / 2 ^ 32)
      posFP32 tp.toNat = true → posFP32 pp.toNat = true → Machine.Num.lt (Machine.Num.ofInt 1) (fmtFP32.value pp.toNat) = false →
      exec (.smpCfg h g) s = .next (send (.cfg (BitVec.ofNat 6 g.imm.toNat) (BitVec.ofNat 32 (e.s 0).toNat) (BitVec.ofNat 32 ((e.s 0).toNat / 2 ^ 32)) tp pp
        (g.imm.getLsbD 6)))) ∧
    (cRuns (.smpDraw h f) e s → x.tag = .fp32 → y.tag = .idx → room →
      let ls := drawLanes (f.var.getLsbD 0) m x.bits y.bits
      ls ≠ [] → (∀ j ∈ ls, fmtFP32.value (elem x.bits 32 j) ≠ .inf false) →
      exec (.smpDraw h f) s = .next (send (.draw (BitVec.ofNat 6 (e.s 0).toNat) (f.var.getLsbD 0) m x.bits y.bits))) ∧
    (cRuns (.smpAcc h f) e s → x.tag = .fp32 → y.tag = .fp32 → room →
      let n := (e.s 0).toNat / 2 ^ 6 % 16
      let ls := siblings (e.s 0) n
      distOk m x = true → distOk m y = true → n ≤ 8 → ls.Nodup → (∀ j ∈ ls, m.getLsbD j = true) → sumList (accOperand m x.bits) ≠ 0 →
      (n ≠ 0 → sumList (accOperand m y.bits) ≠ 0) →
      exec (.smpAcc h f) s = .next (send (.acc (BitVec.ofNat 6 (e.s 0).toNat) x.bits y.bits m ls)))

/-- R246 to R252, R261, R263 to R269: the words of accumulator tiles, `mprio`, `katcmp` and `tmark`, where no word in flight holds
them back. A `katcmp` whose signature is not the one that the last `kat` left raises SILENT_ERROR with that one in TRAPINFO, and one with no
signature to compare raises OPERAND_RANGE. -/
def Obligations.AccumulatorWords : Prop :=
  ∀ (h : Hdr) (f : FK) (v : FV) (e : Entry) (s : State),
    let w := s.cur
    let t := cStart s
    let b := t.curBank
    let z := BitVec.ofNat 4 f.imm.toNat
    let tile := b.tileZ z
    let done (u : State) : State := cIssued s.cur e (.plain 0) u
    let free := b.c.mats = []
    let sound := (t.tile (Who.tile w)).sound = true
    let reads := t.qzReads w false = false
    let mask := f.imm.toNat % 2 ^ 16
    let vz := b.tileZ v.var
    let row (k : BitVec 5) : Nat := ((e.s 0).toNat + k.toNat) % 2 ^ 64
    (cRuns (.tcfg h f) e s → free → reads → (∀ k, k < 16 → tcfgFail b (tcfgByte (e.s 0) (e.s 1) k) k = none) →
      exec (.tcfg h f) s = .next (done (t.modBank w fun b => (List.range 16).foldl (fun b k =>
        let x := tcfgByte (e.s 0) (e.s 1) k
        b.modZ (BitVec.ofNat 4 k) fun y => { y with int := x.testBit 4, rows := BitVec.ofNat 2 x, cols := BitVec.ofNat 2 (x / 4), elems := [], tag := .empty }) b))) ∧
    (∀ n, cRuns (.accAlloc h f) e s → n = f.imm.toNat / 2 ^ 4 % 16 → reads → 1 ≤ n → n ≤ 8 → tile.banks = 0 → n ≤ (t.tile (Who.tile w)).accFree →
      exec (.accAlloc h f) s = .next (done ((t.modTile (Who.tile w) fun y => { y with accFree := y.accFree - n }).modBank w fun b =>
        b.modZ z fun _ => { banks := n, disc := f.imm.getLsbD 8 }))) ∧
    (cRuns (.accFree h f) e s → f.imm.getLsbD 4 = false → free → reads → tile.banks ≠ 0 →
      exec (.accFree h f) s = .next (done ((t.modTile (Who.tile w) fun y => { y with accFree := y.accFree + tile.banks }).modBank w fun b =>
        b.modZ z fun _ => {}))) ∧
    (cRuns (.accFree h f) e s → f.imm.getLsbD 4 = true → free → reads →
      exec (.accFree h f) s = .next (done ((t.modTile (Who.tile w) fun y =>
          { y with accFree := y.accFree + ((List.range 16).map fun k => (b.tileZ (BitVec.ofNat 4 k)).banks).sum }).modBank w fun b =>
        (List.range 16).foldl (fun b k => if (b.tileZ (BitVec.ofNat 4 k)).banks = 0 then b else b.modZ (BitVec.ofNat 4 k) fun _ => {}) b))) ∧
    (cRuns (.accZero h f) e s → free → (∀ k ∈ maskTiles mask, (b.tileZ k).configured = true) →
      exec (.accZero h f) s = .next (done (t.modBank w fun b => (maskTiles mask).foldl (fun b k => b.modZ k AccTile.zero) b))) ∧
    (cRuns (.mprio h f) e s → exec (.mprio h f) s = .next (done (t.modBank w fun b => b.modC fun c => { c with mprio := BitVec.ofNat 3 f.imm.toNat }))) ∧
    (cRuns (.tmark h f) e s → mask = 0 → exec (.tmark h f) s = .next (done (t.modBank w fun b => b.modC fun c => { c with window := none }))) ∧
    (cRuns (.tmark h f) e s → mask ≠ 0 → free → b.c.latches = [] → (∀ k ∈ maskTiles mask, (b.tileZ k).configured = true) →
      exec (.tmark h f) s = .next (done ((t.modBank w fun b => (maskTiles mask).foldl (fun b k => b.modZ k AccTile.zero) b).modBank w fun b =>
        b.modC fun c => { c with window := some { mask := BitVec.ofNat 16 mask, belt := b.r.belt, n := b.r.n, m := b.r.m, start := c.cc } }))) ∧
    (∀ x : BitVec 32, cRuns (.katcmp h x) e s → free → b.c.katCrc = some x →
      exec (.katcmp h x) s = .next (done (t.modTile (Who.tile w) fun y => { y with health := { y.health with kat := true } }))) ∧
    (∀ x y : BitVec 32, cRuns (.katcmp h x) e s → free → b.c.katCrc = some y → y ≠ x →
      exec (.katcmp h x) s = .next ((((s.claimEngine w).modBank w (·.popAt 0)).logCheck w Cause.silentError (w64 b.c.katSeed.toNat) 6).raise w
        { cls := 3, code := Cause.silentError, info := w64 y.toNat, fq := 2, fidx := 0, fpc := e.pc, pc := s.curBank.f.pc, time := s.now })) ∧
    (∀ x : BitVec 32, cRuns (.katcmp h x) e s → free → b.c.katCrc = none →
      exec (.katcmp h x) s = .next (((s.claimEngine w).modBank w (·.popAt 0)).raise w
        { cls := 1, code := Cause.operandRange, info := wordAsInfo (.katcmp h x), fq := 2, fidx := 0, fpc := e.pc, pc := s.curBank.f.pc, time := s.now })) ∧
    (cRuns (.vldAcc h v) e s → free → sound → vz.configured = true → row v.sb < vz.nrows → vz.tag ≠ .empty → vz.tag.width = 32 →
      ∃ x, exec (.vldAcc h v) s = .next (cIssued s.cur e (beltOf v x 5) t) ∧ x.tag = vz.tag ∧
        ∀ k, k < 64 → laneOf x k = if (activeMask b.r v).getLsbD k ∧ k < vz.ncols then (vz.get (row v.sb) k).toNat else 0) ∧
    (cRuns (.vstAcc h v) e s → free → sound → vz.configured = true → row v.sc < vz.nrows → (b.r.vec v.sa).tag = vz.fmt →
      let st := (List.range vz.ncols).foldl (fun (acc : AccTile × Flags) k =>
        if (activeMask b.r v).getLsbD k then
          let y := accStore vz.int (v.wn = 1) (acc.1.get (row v.sc) k).toNat (laneOf (b.r.vec v.sa) k)
          (acc.1.set (row v.sc) k (BitVec.ofNat 32 y.1), acc.2 ||| y.2)
        else acc) (vz, 0)
      exec (.vstAcc h v) s = .next (cIssued s.cur e (.plain st.2) (t.modBank w fun b => b.modZ v.var fun _ => st.1.touched))) ∧
    (∀ g u, cRuns (.accOut h f) e s → Tag.ofCode (f.imm.toNat / 2 ^ 4 % 16) = some g → g ≠ .empty → g ≠ .poison → f.imm.toNat / 2 ^ 8 % 8 < 5 → free → sound →
      tile.configured = true → tile.tag ≠ .empty → (e.s 0).toNat % 64 = 0 → (e.s 1).toNat % 64 = 0 → tile.ncols * g.width / 8 ≤ (e.s 1).toNat →
      (∀ k, k < tile.nrows → checkSpFail (t.tile (Who.tile w)) b ((e.s 0).toNat + k * (e.s 1).toNat) (tile.ncols * g.width / 8) (some 0) (some g.code) = none) →
      let a : AccOutRun := { entry := e, row := 0, flags := 0, push := if e.pushed then { word := e.word } else pushOf .c e.word, pos := e.pos }
      answers (accOutRow w a) (cPlaced s.cur e .out t) () u → exec (.accOut h f) s = .next ((u.modBank w Bank.accOutDone).endCycle w))

/-- R254 to R261, R267: a matrix word that has passed its checks, holds its units, and finds the engine free starts to stream, and `kat` with
it. A word that reads AUX has read its lines ahead (R257). -/
def Obligations.MatrixWords : Prop :=
  ∀ (i : Instr) (h : Hdr) (f : FT) (e : Entry) (s : State),
    let w := s.cur
    let t := cStart s
    let idle (u : State) : Prop := streamOf (u.bank w) = none ∧ ((u.tile (Who.tile w)).engine = none ∨ (u.tile (Who.tile w)).engine = some (Who.ctx w)) ∧ (u.bank w).c.mskip = 0
    let r : MatRun := { word := word48 i, da := e.s 0, db := e.s 1 }
    let aux := matUsesAux r (t.curBank.tileZ f.z)
    (∀ u v got g, (i = .mma h f ∨ i = .mmaSp h f ∨ i = .mmaBp h f) → cRuns i e s →
      (t.curBank.c.prep = some got ∧ (aux = true → (linesOf (descAux r.db) (matBytesAux r)).length ≤ got.length) ∧ u = t ∨
       aux = false ∧ got = [] ∧ t.curBank.c.prep = none ∧ answers (matChecks w r.word r) t () t ∧
         u = t.modBank w fun b => b.modC fun c => { c with prep := some [] }) →
      let r' : MatRun := { r with aux := if aux then auxList r (got.map (·.1)) else [], poisoned := if aux then got.any (·.2) else false }
      (r.op = .sp → badGroup r' = none) → answers (matGrant w r') u g v → idle v →
      (∀ a ∈ r'.aNow ++ r'.bNow, watermarkHolds (v.tile (Who.tile w)) (Who.ctx w) false a 64 = false) →
      exec i s = .next (cIssued s.cur e (.mat { r' with grant := g }) v)) ∧
    (∀ x : FK, cRuns (.kat h x) e s → idle t → exec (.kat h x) s = .next (cIssued s.cur e (.mat { word := word48 (.kat h x) }) t))

/-! ## Events -/

/-- R23 to R26, R33 to R35, R43, R190, R192, R258, R357, R363, R375, R386: what happens at a front end and at the queues between the
words: a packet is entered, a word dispatches, a word retires in order, a token is pushed, a C-cycle passes, a sleep ends, an
interrupt is taken, banks are exchanged. That a write of any byte of its event word
wakes an `evt.wait` (log 55) and that a timer counts on from the end of its period (log 68) are the model's choice. -/
def Obligations.PipelineEvents : Prop :=
  ∀ (w : Who) (s : State),
    let b := s.bank w
    let running := (s.ctx w).status = .running
    (∀ pa hd s1 bs s2 s3, (s.ctx s.cur).status = .running → s.curBank.f.packet = none →
      answers (fetchAddr s.cur (pcPacket s.curBank.f.pc).toNat) s (pa, hd) s1 → (∀ l ∈ linesOf pa 32, lineHeld s1 s.cur l = false) →
      (if hasCode s1 s.cur pa then s1 else s1.countMig (Who.tile s.cur) hd pa).ctxRead s.cur pa 32 2 = (bs, s2) →
      anyPoison bs = false → s2.meetCode s.cur pa = (false, s3) →
      let bytes := BitVec.ofNat 256 (numOf bs)
      bytes.toNat % 8 ≤ 4 → pcSlot s.curBank.f.pc ≤ bytes.toNat % 8 → packetPairs bytes (pcSlot s.curBank.f.pc) (bytes.toNat % 8) ≠ none →
      exec .packetDecode s = .next (s3.modBank s.cur fun b => { b with f := { b.f with
        packet := some (pcPacket s.curBank.f.pc, bytes), entry := pcSlot s.curBank.f.pc, sinceEret := min 2 (b.f.sinceEret + 1)
        wait := .none, waited := .none } })) ∧
    (∀ word q, running → frontWord b = some word → (opOf word).toNat ≠ 0xD0 → (opOf word).toNat ≠ 0xD1 → frontBreach b = none → pairsNext b = false →
      queueOf (decodeWord word) = some q → admitted s w q (decodeWord word) 1 = true →
      exec (.queueDispatch w) s = .next (s.dispatchNext w q (decodeWord word) (hdrOf word))) ∧
    (∀ q f, running → s.toRetire w q = some f → f.cf = none →
      exec (.queueWordRetire w q) s = .next ((s.modBank w fun b =>
        (Bank.freshHw { b with q := { b.q with fly := b.q.fly.eraseP (·.q == q) } } s.now).setFlags f.flags).retireWord w q f.push)) ∧
    (∀ q p rest, running → b.q.pend = (q, p) :: rest → (b.q.tryPush q p).1 ≠ p →
      exec (.tokenPush w) s = .next (s.modBank w fun b => { b with q := { (b.q.tryPush q p).2 with
        pend := if (b.q.tryPush q p).1.none then rest else (q, (b.q.tryPush q p).1) :: rest } })) ∧
    (running → mayIdle b = true → (s.claimEngine w).cFrozen w = false → ((s.claimEngine w).bank w).c.accOut = none →
      exec (.beltDrop w) s = .next (((s.claimEngine w).cTick w).endCycle w) ∧
      (b.c.mats ≠ [] → exec (.matrixChunkFold w) s = .next (((s.claimEngine w).cTick w).endCycle w))) ∧
    (∀ p ps, b.posted = p :: ps → homeHeld s (p.pa.toNat / 64) = false →
      (reaches s p.pa.toNat = true → kvGet s.hub.home (p.pa.toNat / 64) = none →
        exec (.postedStorePerform w) s = .next (s.modBank w fun b => { b with posted := { p with waitFill := true } :: ps })) ∧
      ((kvGet s.hub.home (p.pa.toNat / 64)).isSome = true → p.pa.toNat % 64 + p.bytes.length ≤ 64 → reaches s p.pa.toNat = true →
        (∀ l ∈ linesOf p.pa.toNat p.bytes.length, lineHeld s w l = false) → s.hub.filter = [] →
        (b.inst.map (·.lstep)).getD false = false → noWatch s → arraysSound s →
        ∃ t, exec (.postedStorePerform w) s = .next t ∧ (t.bank w).posted = ps ∧ memHolds s t p.pa.toNat p.bytes)) ∧
    (∀ x, running → b.f.wait = .sleep → b.f.sleep = some x →
      (x.line = false → (x.written = true ∨ x.checked + 4096 ≤ s.now ∨ (evtTimeout b ≠ 0 ∧ x.since + evtTimeout b ≤ s.now)) →
        exec (.evtWaitWake w) s = .next (s.modBank w fun b => { b with f := { b.f with wait := .none } })) ∧
      (x.line = true → wfeOver s w x = true →
        exec (.wfeWake w) s = .next (s.modBank w fun b => { b with f := { b.f with wait := .none } }))) ∧
    (∀ t, b.timer = .runsFrom t → (s.tile (Who.tile w)).timerPeriod ≠ 0 → t + (s.tile (Who.tile w)).timerPeriod.toNat ≤ s.now →
      exec (.timerExpiry w) s = .next (s.modBank w fun b =>
        { b with timer := .runsFrom (t + (s.tile (Who.tile w)).timerPeriod.toNat), irq := { b.irq with timer := true } })) ∧
    (∀ code info rest, irqDue s w = true → nextIrq s w = some (code, info, rest) →
      let u := s.modBank w fun b => { b with irq := rest }
      (b.csr.trapvec = 0 ∨ b.csr.framebase = 0 → exec (.interruptEntry w) s =
        .next (u.modBank w fun b => b.modF fun f => { f with sleep := f.sleep.map fun x => { x with written := x.written || x.line } })) ∧
      (b.csr.trapvec ≠ 0 → b.csr.framebase ≠ 0 → exec (.interruptEntry w) s =
        .next (u.raise w { cls := 2, code, info, fq := 0, fidx := 0, fpc := 0, pc := b.f.pc, time := s.now }))) ∧
    (∀ t x, (s.ctx w).status = .swapping t → (s.ctx w).shadow = some x → t + 96 ≤ s.now → (s.ctx w).preempt = false →
      ∃ u, exec (.shadowSwapDone w) s = .next u ∧ (u.ctx w).status = .running ∧ (u.ctx w).shadow = some ((s.dropWaits w).bank w |>.stand s.now) ∧
        (u.bank w).r.s = x.r.s ∧ (u.bank w).csr.asid = x.csr.asid)

/-- R76, R83 to R88, R109, R118 to R123, R126, R127, R131, R150, R176 to R180: the memory system and the copy engine: fills, write-through, scrub, the host's and the partner's accesses, page
moves, walks, page-ins, and entries of copies. That a watermark is computed again at each
completion (log 38), that a move copies its page at its commit and marked lines again when it publishes (log 41), that logical time stays at 2^64 − 1
(log 108), and which channel's turn follows (log 125) are the model's choice. -/
def Obligations.MemoryEvents : Prop :=
  ∀ (line : BitVec 46) (mask : BitVec 64) (data : BitVec 512) (t : Tid) (w : Who) (id : BitVec 49) (s : State),
    let l := line.toNat
    (homeServes s l = true → (∀ v, (s.bank v).posted = []) → exec (.homeSliceFill line) s = .next (s.fill l 0xFFFF) ∧
      memSame s (s.fill l 0xFFFF) ∧ (kvGet (s.fill l 0xFFFF).hub.home l).isSome = true) ∧
    (∀ x, s.hub.wtq.find? (·.line == l) = some x → exec (.homeWriteThrough line) s =
      .next ((s.lp6Write l (if x.landed = 0 then x.data else mergeBytes x.data (rawLine s.hub.mem l) (atomMask x.landed)) x.poison).modHub
        fun h => { h with wtq := h.wtq.eraseP (·.line == l) })) ∧
    (∀ e, scrubs s l = true → kvGet s.hub.flips l = some e → (∃ x y, lp6Decode e = .ce x y) →
      exec (.patrolScrubRead line) s = .next ((lp6Read s l 0xFFFF 2).2.2.lp6Write l (lp6Read s l 0xFFFF 2).1 false)) ∧
    ((s.tile t).ticked < s.now / 64 → exec (.ltTick t) s =
      .next ((s.modTile t fun x => { x with lt := max x.lt (min (x.lt + 1) lastTime), ticked := x.ticked + 1 }).syncTime t)) ∧
    (∀ x, spaceOf (l * 64) = .host → kvGet s.hub.home l = some x →
      exec (.hostSnoop line) s = .next (s.modHub fun h => { h with home := kvPut h.home l { x with snoop := true } })) ∧
    (∀ x, kvGet s.hub.home l = some x → x.snoop = true → x.leaseEnd ≤ s.now → exec (.hostSnoopResponse line data) s =
      .next (((s.dropLine l).modHub fun h =>
        { h with
          mem := putRaw h.mem l data
          times := kvPut h.times l { wts := x.wts, rts := x.rts, leaseEnd := x.leaseEnd, snoop := false }
          wtq := h.wtq.filter (·.line != l) }).send (.snoopAnswer line x.data))) ∧
    (isLocal (l * 64) = true → homeHeld s l = false → noWatch s → arraysSound s →
      ∃ u, exec (.hostCxlMemWrite line mask data) s = .next u ∧ u.hub.out.getLast? = some (.memWritten line) ∧
        ∀ a, byteAt u a = if a / 64 = l ∧ mask.getLsbD (a % 64) then data.extractLsb' (8 * (a % 64)) 8 else byteAt s a) ∧
    (isLocal (l * 64) = true → homeHeld s l = false → s.hub.filter.contains l = true ∨ s.hub.filter.length < 1048576 → arraysSound s →
      ∃ u, exec (.hostCxlMemRead line) s = .next u ∧ memSame s u ∧
        u.hub.filter = (if s.hub.filter.contains l then s.hub.filter else s.hub.filter ++ [l]) ∧
        u.hub.out.getLast? = some (.readData line (lineNow s l).1 (lineNow s l).2)) ∧
    (s.hub.backInv.any (·.line == l) = true → (∀ v, (s.bank v).posted = []) → s.hub.unpins = [] →
      exec (.backInvalidationResponse line) s = .next (s.modHub fun h =>
        { h with filter := h.filter.filter (· != l), backInv := h.backInv.filter (·.line != l) }).resettle) ∧
    (s.hub.backInv.any (fun b => b.line == l && b.since + 2 ^ 21 ≤ s.sched16) = true → (∀ v, (s.bank v).posted = []) → s.hub.unpins = [] →
      exec (.backInvalidationTimeout line) s = .next (((s.modHub fun h =>
        { h with filter := h.filter.filter (· != l), backInv := h.backInv.filter (·.line != l) }).resettle.hubLog 16 (w64 (l * 64)) 0xFFFF).modHub fun h =>
          { h with out := h.out ++ [.uncorrectable line] })) ∧
    (s.hub.pair = true → isLocal (l * 64) = true → homeHeld s l = false → arraysSound s →
      (mask = 0 → ∃ u, exec (.partnerAccessArrival line mask data) s = .next u ∧ memSame s u ∧
        u.hub.out.getLast? = some (.pairData line (lineNow s l).1 (lineNow s l).2)) ∧
      (mask ≠ 0 → s.hub.filter = [] → noWatch s →
        ∃ u, exec (.partnerAccessArrival line mask data) s = .next u ∧
          ∀ a, byteAt u a = if a / 64 = l ∧ mask.getLsbD (a % 64) then data.extractLsb' (8 * (a % 64)) 8 else byteAt s a)) ∧
    (exec (.pairAcknowledgement w) s = .next (s.modBank w fun b => { b with pairWait := b.pairWait.tail })) ∧
    (s.hub.migWindow < s.sched16 / 2 ^ 20 → exec .migrationCountWindow s =
      .next (s.modHub fun h => { h with migCnt := [], migNone := [], migWindow := s.sched16 / 2 ^ 20 })) ∧
    (∀ m z e u, s.hub.moves.find? (fun m => m.id == id && !m.committed) = some m →
      s.snoopLines (moveLines m (List.range 1024)) = (true, z) → pagesHeld z = false →
      let y := z.modHub fun h => { h with moves := h.moves.map fun x => if x.id == id then { x with copied := true } else x }
      let v := if m.pte.isNone then (List.range 1024).foldl (fun s i => s.copyLine m i) y else y
      v.pteNow id = (e, u) → pteMST e = 1 → ptePin e = 0 →
      exec (.migrationCommit id) s = .next ((u.setPte id (pteSet e 10 2 2)).modHub fun h =>
        { h with
          moves := h.moves.map fun x => if x.id == id then { x with committed := true } else x
          shots := h.shots ++ [(id, liveTiles u)] })) ∧
    (s.hub.shots.any (fun x => x.1 == id && x.2.contains t) = true → (s.tile t).shots.contains id = false →
      ∃ u, exec (.shootDown t id) s = .next u ∧ (∀ x ∈ (u.tile t).tlb1, x.id ≠ id) ∧ (∀ x ∈ (u.tile t).tlb2, x.id ≠ id) ∧
        ∀ (c : Fin 2) (k : BitVec 4), let x := (s.bank (who t c)).r.hreg k
          (u.bank (who t c)).r.hreg k = if x.valid ∧ x.id = id then { x with valid := false } else x) ∧
    ((s.tile t).shots.contains id = true →
      (∀ m ∈ s.hub.moves, m.id = id → frameBusy s t m.oldBase.toNat = false ∧ frameBusy s t (m.oldBase.toNat + 0x3000000000) = false) →
      exec (.shootDownAck t id) s = .next ((s.modTile t fun x => { x with shots := x.shots.filter (· != id) }).modHub fun h =>
        { h with shots := h.shots.map fun x => if x.1 == id then (x.1, x.2.filter (· != t)) else x })) ∧
    (∀ m z e u, s.hub.moves.find? (fun m => m.id == id && m.committed) = some m → s.hub.shots.any (fun x => x.1 == id && !x.2.isEmpty) = false →
      s.snoopLines (moveLines m m.lines) = (true, z) → pagesHeld z = false →
      (if m.pte.isNone then m.lines.foldl (fun s i => s.copyLine m i) z else z).pteNow id = (e, u) →
      exec (.migrationPublish id) s = .next ((u.setPte id (publishedPte m e)).modHub fun h =>
        { h with
          moves := h.moves.filter (·.id != id)
          shots := h.shots.filter (·.1 != id)
          freeFrames := if m.pte.isSome && m.repl then h.freeFrames ++ [BitVec.ofNat 52 (m.oldBase.toNat + 0x3000000000)]
            else if m.pte.isNone && isLocal m.oldBase.toNat && !(moveFrames m).contains m.oldBase then h.freeFrames ++ [m.oldBase] else h.freeFrames
          mbox := match m.who with
            | some .host => h.mbox.set 0 0
            | some .device => h.mbox.set 1 0
            | none => h.mbox }).resettle) ∧
    (∀ base bytes pc, (s.bank w).f.wait = .walk → (s.bank w).f.packet = some (base, bytes) → pc = (s.bank w).f.pc →
      let f := FS.ofBody (bodyOf (packetWord bytes (pcSlot pc)))
      let x := lookup s w (s.bank w).csr.asid (s.bank w).csr.ptroot ((s.bank w).r.sreg f.a).toNat
      x.1 ≠ .moving → exec (.pageWalkDone w) s = .next (x.2.modBank w fun b => { b with f := { b.f with walked := true, wait := .none } })) ∧
    (∀ p ps, s.hub.pageIns = p :: ps →
      let u := s.modHub fun h => { h with pageIns := ps }
      exec (.pageInComplete false) s = .next (u.failNode p.pool.node) ∧
      (p.unplaced = false → exec (.pageInComplete true) s = .next (u.requeue p.pool)) ∧
      (p.unplaced = true → (s.node? p.pool.node).isSome = true →
        exec (.pageInComplete true) s = .next (u.modHub fun h => { h with pool := h.pool ++ [p.pool] }))) ∧
    (∀ (ch : Fin 8) (c : CopyChan) (e : BitVec 256), c = s.chan t ch → c.entries[c.next]? = some e → nextChan (s.tile t) = some ch →
      inFlight (s.tile t) < 64 → c.again = false →
      let turn (s : State) : State := s.modTile t fun x => { x with chanTurn := ch + 1 }
      (∀ rows, releaseChecks s t c e = .ok rows → exec (.copyEntryRelease t ch) s = .next (turn
        (s.modChan t ch fun c => { c with next := c.next + 1, fly := c.fly ++ [{ idx := c.next, rows, q := (c.byWord c.next).1, ser := (c.byWord c.next).2 }] }))) ∧
      (∀ code, releaseChecks s t c e = .error code → exec (.copyEntryRelease t ch) s = .next (turn (s.faultChan t ch c.next code)))) ∧
    (∀ (ch : Fin 8) (k : Nat) (c : CopyChan) (e : BitVec 256) fl u, c = s.chan t ch → c.fly.find? (·.idx == k) = some fl → c.entries[k]? = some e →
      (∀ b ∈ c.fly, k ≤ b.idx) →
      (∀ r ∈ cpSpRanges e, engineBefore (s.tile t) (s.ownBank (who t c.owner) c.away) (who t c.owner) c.away fl.q fl.ser r.1 r.2 = false) →
      (∀ a ∈ fl.rows, inPair a.toNat = true → pairBefore (s.tile t) (who t c.owner) c.away fl.ser = false) → (∀ a ∈ fl.rows, ∀ l ∈ linesOf a.toNat (64 * cpEntryLines e), lineHeld s (who t c.owner) l = false) →
      (cpEntryOut e = true → s.hub.filter = [] ∧ ((s.bank (who t c.owner)).inst.map (·.lstep)).getD false = false) →
      answers (cpTransfer (who t c.owner) (c.caps.get (cpEntryHandle e)) e fl.rows) s () u →
      let v := u.modChan t ch fun c => cpWatermark { c with fly := c.fly.filter (·.idx != k), compl := k :: c.compl }
      let d := v.chan t ch
      (d.st ≠ .run ∨ d.counted ≠ d.entries.length → exec (.copyEntryComplete t ch k) s = .next v) ∧
      (d.st = .run → d.counted = d.entries.length → cpHeadEv d.header = false → exec (.copyEntryComplete t ch k) s =
        .next ((v.returnGrant (who t c.owner) d.grant).modChan t ch fun c => { c with st := .done, grant := none })))

/-- R271, R299 to R310, R319, R418 to R431: the events of the units complete: units, windows, sampling requests, the entries of the top-k
unit, the end of a collective's patience, errors of accumulators, and approximation, with `apx.beg` and `apx.end`. How the error of a
comparison is computed and when a substituted execution counts (log 84), and that an execution whose substitution is withdrawn records no
sample (log 86), are the model's choice. -/
def Obligations.EngineEvents : Prop :=
  ∀ (w : Who) (c : Cid) (s : State),
    let b := s.bank w
    (∀ (k : Fin 5) r rest, ((s.cluster c).govAt k.val).reqs = r :: rest → r.win = 0 →
      let g := (s.cluster c).govAt k.val
      let may := (s.cluster c).throttled = false ∧ 0 < g.budget ∧ (g.used + r.units ≤ g.budget ∨ g.used = 0)
      (may → exec (.grant c k) s = .next (s.modCluster c fun x => x.modGov k.val fun g =>
        { g with used := g.used + r.units, reqs := rest, ready := g.ready ++ [r] })) ∧
      (¬ may → exec (.grant c k) s = .next s)) ∧
    (∀ p, b.pwr = some p → p.held = true → p.ends ≤ s.now → exec (.pwrWindowExpiry w) s = .next (s.releaseWindow w) ∧
      ((s.releaseWindow w).bank w).pwr = none) ∧
    (∀ r rest, b.smpOut = r :: rest →
      let k := Tid.cluster (Who.tile w)
      let z := smpServe ((s.cluster k).smp.get r.slot.toFin) r
      exec (.smpRequestServe w) s = .next ((s.modCluster k fun x => { x with smp := x.smp.set r.slot.toNat z.1 r.slot.isLt }).modBank w fun b =>
        { b with smpOut := rest, smpQ := b.smpQ ++ z.2.toList })) ∧
    (∀ clr rest, b.topkRd = clr :: rest → exec (.topkRdPush w) s = .next (s.modBank w fun b =>
      { b with topkRd := rest, topkQ := b.topkQ ++ b.topk.read, topk := if clr then { b.topk with entries := [] } else b.topk })) ∧
    (∀ r, b.coll = some r → r.timeout ≠ 0 → r.since + r.timeout.toNat ≤ s.now → exec (.collTimeout w) s =
      .next ((s.withdrawColl w).raise w
        { cls := 1, code := Cause.collTimeout, info := r.entry.s 0, fq := 1, fidx := 0, fpc := r.entry.pc, pc := b.f.pc, time := s.now })) ∧
    (∀ z : BitVec 4, (s.ctx w).status = .running → (b.tileZ z).configured = true → b.c.window = none →
      ∃ u, exec (.accUncorrectableError w z false) s = .next u ∧ ((u.bank w).tileZ z).tag = .poison) ∧
    (∀ k : Fin 16,
      let x := (s.cluster c).fit.get k
      let y : FitSlot := { x with st := .shadow, net := if learns x.lr then Net.trained s.hub.trainings else x.net, n := 0, compared := 0, eValid := false }
      x.st = .train → exec (.apxTrainDone c k) s = .next ((s.modHub fun h => { h with trainings := h.trainings + 1 }).modCluster c fun z =>
        { z with fit := z.fit.set k.val y k.isLt })) ∧
    (∀ a, (s.ctx w).status = .running → b.apx = some a → holdsSubst b = true → a.start + 64 ≤ b.c.cc →
      exec (.apxSubstituteWithdraw w) s = .next ((s.leaveRegion w 1).modBank w fun b => { b with apx := some { a with subst := false, slot := none } })) ∧
    (∀ a, (s.ctx w).status = .running → b.apx = some a → holdsSubst b = true → a.start + 24 ≤ b.c.cc → b.c.cc ≤ a.start + 64 → a.slot = none →
      ((s.cIdle w).bank w).c.cc ≠ b.c.cc →
      let n := 1 + (b.q.c.takeWhile fun e => (opOf e.word).toNat != 0xD1).length
      let y := ((a.net.infer (lanesFP32 a.input 64)).take a.ol).map fun v => (roundFP32 v).1
      exec (.apxSubstituteResult w) s = .next (((s.cIdle w).leaveRegion w n).modBank w fun b =>
        { emptyBelt b with apx := none, r := (emptyBelt b).r.setN a.outN { bits := ofElems 32 y, tag := .fp32 } })) ∧
    (∀ (h : Hdr) (e : Entry), h.gn = 0 → h.gp = 0 →
      let u := cStart s
      let v := u.curBank
      (∀ (f : FK) n wrote a x, cRuns (.apxBeg h f) e s → h.tk = 0 → holdsSubst s.curBank = false →
        scanRegion f v.q.c.tail 1 false = .upTo n wrote true → apxI f ≠ apxO f → (v.r.n.get (apxI f).toFin).tag = .fp32 →
        v.c.latches = [] →
        (u.modBank s.cur emptyBelt).fitLookup s.cur
          { id := apxId f, f := fingerprint (e :: v.q.c.tail.take (n - 1)) e.pc, outN := apxO f, ol := apxOl f
            input := (v.r.n.get (apxI f).toFin).bits, thr := BitVec.ofNat 32 v.csr.apxthr.toNat, start := v.c.cc } = (a, x) →
        a.subst = false → exec (.apxBeg h f) s = .next (cIssued s.cur e (.plain 0) (x.modBank s.cur fun b =>
          { b with apx := some a, c := { b.c with prep := none } }))) ∧
      (∀ x : BitVec 32, cRuns (.apxEnd h x) e s → v.c.latches = [] →
        (v.apx = none → exec (.apxEnd h x) s = .next (cIssued s.cur e .atOnce (u.modBank s.cur emptyBelt))) ∧
        (∀ a, v.apx = some a → (v.r.n.get a.outN.toFin).tag = .fp32 → exec (.apxEnd h x) s =
          .next (cIssued s.cur e .atOnce ((u.fitEnd s.cur a (v.r.n.get a.outN.toFin).bits).modBank s.cur fun b => { emptyBelt b with apx := none })))))

/-! ## The scheduler, voting, power and the mailboxes -/

/-- R346 to R358, R368, R369: what the scheduler's own steps do, each where its conditions hold. That a bank node does its rows at one instant
and asks the lowest cluster for units (log 74), that versions are copied home oldest first and pass over a page that cannot be translated
(log 75), that the take-over ends at a later move (log 76), and what a journal entry holds (log 113) are the model's choice. -/
def Obligations.TaskEvents : Prop :=
  ∀ (w : Who) (q : Fin 1024) (n : Nat) (s : State),
    let d := s.qdesc q
    let kickClear := s.modHub fun h => { h with kick := h.kick &&& ~~~(1#1024 <<< q.val) }
    (∀ tail, ∃ u, exec (.hostTailWrite q tail) s = .next u ∧ u.qdesc q = { d with tail, submitted := s.hub.hostSer } ∧ (∀ p, p ≠ q → u.qdesc p = s.qdesc p) ∧
      (∀ k : Fin 1024, u.hub.kick.getLsbD k = (k = q || s.hub.kick.getLsbD k)) ∧ memSame s u) ∧
    (∀ flags : BitVec 8, ∃ u, exec (.queueEnWrite q flags) s = .next u ∧
      u.qdesc q = { d with en := flags.getLsbD 0, priv := flags.getLsbD 1, devok := flags.getLsbD 2 } ∧
      ∀ k : Fin 1024, u.hub.kick.getLsbD k = ((k = q && !d.en && flags.getLsbD 0) || s.hub.kick.getLsbD k)) ∧
    (scheduling s = true → s.hub.kick.getLsbD q = true →
      (d.en = false → exec (.kickParse q) s = .next kickClear) ∧
      (d.en = true → d.head.toNat = d.tail.toNat % 2 ^ d.size.toNat → exec (.kickParse q) s = .next kickClear) ∧
      (d.en = true → d.head.toNat ≠ d.tail.toNat % 2 ^ d.size.toNat → s.hub.table.length < 4096 → s.hub.remap = [] →
        homeStalls s ((d.ring.toNat + 32 * d.head.toNat) / 64) = false → ∀ b v, kickClear.hubRead (d.ring.toNat + 32 * d.head.toNat) 32 2 = (b, false, v) → watchFull v q (Machine.bits (leNat b) 128 64) = false →
          let x := leNat b
          nodeMoving v q (Machine.bits x 0 64) (Machine.bits x 64 64) (Machine.bits x 128 64) = false →
          exec (.kickParse q) s = .next (((v.newNode q (Machine.bits x 0 64) (Machine.bits x 64 64) (Machine.bits x 128 64) (Machine.bits x 192 64) none
            (v.timeAt (d.ring.toNat + 32 * d.head.toNat))).advanceHead q).parseQueue q 65535))) ∧
    (∀ e pa u b v, s.node? n = some e → scheduling s = true → e.st = .eval → e.ctl % 8 = 0 → hubMoving s e.queue e.ctl = false →
      (∀ va ∈ (List.range 3).filterMap e.succ, nodeMoving s e.queue va 0 0 = false) →
      s.hubTranslate e.queue e.ctl { rd := true } = (some pa, u) → u.hubRead pa 8 2 = (b, false, v) →
      let x := leNat b
      let y := v.modNode n (·.after (v.timeAt pa))
      (e.kind = 1 → exec (.controlEval n) s =
        .next (y.nodeDoneWith n (((if x = 0 then e.succ 1 else e.succ 0).toList) ++ (e.succ 2).toList)).resettle) ∧
      (e.kind = 2 → x = 0 → exec (.controlEval n) s = .next (y.nodeDoneWith n (e.succ 1).toList).resettle) ∧
      (∀ va, e.kind = 2 → x ≠ 0 → e.succ 0 = some va → exec (.controlEval n) s =
        .next (((y.modNode n fun z => { z with st := .running }).arrive e.queue va (((y.node? n).map (·.time)).getD 0)).bodyOfLoop e va).resettle) ∧
      (e.kind = 3 → exec (.controlEval n) s = .next (y.nodeDoneWith n (if x < 3 then (e.succ x).toList else [])).resettle)) ∧
    (∀ e b u c vec v ws v1 ds v2, readyNode s n 4 = some e → s.hubReadVa e.queue e.argsOf 32 2 = (some b, u) → bankLegal (leNat b) = true →
      let blk := leNat b
      let rows := List.range (Machine.bits blk 224 32)
      u.hubReadVa e.queue (Machine.bits blk 0 64) (2 * Machine.bits blk 192 16) 130 = (some vec, v) → firstCluster e = some c →
      v.hubAddrs e.queue { rd := true } (rows.map fun i => Machine.bits blk 64 64 + 4096 * i) = (some ws, v1) →
      v1.hubAddrs e.queue { w := true } (rows.map fun i => Machine.bits blk 128 64 + 4 * i) = (some ds, v2) → (ws ++ ds).all isLocal = true →
      ∀ v3 v4, v2.nodeUnits c e.id ((ws.map channelOf).eraseDups).length = (true, v3) →
        v3.snoopLines ((ds.map (· / 64)).eraseDups) = (true, v4) →
        let r := v4.bankRows (bankCfg blk vec) e.hostSeen e.time (ws.zip ds)
        exec (.bankNodeExec n) s = .next ((r.2.dropNodeUnits c e.id ((ws.map channelOf).eraseDups).length).doneAt e.id r.1)) ∧
    (∀ e b u vs u1 xs u2 pas u3 u4, readyNode s n 5 = some e → s.hubReadVa e.queue e.argsOf 32 2 = (some b, u) →
      let blk := leNat b
      let slot : BitVec 6 := BitVec.ofNat 6 (Machine.bits blk 192 8)
      let wt := Machine.bit (Machine.bits blk 192 8) 6
      let x := BitVec.ofNat 2048 (leNat vs)
      let y := BitVec.ofNat 2048 (leNat xs)
      let parts := resultParts (Machine.bits blk 128 64)
      u.hubReadVa e.queue (Machine.bits blk 0 64) 256 6 = (some vs, u1) → u1.hubReadVa e.queue (Machine.bits blk 64 64) 256 6 = (some xs, u2) →
      u2.hubAddrs e.queue { w := true } (parts.map (·.1)) = (some pas, u3) →
      drawLanes wt (BitVec.allOnes 256) x y ≠ [] →
      ((drawLanes wt (BitVec.allOnes 256) x y).any fun i => fmtFP32.value (elem x 32 i) == .inf false) = false →
      u3.snoopLines (pas.map (· / 64)) = (true, u4) → ∀ c : Cid, c.val = Machine.bits blk 200 8 →
      let z := smpServe ((u4.cluster c).smp.get slot.toFin) (.draw slot wt (BitVec.allOnes 256) x y)
      let r := (u4.modCluster c fun k => { k with smp := k.smp.set slot.toNat z.1 slot.isLt }).hubStores (pas.zip (parts.map (·.2)))
        (leBytes ((z.2.map (·.bits.toNat)).getD 0) 16) e.time
      exec (.sampleNodeExec n) s = .next (r.2.doneAt e.id r.1)) ∧
    (∀ e pa u v, readyNode s n 6 = some e → e.entry % 8 = 0 → s.hubTranslate e.queue e.entry { w := true } = (some pa, u) → u.snoopLines [pa / 64] = (true, v) →
      let r := v.hubStore pa (leBytes e.argsOf 8) e.time
      exec (.hostsigNodeExec n) s =
        .next ((if e.ctl.testBit 63 then r.2.send (.msix (BitVec.ofNat 11 e.ctl)) else r.2).doneAt e.id r.1)) ∧
    (∀ k v u, s.hub.renames[k]? = some v → scheduling s = true → copyHomeDue s k v = true → s.snoopLines (s.homeLines v) = (true, u) →
      let r := (List.range v.range.npg).foldl (fun (acc : Nat × State) i => acc.2.copyPageHome v i acc.1) (0, u)
      exec (.renameCopyHome k) s = .next (r.2.modHub fun h => Hub.dropVersions
        { h with
          renames := h.renames.set k { v with home := true }
          table := h.table.map fun e => if e.asid == v.asid && (e.reads ++ e.writes).any v.range.meets then e.after r.1 else e }).resettle) ∧
    (∀ (k : Fin 64) t, kvGet s.hub.triggers k.val = some t → t.armed = true → scheduling s = true → triggerDue s t = true → s.hub.table.length < 4096 →
      nodeMoving s t.queue t.node.toNat 0 0 = false →
      exec (.triggerFire k) s = .next (((s.modHub fun h => { h with triggers := kvPut h.triggers k.val { t with armed := false } }).newNode
        t.queue t.node.toNat 0 0 0 none 0).resettle)) ∧
    (∀ x barred, scheduling s = true → chooseNext s (poolOrder s) 0 = some (.one x, barred) → suits s barred w x = true → x.2.saved = none →
      ∀ h0 u, s.argPage w x.1 = (.page h0, u) → ∃ v, exec (.placeInstance w) s = .next v ∧ (v.ctx w).status = .running ∧
        (v.bank w).f.pc = BitVec.ofNat 60 x.1.entry ∧ (v.bank w).r = startRegs x.1 x.2 h0) ∧
    (scheduling s = true → (poolOrder s).any (preempts s w) = true →
      exec (.preempt w) s = .next ((s.modCtx w fun c => { c with preempt := true }).beginPreempt w)) ∧
    (s.hub.cores.halted = false → s.hub.cores.standby = false →
      ∃ u, exec .schedCoreFailover s = .next u ∧ u.hub.cores = { s.hub.cores with halted := true, taking := false } ∧ u.hub.table = s.hub.table ∧ u.ctxs = s.ctxs) ∧
    (s.hub.cores.halted = false → s.hub.cores.standby = true →
      ∃ u, exec .schedCoreFailover s = .next u ∧ u.hub.table = s.hub.table ∧ u.ctxs = s.ctxs ∧ u.hub.kick = s.hub.kick ∧
        u.hub.cores = { s.hub.cores with active := if s.hub.cores.active = 0 then 1 else 0, standby := false, taking := true })

/-- R393 to R410: heartbeats, judgements, accusations, fencing, appeal, probation and delayed lockstep. The model's own choices: a
heartbeat leaves at one exact cycle and a period ends at one cycle for all tiles (log 97); a malformed flit counts against the neighbour at
whose port it arrives, FENCE counts from a neighbour of its subject only, READMIT and RETIRE count when the hub has decided so, and the
self-test starts with the FENCE flit that names the tile (log 96); the way and the time of a flit that no rule routes (log 115); what
the two lockstep copies compare (log 127). -/
def Obligations.VotingEvents : Prop :=
  ∀ (t : Tid) (w : Who) (flit : BitVec 128) (s : State),
    let x := s.tile t
    let taken := s.takeFlit (some t) flit
    let live := meshLive s t = true
    let overHop (b : BitVec 128) (n : Tid) : Flit :=
      { dst := some n, bits := b, due := s.now + hopTime t n, link := some (t, n, s.now + hopTime t n) }
    (meshPowered s = true → live → x.stalled = false → x.sentFor < s.hub.periodEnd → s.now = sendCycle s t →
      ∃ u, exec (.heartbeatSend t) s = .next u ∧ (u.tile t).hbSeq = x.hbSeq + 1 ∧ (u.tile t).sentFor = s.hub.periodEnd ∧
        (u.tile t).health = { x.health with arr := true, acc := Vector.replicate 2 false } ∧
        u.hub.flits = s.hub.flits ++ ((neighboursOf t).filter fun n => ((dirOf t n).map (portOpen s t)).getD false).map
          (overHop (mkFlit 1 t.val t.val 0 x.hbSeq.toNat (healthWord s t)))) ∧
    (∀ d n, live → portOpen s t (dirNat d) = true → nbr t (dirNat d) = some n →
      let fresh := n.val == flitSrc flit && !(s.hub.flits.any fun y => y.dst == some t && y.bits == flit)
      let u := taken.modView t (dirNat d) fun v => { v with flits := v.flits + b2n fresh }
      (wellFormedFlit flit = true → flitSrc flit = n.val → flitType flit = 1 →
        exec (.heartbeat t d flit) s = .next (u.modView t (dirNat d) fun v =>
          { v with badRun := 0, beats := v.beats + 1, goodBeat := v.goodBeat || flitData flit % 32 == 31
                   sig := BitVec.ofNat 24 (flitData flit / 2 ^ 8) })) ∧
      (wellFormedFlit flit = false → exec (.heartbeat t d flit) s = .next (u.malformed t (dirNat d)))) ∧
    (meshPowered s = true → s.hub.periodEnd ≤ s.now → x.judgedAt < s.hub.periodEnd → live → x.stalled = false →
      let u := s.modTile t fun x => { x with judgedAt := s.hub.periodEnd }
      let v := ((List.finRange 4).foldl (fun s d => s.judgeView t d) u).recount t
      exec (.periodEndJudgement t) s = .next (((neighboursOf t).foldl State.endProbation v).nextPeriod)) ∧
    (∀ (d : Fin 4) subj, nbr t d = some subj → (viewOf s t d).st = .ok → hbEn s = true → (viewOf s t d).goodBeat = false →
      (viewOf s t d).partly = false → hbMiss s ≤ min 7 ((viewOf s t d).missed + 1) →
        (viewOf (s.judgeView t d) t d).st = .accused ∧ (viewOf (s.judgeView t d) t d).judged = 1) ∧
    (∀ src subj d, tid? (flitSrc flit) = some src → tid? (flitSubj flit) = some subj → live → x.knownFenced.contains src = false →
      wellFormedFlit flit = true →
      let heard := match dirOf t src with
        | some k => if portOpen s t k then taken.modView t k fun v => { v with badRun := 0 } else taken
        | none => taken
      (flitType flit = 2 → dirOf t subj = some d → hbEn s = true → src ≠ t → (neighboursOf subj).contains src = true →
        let u := heard.modTile t fun y =>
          { y with accs := { subj, src, ends := s.now + 2 * hbMiss s * hbPeriod s } :: y.accs.filter fun a => !(a.subj == subj && a.src == src) }
        exec (.accuse t flit) s = .next ((if (viewOf u t d).st = .ok then u.setView t d .suspect else u).settleVote t d)) ∧
      (flitType flit = 3 → exec (.withdraw t flit) s =
        .next (heard.modTile t fun y => { y with accs := y.accs.filter fun a => !(a.subj == subj && a.src == src) })) ∧
      (flitType flit = 4 → (neighboursOf subj).contains src = true → exec (.fenceNotice (some t) flit) s = .next (heard.noticed t subj)) ∧
      (flitType flit = 4 → (neighboursOf subj).contains src = true → meshLive s src = true →
        exec (.fenceNotice none flit) s = .next (((s.takeFlit none flit).hubFence subj).fenceLonely))) ∧
    (∀ subj src : Tid, exec (.accusationExpiry t subj src) s =
      .next (s.modTile t fun y => { y with accs := y.accs.filter fun a => !(a.subj == subj && a.src == src && a.ends ≤ s.now) })) ∧
    (∀ subj, meshLive s subj = true → 2 ≤ (s.hub.fcnts.get subj) → ∃ u, s.hubFence subj = u ∧ meshLive u subj = false ∧ u.hub.retired.contains subj = true) ∧
    (s.hub.remap.contains t = true → ((liveTiles s).all fun x => (s.tile x).knownFenced.contains t) = true →
      ∃ u, exec (.fenceRemap t) s = .next u ∧ u.hub.remap = s.hub.remap.filter (· != t)) ∧
    (∀ z, fenceFlit s t = some z → x.tested = false → exec (.fenceReceived t) s =
      .next ((((s.takeFlit (some t) z.bits).modTile t fun x => { x with selfTest := true, tested := true }).modCtx (who t 0)
        fun c => { c with status := .fenced, trail := [], signs := [] }).modCtx (who t 1)
        fun c => { c with status := .fenced, trail := [], signs := [] })) ∧
    (x.selfTest = true → exec (.selfTestDone t false) s = .next (s.modTile t fun x => { x with selfTest := false }) ∧
      ∃ u, exec (.selfTestDone t true) s = .next u ∧ (u.tile t).selfTest = false ∧
        u.hub.flits = s.hub.flits ++ (neighboursOf t).map (overHop (mkFlit 5 t.val t.val 0 0 1))) ∧
    (∀ src d, tid? (flitSrc flit) = some src → dirOf t src = some d → live → wellFormedFlit flit = true → flitType flit = 5 → flitSubj flit = src.val →
      flitData flit = 1 → s.hub.fenced.contains src = true → s.hub.appealed.contains src = false →
      exec (.appeal t flit) s = .next ((taken.modHub fun h => { h with appealed := src :: h.appealed }).hubLog 9 (w64 src.val) 0xFFFF)) ∧
    (∀ subj, tid? (flitSubj flit) = some subj → wellFormedFlit flit = true →
      (flitType flit = 6 → s.hub.probation.contains subj = true →
        (t = subj → ∃ u, exec (.readmit t flit) s = .next u ∧ (u.tile t).prob = true ∧ (u.tile t).tested = false ∧
          (∀ d, (viewOf u t d).partly = true) ∧ ∀ c : Fin 2, (s.ctx (who t c)).status = .fenced → (u.ctx (who t c)).status = .idle) ∧
        (∀ d, t ≠ subj → dirOf t subj = some d → (viewOf s t d).st = .fenced →
          ∃ u, exec (.readmit t flit) s = .next u ∧ (viewOf u t d).st = .probation ∧ (viewOf u t d).partly = true ∧
            (u.tile t).knownFenced = x.knownFenced.filter (· != subj))) ∧
      (∀ d, flitType flit = 7 → s.hub.retired.contains subj = true → dirOf t subj = some d →
        ∃ u, exec (.retire t flit) s = .next u ∧ (viewOf u t d).st = .retired)) ∧
    (∀ v, partnerOf w = some v → signaturesMatch s w = true → exec (.lockstepSignatureMatch w) s =
      .next ((s.modBank w fun b => { b with credit := b.credit + 1, cmpFrom := none, effSig := none }).modBank v fun b => { b with effSig := none })) ∧
    (∀ i, (s.bank w).inst = some i → compared s w = true →
      ∀ lead trail : BitVec 32, lead ≠ trail →
        let other := (((List.finRange 144).find? fun v => (s.ctx v).status == .mirror w).map ctxid16).getD 0xFFFF
        let l := s.hubLog 7 (w64 (lead.toNat + trail.toNat * 2 ^ 32)) (ctxid16 w) other
        let k := ((l.node? i.node).map (·.mism)).getD 0 + 1
        let u := l.modNode i.node fun e => { e with mism := k }
        (i.abt = true ∧ k < 3 → exec (.lockstepMismatch w lead trail) s = .next ((u.modBank w id).abortRequeue w)) ∧
        (¬ (i.abt = true ∧ k < 3) → exec (.lockstepMismatch w lead trail) s =
          .next ((((u.modBank w fun b => { b with posted := [] }).dropInstance w).goIdle w).failNode i.node)))

/-- R339, R340, R414, R429 to R442: monitors and thermal limits, reset, D3hot, the pair link, SPDM, and the rows that write one register.
The model's own choices: at which readings the low-temperature and droop events fire (log 78), that a throttle comes with the reading
(log 79), who may make the rows MONST_READ and REGISTER_WRITE (log 80), what a device reset keeps (log 92), and how D3hot is entered with
stopped and shadow instances (log 94). -/
def Obligations.PowerAndRegisterEvents : Prop :=
  ∀ (w : Who) (t : Tid) (c : Cid) (v : BitVec 64) (s : State),
    let priv := (s.bank w).priv
    let x := s.cluster c
    let doe (s : State) (req content : List Byte) : State :=
      (s.modHub fun h => { h with spdm := h.spdm ++ [req] }).send (.doe (Config.spdmAnswer s.hub.spdm req content))
    (∀ (k : Fin 2) (id : BitVec 8), id.toNat = 2 * c.val + k.val →
      let r : BitVec 16 := BitVec.ofNat 16 v.toNat
      let y := x.sensor k r
      let old := sext (if k = 0 then x.t0 else x.t1).toNat 16
      let new := sext r.toNat 16
      let u := (s.modCluster c fun _ => y.2).monitorFires c id y.1
      exec (.monitorEvent id v) s = .next (if tripAt ≤ new then u.trip else u) ∧ (if k = 0 then y.2.t0 else y.2.t1) = r ∧
        (y.1 = true ↔ (x.fired.get ⟨k.val, by omega⟩ = false ∧ sext x.thi.toNat 16 ≤ new) ∨ (sext x.tlo.toNat 16 < old ∧ new ≤ sext x.tlo.toNat 16)) ∧
        (throttleAt ≤ new → y.2.throttled = true) ∧ (y.2.throttled = true → x.throttled = false → ∃ a ∈ y.2.temps, throttleAt ≤ a) ∧
        ((∀ a ∈ y.2.temps, a ≤ releaseAt) → y.2.throttled = false)) ∧
    (∀ id : BitVec 8, id.toNat = 0x40 + c.val →
      let r : BitVec 16 := BitVec.ofNat 16 v.toNat
      let y := x.supply r
      exec (.monitorEvent id v) s = .next ((s.modCluster c fun _ => y.2).monitorFires c id y.1) ∧ y.2.vnow = r ∧ y.2.vmin.toNat = min x.vmin.toNat r.toNat ∧
        (y.1 = true ↔ x.fired.get 2 = false ∧ min x.vmin.toNat r.toNat < x.vlo.toNat)) ∧
    (∀ d, priv = true → ∃ u, exec (.monstRead w c d) s = .next u ∧ (u.bank w).r = (s.bank w).r.setS d x.monst ∧ u.cluster c = ({ x with vmin := x.vnow }).rearmDroop) ∧
    (x.temps.any (throttleAt ≤ ·) = true → exec (.thermalThrottle c) s = .next (s.modCluster c fun x => { x with throttled := true })) ∧
    (x.temps.all (· ≤ releaseAt) = true → exec (.thermalRelease c) s = .next (s.modCluster c fun x => { x with throttled := false })) ∧
    (tripAt ≤ sext x.t0.toNat 16 ∨ tripAt ≤ sext x.t1.toNat 16 → exec .thermalTrip s = .next (s.send .thermalTrip)) ∧
    (∃ u, exec .deviceReset s = .next u ∧ exec .functionLevelReset s = .next u ∧ u.hub.mem = s.hub.mem ∧ (∀ w, (u.ctx w).status = .idle) ∧
      u.hub.table = [] ∧ u.hub.qd = [] ∧ u.hub.fenced = [] ∧ u.hub.retired = [] ∧ (∀ t, (u.tile t).sp = [] ∧ (u.tile t).tlb1 = [] ∧ (u.tile t).tlb2 = []) ∧
      (imageAccepted s.hub.boot s.hub.boot.flash = true →
        u.hub.power = (if s.hub.boot.partner then .boot else .d0) ∧ ∀ c, (u.cluster c).gov = powerRow (Config.bootPower s.hub.boot.flash)) ∧
      (imageAccepted s.hub.boot s.hub.boot.flash = false → u.hub.power = .recovery)) ∧
    (exec .powerRemoval s = .next (s.modHub fun h => { h with power := .off }) ∧ (s.hub.power = .off → s.sched = [] → step s = .fault .poweredOff) ∧
      (∀ dt p rest, s.hub.power = .off → s.sched = { dt, what := .powerGood p } :: rest → step s = .next (({ s with sched := rest } : State).powerGood p))) ∧
    ((s.hub.power = .d0 → allQuiet s = false → exec .d3hotEntry s = .next (s.modHub fun h => { h with power := .d3entry s.sched16 })) ∧
      (s.hub.power = .d0 → allQuiet s = true → ∃ u, exec .d3hotEntry s = .next u ∧ u.hub.power = .d3hot)) ∧
    (∀ n, s.hub.power = .d3entry n → n + 2 ^ 24 ≤ s.sched16 →
      let u := (List.finRange 144).foldl State.saveShadow s
      exec .d3hotRunLimitExpiry s = .next (((List.finRange 144).filter (coopTogether u)).foldl State.saveForSleep u)) ∧
    (s.hub.power = .d3hot → ∃ u, u.hub.power = .d0 ∧ u.hub.training = true ∧ u.hub.d3saved = [] ∧ u.hub.table = s.hub.cores.replay.table ∧
      (∀ t, (u.tile t).lt = s.hub.d3lt + 256) ∧ (∀ w, s.hub.d3lt + 256 ≤ (u.bank w).pts) ∧
      exec .d0Return s = .next ((s.hub.d3saved.foldl State.requeue u).resettle)) ∧
    (s.hub.pair = true → ∃ u, exec .pairLinkLost s = .next u ∧ u.hub.pair = false ∧ ∀ w, (u.bank w).pairWait = []) ∧
    (s.hub.training = true → ∃ u, exec .pairLinkTrained s = .next u ∧ u.hub.pair = true ∧ u.hub.training = false ∧
      (s.hub.power = .boot → u.hub.power = .d0 ∧ u.hub.mbox = #v[0, 0]) ∧ (s.hub.power ≠ .boot → u.hub.power = s.hub.power ∧ u.hub.mbox = s.hub.mbox)) ∧
    (exec .getVersion s = .next (doe (s.modHub fun h => { h with spdm := [] }) [0x84] [0x13]) ∧ exec .getCapabilities s = .next (doe s [0xE1] []) ∧
      exec .negotiateAlgorithms s = .next (doe s [0xE3] [0x10, 0x01]) ∧ exec .getDigests s = .next (doe s [0x81] slot0Digest) ∧
      (∀ slot, exec (.getCertificate slot) s = .next (doe s [0x82, BitVec.ofNat 8 slot.toNat] (if slot = 0 then Config.slot0Chain else []))) ∧
      (∀ nonce, let req : List Byte := 0x83 :: leBytes nonce.toNat 32
        let body := slot0Digest ++ s.hub.boot.measured 255
        exec (.challenge nonce) s = .next (doe s req (body ++ Config.identitySignature (s.hub.spdm.flatten ++ req ++ body)))) ∧
      ∀ index, exec (.getMeasurements index) s = .next (doe s [0xE0, index] (s.hub.boot.measured index.toNat))) ∧
    (∃ e : Word, exec (.errinjWrite t v) s = .next (s.modTile t fun x => { x with errinj := e }) ∧
      Machine.bits e.toNat 0 56 = Machine.bits v.toNat 0 56 ∧ Machine.bits e.toNat 56 2 = 0 ∧ e.getLsbD 58 = v.getLsbD 58 ∧
      Machine.bits e.toNat 59 3 = (if Machine.bits v.toNat 59 3 ≥ 6 then 0 else Machine.bits v.toNat 59 3) ∧ Machine.bits e.toNat 62 2 = Machine.bits v.toNat 62 2) ∧
    (priv = true → exec (.hbcfgWrite w v) s = .next (s.modHub fun h => { h with hbcfgNext := some (hbcfgValue v) }) ∧
      exec (.ptrootWrite w v) s = .next (s.modBank w fun b => b.modCsr fun c => { c with ptroot := BitVec.ofNat 36 (v.toNat / 2 ^ 16) }) ∧
      (csrRefuses s w 0x103 v = false → exec (.spquotaWrite w v) s =
        .next (s.modBank w fun b => b.modCsr fun c => { c with spFirst := BitVec.ofNat 9 v.toNat, spCount := BitVec.ofNat 9 (v.toNat / 2 ^ 16) })) ∧
      (legalPc (w64 (v.toNat % 2 ^ 60)) = true → exec (.trapvecWrite w v) s =
        .next (s.modBank w fun b => (b.modCsr fun c => { c with trapvec := BitVec.ofNat 60 v.toNat }).runTimer s.now)) ∧
      ∀ a : BitVec 52, a.toNat % 8 = 0 → exec (.registerWrite w (.hub a) v) s = .next ((s.hubRegWrite a.toNat (leBytes v.toNat 8)).getD s)) ∧
    (priv = false → exec (.hbcfgWrite w v) s = .next s ∧ exec (.ptrootWrite w v) s = .next s ∧ exec (.spquotaWrite w v) s = .next s ∧
      exec (.trapvecWrite w v) s = .next s ∧ ∀ a, exec (.registerWrite w (.hub a) v) s = .next s) ∧
    (exec (.leaseWrite w v) s = .next (s.modBank w fun b => b.modCsr fun c => { c with lease := leaseValue v }) ∧
      exec (.qslipWrite w v) s = .next (s.modBank w fun b => b.modCsr fun c => { c with qslip := qslipValue v }) ∧
      exec (.apxsampWrite w v) s = .next (s.modBank w fun b => b.modCsr fun c => { c with apxsamp := apxsampValue v }) ∧
      ∀ n : BitVec 12, csrAccess n.toNat = some .rw → exec (.registerWrite w (.csr n) v) s = .next (csrWrite s w n.toNat v))

/-- R443 and the rules that it names: each mailbox command that is valid has its effect and answers status 0 in its mailbox, an
invalid one answers 2 and a denied one 3; a page operation answers BUSY until it is done. The model's own choices: RESYNC to a
buffer outside the host window, and the context codes of its record (log 88); the status of a remap or unmap of a page that is being
moved (log 89); which tiles a known-answer task may name, and the status of a core that fails its self-test (log 90). -/
def Obligations.MailboxCommands : Prop :=
  ∀ (mb : Mailbox) (t : Tid) (w : Who) (s : State), mailboxOpen s = true →
    let status (v : Word) (u : State) : State := u.modHub fun h => { h with mbox := h.mbox.set (Mailbox.index mb) v }
    (∀ buf : BitVec 52, spaceOf buf.toNat = .host → (s.snoopLines (linesOf buf.toNat 512)).1 = true → pagesHeld s = false →
      exec (.resync mb buf) s = .next (status 0 ((s.snoopLines (linesOf buf.toNat 512)).2.hubPut buf.toNat (summaryRecord s) 10))) ∧
    (∀ leaf pte z e u, leafThere s leaf = true → s.pteFree leaf = (true, z) → z.pteNow leaf = (e, u) →
      (pteV e = false → pteV pte = true → exec (.pageMap mb leaf pte) s = .next (status 0 (u.setPte leaf (pteSet (pteSet pte 10 2 0) 52 12 0)))) ∧
      (pteV e = true → exec (.pageMap mb leaf pte) s = .next (status 2 u)) ∧
      (pteV e = true → ptePin e = 0 → pteMST e < 2 →
        let moving (repl : Bool) (new : BitVec 64) : State := ((u.modHub fun h => h.dropMove leaf).setPte leaf (pteSet e 10 2 1)).modHub fun h =>
          { h with moves := h.moves ++
              [{ id := leaf, repl, oldBase := BitVec.ofNat 52 (pteBase e), newBase := BitVec.ofNat 52 (pteBase new), who := some mb, pte := some new }] }
        (pteV pte = true → exec (.pageRemap mb leaf pte) s = .next (status 1 (moving false pte))) ∧
        exec (.pageUnmap mb leaf) s = .next (status 1 (moving false (pteSet e 0 1 0))) ∧
        (pteREP e = true → exec (.collapseReplicas mb leaf) s = .next (status 1 (moving true (pteSet e 12 1 0))))) ∧
      (pteV e = true → ptePin e ≠ 0 → exec (.pageUnmap mb leaf) s = .next (status 1 u))) ∧
    (∀ on, (tileFree s t && shadowsFree s t) = true → exec (.sramProtectionMode mb t on) s =
      .next (status 0 (s.modTile t fun x => if x.bankCode = on then x else { x with bankCode := on, tags := Vector.replicate 384 {}, sp := [], bad := [] }))) ∧
    (∀ on, (tileFree s t && shadowsFree s t) = false → exec (.sramProtectionMode mb t on) s = .next (status 3 s)) ∧
    (∀ bank : BitVec 7, (bank.toNat < 96 → ∃ u, exec (.markBankFailed mb t bank) s = .next (status 0 u) ∧
        ∀ b, b ∈ (u.tile t).failedBanks ↔ b = bank ∨ b ∈ (s.tile t).failedBanks) ∧
      (96 ≤ bank.toNat → exec (.markBankFailed mb t bank) s = .next (status 2 s))) ∧
    (∀ ways : BitVec 8, (8 < ways.toNat → exec (.kvResidentReservation mb t ways) s = .next (status 2 s)) ∧
      (ways.toNat ≤ 8 → tileFree s t = false → exec (.kvResidentReservation mb t ways) s = .next (status 3 s)) ∧
      (ways.toNat ≤ 8 → tileFree s t = true → ∃ u, exec (.kvResidentReservation mb t ways) s = .next (status 0 u) ∧ (u.tile t).kvWays = ways.toNat)) ∧
    (∀ period, exec (.tileTimerPeriod mb t period) s = .next (status 0 (s.modTile t fun x => { x with timerPeriod := period }))) ∧
    (∀ (k : Fin 64) tr, exec (.triggerEntry mb k tr) s = .next (status 0 (s.modHub fun h => { h with triggers := kvPut h.triggers k.val tr }))) ∧
    (∀ (c : Cid) (k : Fin 5) (b : BitVec 8), exec (.governorBudgets mb c k b) s =
      .next (status 0 (s.modCluster c fun x => x.modGov k.val fun g => { g with budget := b.toNat }))) ∧
    (s.hub.fenced.contains t = true → s.hub.appealed.contains t = true →
      (∃ u, exec (.readmitTile mb t) s = .next (status 0 u) ∧ t ∉ u.hub.fenced ∧ t ∈ u.hub.probation ∧
        u.hub.flits = s.hub.flits ++ (t :: neighboursOf t).map fun n =>
          { dst := some n, bits := mkFlit 6 t.val t.val 0 0 0
            due := s.now + (wayOf (fun x => (s.hub.fenced.contains x && x != t) || s.hub.retired.contains x) (hubPort n) n).1 }) ∧
      exec (.keepFenced mb t) s = .next (status 0 s)) ∧
    ((s.hub.fenced.contains t && s.hub.appealed.contains t) = false →
      exec (.readmitTile mb t) s = .next (status 2 s) ∧ exec (.keepFenced mb t) s = .next (status 2 s)) ∧
    (∀ node q, s.hub.probation.contains t = true → s.hub.table.length < 4096 → scheduling s = true → nodeMoving s q node.toNat 0 0 = false →
      exec (.postKatTask mb t node q) s =
      .next (status 0 (((s.newNode q node.toNat 0 0 0 none 0).modNode s.hub.nextId fun e => { e with katTile := some t }).resettle))) ∧
    (s.hub.cores.standby = false → exec (.coreReloadSelftest mb true) s = .next (status 0 (s.modHub fun h =>
        { h with cores := { h.cores with standby := true, imem := Vector.ofFn fun k => if k = h.cores.active then h.cores.imem.get k else {} } })) ∧
      exec (.coreReloadSelftest mb false) s = .next (status 2 s)) ∧
    ((s.ctx w).status = .stopped → exec (.resumeContext mb w) s = .next (status 0 (s.modCtx w fun c => { c with status := .running })) ∧
      exec (.discardContext mb w) s = .next (status 0 (s.fatal w Cause.brk))) ∧
    ((s.ctx w).status ≠ .stopped → exec (.resumeContext mb w) s = .next (status 2 s) ∧ exec (.discardContext mb w) s = .next (status 2 s)) ∧
    (∀ (pa : BitVec 52) hs h15 u v, pa.toNat % 65536 = 0 → isLocal pa.toNat = true → pagesHeld s = false → s.hubRead (pa.toNat + 0x10200) 1024 18 = (hs, false, u) →
      u.hubRead (pa.toNat + 0x10058) 24 3 = (h15, false, v) →
      let word (l : List Byte) (o : Nat) : Nat := leNat ((l.drop o).take 8)
      let held := (List.range 16).map (fun i => (word hs (64 * i + 8), word hs (64 * i + 24))) ++ [(word h15 8, word h15 16)]
      exec (.discardImage mb pa) s = .next (status 0 ((held.filter fun x => Machine.bit x.1 0 && Machine.bit x.1 2).foldl
        (fun s x => s.lowerPin (BitVec.ofNat 49 x.2)) v))) ∧
    (exec (.pairLinkRetrain mb) s = .next (status 0 (s.modHub fun h => { h with training := !h.pair }))) ∧
    (∀ img, exec (.imageLoad mb img) s = .next (status 2 s)) ∧
    (∀ (r : State) img, r.hub.power = .recovery → imageAccepted r.hub.boot img = true → exec (.imageLoad mb img) r =
      .next (status 0 ((r.modHub fun h => { h with boot := { h.boot with flash := img } }).bringUp)))

/-! ## The whole machine -/

/-- R23 to R26, R29, R43: a step runs the word that memory holds at the PC. Which move a step makes, by the schedule, is the model's own
choice (log 2), and so is that a stalled tile makes none (log 144). After the tile cycles before the move have passed (`u`), a fetch
through a translation that permits it takes the 32 bytes of the packet; a front-end word, and a queue word that finds its queue empty, is
executed as `exec` of the decoded instruction, as is the head of a queue when the schedule names that queue. An event that the schedule
names is `exec` of that event. At its end a step performs a mailbox command that waits, and does what ends every move. -/
def Obligations.StepRunsWord : Prop :=
  ∀ (s : State) (m : Mv) (rest : List Mv) (w : Who), ∀ u, s.hub.power ≠ .off → s.sched = m :: rest → advance m.dt { s with sched := rest } = .next u →
    let b := u.bank w
    let ended (o : Out) : Out := andThen o fun t => andThen (serveMailbox t) fun t => .next (t.endMove s)
    let free := stallsTile u (moveTile m.what) = false
    (m.dt = 0 → u = { s with sched := rest }) ∧
    (∀ e level id u1 pa (bytes : BitVec 256), lookup u w b.csr.asid b.csr.ptroot (pcPacket b.f.pc).toNat = (.leaf e level id, u1) →
      pteKind e ≠ 3 → pteX e = true → (ptePRV e = true → b.priv = true) → pteM e = false →
      pa = leafFrame e level (Tid.die (Who.tile w)) + (pcPacket b.f.pc).toNat % 2 ^ levelBits level → pa % 32 = 0 → isLocal pa = true →
      reaches u1 pa = true → lineHeld u1 w (pa / 64) = false → arraysSound u1 → (lineNow u1 (pa / 64)).2 = false →
      (∀ k, k < 32 → bytes.extractLsb' (8 * k) 8 = byteAt u1 (pa + k)) → bytes.toNat % 8 ≤ 4 → pcSlot b.f.pc ≤ bytes.toNat % 8 →
      (packetPairs bytes (pcSlot b.f.pc) (bytes.toNat % 8)).isSome = true →
      ∃ v, answers (fetchPacket w) u () v ∧ frontWord (v.bank w) = some (packetWord bytes (pcSlot b.f.pc))) ∧
    (m.what = .front w → free → (u.ctx w).status = .running → (u.ctx w).preempt = false → (u.tile (Who.tile w)).timerPeriod = 0 → irqDue u w = false →
      b.f.wait ≠ .sleep → ∀ word, frontWord ((u.enterPacket w).bank w) = some word →
        let v := (u.enterPacket w).modBank w fun b => b.modF fun f => { f with wait := .none }
        (queueOf (decodeWord word) = none → v.regionStops w = false → step s = ended (exec (decodeWord word) { v with cur := w })) ∧
        (∀ q, queueOf (decodeWord word) = some q → (v.bank w).q.get q = [] → pairsNext (v.bank w) = false → (opOf word).toNat ≠ 0xD0 →
          (opOf word).toNat ≠ 0xD1 → v.regionStops w = false → step s = ended (exec (decodeWord word) { v with cur := w }))) ∧
    (∀ q e es, m.what = .issue w q → free → isActive' u w = true → stands u w q = false → (q = .c → b.c.window = none ∧ pairAtHead b = none) →
      b.q.get q = e :: es → step s = ended (andThen (exec (decodeWord e.word) { u with cur := w }) fun t => .next (t.settleTrap w))) ∧
    (∀ i, m.what = .event i → free → encodeWord i = none → step s = ended (exec i u))

/-- R24, R30, R36, R45 to R48: for every instruction word, the bytes of its encoding decode to it, with every operand at every value that
the encoding admits, and leave the bytes that follow. -/
def Obligations.EncodedBytesDecode : Prop :=
  ∀ (i : Instr) (w : BitVec 48) (rest : List Byte), i.wf = true → encodeWord i = some w → decode (wordBytes w ++ rest) = .ok (i, rest)

/-- R24, R30, R36, R45 to R48: every 48-bit word decodes to a well-formed instruction whose encoding is that word: no bit of a word is
dropped, and no two words stand for one instruction. -/
def Obligations.DecodedWordsEncode : Prop := ∀ w : BitVec 48, (decodeWord w).wf = true ∧ encodeWord (decodeWord w) = some w

/-- Words that the spec writes out, and what they stand for (R166, R167, R169, R113, R116, R431, R427, R329). -/
def Obligations.WorkedWords : Prop :=
  decodeWord 0x1B002A400001 = .sptag ⟨0, 0, 0⟩ ⟨5, 9, 0, 1⟩ ∧ decodeWord 0x0E002A400124 = .spset ⟨0, 0, 0⟩ ⟨5, 9, 0, 0x124⟩ ∧
    decodeWord 0x2D0019000005 = .xlat ⟨0, 0, 0⟩ ⟨3, 4, 0, 5⟩ ∧ decodeWord 0x2F0030C00002 = .hinfo ⟨0, 0, 0⟩ ⟨6, 3, 0, 2⟩ ∧
    decodeWord 0xE90021400000 = .pwrReq ⟨0, 0, 0⟩ ⟨4, 5, 0, 0⟩ ∧ decodeWord 0x380001400000 = .apxInv ⟨0, 0, 0⟩ ⟨0, 5, 0, 0⟩ ∧
    decodeWord 0x18004800C48D = .li ⟨0, 0, 0⟩ ⟨9, 0xC48D⟩ ∧ decodeWord 0x190048050000 = .lsh ⟨0, 0, 0⟩ ⟨9, 0, 0x50000⟩

/-- The canonical form of memory (the model's own, log 1): addresses strictly rising, and no byte listed that holds what an unlisted
one reads as. Every step from a state that has it leads to a state that has it. -/
def Obligations.StepKeepsMemoryForm : Prop := ∀ s t : State, Mem.wf s.hub.mem = true → step s = .next t → Mem.wf t.hub.mem = true

/-- The memory of the reset state has the canonical form, and lists nothing: the form, and that reset memory lists nothing, are the
model's own choice (log 1). -/
def Obligations.ResetMemoryForm : Prop := Mem.wf State.reset.hub.mem = true ∧ State.reset.hub.mem = []

/-- R162, R305, R340, R374, R397, R398, R414, R426, R440: the reset values that the spec gives. No instance runs, every scratchpad tag
is 0, every sampling slot holds K = C = 0 and T = TP = 1.0, the CSRs hold the values of their table, and every view of a neighbour is OK. -/
def Obligations.ResetValues : Prop :=
  let s := State.reset
  (∀ w : Who, (s.ctx w).status = .idle ∧ ∀ x ∈ [(0x000, 0), (0x001, 0), (0x002, 64), (0x003, 64), (0x004, 0), (0x008, 0), (0x009, 0), (0x00A, 0), (0x00B, 0),
      (0x010, 0), (0x011, 0), (0x040, 0x3C0000003C800000), (0x041, 32), (0x101, 0), (0x102, 0), (0x103, 0), (0x104, 0), (0x180, 0), (0x181, 0), (0x182, 0),
      (0x183, 0), (0x200, 256), (0x202, 0xC38F01), (0x020, 0), (0x027, 0), (0x028, 0), (0x02F, 0)], csrRead s w x.1 = BitVec.ofNat 64 x.2) ∧
    (∀ (t : Tid) (k : Fin 384), (s.tile t).tags.get k = {}) ∧
    (∀ (c : Cid) (k : Fin 64), (s.cluster c).smp.get k = { key := 0, ctr := 0, temp := 0x3F800000, topp := 0x3F800000 }) ∧
    (∀ (t : Tid) (d : Fin 4), (viewOf s t d).st = if (neighbour t.val d.val).isSome then .ok else .none) ∧
    (∀ t : Tid, (s.tile t).errinj = 0 ∧ (s.tile t).fcnt = 0) ∧ s.hub.fenced = [] ∧ s.hub.retired = []
end

