-- ==== Sys2Proof/Laws/State.lean ====
section
/-! SUPPORT. What each update of the state leaves in each field, and what the accessors read after it. -/
namespace Sys2Proof.Machine

/-! ## Vectors -/

theorem vec_get_set_same {α : Type} {n : Nat} (v : Vector α n) (i : Fin n) (x : α) : (v.set i.val x i.isLt).get i = x := by
  simp [Vector.get_eq_getElem]

theorem vec_get_set_other {α : Type} {n : Nat} (v : Vector α n) (i j : Fin n) (x : α) (h : j ≠ i) :
    (v.set i.val x i.isLt).get j = v.get j := by
  simp only [Vector.get_eq_getElem]
  exact Vector.getElem_set_ne _ _ (by intro e; exact h (Fin.ext e.symm))

/-! ## Fields of the whole state -/

@[simp] theorem State.setCtx_now (s : State) (w : Who) (c : Ctx) : (s.setCtx w c).now = s.now := rfl
@[simp] theorem State.setCtx_cur (s : State) (w : Who) (c : Ctx) : (s.setCtx w c).cur = s.cur := rfl
@[simp] theorem State.setCtx_sched (s : State) (w : Who) (c : Ctx) : (s.setCtx w c).sched = s.sched := rfl
@[simp] theorem State.setCtx_draws (s : State) (w : Who) (c : Ctx) : (s.setCtx w c).draws = s.draws := rfl
@[simp] theorem State.setCtx_tiles (s : State) (w : Who) (c : Ctx) : (s.setCtx w c).tiles = s.tiles := rfl
@[simp] theorem State.setCtx_clusters (s : State) (w : Who) (c : Ctx) : (s.setCtx w c).clusters = s.clusters := rfl
@[simp] theorem State.setCtx_hub (s : State) (w : Who) (c : Ctx) : (s.setCtx w c).hub = s.hub := rfl
@[simp] theorem State.modCtx_now (s : State) (w : Who) (f : Ctx → Ctx) : (s.modCtx w f).now = s.now := rfl
@[simp] theorem State.modCtx_cur (s : State) (w : Who) (f : Ctx → Ctx) : (s.modCtx w f).cur = s.cur := rfl
@[simp] theorem State.modCtx_sched (s : State) (w : Who) (f : Ctx → Ctx) : (s.modCtx w f).sched = s.sched := rfl
@[simp] theorem State.modCtx_draws (s : State) (w : Who) (f : Ctx → Ctx) : (s.modCtx w f).draws = s.draws := rfl
@[simp] theorem State.modCtx_tiles (s : State) (w : Who) (f : Ctx → Ctx) : (s.modCtx w f).tiles = s.tiles := rfl
@[simp] theorem State.modCtx_clusters (s : State) (w : Who) (f : Ctx → Ctx) : (s.modCtx w f).clusters = s.clusters := rfl
@[simp] theorem State.modCtx_hub (s : State) (w : Who) (f : Ctx → Ctx) : (s.modCtx w f).hub = s.hub := rfl
@[simp] theorem State.modBank_now (s : State) (w : Who) (f : Bank → Bank) : (s.modBank w f).now = s.now := rfl
@[simp] theorem State.modBank_cur (s : State) (w : Who) (f : Bank → Bank) : (s.modBank w f).cur = s.cur := rfl
@[simp] theorem State.modBank_sched (s : State) (w : Who) (f : Bank → Bank) : (s.modBank w f).sched = s.sched := rfl
@[simp] theorem State.modBank_draws (s : State) (w : Who) (f : Bank → Bank) : (s.modBank w f).draws = s.draws := rfl
@[simp] theorem State.modBank_tiles (s : State) (w : Who) (f : Bank → Bank) : (s.modBank w f).tiles = s.tiles := rfl
@[simp] theorem State.modBank_clusters (s : State) (w : Who) (f : Bank → Bank) : (s.modBank w f).clusters = s.clusters := rfl
@[simp] theorem State.modBank_hub (s : State) (w : Who) (f : Bank → Bank) : (s.modBank w f).hub = s.hub := rfl
@[simp] theorem State.setTile_now (s : State) (t : Tid) (x : Tile) : (s.setTile t x).now = s.now := rfl
@[simp] theorem State.setTile_cur (s : State) (t : Tid) (x : Tile) : (s.setTile t x).cur = s.cur := rfl
@[simp] theorem State.setTile_sched (s : State) (t : Tid) (x : Tile) : (s.setTile t x).sched = s.sched := rfl
@[simp] theorem State.setTile_draws (s : State) (t : Tid) (x : Tile) : (s.setTile t x).draws = s.draws := rfl
@[simp] theorem State.setTile_ctxs (s : State) (t : Tid) (x : Tile) : (s.setTile t x).ctxs = s.ctxs := rfl
@[simp] theorem State.setTile_clusters (s : State) (t : Tid) (x : Tile) : (s.setTile t x).clusters = s.clusters := rfl
@[simp] theorem State.setTile_hub (s : State) (t : Tid) (x : Tile) : (s.setTile t x).hub = s.hub := rfl
@[simp] theorem State.modTile_now (s : State) (t : Tid) (f : Tile → Tile) : (s.modTile t f).now = s.now := rfl
@[simp] theorem State.modTile_cur (s : State) (t : Tid) (f : Tile → Tile) : (s.modTile t f).cur = s.cur := rfl
@[simp] theorem State.modTile_sched (s : State) (t : Tid) (f : Tile → Tile) : (s.modTile t f).sched = s.sched := rfl
@[simp] theorem State.modTile_draws (s : State) (t : Tid) (f : Tile → Tile) : (s.modTile t f).draws = s.draws := rfl
@[simp] theorem State.modTile_ctxs (s : State) (t : Tid) (f : Tile → Tile) : (s.modTile t f).ctxs = s.ctxs := rfl
@[simp] theorem State.modTile_clusters (s : State) (t : Tid) (f : Tile → Tile) : (s.modTile t f).clusters = s.clusters := rfl
@[simp] theorem State.modTile_hub (s : State) (t : Tid) (f : Tile → Tile) : (s.modTile t f).hub = s.hub := rfl
@[simp] theorem State.modCluster_now (s : State) (c : Cid) (f : Cluster → Cluster) : (s.modCluster c f).now = s.now := rfl
@[simp] theorem State.modCluster_cur (s : State) (c : Cid) (f : Cluster → Cluster) : (s.modCluster c f).cur = s.cur := rfl
@[simp] theorem State.modCluster_sched (s : State) (c : Cid) (f : Cluster → Cluster) : (s.modCluster c f).sched = s.sched := rfl
@[simp] theorem State.modCluster_draws (s : State) (c : Cid) (f : Cluster → Cluster) : (s.modCluster c f).draws = s.draws := rfl
@[simp] theorem State.modCluster_ctxs (s : State) (c : Cid) (f : Cluster → Cluster) : (s.modCluster c f).ctxs = s.ctxs := rfl
@[simp] theorem State.modCluster_tiles (s : State) (c : Cid) (f : Cluster → Cluster) : (s.modCluster c f).tiles = s.tiles := rfl
@[simp] theorem State.modCluster_hub (s : State) (c : Cid) (f : Cluster → Cluster) : (s.modCluster c f).hub = s.hub := rfl
@[simp] theorem State.modHub_now (s : State) (f : Hub → Hub) : (s.modHub f).now = s.now := rfl
@[simp] theorem State.modHub_cur (s : State) (f : Hub → Hub) : (s.modHub f).cur = s.cur := rfl
@[simp] theorem State.modHub_sched (s : State) (f : Hub → Hub) : (s.modHub f).sched = s.sched := rfl
@[simp] theorem State.modHub_draws (s : State) (f : Hub → Hub) : (s.modHub f).draws = s.draws := rfl
@[simp] theorem State.modHub_ctxs (s : State) (f : Hub → Hub) : (s.modHub f).ctxs = s.ctxs := rfl
@[simp] theorem State.modHub_tiles (s : State) (f : Hub → Hub) : (s.modHub f).tiles = s.tiles := rfl
@[simp] theorem State.modHub_clusters (s : State) (f : Hub → Hub) : (s.modHub f).clusters = s.clusters := rfl
@[simp] theorem State.modHub_hub (s : State) (f : Hub → Hub) : (s.modHub f).hub = f s.hub := rfl

/-! ## Accessors -/

@[simp] theorem State.setCtx_ctx (s : State) (w : Who) (c : Ctx) : (s.setCtx w c).ctx w = c := by
  simp only [State.ctx, State.setCtx]; exact vec_get_set_same _ w c
theorem State.setCtx_ctx_other (s : State) (w x : Who) (c : Ctx) (h : x ≠ w) : (s.setCtx w c).ctx x = s.ctx x := by
  simp only [State.ctx, State.setCtx]; exact vec_get_set_other _ w x c h
@[simp] theorem State.modCtx_ctx (s : State) (w : Who) (f : Ctx → Ctx) : (s.modCtx w f).ctx w = f (s.ctx w) := by
  simp [State.modCtx]
theorem State.modCtx_ctx_other (s : State) (w x : Who) (f : Ctx → Ctx) (h : x ≠ w) : (s.modCtx w f).ctx x = s.ctx x :=
  State.setCtx_ctx_other s w x _ h
@[simp] theorem State.modBank_ctx (s : State) (w : Who) (f : Bank → Bank) :
    (s.modBank w f).ctx w = { s.ctx w with b := f (s.ctx w).b } := by simp [State.modBank]
theorem State.modBank_ctx_other (s : State) (w x : Who) (f : Bank → Bank) (h : x ≠ w) : (s.modBank w f).ctx x = s.ctx x :=
  State.modCtx_ctx_other s w x _ h
@[simp] theorem State.setCtx_bank (s : State) (w : Who) (c : Ctx) : (s.setCtx w c).bank w = c.b := by simp [State.bank]
@[simp] theorem State.modCtx_bank (s : State) (w : Who) (f : Ctx → Ctx) : (s.modCtx w f).bank w = (f (s.ctx w)).b := by
  simp [State.bank]
@[simp] theorem State.modBank_bank (s : State) (w : Who) (f : Bank → Bank) : (s.modBank w f).bank w = f (s.bank w) := by
  simp [State.bank]
theorem State.modBank_bank_other (s : State) (w x : Who) (f : Bank → Bank) (h : x ≠ w) : (s.modBank w f).bank x = s.bank x := by
  simp [State.bank, State.modBank_ctx_other s w x f h]
@[simp] theorem State.setTile_tile (s : State) (t : Tid) (x : Tile) : (s.setTile t x).tile t = x := by
  simp only [State.tile, State.setTile]; exact vec_get_set_same _ t x
theorem State.setTile_tile_other (s : State) (t y : Tid) (x : Tile) (h : y ≠ t) : (s.setTile t x).tile y = s.tile y := by
  simp only [State.tile, State.setTile]; exact vec_get_set_other _ t y x h
@[simp] theorem State.modTile_tile (s : State) (t : Tid) (f : Tile → Tile) : (s.modTile t f).tile t = f (s.tile t) := by
  simp [State.modTile]
theorem State.modTile_tile_other (s : State) (t y : Tid) (f : Tile → Tile) (h : y ≠ t) : (s.modTile t f).tile y = s.tile y :=
  State.setTile_tile_other s t y _ h
@[simp] theorem State.modCluster_cluster (s : State) (c : Cid) (f : Cluster → Cluster) :
    (s.modCluster c f).cluster c = f (s.cluster c) := by
  simp only [State.cluster, State.modCluster]; exact vec_get_set_same _ c _
theorem State.modCluster_cluster_other (s : State) (c d : Cid) (f : Cluster → Cluster) (h : d ≠ c) :
    (s.modCluster c f).cluster d = s.cluster d := by
  simp only [State.cluster, State.modCluster]; exact vec_get_set_other _ c d _ h

@[simp] theorem State.setCtx_tile (s : State) (w : Who) (c : Ctx) (y : Tid) : (s.setCtx w c).tile y = s.tile y := rfl
@[simp] theorem State.setCtx_cluster (s : State) (w : Who) (c : Ctx) (y : Cid) : (s.setCtx w c).cluster y = s.cluster y := rfl
@[simp] theorem State.modCtx_tile (s : State) (w : Who) (f : Ctx → Ctx) (y : Tid) : (s.modCtx w f).tile y = s.tile y := rfl
@[simp] theorem State.modCtx_cluster (s : State) (w : Who) (f : Ctx → Ctx) (y : Cid) : (s.modCtx w f).cluster y = s.cluster y := rfl
@[simp] theorem State.modBank_tile (s : State) (w : Who) (f : Bank → Bank) (y : Tid) : (s.modBank w f).tile y = s.tile y := rfl
@[simp] theorem State.modBank_cluster (s : State) (w : Who) (f : Bank → Bank) (y : Cid) : (s.modBank w f).cluster y = s.cluster y := rfl
@[simp] theorem State.setTile_ctx (s : State) (t : Tid) (x : Tile) (y : Who) : (s.setTile t x).ctx y = s.ctx y := rfl
@[simp] theorem State.setTile_bank (s : State) (t : Tid) (x : Tile) (y : Who) : (s.setTile t x).bank y = s.bank y := rfl
@[simp] theorem State.setTile_cluster (s : State) (t : Tid) (x : Tile) (y : Cid) : (s.setTile t x).cluster y = s.cluster y := rfl
@[simp] theorem State.modTile_ctx (s : State) (t : Tid) (f : Tile → Tile) (x : Who) : (s.modTile t f).ctx x = s.ctx x := rfl
@[simp] theorem State.modTile_bank (s : State) (t : Tid) (f : Tile → Tile) (y : Who) : (s.modTile t f).bank y = s.bank y := rfl
@[simp] theorem State.modTile_cluster (s : State) (t : Tid) (f : Tile → Tile) (y : Cid) : (s.modTile t f).cluster y = s.cluster y := rfl
@[simp] theorem State.modCluster_ctx (s : State) (c : Cid) (f : Cluster → Cluster) (x : Who) : (s.modCluster c f).ctx x = s.ctx x := rfl
@[simp] theorem State.modCluster_bank (s : State) (c : Cid) (f : Cluster → Cluster) (y : Who) : (s.modCluster c f).bank y = s.bank y := rfl
@[simp] theorem State.modCluster_tile (s : State) (c : Cid) (f : Cluster → Cluster) (y : Tid) : (s.modCluster c f).tile y = s.tile y := rfl
@[simp] theorem State.modHub_ctx (s : State) (f : Hub → Hub) (x : Who) : (s.modHub f).ctx x = s.ctx x := rfl
@[simp] theorem State.modHub_bank (s : State) (f : Hub → Hub) (y : Who) : (s.modHub f).bank y = s.bank y := rfl
@[simp] theorem State.modHub_tile (s : State) (f : Hub → Hub) (y : Tid) : (s.modHub f).tile y = s.tile y := rfl
@[simp] theorem State.modHub_cluster (s : State) (f : Hub → Hub) (y : Cid) : (s.modHub f).cluster y = s.cluster y := rfl

/-! ## Updates one after another -/

@[simp] theorem State.setCtx_setCtx (s : State) (w : Who) (c d : Ctx) : (s.setCtx w c).setCtx w d = s.setCtx w d := by
  simp [State.setCtx]
@[simp] theorem State.setTile_setTile (s : State) (t : Tid) (x y : Tile) : (s.setTile t x).setTile t y = s.setTile t y := by
  simp [State.setTile]
@[simp] theorem State.modHub_modHub (s : State) (f g : Hub → Hub) : (s.modHub f).modHub g = s.modHub fun h => g (f h) := rfl
@[simp] theorem State.modCtx_modCtx (s : State) (w : Who) (f g : Ctx → Ctx) :
    (s.modCtx w f).modCtx w g = s.modCtx w fun c => g (f c) := by simp [State.modCtx]
@[simp] theorem State.modBank_modBank (s : State) (w : Who) (f g : Bank → Bank) :
    (s.modBank w f).modBank w g = s.modBank w fun b => g (f b) := by simp [State.modBank]
@[simp] theorem State.modTile_modTile (s : State) (t : Tid) (f g : Tile → Tile) :
    (s.modTile t f).modTile t g = s.modTile t fun x => g (f x) := by simp [State.modTile]

/-! ## Parts of a bank -/

@[simp] theorem Bank.modR_r (b : Bank) (g : Regs → Regs) : (b.modR g).r = g b.r := rfl
@[simp] theorem Bank.modR_csr (b : Bank) (g : Regs → Regs) : (b.modR g).csr = b.csr := rfl
@[simp] theorem Bank.modR_hw (b : Bank) (g : Regs → Regs) : (b.modR g).hw = b.hw := rfl
@[simp] theorem Bank.modR_f (b : Bank) (g : Regs → Regs) : (b.modR g).f = b.f := rfl
@[simp] theorem Bank.modR_q (b : Bank) (g : Regs → Regs) : (b.modR g).q = b.q := rfl
@[simp] theorem Bank.modR_c (b : Bank) (g : Regs → Regs) : (b.modR g).c = b.c := rfl
@[simp] theorem Bank.modR_z (b : Bank) (g : Regs → Regs) : (b.modR g).z = b.z := rfl
@[simp] theorem Bank.modR_pim (b : Bank) (g : Regs → Regs) : (b.modR g).pim = b.pim := rfl
@[simp] theorem Bank.modR_pimRuns (b : Bank) (g : Regs → Regs) : (b.modR g).pimRuns = b.pimRuns := rfl
@[simp] theorem Bank.modR_coll (b : Bank) (g : Regs → Regs) : (b.modR g).coll = b.coll := rfl
@[simp] theorem Bank.modR_kvRuns (b : Bank) (g : Regs → Regs) : (b.modR g).kvRuns = b.kvRuns := rfl
@[simp] theorem Bank.modR_topk (b : Bank) (g : Regs → Regs) : (b.modR g).topk = b.topk := rfl
@[simp] theorem Bank.modR_topkQ (b : Bank) (g : Regs → Regs) : (b.modR g).topkQ = b.topkQ := rfl
@[simp] theorem Bank.modR_smpQ (b : Bank) (g : Regs → Regs) : (b.modR g).smpQ = b.smpQ := rfl
@[simp] theorem Bank.modR_smpOut (b : Bank) (g : Regs → Regs) : (b.modR g).smpOut = b.smpOut := rfl
@[simp] theorem Bank.modR_topkRd (b : Bank) (g : Regs → Regs) : (b.modR g).topkRd = b.topkRd := rfl
@[simp] theorem Bank.modR_inst (b : Bank) (g : Regs → Regs) : (b.modR g).inst = b.inst := rfl
@[simp] theorem Bank.modR_pts (b : Bank) (g : Regs → Regs) : (b.modR g).pts = b.pts := rfl
@[simp] theorem Bank.modR_hostSeen (b : Bank) (g : Regs → Regs) : (b.modR g).hostSeen = b.hostSeen := rfl
@[simp] theorem Bank.modR_ser (b : Bank) (g : Regs → Regs) : (b.modR g).ser = b.ser := rfl
@[simp] theorem Bank.modR_h15save (b : Bank) (g : Regs → Regs) : (b.modR g).h15save = b.h15save := rfl
@[simp] theorem Bank.modR_posted (b : Bank) (g : Regs → Regs) : (b.modR g).posted = b.posted := rfl
@[simp] theorem Bank.modR_pairWait (b : Bank) (g : Regs → Regs) : (b.modR g).pairWait = b.pairWait := rfl
@[simp] theorem Bank.modR_wm (b : Bank) (g : Regs → Regs) : (b.modR g).wm = b.wm := rfl
@[simp] theorem Bank.modR_trap (b : Bank) (g : Regs → Regs) : (b.modR g).trap = b.trap := rfl
@[simp] theorem Bank.modR_tf (b : Bank) (g : Regs → Regs) : (b.modR g).tf = b.tf := rfl
@[simp] theorem Bank.modR_irq (b : Bank) (g : Regs → Regs) : (b.modR g).irq = b.irq := rfl
@[simp] theorem Bank.modR_timer (b : Bank) (g : Regs → Regs) : (b.modR g).timer = b.timer := rfl
@[simp] theorem Bank.modR_mckSeq (b : Bank) (g : Regs → Regs) : (b.modR g).mckSeq = b.mckSeq := rfl
@[simp] theorem Bank.modR_apx (b : Bank) (g : Regs → Regs) : (b.modR g).apx = b.apx := rfl
@[simp] theorem Bank.modR_pwr (b : Bank) (g : Regs → Regs) : (b.modR g).pwr = b.pwr := rfl
@[simp] theorem Bank.modR_pwrSerial (b : Bank) (g : Regs → Regs) : (b.modR g).pwrSerial = b.pwrSerial := rfl
@[simp] theorem Bank.modR_credit (b : Bank) (g : Regs → Regs) : (b.modR g).credit = b.credit := rfl
@[simp] theorem Bank.modR_cmpFrom (b : Bank) (g : Regs → Regs) : (b.modR g).cmpFrom = b.cmpFrom := rfl
@[simp] theorem Bank.modR_effSig (b : Bank) (g : Regs → Regs) : (b.modR g).effSig = b.effSig := rfl
@[simp] theorem Bank.modCsr_r (b : Bank) (g : Csrs → Csrs) : (b.modCsr g).r = b.r := rfl
@[simp] theorem Bank.modCsr_csr (b : Bank) (g : Csrs → Csrs) : (b.modCsr g).csr = g b.csr := rfl
@[simp] theorem Bank.modCsr_hw (b : Bank) (g : Csrs → Csrs) : (b.modCsr g).hw = b.hw := rfl
@[simp] theorem Bank.modCsr_f (b : Bank) (g : Csrs → Csrs) : (b.modCsr g).f = b.f := rfl
@[simp] theorem Bank.modCsr_q (b : Bank) (g : Csrs → Csrs) : (b.modCsr g).q = b.q := rfl
@[simp] theorem Bank.modCsr_c (b : Bank) (g : Csrs → Csrs) : (b.modCsr g).c = b.c := rfl
@[simp] theorem Bank.modCsr_z (b : Bank) (g : Csrs → Csrs) : (b.modCsr g).z = b.z := rfl
@[simp] theorem Bank.modCsr_pim (b : Bank) (g : Csrs → Csrs) : (b.modCsr g).pim = b.pim := rfl
@[simp] theorem Bank.modCsr_pimRuns (b : Bank) (g : Csrs → Csrs) : (b.modCsr g).pimRuns = b.pimRuns := rfl
@[simp] theorem Bank.modCsr_coll (b : Bank) (g : Csrs → Csrs) : (b.modCsr g).coll = b.coll := rfl
@[simp] theorem Bank.modCsr_kvRuns (b : Bank) (g : Csrs → Csrs) : (b.modCsr g).kvRuns = b.kvRuns := rfl
@[simp] theorem Bank.modCsr_topk (b : Bank) (g : Csrs → Csrs) : (b.modCsr g).topk = b.topk := rfl
@[simp] theorem Bank.modCsr_topkQ (b : Bank) (g : Csrs → Csrs) : (b.modCsr g).topkQ = b.topkQ := rfl
@[simp] theorem Bank.modCsr_smpQ (b : Bank) (g : Csrs → Csrs) : (b.modCsr g).smpQ = b.smpQ := rfl
@[simp] theorem Bank.modCsr_smpOut (b : Bank) (g : Csrs → Csrs) : (b.modCsr g).smpOut = b.smpOut := rfl
@[simp] theorem Bank.modCsr_topkRd (b : Bank) (g : Csrs → Csrs) : (b.modCsr g).topkRd = b.topkRd := rfl
@[simp] theorem Bank.modCsr_inst (b : Bank) (g : Csrs → Csrs) : (b.modCsr g).inst = b.inst := rfl
@[simp] theorem Bank.modCsr_pts (b : Bank) (g : Csrs → Csrs) : (b.modCsr g).pts = b.pts := rfl
@[simp] theorem Bank.modCsr_hostSeen (b : Bank) (g : Csrs → Csrs) : (b.modCsr g).hostSeen = b.hostSeen := rfl
@[simp] theorem Bank.modCsr_ser (b : Bank) (g : Csrs → Csrs) : (b.modCsr g).ser = b.ser := rfl
@[simp] theorem Bank.modCsr_h15save (b : Bank) (g : Csrs → Csrs) : (b.modCsr g).h15save = b.h15save := rfl
@[simp] theorem Bank.modCsr_posted (b : Bank) (g : Csrs → Csrs) : (b.modCsr g).posted = b.posted := rfl
@[simp] theorem Bank.modCsr_pairWait (b : Bank) (g : Csrs → Csrs) : (b.modCsr g).pairWait = b.pairWait := rfl
@[simp] theorem Bank.modCsr_wm (b : Bank) (g : Csrs → Csrs) : (b.modCsr g).wm = b.wm := rfl
@[simp] theorem Bank.modCsr_trap (b : Bank) (g : Csrs → Csrs) : (b.modCsr g).trap = b.trap := rfl
@[simp] theorem Bank.modCsr_tf (b : Bank) (g : Csrs → Csrs) : (b.modCsr g).tf = b.tf := rfl
@[simp] theorem Bank.modCsr_irq (b : Bank) (g : Csrs → Csrs) : (b.modCsr g).irq = b.irq := rfl
@[simp] theorem Bank.modCsr_timer (b : Bank) (g : Csrs → Csrs) : (b.modCsr g).timer = b.timer := rfl
@[simp] theorem Bank.modCsr_mckSeq (b : Bank) (g : Csrs → Csrs) : (b.modCsr g).mckSeq = b.mckSeq := rfl
@[simp] theorem Bank.modCsr_apx (b : Bank) (g : Csrs → Csrs) : (b.modCsr g).apx = b.apx := rfl
@[simp] theorem Bank.modCsr_pwr (b : Bank) (g : Csrs → Csrs) : (b.modCsr g).pwr = b.pwr := rfl
@[simp] theorem Bank.modCsr_pwrSerial (b : Bank) (g : Csrs → Csrs) : (b.modCsr g).pwrSerial = b.pwrSerial := rfl
@[simp] theorem Bank.modCsr_credit (b : Bank) (g : Csrs → Csrs) : (b.modCsr g).credit = b.credit := rfl
@[simp] theorem Bank.modCsr_cmpFrom (b : Bank) (g : Csrs → Csrs) : (b.modCsr g).cmpFrom = b.cmpFrom := rfl
@[simp] theorem Bank.modCsr_effSig (b : Bank) (g : Csrs → Csrs) : (b.modCsr g).effSig = b.effSig := rfl
@[simp] theorem Bank.modF_r (b : Bank) (g : Front → Front) : (b.modF g).r = b.r := rfl
@[simp] theorem Bank.modF_csr (b : Bank) (g : Front → Front) : (b.modF g).csr = b.csr := rfl
@[simp] theorem Bank.modF_hw (b : Bank) (g : Front → Front) : (b.modF g).hw = b.hw := rfl
@[simp] theorem Bank.modF_f (b : Bank) (g : Front → Front) : (b.modF g).f = g b.f := rfl
@[simp] theorem Bank.modF_q (b : Bank) (g : Front → Front) : (b.modF g).q = b.q := rfl
@[simp] theorem Bank.modF_c (b : Bank) (g : Front → Front) : (b.modF g).c = b.c := rfl
@[simp] theorem Bank.modF_z (b : Bank) (g : Front → Front) : (b.modF g).z = b.z := rfl
@[simp] theorem Bank.modF_pim (b : Bank) (g : Front → Front) : (b.modF g).pim = b.pim := rfl
@[simp] theorem Bank.modF_pimRuns (b : Bank) (g : Front → Front) : (b.modF g).pimRuns = b.pimRuns := rfl
@[simp] theorem Bank.modF_coll (b : Bank) (g : Front → Front) : (b.modF g).coll = b.coll := rfl
@[simp] theorem Bank.modF_kvRuns (b : Bank) (g : Front → Front) : (b.modF g).kvRuns = b.kvRuns := rfl
@[simp] theorem Bank.modF_topk (b : Bank) (g : Front → Front) : (b.modF g).topk = b.topk := rfl
@[simp] theorem Bank.modF_topkQ (b : Bank) (g : Front → Front) : (b.modF g).topkQ = b.topkQ := rfl
@[simp] theorem Bank.modF_smpQ (b : Bank) (g : Front → Front) : (b.modF g).smpQ = b.smpQ := rfl
@[simp] theorem Bank.modF_smpOut (b : Bank) (g : Front → Front) : (b.modF g).smpOut = b.smpOut := rfl
@[simp] theorem Bank.modF_topkRd (b : Bank) (g : Front → Front) : (b.modF g).topkRd = b.topkRd := rfl
@[simp] theorem Bank.modF_inst (b : Bank) (g : Front → Front) : (b.modF g).inst = b.inst := rfl
@[simp] theorem Bank.modF_pts (b : Bank) (g : Front → Front) : (b.modF g).pts = b.pts := rfl
@[simp] theorem Bank.modF_hostSeen (b : Bank) (g : Front → Front) : (b.modF g).hostSeen = b.hostSeen := rfl
@[simp] theorem Bank.modF_ser (b : Bank) (g : Front → Front) : (b.modF g).ser = b.ser := rfl
@[simp] theorem Bank.modF_h15save (b : Bank) (g : Front → Front) : (b.modF g).h15save = b.h15save := rfl
@[simp] theorem Bank.modF_posted (b : Bank) (g : Front → Front) : (b.modF g).posted = b.posted := rfl
@[simp] theorem Bank.modF_pairWait (b : Bank) (g : Front → Front) : (b.modF g).pairWait = b.pairWait := rfl
@[simp] theorem Bank.modF_wm (b : Bank) (g : Front → Front) : (b.modF g).wm = b.wm := rfl
@[simp] theorem Bank.modF_trap (b : Bank) (g : Front → Front) : (b.modF g).trap = b.trap := rfl
@[simp] theorem Bank.modF_tf (b : Bank) (g : Front → Front) : (b.modF g).tf = b.tf := rfl
@[simp] theorem Bank.modF_irq (b : Bank) (g : Front → Front) : (b.modF g).irq = b.irq := rfl
@[simp] theorem Bank.modF_timer (b : Bank) (g : Front → Front) : (b.modF g).timer = b.timer := rfl
@[simp] theorem Bank.modF_mckSeq (b : Bank) (g : Front → Front) : (b.modF g).mckSeq = b.mckSeq := rfl
@[simp] theorem Bank.modF_apx (b : Bank) (g : Front → Front) : (b.modF g).apx = b.apx := rfl
@[simp] theorem Bank.modF_pwr (b : Bank) (g : Front → Front) : (b.modF g).pwr = b.pwr := rfl
@[simp] theorem Bank.modF_pwrSerial (b : Bank) (g : Front → Front) : (b.modF g).pwrSerial = b.pwrSerial := rfl
@[simp] theorem Bank.modF_credit (b : Bank) (g : Front → Front) : (b.modF g).credit = b.credit := rfl
@[simp] theorem Bank.modF_cmpFrom (b : Bank) (g : Front → Front) : (b.modF g).cmpFrom = b.cmpFrom := rfl
@[simp] theorem Bank.modF_effSig (b : Bank) (g : Front → Front) : (b.modF g).effSig = b.effSig := rfl
@[simp] theorem Bank.modQ_r (b : Bank) (g : Queues → Queues) : (b.modQ g).r = b.r := rfl
@[simp] theorem Bank.modQ_csr (b : Bank) (g : Queues → Queues) : (b.modQ g).csr = b.csr := rfl
@[simp] theorem Bank.modQ_hw (b : Bank) (g : Queues → Queues) : (b.modQ g).hw = b.hw := rfl
@[simp] theorem Bank.modQ_f (b : Bank) (g : Queues → Queues) : (b.modQ g).f = b.f := rfl
@[simp] theorem Bank.modQ_q (b : Bank) (g : Queues → Queues) : (b.modQ g).q = g b.q := rfl
@[simp] theorem Bank.modQ_c (b : Bank) (g : Queues → Queues) : (b.modQ g).c = b.c := rfl
@[simp] theorem Bank.modQ_z (b : Bank) (g : Queues → Queues) : (b.modQ g).z = b.z := rfl
@[simp] theorem Bank.modQ_pim (b : Bank) (g : Queues → Queues) : (b.modQ g).pim = b.pim := rfl
@[simp] theorem Bank.modQ_pimRuns (b : Bank) (g : Queues → Queues) : (b.modQ g).pimRuns = b.pimRuns := rfl
@[simp] theorem Bank.modQ_coll (b : Bank) (g : Queues → Queues) : (b.modQ g).coll = b.coll := rfl
@[simp] theorem Bank.modQ_kvRuns (b : Bank) (g : Queues → Queues) : (b.modQ g).kvRuns = b.kvRuns := rfl
@[simp] theorem Bank.modQ_topk (b : Bank) (g : Queues → Queues) : (b.modQ g).topk = b.topk := rfl
@[simp] theorem Bank.modQ_topkQ (b : Bank) (g : Queues → Queues) : (b.modQ g).topkQ = b.topkQ := rfl
@[simp] theorem Bank.modQ_smpQ (b : Bank) (g : Queues → Queues) : (b.modQ g).smpQ = b.smpQ := rfl
@[simp] theorem Bank.modQ_smpOut (b : Bank) (g : Queues → Queues) : (b.modQ g).smpOut = b.smpOut := rfl
@[simp] theorem Bank.modQ_topkRd (b : Bank) (g : Queues → Queues) : (b.modQ g).topkRd = b.topkRd := rfl
@[simp] theorem Bank.modQ_inst (b : Bank) (g : Queues → Queues) : (b.modQ g).inst = b.inst := rfl
@[simp] theorem Bank.modQ_pts (b : Bank) (g : Queues → Queues) : (b.modQ g).pts = b.pts := rfl
@[simp] theorem Bank.modQ_hostSeen (b : Bank) (g : Queues → Queues) : (b.modQ g).hostSeen = b.hostSeen := rfl
@[simp] theorem Bank.modQ_ser (b : Bank) (g : Queues → Queues) : (b.modQ g).ser = b.ser := rfl
@[simp] theorem Bank.modQ_h15save (b : Bank) (g : Queues → Queues) : (b.modQ g).h15save = b.h15save := rfl
@[simp] theorem Bank.modQ_posted (b : Bank) (g : Queues → Queues) : (b.modQ g).posted = b.posted := rfl
@[simp] theorem Bank.modQ_pairWait (b : Bank) (g : Queues → Queues) : (b.modQ g).pairWait = b.pairWait := rfl
@[simp] theorem Bank.modQ_wm (b : Bank) (g : Queues → Queues) : (b.modQ g).wm = b.wm := rfl
@[simp] theorem Bank.modQ_trap (b : Bank) (g : Queues → Queues) : (b.modQ g).trap = b.trap := rfl
@[simp] theorem Bank.modQ_tf (b : Bank) (g : Queues → Queues) : (b.modQ g).tf = b.tf := rfl
@[simp] theorem Bank.modQ_irq (b : Bank) (g : Queues → Queues) : (b.modQ g).irq = b.irq := rfl
@[simp] theorem Bank.modQ_timer (b : Bank) (g : Queues → Queues) : (b.modQ g).timer = b.timer := rfl
@[simp] theorem Bank.modQ_mckSeq (b : Bank) (g : Queues → Queues) : (b.modQ g).mckSeq = b.mckSeq := rfl
@[simp] theorem Bank.modQ_apx (b : Bank) (g : Queues → Queues) : (b.modQ g).apx = b.apx := rfl
@[simp] theorem Bank.modQ_pwr (b : Bank) (g : Queues → Queues) : (b.modQ g).pwr = b.pwr := rfl
@[simp] theorem Bank.modQ_pwrSerial (b : Bank) (g : Queues → Queues) : (b.modQ g).pwrSerial = b.pwrSerial := rfl
@[simp] theorem Bank.modQ_credit (b : Bank) (g : Queues → Queues) : (b.modQ g).credit = b.credit := rfl
@[simp] theorem Bank.modQ_cmpFrom (b : Bank) (g : Queues → Queues) : (b.modQ g).cmpFrom = b.cmpFrom := rfl
@[simp] theorem Bank.modQ_effSig (b : Bank) (g : Queues → Queues) : (b.modQ g).effSig = b.effSig := rfl
@[simp] theorem Bank.modC_r (b : Bank) (g : CState → CState) : (b.modC g).r = b.r := rfl
@[simp] theorem Bank.modC_csr (b : Bank) (g : CState → CState) : (b.modC g).csr = b.csr := rfl
@[simp] theorem Bank.modC_hw (b : Bank) (g : CState → CState) : (b.modC g).hw = b.hw := rfl
@[simp] theorem Bank.modC_f (b : Bank) (g : CState → CState) : (b.modC g).f = b.f := rfl
@[simp] theorem Bank.modC_q (b : Bank) (g : CState → CState) : (b.modC g).q = b.q := rfl
@[simp] theorem Bank.modC_c (b : Bank) (g : CState → CState) : (b.modC g).c = g b.c := rfl
@[simp] theorem Bank.modC_z (b : Bank) (g : CState → CState) : (b.modC g).z = b.z := rfl
@[simp] theorem Bank.modC_pim (b : Bank) (g : CState → CState) : (b.modC g).pim = b.pim := rfl
@[simp] theorem Bank.modC_pimRuns (b : Bank) (g : CState → CState) : (b.modC g).pimRuns = b.pimRuns := rfl
@[simp] theorem Bank.modC_coll (b : Bank) (g : CState → CState) : (b.modC g).coll = b.coll := rfl
@[simp] theorem Bank.modC_kvRuns (b : Bank) (g : CState → CState) : (b.modC g).kvRuns = b.kvRuns := rfl
@[simp] theorem Bank.modC_topk (b : Bank) (g : CState → CState) : (b.modC g).topk = b.topk := rfl
@[simp] theorem Bank.modC_topkQ (b : Bank) (g : CState → CState) : (b.modC g).topkQ = b.topkQ := rfl
@[simp] theorem Bank.modC_smpQ (b : Bank) (g : CState → CState) : (b.modC g).smpQ = b.smpQ := rfl
@[simp] theorem Bank.modC_smpOut (b : Bank) (g : CState → CState) : (b.modC g).smpOut = b.smpOut := rfl
@[simp] theorem Bank.modC_topkRd (b : Bank) (g : CState → CState) : (b.modC g).topkRd = b.topkRd := rfl
@[simp] theorem Bank.modC_inst (b : Bank) (g : CState → CState) : (b.modC g).inst = b.inst := rfl
@[simp] theorem Bank.modC_pts (b : Bank) (g : CState → CState) : (b.modC g).pts = b.pts := rfl
@[simp] theorem Bank.modC_hostSeen (b : Bank) (g : CState → CState) : (b.modC g).hostSeen = b.hostSeen := rfl
@[simp] theorem Bank.modC_ser (b : Bank) (g : CState → CState) : (b.modC g).ser = b.ser := rfl
@[simp] theorem Bank.modC_h15save (b : Bank) (g : CState → CState) : (b.modC g).h15save = b.h15save := rfl
@[simp] theorem Bank.modC_posted (b : Bank) (g : CState → CState) : (b.modC g).posted = b.posted := rfl
@[simp] theorem Bank.modC_pairWait (b : Bank) (g : CState → CState) : (b.modC g).pairWait = b.pairWait := rfl
@[simp] theorem Bank.modC_wm (b : Bank) (g : CState → CState) : (b.modC g).wm = b.wm := rfl
@[simp] theorem Bank.modC_trap (b : Bank) (g : CState → CState) : (b.modC g).trap = b.trap := rfl
@[simp] theorem Bank.modC_tf (b : Bank) (g : CState → CState) : (b.modC g).tf = b.tf := rfl
@[simp] theorem Bank.modC_irq (b : Bank) (g : CState → CState) : (b.modC g).irq = b.irq := rfl
@[simp] theorem Bank.modC_timer (b : Bank) (g : CState → CState) : (b.modC g).timer = b.timer := rfl
@[simp] theorem Bank.modC_mckSeq (b : Bank) (g : CState → CState) : (b.modC g).mckSeq = b.mckSeq := rfl
@[simp] theorem Bank.modC_apx (b : Bank) (g : CState → CState) : (b.modC g).apx = b.apx := rfl
@[simp] theorem Bank.modC_pwr (b : Bank) (g : CState → CState) : (b.modC g).pwr = b.pwr := rfl
@[simp] theorem Bank.modC_pwrSerial (b : Bank) (g : CState → CState) : (b.modC g).pwrSerial = b.pwrSerial := rfl
@[simp] theorem Bank.modC_credit (b : Bank) (g : CState → CState) : (b.modC g).credit = b.credit := rfl
@[simp] theorem Bank.modC_cmpFrom (b : Bank) (g : CState → CState) : (b.modC g).cmpFrom = b.cmpFrom := rfl
@[simp] theorem Bank.modC_effSig (b : Bank) (g : CState → CState) : (b.modC g).effSig = b.effSig := rfl

/-! ## Registers (R6) -/

@[simp] theorem Regs.setS_zero (r : Regs) (v : Word) : r.setS 0 v = r := rfl
@[simp] theorem Regs.sreg_zero (r : Regs) : r.sreg 0 = 0 := rfl
@[simp] theorem Regs.preg_zero (r : Regs) : r.preg 0 = true := rfl
@[simp] theorem Regs.setP_zero (r : Regs) (v : Bool) : r.setP 0 v = r := rfl

theorem Regs.sreg_setS (r : Regs) (x : BitVec 5) (v : Word) (hx : x ≠ 0) : (r.setS x v).sreg x = v := by
  simp only [Regs.sreg, Regs.setS, if_neg hx]
  exact vec_get_set_same r.s x.toFin v
theorem Regs.sreg_setS_other (r : Regs) (x y : BitVec 5) (v : Word) (h : y ≠ x) : (r.setS x v).sreg y = r.sreg y := by
  unfold Regs.sreg Regs.setS
  split
  · rfl
  · split
    · rfl
    · exact vec_get_set_other r.s x.toFin y.toFin v (fun e => h (BitVec.eq_of_toFin_eq e))
theorem Regs.preg_setP (r : Regs) (x : BitVec 3) (v : Bool) (hx : x ≠ 0) : (r.setP x v).preg x = v := by
  simp only [Regs.preg, Regs.setP, if_neg hx]
  exact vec_get_set_same r.p x.toFin v
theorem Regs.preg_setP_other (r : Regs) (x y : BitVec 3) (v : Bool) (h : y ≠ x) : (r.setP x v).preg y = r.preg y := by
  unfold Regs.preg Regs.setP
  split
  · rfl
  · split
    · rfl
    · exact vec_get_set_other r.p x.toFin y.toFin v (fun e => h (BitVec.eq_of_toFin_eq e))

@[simp] theorem Regs.setS_p (r : Regs) (x : BitVec 5) (v : Word) : (r.setS x v).p = r.p := by
  unfold Regs.setS; split <;> rfl
@[simp] theorem Regs.setS_h (r : Regs) (x : BitVec 5) (v : Word) : (r.setS x v).h = r.h := by
  unfold Regs.setS; split <;> rfl
@[simp] theorem Regs.setS_belt (r : Regs) (x : BitVec 5) (v : Word) : (r.setS x v).belt = r.belt := by
  unfold Regs.setS; split <;> rfl
@[simp] theorem Regs.setS_n (r : Regs) (x : BitVec 5) (v : Word) : (r.setS x v).n = r.n := by
  unfold Regs.setS; split <;> rfl
@[simp] theorem Regs.setS_m (r : Regs) (x : BitVec 5) (v : Word) : (r.setS x v).m = r.m := by
  unfold Regs.setS; split <;> rfl
@[simp] theorem Regs.setS_lc (r : Regs) (x : BitVec 5) (v : Word) : (r.setS x v).lc = r.lc := by
  unfold Regs.setS; split <;> rfl
@[simp] theorem Regs.setP_s (r : Regs) (x : BitVec 3) (v : Bool) : (r.setP x v).s = r.s := by
  unfold Regs.setP; split <;> rfl
@[simp] theorem Regs.setP_h (r : Regs) (x : BitVec 3) (v : Bool) : (r.setP x v).h = r.h := by
  unfold Regs.setP; split <;> rfl
@[simp] theorem Regs.setP_belt (r : Regs) (x : BitVec 3) (v : Bool) : (r.setP x v).belt = r.belt := by
  unfold Regs.setP; split <;> rfl
@[simp] theorem Regs.setP_n (r : Regs) (x : BitVec 3) (v : Bool) : (r.setP x v).n = r.n := by
  unfold Regs.setP; split <;> rfl
@[simp] theorem Regs.setP_m (r : Regs) (x : BitVec 3) (v : Bool) : (r.setP x v).m = r.m := by
  unfold Regs.setP; split <;> rfl
@[simp] theorem Regs.setP_lc (r : Regs) (x : BitVec 3) (v : Bool) : (r.setP x v).lc = r.lc := by
  unfold Regs.setP; split <;> rfl
@[simp] theorem Regs.setH_s (r : Regs) (x : BitVec 4) (v : Handle) : (r.setH x v).s = r.s := rfl
@[simp] theorem Regs.setH_p (r : Regs) (x : BitVec 4) (v : Handle) : (r.setH x v).p = r.p := rfl
@[simp] theorem Regs.setH_belt (r : Regs) (x : BitVec 4) (v : Handle) : (r.setH x v).belt = r.belt := rfl
@[simp] theorem Regs.setH_n (r : Regs) (x : BitVec 4) (v : Handle) : (r.setH x v).n = r.n := rfl
@[simp] theorem Regs.setH_m (r : Regs) (x : BitVec 4) (v : Handle) : (r.setH x v).m = r.m := rfl
@[simp] theorem Regs.setH_lc (r : Regs) (x : BitVec 4) (v : Handle) : (r.setH x v).lc = r.lc := rfl
@[simp] theorem Regs.setN_s (r : Regs) (x : BitVec 4) (v : Vec) : (r.setN x v).s = r.s := rfl
@[simp] theorem Regs.setN_p (r : Regs) (x : BitVec 4) (v : Vec) : (r.setN x v).p = r.p := rfl
@[simp] theorem Regs.setN_h (r : Regs) (x : BitVec 4) (v : Vec) : (r.setN x v).h = r.h := rfl
@[simp] theorem Regs.setN_belt (r : Regs) (x : BitVec 4) (v : Vec) : (r.setN x v).belt = r.belt := rfl
@[simp] theorem Regs.setN_m (r : Regs) (x : BitVec 4) (v : Vec) : (r.setN x v).m = r.m := rfl
@[simp] theorem Regs.setN_lc (r : Regs) (x : BitVec 4) (v : Vec) : (r.setN x v).lc = r.lc := rfl
@[simp] theorem Regs.setM_s (r : Regs) (x : BitVec 3) (v : BitVec 256) : (r.setM x v).s = r.s := rfl
@[simp] theorem Regs.setM_p (r : Regs) (x : BitVec 3) (v : BitVec 256) : (r.setM x v).p = r.p := rfl
@[simp] theorem Regs.setM_h (r : Regs) (x : BitVec 3) (v : BitVec 256) : (r.setM x v).h = r.h := rfl
@[simp] theorem Regs.setM_belt (r : Regs) (x : BitVec 3) (v : BitVec 256) : (r.setM x v).belt = r.belt := rfl
@[simp] theorem Regs.setM_n (r : Regs) (x : BitVec 3) (v : BitVec 256) : (r.setM x v).n = r.n := rfl
@[simp] theorem Regs.setM_lc (r : Regs) (x : BitVec 3) (v : BitVec 256) : (r.setM x v).lc = r.lc := rfl

/-! ## The front end -/

@[simp] theorem Front.advance_entry (x : Front) : x.advance.entry = x.entry := rfl
@[simp] theorem Front.jump_entry (x : Front) (t : BitVec 60) : (x.jump t).entry = x.entry := rfl
@[simp] theorem Front.advance_sleep (x : Front) : x.advance.sleep = x.sleep := rfl
@[simp] theorem Front.jump_sleep (x : Front) (t : BitVec 60) : (x.jump t).sleep = x.sleep := rfl
@[simp] theorem Front.advance_walked (x : Front) : x.advance.walked = x.walked := rfl
@[simp] theorem Front.jump_walked (x : Front) (t : BitVec 60) : (x.jump t).walked = x.walked := rfl
@[simp] theorem Front.advance_sinceEret (x : Front) : x.advance.sinceEret = x.sinceEret := rfl
@[simp] theorem Front.jump_sinceEret (x : Front) (t : BitVec 60) : (x.jump t).sinceEret = x.sinceEret := rfl
@[simp] theorem Front.advance_nextPos (x : Front) : x.advance.nextPos = x.nextPos := rfl
@[simp] theorem Front.jump_nextPos (x : Front) (t : BitVec 60) : (x.jump t).nextPos = x.nextPos := rfl
@[simp] theorem Front.advance_pc (x : Front) : x.advance.pc = x.next := rfl
@[simp] theorem Front.advance_wait (x : Front) : x.advance.wait = .none := rfl
@[simp] theorem Front.jump_pc (x : Front) (t : BitVec 60) : (x.jump t).pc = t := rfl
@[simp] theorem Front.advance_waited (x : Front) : x.advance.waited = .none := rfl
@[simp] theorem Front.jump_waited (x : Front) (t : BitVec 60) : (x.jump t).waited = .none := rfl
@[simp] theorem Front.jump_wait (x : Front) (t : BitVec 60) : (x.jump t).wait = .none := rfl

end Sys2Proof.Machine
end

