-- ==== Sys2Proof/Laws/Monad.lean ====
section
/-! SUPPORT. What each step of a meaning answers when it is run on a state. -/
namespace Sys2Proof.Machine

theorem run_bind {α β : Type} (m : M α) (k : α → M β) (s : State) :
    (m >>= k).run.run s = match m.run.run s with
      | (.ok a, t) => (k a).run.run t
      | (.error e, t) => (.error e, t) := by
  rw [ExceptT.run_bind, StateT.run_bind]
  generalize m.run.run s = r
  rcases r with ⟨a | a, t⟩ <;> rfl

theorem run_bind_ok {α β : Type} {m : M α} {k : α → M β} {s t : State} {a : α} (h : m.run.run s = (.ok a, t)) :
    (m >>= k).run.run s = (k a).run.run t := by rw [run_bind, h]

theorem run_bind_error {α β : Type} {m : M α} {k : α → M β} {s t : State} {e : Stop} (h : m.run.run s = (.error e, t)) :
    (m >>= k).run.run s = (.error e, t) := by rw [run_bind, h]

@[simp] theorem run_pure {α : Type} (a : α) (s : State) : (pure a : M α).run.run s = (.ok a, s) := rfl
@[simp] theorem run_throw {α : Type} (e : Stop) (s : State) : (throw e : M α).run.run s = (.error e, s) := rfl
@[simp] theorem run_trap {α : Type} (c : BitVec 8) (i : Word) (s : State) : (trap c i : M α).run.run s = (.error (.trap c i), s) := rfl
@[simp] theorem run_waitFor {α : Type} (k : WaitKind) (s : State) : (waitFor k : M α).run.run s = (.error (.wait k), s) := rfl
@[simp] theorem run_illegal {α : Type} (w : BitVec 48) (s : State) :
    (illegal w : M α).run.run s = (.error (.trap Cause.illegalInstruction (wordInfo w)), s) := rfl
@[simp] theorem run_get (s : State) : (get : M State).run.run s = (.ok s, s) := rfl
@[simp] theorem run_set (t s : State) : (set t : M PUnit).run.run s = (.ok ⟨⟩, t) := rfl
@[simp] theorem run_modS (f : State → State) (s : State) : (modS f).run.run s = (.ok (), f s) := rfl
@[simp] theorem run_getB (w : Who) (s : State) : (getB w).run.run s = (.ok (s.bank w), s) := rfl
@[simp] theorem run_getT (w : Who) (s : State) : (getT w).run.run s = (.ok (s.tile (Who.tile w)), s) := rfl
@[simp] theorem run_modB (w : Who) (f : Bank → Bank) (s : State) : (modB w f).run.run s = (.ok (), s.modBank w f) := rfl
@[simp] theorem run_modT (w : Who) (f : Tile → Tile) (s : State) :
    (modT w f).run.run s = (.ok (), s.modTile (Who.tile w) f) := rfl
@[simp] theorem run_modH (f : Hub → Hub) (s : State) : (modH f).run.run s = (.ok (), s.modHub f) := rfl

theorem run_ensure (ok : Bool) (c : BitVec 8) (i : Word) (s : State) :
    (ensure ok c i).run.run s = if ok then (.ok (), s) else (.error (.trap c i), s) := by
  cases ok <;> rfl

theorem run_ensure_ok {ok : Bool} (h : ok = true) (c : BitVec 8) (i : Word) (s : State) : (ensure ok c i).run.run s = (.ok (), s) := by
  rw [run_ensure, h]; rfl

theorem run_ite {α : Type} (p : Prop) [Decidable p] (a b : M α) (s : State) :
    (if p then a else b : M α).run.run s = if p then a.run.run s else b.run.run s := by split <;> rfl

end Sys2Proof.Machine
end

