-- ==== Sys2Proof/Laws/FrontEnd.lean ====
section
/-! SUPPORT. What a front-end word leaves: done, guarded off, waiting, or stopped. -/
namespace Sys2Proof.Machine

/-! ## Vectors and parts of the state set to what they hold -/

theorem vec_set_get {α : Type} {n : Nat} (v : Vector α n) (i : Fin n) : v.set i.val (v.get i) i.isLt = v := by
  ext j hj
  simp only [Vector.get_eq_getElem, Vector.getElem_set]
  split
  · subst_vars; rfl
  · rfl

theorem State.setCtx_same (s : State) (w : Who) : s.setCtx w (s.ctx w) = s := by
  simp only [State.setCtx, State.ctx, vec_set_get]

theorem State.modBank_same (s : State) (w : Who) (f : Bank → Bank) (h : f (s.bank w) = s.bank w) : s.modBank w f = s := by
  have e : s.modBank w f = s.setCtx w { s.ctx w with b := f (s.bank w) } := rfl
  rw [e, h]
  exact s.setCtx_same w

theorem pcSlot_eq (pc : BitVec 60) : pcSlot pc = slotOf pc := by
  simp only [pcSlot, slotOf]
  omega

theorem pcPacket_eq (pc : BitVec 60) : pcPacket pc = packetAddr pc := by
  simp only [pcPacket, packetAddr]
  congr 1
  omega

theorem State.modTile_same (s : State) (t : Tid) (f : Tile → Tile) (h : f (s.tile t) = s.tile t) : s.modTile t f = s := by
  have e : s.modTile t f = s.setTile t (f (s.tile t)) := rfl
  rw [e, h]
  simp only [State.setTile, State.tile, vec_set_get]

theorem lastSlot_eq (f : Front) : lastSlot f = f.wc := by
  unfold lastSlot Front.wc
  cases f.packet with
  | none => rfl
  | some p => simp [bits]

theorem followPc_eq (f : Front) : followPc f = f.next := by
  simp only [followPc, Front.next, pcSlot_eq, lastSlot_eq, pcPacket_eq]

/-- The front end as `endWord` leaves it after a word that falls through. -/
theorem fallThrough_eq (f : Front) : fallThrough f = { f.advance with sleep := none, walked := false } := by
  simp only [fallThrough, Front.advance, followPc_eq, pcSlot_eq, lastSlot_eq]

theorem goTo_eq (f : Front) (t : BitVec 60) : goTo f t = { f.jump t with sleep := none, walked := false } := rfl

theorem guardOn_eq (h : Hdr) (s : State) : guardOn h s = guardOf h (s.bank s.cur) := by
  simp only [guardOn, guardOf, State.curBank]

/-! ## The end of a word -/

theorem State.modTile_modBank (s : State) (t : Tid) (g : Tile → Tile) (w : Who) (f : Bank → Bank) :
    (s.modTile t g).modBank w f = (s.modBank w f).modTile t g := rfl

theorem State.setCtx_comm (s : State) (v w : Who) (c d : Ctx) (h : v ≠ w) :
    (s.setCtx v c).setCtx w d = (s.setCtx w d).setCtx v c := by
  simp only [State.setCtx, State.mk.injEq, true_and, and_true]
  exact Vector.set_comm c d (fun e => h (Fin.ext e))

/-- No context is its own lockstep partner. -/
theorem partnerOf_ne : ∀ w : Who, partnerOf w ≠ some w := by decide +kernel

/-- An update of one context's bank leaves what another context holds, and goes before or after an update of that one. -/
theorem State.modCtx_modBank (s : State) (v w : Who) (g : Ctx → Ctx) (f : Bank → Bank) (h : v ≠ w) :
    (s.modCtx v g).modBank w f = (s.modBank w f).modCtx v g := by
  simp only [State.modBank, State.modCtx]
  rw [State.setCtx_ctx_other s v w _ (Ne.symm h), State.setCtx_ctx_other s w v _ h, State.setCtx_comm _ v w _ _ h]

theorem clearWm_front (b : Bank) : b.clearWm .front = waitsGone b := by
  unfold Bank.clearWm waitsGone
  split
  · cases b; simp_all
  · rfl

/-- The bank as the end of a front-end word leaves it. -/
theorem endBank_eq (b : Bank) (go : Front → Front) :
    ((b.clearWm .front).modF fun f => { go f with sleep := none, walked := false }) =
      waitsGone { b with f := { go b.f with sleep := none, walked := false } } := by
  rw [clearWm_front]; rfl

/-- The end of a word: the bank, the tile's signature, and the word that the trailing copy has still to retire. -/
theorem State.endWord_eq (s : State) (w : Who) (word : BitVec 48) (go : Front → Front) :
    s.endWord w word go =
      let t := (s.modBank w fun b => waitsGone { b with f := { go b.f with sleep := none, walked := false } }).modTile (Who.tile w)
        fun t => { t with sig := BitVec.ofNat 32 (crcUpd t.sig.toNat (leBytes word.toNat 6)), fewSeen := true }
      match partnerOf w with
      | none => t
      | some v => if (s.ctx v).status = .mirror w then t.modCtx v fun c => { c with signs := c.signs ++ [(s.now + lockDelay w, word)] } else t := by
  simp only [State.endWord, State.signWord, endBank_eq]
  cases e : partnerOf w with
  | none => simp only [State.modTile_modTile, State.modTile_modBank]; rfl
  | some v =>
    have n : v ≠ w := fun h => partnerOf_ne w (h ▸ e)
    by_cases m : (s.ctx v).status = .mirror w
    · simp only [State.modTile_ctx, m, if_true, State.modTile_now, State.modCtx_modBank _ _ _ _ _ n, State.modTile_modBank]
      rw [show ∀ (x : State) (g : Ctx → Ctx) (f : Tile → Tile), (x.modCtx v g).modTile (Who.tile w) f = (x.modTile (Who.tile w) f).modCtx v g
        from fun _ _ _ => rfl, State.modTile_modTile]
      rfl
    · simp only [State.modTile_ctx, m, if_false, State.modTile_modTile, State.modTile_modBank]; rfl

/-- A word that leaves its bank as `b` and falls through. -/
theorem endWord_frontDone (s : State) (i : Instr) (b : Bank) (go : Front → Front) :
    (s.setCtx s.cur { s.ctx s.cur with b := b }).endWord s.cur (word48 i) go =
      frontDone s i { b with f := { go b.f with sleep := none, walked := false } } := by
  rw [State.endWord_eq]
  simp only [frontDone, State.modBank, State.modCtx, State.setCtx_ctx, State.setCtx_setCtx, State.setCtx_now]
  cases e : partnerOf s.cur with
  | none => rfl
  | some v =>
    have n : v ≠ s.cur := fun h => partnerOf_ne s.cur (h ▸ e)
    simp only [State.setCtx_ctx_other s s.cur v _ n]

theorem modBank_frontDone (s : State) (i : Instr) (f : Bank → Bank) (go : Front → Front) :
    (s.modBank s.cur f).endWord s.cur (word48 i) go =
      frontDone s i { f s.curBank with f := { go (f s.curBank).f with sleep := none, walked := false } } :=
  endWord_frontDone s i (f (s.bank s.cur)) go

theorem plain_frontDone (s : State) (i : Instr) (go : Front → Front) :
    s.endWord s.cur (word48 i) go =
      frontDone s i { s.curBank with f := { go s.curBank.f with sleep := none, walked := false } } := by
  have h := modBank_frontDone s i id go
  rwa [State.modBank_same s s.cur id rfl] at h

/-! ## Words with a guard -/

theorem feWordGo_ok (h : Hdr) (word : BitVec 48) (run : Who → M (Front → Front)) (s s' : State) (go : Front → Front)
    (g : guardOn h s = true) (e : (run s.cur).run.run s = (.ok go, s')) : feWordGo h word run s = s'.endWord s.cur word go := by
  rw [guardOn_eq] at g
  simp only [feWordGo, g, Bool.not_true, Bool.false_eq_true, if_false, e]

theorem feWordGo_off (h : Hdr) (word : BitVec 48) (run : Who → M (Front → Front)) (s : State)
    (g : guardOn h s = false) : feWordGo h word run s = s.endWord s.cur word Front.advance := by
  rw [guardOn_eq] at g
  simp only [feWordGo, g, Bool.not_false, if_true]

theorem feWordGo_trap (h : Hdr) (word : BitVec 48) (run : Who → M (Front → Front)) (s s' : State) (c : BitVec 8) (i : Word)
    (g : guardOn h s = true) (e : (run s.cur).run.run s = (.error (.trap c i), s')) :
    feWordGo h word run s =
      (rollback s.cur s s').raiseStop s.cur (.trap c i) 4 0 s.curBank.f.pc s.curBank.f.pc := by
  rw [guardOn_eq] at g
  simp only [feWordGo, g, Bool.not_true, Bool.false_eq_true, if_false, e, State.curBank]

theorem feWord_ok (h : Hdr) (word : BitVec 48) (run : Who → M Unit) (s s' : State)
    (g : guardOn h s = true) (e : (run s.cur).run.run s = (.ok (), s')) : feWord h word run s = s'.endWord s.cur word Front.advance := by
  apply feWordGo_ok h word _ s s' _ g
  have : ((run s.cur >>= fun _ => (pure Front.advance : M _)).run.run s) = (.ok Front.advance, s') := by
    rw [run_bind, e]
    rfl
  exact this

theorem feWord_off (h : Hdr) (word : BitVec 48) (run : Who → M Unit) (s : State)
    (g : guardOn h s = false) : feWord h word run s = s.endWord s.cur word Front.advance :=
  feWordGo_off h word _ s g

theorem feWord_trap (h : Hdr) (word : BitVec 48) (run : Who → M Unit) (s s' : State) (c : BitVec 8) (i : Word)
    (g : guardOn h s = true) (e : (run s.cur).run.run s = (.error (.trap c i), s')) :
    feWord h word run s = (rollback s.cur s s').raiseStop s.cur (.trap c i) 4 0 s.curBank.f.pc s.curBank.f.pc := by
  apply feWordGo_trap h word _ s s' c i g
  have : ((run s.cur >>= fun _ => (pure Front.advance : M _)).run.run s) = (.error (.trap c i), s') := by
    rw [run_bind, e]
  exact this

theorem rollback_same (w : Who) (s : State) : rollback w s s = s := by
  have e : (s.modHub fun h => { h with log := s.hub.log, seq := s.hub.seq, lp6 := s.hub.lp6 }) = s := rfl
  have n : ((s.tile (Who.tile w)).bad.filter fun e => e.2 && !(s.tile (Who.tile w)).bad.contains e) = [] :=
    List.filter_eq_nil_iff.mpr (by intro a h; simp [h])
  have m : ((s.tile (Who.tile w)).errs.filter fun e => e.arr = 5 && e.ue && !(s.tile (Who.tile w)).errs.contains e) = [] :=
    List.filter_eq_nil_iff.mpr (by intro a h; simp [h])
  rw [rollback, e]
  exact State.modTile_same s _ _ (by
    simp only [n, m, List.map_nil, List.append_nil, List.foldl_nil, decide_true, Bool.or_true, if_true])

/-- A word of registers alone that succeeds. -/
theorem feRegs_ok (h : Hdr) (i : Instr) (f : Regs → Except Stop Regs) (s : State) (r : Regs)
    (g : guardOn h s = true) (e : f s.curBank.r = .ok r) : feRegs h (word48 i) f s = regsDone s i r := by
  rw [feRegs, feWord_ok h _ _ s (s.modBank s.cur fun b => { b with r }) g, modBank_frontDone, regsDone, fallThrough_eq]
  rw [run_bind_ok (run_getB s.cur s)]
  simp only [State.curBank] at e
  rw [e]
  rfl

/-- A word of registers alone that traps. -/
theorem feRegs_trap (h : Hdr) (word : BitVec 48) (f : Regs → Except Stop Regs) (s : State) (c : BitVec 8) (i : Word)
    (g : guardOn h s = true) (e : f s.curBank.r = .error (.trap c i)) :
    feRegs h word f s = s.raiseStop s.cur (.trap c i) 4 0 s.curBank.f.pc s.curBank.f.pc := by
  rw [feRegs, feWord_trap h word _ s s c i g, rollback_same]
  rw [run_bind_ok (run_getB s.cur s)]
  simp only [State.curBank] at e
  rw [e]
  rfl

end Sys2Proof.Machine
end

