-- ==== Sys2Proof/Laws/Memory.lean ====
section
/-! SUPPORT. Finite maps and the byte memory: reading after writing, and the canonical form that every operation keeps. -/
namespace Sys2Proof.Machine

/-! ## Rising keys -/

theorem kvRising_mono {α : Type} {lo lo' : Nat} {m : KV α} (l : lo' ≤ lo) (h : kvRising lo m = true) : kvRising lo' m = true := by
  cases m with
  | nil => rfl
  | cons x m =>
    simp only [kvRising, Bool.and_eq_true, decide_eq_true_eq] at h ⊢
    exact ⟨l.trans h.1, h.2⟩

theorem kvRising_kvPut {α : Type} (m : KV α) (lo k : Nat) (v : α) (l : lo ≤ k) (h : kvRising lo m = true) :
    kvRising lo (kvPut m k v) = true := by
  induction m generalizing lo with
  | nil => simpa [kvPut, kvRising] using l
  | cons x m ih =>
    obtain ⟨a, y⟩ := x
    simp only [kvRising, Bool.and_eq_true, decide_eq_true_eq] at h
    unfold kvPut
    split
    · subst_vars
      simp only [kvRising, Bool.and_eq_true, decide_eq_true_eq]
      exact h
    · split
      · simp only [kvRising, Bool.and_eq_true, decide_eq_true_eq]
        exact ⟨l, by omega, h.2⟩
      · simp only [kvRising, Bool.and_eq_true, decide_eq_true_eq]
        exact ⟨h.1, ih (a + 1) (by omega) h.2⟩

theorem kvRising_kvDel {α : Type} (m : KV α) (lo k : Nat) (h : kvRising lo m = true) : kvRising lo (kvDel m k) = true := by
  induction m generalizing lo with
  | nil => rfl
  | cons x m ih =>
    obtain ⟨a, y⟩ := x
    simp only [kvRising, Bool.and_eq_true, decide_eq_true_eq] at h
    unfold kvDel
    split
    · exact kvRising_mono (by omega) h.2
    · split
      · simp only [kvRising, Bool.and_eq_true, decide_eq_true_eq]
        exact h
      · simp only [kvRising, Bool.and_eq_true, decide_eq_true_eq]
        exact ⟨h.1, ih (a + 1) h.2⟩

/-- A key below the first is not there. -/
theorem kvGet_below {α : Type} (m : KV α) (lo k : Nat) (l : k < lo) (h : kvRising lo m = true) : kvGet m k = none := by
  cases m with
  | nil => rfl
  | cons x m =>
    obtain ⟨a, y⟩ := x
    simp only [kvRising, Bool.and_eq_true, decide_eq_true_eq] at h
    unfold kvGet
    rw [if_neg (by omega), if_pos (by omega)]

/-! ## Reading after writing -/

theorem kvGet_kvPut {α : Type} (m : KV α) (k k' : Nat) (v : α) :
    kvGet (kvPut m k v) k' = if k' = k then some v else kvGet m k' := by
  induction m with
  | nil =>
    simp only [kvPut, kvGet]
    split_ifs <;> first | rfl | omega
  | cons x m ih =>
    obtain ⟨a, y⟩ := x
    unfold kvPut
    split_ifs with h1 h2 h3 h4 h5 <;> simp only [kvGet] <;> split_ifs <;> first | rfl | omega | (rw [ih]; split_ifs; rfl)

theorem kvGet_kvDel {α : Type} (m : KV α) (lo k k' : Nat) (h : kvRising lo m = true) :
    kvGet (kvDel m k) k' = if k' = k then none else kvGet m k' := by
  induction m generalizing lo with
  | nil =>
    simp only [kvDel, kvGet]
    split_ifs <;> rfl
  | cons x m ih =>
    obtain ⟨a, y⟩ := x
    simp only [kvRising, Bool.and_eq_true, decide_eq_true_eq] at h
    have ih := ih (a + 1) h.2
    have lt : ∀ j, j ≤ a → kvGet m j = none := fun j l => kvGet_below m (a + 1) j (by omega) h.2
    unfold kvDel
    by_cases e : k' = k
    · subst e
      rw [if_pos rfl]
      split_ifs with h1 h2
      · exact lt _ (by omega)
      · unfold kvGet; rw [if_neg h1, if_pos h2]
      · unfold kvGet; rw [if_neg h1, if_neg h2, ih, if_pos rfl]
    · rw [if_neg e]
      rw [if_neg e] at ih
      split_ifs with h1 h2
      · conv_rhs => unfold kvGet
        split_ifs with h3 h4
        · omega
        · exact lt _ (by omega)
        · rfl
      · rfl
      · unfold kvGet
        rw [ih]

/-! ## The byte memory -/

theorem Mem.wf_iff (m : Mem) : Mem.wf m = true ↔ kvRising 0 m = true ∧ ∀ c ∈ m, c.2 ≠ memDefault := by
  simp only [Mem.wf, Bool.and_eq_true, List.all_eq_true, bne_iff_ne]

theorem mem_kvPut {α : Type} (m : KV α) (k : Nat) (v : α) (c : Nat × α) (h : c ∈ kvPut m k v) : c.2 = v ∨ c ∈ m := by
  induction m with
  | nil => simp only [kvPut, List.mem_singleton] at h; exact .inl (by rw [h])
  | cons x m ih =>
    obtain ⟨a, y⟩ := x
    unfold kvPut at h
    split_ifs at h <;> simp only [List.mem_cons] at h ⊢ <;> aesop

theorem mem_kvDel {α : Type} (m : KV α) (k : Nat) (c : Nat × α) (h : c ∈ kvDel m k) : c ∈ m := by
  induction m with
  | nil => exact h
  | cons x m ih =>
    obtain ⟨a, y⟩ := x
    unfold kvDel at h
    split_ifs at h <;> simp only [List.mem_cons] at h ⊢ <;> aesop

/-- A byte written keeps the canonical form. -/
theorem Mem.wf_memSet (m : Mem) (a : Nat) (b : Byte) (h : Mem.wf m = true) : Mem.wf (memSet m a b) = true := by
  rw [Mem.wf_iff] at h ⊢
  unfold memSet
  split
  · exact ⟨kvRising_kvDel m 0 a h.1, fun c k => h.2 c (mem_kvDel m a c k)⟩
  · rename_i n
    refine ⟨kvRising_kvPut m 0 a b (Nat.zero_le _) h.1, fun c k => ?_⟩
    rcases mem_kvPut m a b c k with e | e
    · rw [e]; exact n
    · exact h.2 c e

theorem Mem.wf_memWrite (bs : List Byte) (m : Mem) (a : Nat) (h : Mem.wf m = true) : Mem.wf (memWrite m a bs) = true := by
  induction bs generalizing m a with
  | nil => exact h
  | cons b bs ih => exact ih _ _ (Mem.wf_memSet m a b h)

theorem Mem.wf_putRaw (m : Mem) (line : Nat) (d : BitVec 512) (h : Mem.wf m = true) : Mem.wf (putRaw m line d) = true :=
  Mem.wf_memWrite _ _ _ h

/-- A byte reads as it was written, and every other byte as before. -/
theorem memGet_memSet (m : Mem) (a x : Nat) (b : Byte) (h : Mem.wf m = true) :
    memGet (memSet m a b) x = if x = a then b else memGet m x := by
  rw [Mem.wf_iff] at h
  unfold memSet memGet
  split
  · rename_i e
    rw [kvGet_kvDel m 0 a x h.1]
    split
    · exact e.symm
    · rfl
  · rw [kvGet_kvPut]
    split <;> rfl

/-- Bytes written read back, and every byte outside as before. -/
theorem memGet_memWrite (bs : List Byte) (m : Mem) (a x : Nat) (h : Mem.wf m = true) :
    memGet (memWrite m a bs) x = if a ≤ x ∧ x < a + bs.length then bs.getD (x - a) 0 else memGet m x := by
  induction bs generalizing m a with
  | nil => simp [memWrite]
  | cons b bs ih =>
    unfold memWrite
    rw [ih _ _ (Mem.wf_memSet m a b h), memGet_memSet m a x b h]
    simp only [List.length_cons]
    by_cases e : x = a
    · subst e
      rw [if_neg (by omega), if_pos rfl, if_pos (by omega), Nat.sub_self]
      rfl
    · rw [if_neg e]
      by_cases l : a ≤ x ∧ x < a + (bs.length + 1)
      · rw [if_pos (by omega), if_pos l]
        have k : x - a = (x - (a + 1)) + 1 := by omega
        rw [k, List.getD_cons_succ]
      · rw [if_neg (by omega), if_neg l]

end Sys2Proof.Machine
end

