-- ==== Sys2Proof/Laws/PerInstr.lean ====
section
/-! SUPPORT. The round trip of encoding, instruction by instruction. -/
namespace Sys2Proof

/-! ## Fields of a word -/

theorem opOf_wordOf (op : BitVec 8) (h : Hdr) (x : BitVec 32) : opOf (wordOf op h x) = op := by
  apply BitVec.eq_of_toNat_eq
  simp only [opOf, wordOf, bitsAt, BitVec.toNat_ofNat]
  omega

theorem hdrOf_wordOf (op : BitVec 8) (h : Hdr) (x : BitVec 32) : hdrOf (wordOf op h x) = h := by
  obtain ⟨tk, gn, gp⟩ := h
  simp only [hdrOf, wordOf, Hdr.mk.injEq]
  refine ⟨?_, ?_, ?_⟩ <;>
  · apply BitVec.eq_of_toNat_eq
    simp only [bitsAt, BitVec.toNat_ofNat]
    omega

theorem bodyOf_wordOf (op : BitVec 8) (h : Hdr) (x : BitVec 32) : bodyOf (wordOf op h x) = x := by
  apply BitVec.eq_of_toNat_eq
  simp only [bodyOf, wordOf, bitsAt, BitVec.toNat_ofNat]
  omega

theorem decodeWord_wordOf (op : BitVec 8) (h : Hdr) (x : BitVec 32) :
    decodeWord (wordOf op h x) = decodeOp (wordOf op h x) op.toNat h x := by
  unfold decodeWord
  rw [opOf_wordOf, hdrOf_wordOf, bodyOf_wordOf]

theorem wordOf_fields (w : BitVec 48) : wordOf (opOf w) (hdrOf w) (bodyOf w) = w := by
  apply BitVec.eq_of_toNat_eq
  simp only [opOf, hdrOf, bodyOf, wordOf, bitsAt, BitVec.toNat_ofNat]
  omega

/-! ## Bodies -/

theorem FS.of_toBody (f : FS) : FS.ofBody f.toBody = f := by
  obtain ⟨d, a, b, fn⟩ := f
  simp only [FS.ofBody, FS.toBody, FS.mk.injEq]
  refine ⟨?_, ?_, ?_, ?_⟩ <;>
  · apply BitVec.eq_of_toNat_eq
    simp only [bitsAt, BitVec.toNat_ofNat]
    omega

theorem FK.of_toBody (f : FK) : FK.ofBody f.toBody = f := by
  obtain ⟨a, b, c, imm⟩ := f
  simp only [FK.ofBody, FK.toBody, FK.mk.injEq]
  refine ⟨?_, ?_, ?_, ?_⟩ <;>
  · apply BitVec.eq_of_toNat_eq
    simp only [bitsAt, BitVec.toNat_ofNat]
    omega

theorem FI.of_toBody (f : FI) : FI.ofBody f.toBody = f := by
  obtain ⟨d, a, imm⟩ := f
  simp only [FI.ofBody, FI.toBody, FI.mk.injEq]
  refine ⟨?_, ?_, ?_⟩ <;>
  · apply BitVec.eq_of_toNat_eq
    simp only [bitsAt, BitVec.toNat_ofNat]
    omega

theorem FL.of_toBody (f : FL) : FL.ofBody f.toBody = f := by
  obtain ⟨d, imm⟩ := f
  simp only [FL.ofBody, FL.toBody, FL.mk.injEq]
  refine ⟨?_, ?_⟩ <;>
  · apply BitVec.eq_of_toNat_eq
    simp only [bitsAt, BitVec.toNat_ofNat]
    omega

theorem FB.of_toBody (f : FB) : FB.ofBody f.toBody = f := by
  obtain ⟨cond, off, slot⟩ := f
  simp only [FB.ofBody, FB.toBody, FB.mk.injEq]
  refine ⟨?_, ?_, ?_⟩ <;>
  · apply BitVec.eq_of_toNat_eq
    simp only [bitsAt, BitVec.toNat_ofNat]
    omega

theorem FV.of_toBody (f : FV) : FV.ofBody f.toBody = f := by
  obtain ⟨wn, nd, sa, sb, sc, me, mr, var, fmt⟩ := f
  simp only [FV.ofBody, FV.toBody, FV.mk.injEq]
  refine ⟨?_, ?_, ?_, ?_, ?_, ?_, ?_, ?_, ?_⟩ <;>
  · apply BitVec.eq_of_toNat_eq
    simp only [bitsAt, BitVec.toNat_ofNat]
    omega

theorem FM.of_toBody (f : FM) : FM.ofBody f.toBody = f := by
  obtain ⟨hnd, ofs, spa, len, rep, flg⟩ := f
  simp only [FM.ofBody, FM.toBody, FM.mk.injEq]
  refine ⟨?_, ?_, ?_, ?_, ?_, ?_⟩ <;>
  · apply BitVec.eq_of_toNat_eq
    simp only [bitsAt, BitVec.toNat_ofNat]
    omega

theorem FT.of_toBody (f : FT) : FT.ofBody f.toBody = f := by
  obtain ⟨z, da, db, kc, var, flg⟩ := f
  simp only [FT.ofBody, FT.toBody, FT.mk.injEq]
  refine ⟨?_, ?_, ?_, ?_, ?_, ?_⟩ <;>
  · apply BitVec.eq_of_toNat_eq
    simp only [bitsAt, BitVec.toNat_ofNat]
    omega

/-! ## Opcodes without an instruction of their own -/

theorem decodeOp_unassigned (w : BitVec 48) (h : Hdr) (x : BitVec 32) (op : Nat) (e : unassignedOp op = true) :
    decodeOp w op h x = .unassignedOpcode w := by
  simp only [unassignedOp, Bool.or_eq_true, Bool.and_eq_true, beq_iff_eq, decide_eq_true_eq] at e
  rcases e with (((((((rfl | e) | e) | e) | e) | e) | e) | e) | e
  · rfl
  all_goals
    obtain ⟨a, b⟩ := e
    interval_cases op <;> rfl

theorem decodeOp_hint (w : BitVec 48) (h : Hdr) (x : BitVec 32) (op : Nat) (e : 0xF3 ≤ op) (l : op < 256) :
    decodeOp w op h x = .undefinedHint w := by
  interval_cases op <;> rfl

theorem opOf_toNat (w : BitVec 48) : (opOf w).toNat = rawOp w := by
  simp only [opOf, rawOp, bitsAt, BitVec.toNat_ofNat]
  omega

namespace Laws.RoundTrip

/-- A well-formed instruction that has an encoding is what its encoding decodes to (R21 to R24, R45, R46). -/
def Statement (i : Instr) : Prop := i.wf = true → ∀ w, encodeWord i = some w → decodeWord w = i

/-- An event has no encoding. -/
theorem of_none {i : Instr} (h : encodeWord i = none) : Statement i := fun _ w e => by
  rw [h] at e
  cases e

theorem nop (h : Hdr) (x : BitVec 32) : Statement (.nop h x) := by
  rintro _ w ⟨⟩
  exact decodeWord_wordOf _ _ _
theorem add (h : Hdr) (f : FS) : Statement (.add h f) := by
  rintro _ w ⟨⟩
  exact (decodeWord_wordOf _ _ _).trans (congrArg (Instr.add h) f.of_toBody)
theorem sub (h : Hdr) (f : FS) : Statement (.sub h f) := by
  rintro _ w ⟨⟩
  exact (decodeWord_wordOf _ _ _).trans (congrArg (Instr.sub h) f.of_toBody)
theorem andR (h : Hdr) (f : FS) : Statement (.andR h f) := by
  rintro _ w ⟨⟩
  exact (decodeWord_wordOf _ _ _).trans (congrArg (Instr.andR h) f.of_toBody)
theorem orR (h : Hdr) (f : FS) : Statement (.orR h f) := by
  rintro _ w ⟨⟩
  exact (decodeWord_wordOf _ _ _).trans (congrArg (Instr.orR h) f.of_toBody)
theorem xorR (h : Hdr) (f : FS) : Statement (.xorR h f) := by
  rintro _ w ⟨⟩
  exact (decodeWord_wordOf _ _ _).trans (congrArg (Instr.xorR h) f.of_toBody)
theorem shl (h : Hdr) (f : FS) : Statement (.shl h f) := by
  rintro _ w ⟨⟩
  exact (decodeWord_wordOf _ _ _).trans (congrArg (Instr.shl h) f.of_toBody)
theorem shr (h : Hdr) (f : FS) : Statement (.shr h f) := by
  rintro _ w ⟨⟩
  exact (decodeWord_wordOf _ _ _).trans (congrArg (Instr.shr h) f.of_toBody)
theorem sra (h : Hdr) (f : FS) : Statement (.sra h f) := by
  rintro _ w ⟨⟩
  exact (decodeWord_wordOf _ _ _).trans (congrArg (Instr.sra h) f.of_toBody)
theorem mul (h : Hdr) (f : FS) : Statement (.mul h f) := by
  rintro _ w ⟨⟩
  exact (decodeWord_wordOf _ _ _).trans (congrArg (Instr.mul h) f.of_toBody)
theorem mulh (h : Hdr) (f : FS) : Statement (.mulh h f) := by
  rintro _ w ⟨⟩
  exact (decodeWord_wordOf _ _ _).trans (congrArg (Instr.mulh h) f.of_toBody)
theorem div (h : Hdr) (f : FS) : Statement (.div h f) := by
  rintro _ w ⟨⟩
  exact (decodeWord_wordOf _ _ _).trans (congrArg (Instr.div h) f.of_toBody)
theorem rem (h : Hdr) (f : FS) : Statement (.rem h f) := by
  rintro _ w ⟨⟩
  exact (decodeWord_wordOf _ _ _).trans (congrArg (Instr.rem h) f.of_toBody)
theorem minmax (h : Hdr) (f : FS) : Statement (.minmax h f) := by
  rintro _ w ⟨⟩
  exact (decodeWord_wordOf _ _ _).trans (congrArg (Instr.minmax h) f.of_toBody)
theorem spset (h : Hdr) (f : FS) : Statement (.spset h f) := by
  rintro _ w ⟨⟩
  exact (decodeWord_wordOf _ _ _).trans (congrArg (Instr.spset h) f.of_toBody)
theorem spinv (h : Hdr) (f : FS) : Statement (.spinv h f) := by
  rintro _ w ⟨⟩
  exact (decodeWord_wordOf _ _ _).trans (congrArg (Instr.spinv h) f.of_toBody)
theorem spq (h : Hdr) (f : FS) : Statement (.spq h f) := by
  rintro _ w ⟨⟩
  exact (decodeWord_wordOf _ _ _).trans (congrArg (Instr.spq h) f.of_toBody)
theorem addi (h : Hdr) (f : FI) : Statement (.addi h f) := by
  rintro _ w ⟨⟩
  exact (decodeWord_wordOf _ _ _).trans (congrArg (Instr.addi h) f.of_toBody)
theorem andi (h : Hdr) (f : FI) : Statement (.andi h f) := by
  rintro _ w ⟨⟩
  exact (decodeWord_wordOf _ _ _).trans (congrArg (Instr.andi h) f.of_toBody)
theorem ori (h : Hdr) (f : FI) : Statement (.ori h f) := by
  rintro _ w ⟨⟩
  exact (decodeWord_wordOf _ _ _).trans (congrArg (Instr.ori h) f.of_toBody)
theorem xori (h : Hdr) (f : FI) : Statement (.xori h f) := by
  rintro _ w ⟨⟩
  exact (decodeWord_wordOf _ _ _).trans (congrArg (Instr.xori h) f.of_toBody)
theorem shli (h : Hdr) (f : FI) : Statement (.shli h f) := by
  rintro _ w ⟨⟩
  exact (decodeWord_wordOf _ _ _).trans (congrArg (Instr.shli h) f.of_toBody)
theorem shri (h : Hdr) (f : FI) : Statement (.shri h f) := by
  rintro _ w ⟨⟩
  exact (decodeWord_wordOf _ _ _).trans (congrArg (Instr.shri h) f.of_toBody)
theorem srai (h : Hdr) (f : FI) : Statement (.srai h f) := by
  rintro _ w ⟨⟩
  exact (decodeWord_wordOf _ _ _).trans (congrArg (Instr.srai h) f.of_toBody)
theorem li (h : Hdr) (f : FL) : Statement (.li h f) := by
  rintro _ w ⟨⟩
  exact (decodeWord_wordOf _ _ _).trans (congrArg (Instr.li h) f.of_toBody)
theorem lsh (h : Hdr) (f : FI) : Statement (.lsh h f) := by
  rintro _ w ⟨⟩
  exact (decodeWord_wordOf _ _ _).trans (congrArg (Instr.lsh h) f.of_toBody)
theorem bitop (h : Hdr) (f : FS) : Statement (.bitop h f) := by
  rintro _ w ⟨⟩
  exact (decodeWord_wordOf _ _ _).trans (congrArg (Instr.bitop h) f.of_toBody)
theorem sptag (h : Hdr) (f : FS) : Statement (.sptag h f) := by
  rintro _ w ⟨⟩
  exact (decodeWord_wordOf _ _ _).trans (congrArg (Instr.sptag h) f.of_toBody)
theorem bfx (h : Hdr) (f : FS) : Statement (.bfx h f) := by
  rintro _ w ⟨⟩
  exact (decodeWord_wordOf _ _ _).trans (congrArg (Instr.bfx h) f.of_toBody)
theorem bfi (h : Hdr) (f : FS) : Statement (.bfi h f) := by
  rintro _ w ⟨⟩
  exact (decodeWord_wordOf _ _ _).trans (congrArg (Instr.bfi h) f.of_toBody)
theorem cmp (h : Hdr) (f : FS) : Statement (.cmp h f) := by
  rintro _ w ⟨⟩
  exact (decodeWord_wordOf _ _ _).trans (congrArg (Instr.cmp h) f.of_toBody)
theorem cmpi (h : Hdr) (f : FI) : Statement (.cmpi h f) := by
  rintro _ w ⟨⟩
  exact (decodeWord_wordOf _ _ _).trans (congrArg (Instr.cmpi h) f.of_toBody)
theorem plog (h : Hdr) (f : FS) : Statement (.plog h f) := by
  rintro _ w ⟨⟩
  exact (decodeWord_wordOf _ _ _).trans (congrArg (Instr.plog h) f.of_toBody)
theorem br (h : Hdr) (f : FB) : Statement (.br h f) := by
  rintro _ w ⟨⟩
  exact (decodeWord_wordOf _ _ _).trans (congrArg (Instr.br h) f.of_toBody)
theorem call (h : Hdr) (f : FB) : Statement (.call h f) := by
  rintro _ w ⟨⟩
  exact (decodeWord_wordOf _ _ _).trans (congrArg (Instr.call h) f.of_toBody)
theorem jr (h : Hdr) (f : FS) : Statement (.jr h f) := by
  rintro _ w ⟨⟩
  exact (decodeWord_wordOf _ _ _).trans (congrArg (Instr.jr h) f.of_toBody)
theorem retR (h : Hdr) (f : FS) : Statement (.retR h f) := by
  rintro _ w ⟨⟩
  exact (decodeWord_wordOf _ _ _).trans (congrArg (Instr.retR h) f.of_toBody)
theorem loopLc (h : Hdr) (f : FB) : Statement (.loopLc h f) := by
  rintro _ w ⟨⟩
  exact (decodeWord_wordOf _ _ _).trans (congrArg (Instr.loopLc h) f.of_toBody)
theorem lpbrk (h : Hdr) (f : FB) : Statement (.lpbrk h f) := by
  rintro _ w ⟨⟩
  exact (decodeWord_wordOf _ _ _).trans (congrArg (Instr.lpbrk h) f.of_toBody)
theorem ld (h : Hdr) (f : FS) : Statement (.ld h f) := by
  rintro _ w ⟨⟩
  exact (decodeWord_wordOf _ _ _).trans (congrArg (Instr.ld h) f.of_toBody)
theorem st (h : Hdr) (f : FS) : Statement (.st h f) := by
  rintro _ w ⟨⟩
  exact (decodeWord_wordOf _ _ _).trans (congrArg (Instr.st h) f.of_toBody)
theorem amo (h : Hdr) (f : FS) : Statement (.amo h f) := by
  rintro _ w ⟨⟩
  exact (decodeWord_wordOf _ _ _).trans (congrArg (Instr.amo h) f.of_toBody)
theorem cas (h : Hdr) (f : FS) : Statement (.cas h f) := by
  rintro _ w ⟨⟩
  exact (decodeWord_wordOf _ _ _).trans (congrArg (Instr.cas h) f.of_toBody)
theorem fence (h : Hdr) (f : FS) : Statement (.fence h f) := by
  rintro _ w ⟨⟩
  exact (decodeWord_wordOf _ _ _).trans (congrArg (Instr.fence h) f.of_toBody)
theorem xfence (h : Hdr) (f : FS) : Statement (.xfence h f) := by
  rintro _ w ⟨⟩
  exact (decodeWord_wordOf _ _ _).trans (congrArg (Instr.xfence h) f.of_toBody)
theorem xlat (h : Hdr) (f : FS) : Statement (.xlat h f) := by
  rintro _ w ⟨⟩
  exact (decodeWord_wordOf _ _ _).trans (congrArg (Instr.xlat h) f.of_toBody)
theorem hfree (h : Hdr) (f : FS) : Statement (.hfree h f) := by
  rintro _ w ⟨⟩
  exact (decodeWord_wordOf _ _ _).trans (congrArg (Instr.hfree h) f.of_toBody)
theorem hinfo (h : Hdr) (f : FS) : Statement (.hinfo h f) := by
  rintro _ w ⟨⟩
  exact (decodeWord_wordOf _ _ _).trans (congrArg (Instr.hinfo h) f.of_toBody)
theorem qsync (h : Hdr) (f : FS) : Statement (.qsync h f) := by
  rintro _ w ⟨⟩
  exact (decodeWord_wordOf _ _ _).trans (congrArg (Instr.qsync h) f.of_toBody)
theorem selR (h : Hdr) (f : FS) : Statement (.selR h f) := by
  rintro _ w ⟨⟩
  exact (decodeWord_wordOf _ _ _).trans (congrArg (Instr.selR h) f.of_toBody)
theorem adr (h : Hdr) (f : FL) : Statement (.adr h f) := by
  rintro _ w ⟨⟩
  exact (decodeWord_wordOf _ _ _).trans (congrArg (Instr.adr h) f.of_toBody)
theorem taskPost (h : Hdr) (f : FS) : Statement (.taskPost h f) := by
  rintro _ w ⟨⟩
  exact (decodeWord_wordOf _ _ _).trans (congrArg (Instr.taskPost h) f.of_toBody)
theorem taskEnd (h : Hdr) (f : FS) : Statement (.taskEnd h f) := by
  rintro _ w ⟨⟩
  exact (decodeWord_wordOf _ _ _).trans (congrArg (Instr.taskEnd h) f.of_toBody)
theorem evtSig (h : Hdr) (f : FS) : Statement (.evtSig h f) := by
  rintro _ w ⟨⟩
  exact (decodeWord_wordOf _ _ _).trans (congrArg (Instr.evtSig h) f.of_toBody)
theorem evtWait (h : Hdr) (f : FS) : Statement (.evtWait h f) := by
  rintro _ w ⟨⟩
  exact (decodeWord_wordOf _ _ _).trans (congrArg (Instr.evtWait h) f.of_toBody)
theorem taskYield (h : Hdr) (f : FS) : Statement (.taskYield h f) := by
  rintro _ w ⟨⟩
  exact (decodeWord_wordOf _ _ _).trans (congrArg (Instr.taskYield h) f.of_toBody)
theorem apxInv (h : Hdr) (f : FS) : Statement (.apxInv h f) := by
  rintro _ w ⟨⟩
  exact (decodeWord_wordOf _ _ _).trans (congrArg (Instr.apxInv h) f.of_toBody)
theorem hunpin (h : Hdr) (f : FS) : Statement (.hunpin h f) := by
  rintro _ w ⟨⟩
  exact (decodeWord_wordOf _ _ _).trans (congrArg (Instr.hunpin h) f.of_toBody)
theorem csrr (h : Hdr) (f : FI) : Statement (.csrr h f) := by
  rintro _ w ⟨⟩
  exact (decodeWord_wordOf _ _ _).trans (congrArg (Instr.csrr h) f.of_toBody)
theorem csrw (h : Hdr) (f : FI) : Statement (.csrw h f) := by
  rintro _ w ⟨⟩
  exact (decodeWord_wordOf _ _ _).trans (congrArg (Instr.csrw h) f.of_toBody)
theorem csrs (h : Hdr) (f : FI) : Statement (.csrs h f) := by
  rintro _ w ⟨⟩
  exact (decodeWord_wordOf _ _ _).trans (congrArg (Instr.csrs h) f.of_toBody)
theorem csrc (h : Hdr) (f : FI) : Statement (.csrc h f) := by
  rintro _ w ⟨⟩
  exact (decodeWord_wordOf _ _ _).trans (congrArg (Instr.csrc h) f.of_toBody)
theorem fop (h : Hdr) (f : FS) : Statement (.fop h f) := by
  rintro _ w ⟨⟩
  exact (decodeWord_wordOf _ _ _).trans (congrArg (Instr.fop h) f.of_toBody)
theorem ldsp (h : Hdr) (f : FM) : Statement (.ldsp h f) := by
  rintro _ w ⟨⟩
  exact (decodeWord_wordOf _ _ _).trans (congrArg (Instr.ldsp h) f.of_toBody)
theorem ldspG (h : Hdr) (f : FM) : Statement (.ldspG h f) := by
  rintro _ w ⟨⟩
  exact (decodeWord_wordOf _ _ _).trans (congrArg (Instr.ldspG h) f.of_toBody)
theorem ldspT (h : Hdr) (f : FM) : Statement (.ldspT h f) := by
  rintro _ w ⟨⟩
  exact (decodeWord_wordOf _ _ _).trans (congrArg (Instr.ldspT h) f.of_toBody)
theorem spfill (h : Hdr) (f : FM) : Statement (.spfill h f) := by
  rintro _ w ⟨⟩
  exact (decodeWord_wordOf _ _ _).trans (congrArg (Instr.spfill h) f.of_toBody)
theorem cpLaunch (h : Hdr) (f : FK) : Statement (.cpLaunch h f) := by
  rintro _ w ⟨⟩
  exact (decodeWord_wordOf _ _ _).trans (congrArg (Instr.cpLaunch h) f.of_toBody)
theorem cpAdv (h : Hdr) (f : FK) : Statement (.cpAdv h f) := by
  rintro _ w ⟨⟩
  exact (decodeWord_wordOf _ _ _).trans (congrArg (Instr.cpAdv h) f.of_toBody)
theorem cpArm (h : Hdr) (f : FK) : Statement (.cpArm h f) := by
  rintro _ w ⟨⟩
  exact (decodeWord_wordOf _ _ _).trans (congrArg (Instr.cpArm h) f.of_toBody)
theorem cpCancel (h : Hdr) (f : FK) : Statement (.cpCancel h f) := by
  rintro _ w ⟨⟩
  exact (decodeWord_wordOf _ _ _).trans (congrArg (Instr.cpCancel h) f.of_toBody)
theorem kvGet (h : Hdr) (f : FK) : Statement (.kvGet h f) := by
  rintro _ w ⟨⟩
  exact (decodeWord_wordOf _ _ _).trans (congrArg (Instr.kvGet h) f.of_toBody)
theorem pimMv (h : Hdr) (f : FK) : Statement (.pimMv h f) := by
  rintro _ w ⟨⟩
  exact (decodeWord_wordOf _ _ _).trans (congrArg (Instr.pimMv h) f.of_toBody)
theorem pimCfg (h : Hdr) (f : FK) : Statement (.pimCfg h f) := by
  rintro _ w ⟨⟩
  exact (decodeWord_wordOf _ _ _).trans (congrArg (Instr.pimCfg h) f.of_toBody)
theorem collBsum (h : Hdr) (f : FK) : Statement (.collBsum h f) := by
  rintro _ w ⟨⟩
  exact (decodeWord_wordOf _ _ _).trans (congrArg (Instr.collBsum h) f.of_toBody)
theorem collBar (h : Hdr) (f : FK) : Statement (.collBar h f) := by
  rintro _ w ⟨⟩
  exact (decodeWord_wordOf _ _ _).trans (congrArg (Instr.collBar h) f.of_toBody)
theorem prf (h : Hdr) (f : FM) : Statement (.prf h f) := by
  rintro _ w ⟨⟩
  exact (decodeWord_wordOf _ _ _).trans (congrArg (Instr.prf h) f.of_toBody)
theorem kvPress (h : Hdr) (f : FK) : Statement (.kvPress h f) := by
  rintro _ w ⟨⟩
  exact (decodeWord_wordOf _ _ _).trans (congrArg (Instr.kvPress h) f.of_toBody)
theorem kvFold (h : Hdr) (f : FK) : Statement (.kvFold h f) := by
  rintro _ w ⟨⟩
  exact (decodeWord_wordOf _ _ _).trans (congrArg (Instr.kvFold h) f.of_toBody)
theorem qzRun (h : Hdr) (f : FK) : Statement (.qzRun h f) := by
  rintro _ w ⟨⟩
  exact (decodeWord_wordOf _ _ _).trans (congrArg (Instr.qzRun h) f.of_toBody)
theorem spcopy (h : Hdr) (f : FM) : Statement (.spcopy h f) := by
  rintro _ w ⟨⟩
  exact (decodeWord_wordOf _ _ _).trans (congrArg (Instr.spcopy h) f.of_toBody)
theorem lnop (h : Hdr) (x : BitVec 32) : Statement (.lnop h x) := by
  rintro _ w ⟨⟩
  exact decodeWord_wordOf _ _ _
theorem stsp (h : Hdr) (f : FM) : Statement (.stsp h f) := by
  rintro _ w ⟨⟩
  exact (decodeWord_wordOf _ _ _).trans (congrArg (Instr.stsp h) f.of_toBody)
theorem stspS (h : Hdr) (f : FM) : Statement (.stspS h f) := by
  rintro _ w ⟨⟩
  exact (decodeWord_wordOf _ _ _).trans (congrArg (Instr.stspS h) f.of_toBody)
theorem stspT (h : Hdr) (f : FM) : Statement (.stspT h f) := by
  rintro _ w ⟨⟩
  exact (decodeWord_wordOf _ _ _).trans (congrArg (Instr.stspT h) f.of_toBody)
theorem cpAdvs (h : Hdr) (f : FK) : Statement (.cpAdvs h f) := by
  rintro _ w ⟨⟩
  exact (decodeWord_wordOf _ _ _).trans (congrArg (Instr.cpAdvs h) f.of_toBody)
theorem decodeOp_kvPut (w : BitVec 48) (h : Hdr) (x : BitVec 32) : decodeOp w 0x64 h x =
    if kvNode (.ofBody x) = 0 then Instr.kvPut h (.ofBody x) else .kvPutProvisional h (.ofBody x) := rfl

theorem kvPut (h : Hdr) (f : FK) : Statement (.kvPut h f) := by
  intro k w e
  have k' : (kvNode f == 0) = true := k
  have q : encodeWord (.kvPut h f) = some (wordOf 0x64#8 h f.toBody) := rfl
  rw [q] at e
  obtain rfl := Option.some.inj e
  rw [decodeWord_wordOf]
  generalize wordOf 0x64#8 h f.toBody = v
  refine (decodeOp_kvPut v h f.toBody).trans ?_
  rw [FK.of_toBody, if_pos (eq_of_beq k')]
theorem kvCommit (h : Hdr) (f : FK) : Statement (.kvCommit h f) := by
  rintro _ w ⟨⟩
  exact (decodeWord_wordOf _ _ _).trans (congrArg (Instr.kvCommit h) f.of_toBody)
theorem kvSquash (h : Hdr) (f : FK) : Statement (.kvSquash h f) := by
  rintro _ w ⟨⟩
  exact (decodeWord_wordOf _ _ _).trans (congrArg (Instr.kvSquash h) f.of_toBody)
theorem stspAdd (h : Hdr) (f : FM) : Statement (.stspAdd h f) := by
  rintro _ w ⟨⟩
  exact (decodeWord_wordOf _ _ _).trans (congrArg (Instr.stspAdd h) f.of_toBody)
theorem evtSigs (h : Hdr) (f : FK) : Statement (.evtSigs h f) := by
  rintro _ w ⟨⟩
  exact (decodeWord_wordOf _ _ _).trans (congrArg (Instr.evtSigs h) f.of_toBody)
theorem taskPosts (h : Hdr) (f : FK) : Statement (.taskPosts h f) := by
  rintro _ w ⟨⟩
  exact (decodeWord_wordOf _ _ _).trans (congrArg (Instr.taskPosts h) f.of_toBody)
theorem snop (h : Hdr) (x : BitVec 32) : Statement (.snop h x) := by
  rintro _ w ⟨⟩
  exact decodeWord_wordOf _ _ _
theorem vfetch (h : Hdr) (f : FV) : Statement (.vfetch h f) := by
  rintro _ w ⟨⟩
  exact (decodeWord_wordOf _ _ _).trans (congrArg (Instr.vfetch h) f.of_toBody)
theorem vput (h : Hdr) (f : FV) : Statement (.vput h f) := by
  rintro _ w ⟨⟩
  exact (decodeWord_wordOf _ _ _).trans (congrArg (Instr.vput h) f.of_toBody)
theorem vmov (h : Hdr) (f : FV) : Statement (.vmov h f) := by
  rintro _ w ⟨⟩
  exact (decodeWord_wordOf _ _ _).trans (congrArg (Instr.vmov h) f.of_toBody)
theorem vpop (h : Hdr) (f : FV) : Statement (.vpop h f) := by
  rintro _ w ⟨⟩
  exact (decodeWord_wordOf _ _ _).trans (congrArg (Instr.vpop h) f.of_toBody)
theorem vbcast (h : Hdr) (f : FV) : Statement (.vbcast h f) := by
  rintro _ w ⟨⟩
  exact (decodeWord_wordOf _ _ _).trans (congrArg (Instr.vbcast h) f.of_toBody)
theorem vimm (h : Hdr) (f : FV) : Statement (.vimm h f) := by
  rintro _ w ⟨⟩
  exact (decodeWord_wordOf _ _ _).trans (congrArg (Instr.vimm h) f.of_toBody)
theorem vperm (h : Hdr) (f : FV) : Statement (.vperm h f) := by
  rintro _ w ⟨⟩
  exact (decodeWord_wordOf _ _ _).trans (congrArg (Instr.vperm h) f.of_toBody)
theorem vshuf (h : Hdr) (f : FV) : Statement (.vshuf h f) := by
  rintro _ w ⟨⟩
  exact (decodeWord_wordOf _ _ _).trans (congrArg (Instr.vshuf h) f.of_toBody)
theorem vsel (h : Hdr) (f : FV) : Statement (.vsel h f) := by
  rintro _ w ⟨⟩
  exact (decodeWord_wordOf _ _ _).trans (congrArg (Instr.vsel h) f.of_toBody)
theorem mset (h : Hdr) (f : FV) : Statement (.mset h f) := by
  rintro _ w ⟨⟩
  exact (decodeWord_wordOf _ _ _).trans (congrArg (Instr.mset h) f.of_toBody)
theorem vadd (h : Hdr) (f : FV) : Statement (.vadd h f) := by
  rintro _ w ⟨⟩
  exact (decodeWord_wordOf _ _ _).trans (congrArg (Instr.vadd h) f.of_toBody)
theorem vsub (h : Hdr) (f : FV) : Statement (.vsub h f) := by
  rintro _ w ⟨⟩
  exact (decodeWord_wordOf _ _ _).trans (congrArg (Instr.vsub h) f.of_toBody)
theorem vmul (h : Hdr) (f : FV) : Statement (.vmul h f) := by
  rintro _ w ⟨⟩
  exact (decodeWord_wordOf _ _ _).trans (congrArg (Instr.vmul h) f.of_toBody)
theorem vfma (h : Hdr) (f : FV) : Statement (.vfma h f) := by
  rintro _ w ⟨⟩
  exact (decodeWord_wordOf _ _ _).trans (congrArg (Instr.vfma h) f.of_toBody)
theorem vmin (h : Hdr) (f : FV) : Statement (.vmin h f) := by
  rintro _ w ⟨⟩
  exact (decodeWord_wordOf _ _ _).trans (congrArg (Instr.vmin h) f.of_toBody)
theorem vmax (h : Hdr) (f : FV) : Statement (.vmax h f) := by
  rintro _ w ⟨⟩
  exact (decodeWord_wordOf _ _ _).trans (congrArg (Instr.vmax h) f.of_toBody)
theorem vabs (h : Hdr) (f : FV) : Statement (.vabs h f) := by
  rintro _ w ⟨⟩
  exact (decodeWord_wordOf _ _ _).trans (congrArg (Instr.vabs h) f.of_toBody)
theorem vneg (h : Hdr) (f : FV) : Statement (.vneg h f) := by
  rintro _ w ⟨⟩
  exact (decodeWord_wordOf _ _ _).trans (congrArg (Instr.vneg h) f.of_toBody)
theorem vcmp (h : Hdr) (f : FV) : Statement (.vcmp h f) := by
  rintro _ w ⟨⟩
  exact (decodeWord_wordOf _ _ _).trans (congrArg (Instr.vcmp h) f.of_toBody)
theorem vrcp (h : Hdr) (f : FV) : Statement (.vrcp h f) := by
  rintro _ w ⟨⟩
  exact (decodeWord_wordOf _ _ _).trans (congrArg (Instr.vrcp h) f.of_toBody)
theorem vrsqrt (h : Hdr) (f : FV) : Statement (.vrsqrt h f) := by
  rintro _ w ⟨⟩
  exact (decodeWord_wordOf _ _ _).trans (congrArg (Instr.vrsqrt h) f.of_toBody)
theorem vsqrt (h : Hdr) (f : FV) : Statement (.vsqrt h f) := by
  rintro _ w ⟨⟩
  exact (decodeWord_wordOf _ _ _).trans (congrArg (Instr.vsqrt h) f.of_toBody)
theorem vexp2 (h : Hdr) (f : FV) : Statement (.vexp2 h f) := by
  rintro _ w ⟨⟩
  exact (decodeWord_wordOf _ _ _).trans (congrArg (Instr.vexp2 h) f.of_toBody)
theorem vlog2 (h : Hdr) (f : FV) : Statement (.vlog2 h f) := by
  rintro _ w ⟨⟩
  exact (decodeWord_wordOf _ _ _).trans (congrArg (Instr.vlog2 h) f.of_toBody)
theorem vsig (h : Hdr) (f : FV) : Statement (.vsig h f) := by
  rintro _ w ⟨⟩
  exact (decodeWord_wordOf _ _ _).trans (congrArg (Instr.vsig h) f.of_toBody)
theorem vtanh (h : Hdr) (f : FV) : Statement (.vtanh h f) := by
  rintro _ w ⟨⟩
  exact (decodeWord_wordOf _ _ _).trans (congrArg (Instr.vtanh h) f.of_toBody)
theorem vcvt (h : Hdr) (f : FV) : Statement (.vcvt h f) := by
  rintro _ w ⟨⟩
  exact (decodeWord_wordOf _ _ _).trans (congrArg (Instr.vcvt h) f.of_toBody)
theorem vscale (h : Hdr) (f : FV) : Statement (.vscale h f) := by
  rintro _ w ⟨⟩
  exact (decodeWord_wordOf _ _ _).trans (congrArg (Instr.vscale h) f.of_toBody)
theorem vand (h : Hdr) (f : FV) : Statement (.vand h f) := by
  rintro _ w ⟨⟩
  exact (decodeWord_wordOf _ _ _).trans (congrArg (Instr.vand h) f.of_toBody)
theorem vor (h : Hdr) (f : FV) : Statement (.vor h f) := by
  rintro _ w ⟨⟩
  exact (decodeWord_wordOf _ _ _).trans (congrArg (Instr.vor h) f.of_toBody)
theorem vxor (h : Hdr) (f : FV) : Statement (.vxor h f) := by
  rintro _ w ⟨⟩
  exact (decodeWord_wordOf _ _ _).trans (congrArg (Instr.vxor h) f.of_toBody)
theorem vshl (h : Hdr) (f : FV) : Statement (.vshl h f) := by
  rintro _ w ⟨⟩
  exact (decodeWord_wordOf _ _ _).trans (congrArg (Instr.vshl h) f.of_toBody)
theorem vshr (h : Hdr) (f : FV) : Statement (.vshr h f) := by
  rintro _ w ⟨⟩
  exact (decodeWord_wordOf _ _ _).trans (congrArg (Instr.vshr h) f.of_toBody)
theorem vsra (h : Hdr) (f : FV) : Statement (.vsra h f) := by
  rintro _ w ⟨⟩
  exact (decodeWord_wordOf _ _ _).trans (congrArg (Instr.vsra h) f.of_toBody)
theorem vredsum (h : Hdr) (f : FV) : Statement (.vredsum h f) := by
  rintro _ w ⟨⟩
  exact (decodeWord_wordOf _ _ _).trans (congrArg (Instr.vredsum h) f.of_toBody)
theorem vredmax (h : Hdr) (f : FV) : Statement (.vredmax h f) := by
  rintro _ w ⟨⟩
  exact (decodeWord_wordOf _ _ _).trans (congrArg (Instr.vredmax h) f.of_toBody)
theorem vredmin (h : Hdr) (f : FV) : Statement (.vredmin h f) := by
  rintro _ w ⟨⟩
  exact (decodeWord_wordOf _ _ _).trans (congrArg (Instr.vredmin h) f.of_toBody)
theorem vscan (h : Hdr) (f : FV) : Statement (.vscan h f) := by
  rintro _ w ⟨⟩
  exact (decodeWord_wordOf _ _ _).trans (congrArg (Instr.vscan h) f.of_toBody)
theorem vpack (h : Hdr) (f : FV) : Statement (.vpack h f) := by
  rintro _ w ⟨⟩
  exact (decodeWord_wordOf _ _ _).trans (congrArg (Instr.vpack h) f.of_toBody)
theorem vunpk (h : Hdr) (f : FV) : Statement (.vunpk h f) := by
  rintro _ w ⟨⟩
  exact (decodeWord_wordOf _ _ _).trans (congrArg (Instr.vunpk h) f.of_toBody)
theorem vclass (h : Hdr) (f : FV) : Statement (.vclass h f) := by
  rintro _ w ⟨⟩
  exact (decodeWord_wordOf _ _ _).trans (congrArg (Instr.vclass h) f.of_toBody)
theorem vrnd (h : Hdr) (f : FV) : Statement (.vrnd h f) := by
  rintro _ w ⟨⟩
  exact (decodeWord_wordOf _ _ _).trans (congrArg (Instr.vrnd h) f.of_toBody)
theorem vclamp (h : Hdr) (f : FV) : Statement (.vclamp h f) := by
  rintro _ w ⟨⟩
  exact (decodeWord_wordOf _ _ _).trans (congrArg (Instr.vclamp h) f.of_toBody)
theorem vdot4 (h : Hdr) (f : FV) : Statement (.vdot4 h f) := by
  rintro _ w ⟨⟩
  exact (decodeWord_wordOf _ _ _).trans (congrArg (Instr.vdot4 h) f.of_toBody)
theorem vnop (h : Hdr) (f : FL) : Statement (.vnop h f) := by
  rintro _ w ⟨⟩
  exact (decodeWord_wordOf _ _ _).trans (congrArg (Instr.vnop h) f.of_toBody)
theorem cnop (h : Hdr) (x : BitVec 32) : Statement (.cnop h x) := by
  rintro _ w ⟨⟩
  exact decodeWord_wordOf _ _ _
theorem tcfg (h : Hdr) (f : FK) : Statement (.tcfg h f) := by
  rintro _ w ⟨⟩
  exact (decodeWord_wordOf _ _ _).trans (congrArg (Instr.tcfg h) f.of_toBody)
theorem accAlloc (h : Hdr) (f : FK) : Statement (.accAlloc h f) := by
  rintro _ w ⟨⟩
  exact (decodeWord_wordOf _ _ _).trans (congrArg (Instr.accAlloc h) f.of_toBody)
theorem accFree (h : Hdr) (f : FK) : Statement (.accFree h f) := by
  rintro _ w ⟨⟩
  exact (decodeWord_wordOf _ _ _).trans (congrArg (Instr.accFree h) f.of_toBody)
theorem accZero (h : Hdr) (f : FK) : Statement (.accZero h f) := by
  rintro _ w ⟨⟩
  exact (decodeWord_wordOf _ _ _).trans (congrArg (Instr.accZero h) f.of_toBody)
theorem mma (h : Hdr) (f : FT) : Statement (.mma h f) := by
  rintro _ w ⟨⟩
  exact (decodeWord_wordOf _ _ _).trans (congrArg (Instr.mma h) f.of_toBody)
theorem mmaSp (h : Hdr) (f : FT) : Statement (.mmaSp h f) := by
  rintro _ w ⟨⟩
  exact (decodeWord_wordOf _ _ _).trans (congrArg (Instr.mmaSp h) f.of_toBody)
theorem mmaBp (h : Hdr) (f : FT) : Statement (.mmaBp h f) := by
  rintro _ w ⟨⟩
  exact (decodeWord_wordOf _ _ _).trans (congrArg (Instr.mmaBp h) f.of_toBody)
theorem vldAcc (h : Hdr) (f : FV) : Statement (.vldAcc h f) := by
  rintro _ w ⟨⟩
  exact (decodeWord_wordOf _ _ _).trans (congrArg (Instr.vldAcc h) f.of_toBody)
theorem vstAcc (h : Hdr) (f : FV) : Statement (.vstAcc h f) := by
  rintro _ w ⟨⟩
  exact (decodeWord_wordOf _ _ _).trans (congrArg (Instr.vstAcc h) f.of_toBody)
theorem tmark (h : Hdr) (f : FK) : Statement (.tmark h f) := by
  rintro _ w ⟨⟩
  exact (decodeWord_wordOf _ _ _).trans (congrArg (Instr.tmark h) f.of_toBody)
theorem kat (h : Hdr) (f : FK) : Statement (.kat h f) := by
  rintro _ w ⟨⟩
  exact (decodeWord_wordOf _ _ _).trans (congrArg (Instr.kat h) f.of_toBody)
theorem katcmp (h : Hdr) (x : BitVec 32) : Statement (.katcmp h x) := by
  rintro _ w ⟨⟩
  exact decodeWord_wordOf _ _ _
theorem accOut (h : Hdr) (f : FK) : Statement (.accOut h f) := by
  rintro _ w ⟨⟩
  exact (decodeWord_wordOf _ _ _).trans (congrArg (Instr.accOut h) f.of_toBody)
theorem mprio (h : Hdr) (f : FK) : Statement (.mprio h f) := by
  rintro _ w ⟨⟩
  exact (decodeWord_wordOf _ _ _).trans (congrArg (Instr.mprio h) f.of_toBody)
theorem tmask (h : Hdr) (f : FV) : Statement (.tmask h f) := by
  rintro _ w ⟨⟩
  exact (decodeWord_wordOf _ _ _).trans (congrArg (Instr.tmask h) f.of_toBody)
theorem smxMax (h : Hdr) (f : FV) : Statement (.smxMax h f) := by
  rintro _ w ⟨⟩
  exact (decodeWord_wordOf _ _ _).trans (congrArg (Instr.smxMax h) f.of_toBody)
theorem smxExp (h : Hdr) (f : FV) : Statement (.smxExp h f) := by
  rintro _ w ⟨⟩
  exact (decodeWord_wordOf _ _ _).trans (congrArg (Instr.smxExp h) f.of_toBody)
theorem smxResc (h : Hdr) (f : FV) : Statement (.smxResc h f) := by
  rintro _ w ⟨⟩
  exact (decodeWord_wordOf _ _ _).trans (congrArg (Instr.smxResc h) f.of_toBody)
theorem smxMerge (h : Hdr) (f : FV) : Statement (.smxMerge h f) := by
  rintro _ w ⟨⟩
  exact (decodeWord_wordOf _ _ _).trans (congrArg (Instr.smxMerge h) f.of_toBody)
theorem linFeat (h : Hdr) (f : FV) : Statement (.linFeat h f) := by
  rintro _ w ⟨⟩
  exact (decodeWord_wordOf _ _ _).trans (congrArg (Instr.linFeat h) f.of_toBody)
theorem linPart (h : Hdr) (f : FV) : Statement (.linPart h f) := by
  rintro _ w ⟨⟩
  exact (decodeWord_wordOf _ _ _).trans (congrArg (Instr.linPart h) f.of_toBody)
theorem rope (h : Hdr) (f : FV) : Statement (.rope h f) := by
  rintro _ w ⟨⟩
  exact (decodeWord_wordOf _ _ _).trans (congrArg (Instr.rope h) f.of_toBody)
theorem vrms (h : Hdr) (f : FV) : Statement (.vrms h f) := by
  rintro _ w ⟨⟩
  exact (decodeWord_wordOf _ _ _).trans (congrArg (Instr.vrms h) f.of_toBody)
theorem argmax (h : Hdr) (f : FV) : Statement (.argmax h f) := by
  rintro _ w ⟨⟩
  exact (decodeWord_wordOf _ _ _).trans (congrArg (Instr.argmax h) f.of_toBody)
theorem topk (h : Hdr) (f : FV) : Statement (.topk h f) := by
  rintro _ w ⟨⟩
  exact (decodeWord_wordOf _ _ _).trans (congrArg (Instr.topk h) f.of_toBody)
theorem topkMrg (h : Hdr) (f : FV) : Statement (.topkMrg h f) := by
  rintro _ w ⟨⟩
  exact (decodeWord_wordOf _ _ _).trans (congrArg (Instr.topkMrg h) f.of_toBody)
theorem topkRd (h : Hdr) (f : FV) : Statement (.topkRd h f) := by
  rintro _ w ⟨⟩
  exact (decodeWord_wordOf _ _ _).trans (congrArg (Instr.topkRd h) f.of_toBody)
theorem smpCfg (h : Hdr) (f : FK) : Statement (.smpCfg h f) := by
  rintro _ w ⟨⟩
  exact (decodeWord_wordOf _ _ _).trans (congrArg (Instr.smpCfg h) f.of_toBody)
theorem smpDraw (h : Hdr) (f : FV) : Statement (.smpDraw h f) := by
  rintro _ w ⟨⟩
  exact (decodeWord_wordOf _ _ _).trans (congrArg (Instr.smpDraw h) f.of_toBody)
theorem smpAcc (h : Hdr) (f : FV) : Statement (.smpAcc h f) := by
  rintro _ w ⟨⟩
  exact (decodeWord_wordOf _ _ _).trans (congrArg (Instr.smpAcc h) f.of_toBody)
theorem rng (h : Hdr) (f : FV) : Statement (.rng h f) := by
  rintro _ w ⟨⟩
  exact (decodeWord_wordOf _ _ _).trans (congrArg (Instr.rng h) f.of_toBody)
theorem apxBeg (h : Hdr) (f : FK) : Statement (.apxBeg h f) := by
  rintro _ w ⟨⟩
  exact (decodeWord_wordOf _ _ _).trans (congrArg (Instr.apxBeg h) f.of_toBody)
theorem apxEnd (h : Hdr) (x : BitVec 32) : Statement (.apxEnd h x) := by
  rintro _ w ⟨⟩
  exact decodeWord_wordOf _ _ _
theorem trapN (h : Hdr) (f : FL) : Statement (.trapN h f) := by
  rintro _ w ⟨⟩
  exact (decodeWord_wordOf _ _ _).trans (congrArg (Instr.trapN h) f.of_toBody)
theorem eret (h : Hdr) (x : BitVec 32) : Statement (.eret h x) := by
  rintro _ w ⟨⟩
  exact decodeWord_wordOf _ _ _
theorem ctxSwap (h : Hdr) (f : FS) : Statement (.ctxSwap h f) := by
  rintro _ w ⟨⟩
  exact (decodeWord_wordOf _ _ _).trans (congrArg (Instr.ctxSwap h) f.of_toBody)
theorem ctxSave (h : Hdr) (f : FS) : Statement (.ctxSave h f) := by
  rintro _ w ⟨⟩
  exact (decodeWord_wordOf _ _ _).trans (congrArg (Instr.ctxSave h) f.of_toBody)
theorem ctxLoad (h : Hdr) (f : FS) : Statement (.ctxLoad h f) := by
  rintro _ w ⟨⟩
  exact (decodeWord_wordOf _ _ _).trans (congrArg (Instr.ctxLoad h) f.of_toBody)
theorem halt (h : Hdr) (x : BitVec 32) : Statement (.halt h x) := by
  rintro _ w ⟨⟩
  exact decodeWord_wordOf _ _ _
theorem brk (h : Hdr) (f : FL) : Statement (.brk h f) := by
  rintro _ w ⟨⟩
  exact (decodeWord_wordOf _ _ _).trans (congrArg (Instr.brk h) f.of_toBody)
theorem wfe (h : Hdr) (f : FS) : Statement (.wfe h f) := by
  rintro _ w ⟨⟩
  exact (decodeWord_wordOf _ _ _).trans (congrArg (Instr.wfe h) f.of_toBody)
theorem tlbInv (h : Hdr) (f : FS) : Statement (.tlbInv h f) := by
  rintro _ w ⟨⟩
  exact (decodeWord_wordOf _ _ _).trans (congrArg (Instr.tlbInv h) f.of_toBody)
theorem pwrReq (h : Hdr) (f : FK) : Statement (.pwrReq h f) := by
  rintro _ w ⟨⟩
  exact (decodeWord_wordOf _ _ _).trans (congrArg (Instr.pwrReq h) f.of_toBody)
theorem mchkAck (h : Hdr) (f : FS) : Statement (.mchkAck h f) := by
  rintro _ w ⟨⟩
  exact (decodeWord_wordOf _ _ _).trans (congrArg (Instr.mchkAck h) f.of_toBody)
theorem hintPf (h : Hdr) (x : BitVec 32) : Statement (.hintPf h x) := by
  rintro _ w ⟨⟩
  exact decodeWord_wordOf _ _ _
theorem hintHot (h : Hdr) (x : BitVec 32) : Statement (.hintHot h x) := by
  rintro _ w ⟨⟩
  exact decodeWord_wordOf _ _ _
theorem hintLoop (h : Hdr) (x : BitVec 32) : Statement (.hintLoop h x) := by
  rintro _ w ⟨⟩
  exact decodeWord_wordOf _ _ _
theorem unassignedOpcode (v : BitVec 48) : Statement (.unassignedOpcode v) := by
  intro k w e
  have q : encodeWord (.unassignedOpcode v) = some (wordOf (opOf v) (hdrOf v) (bodyOf v)) := rfl
  have k' : unassignedOp (rawOp v) = true := k
  rw [q, wordOf_fields] at e
  obtain rfl := Option.some.inj e
  rw [← opOf_toNat] at k'
  unfold decodeWord
  generalize (opOf v).toNat = n at *
  exact decodeOp_unassigned _ _ _ _ k'
theorem undefinedHint (v : BitVec 48) : Statement (.undefinedHint v) := by
  intro k w e
  have q : encodeWord (.undefinedHint v) = some (wordOf (opOf v) (hdrOf v) (bodyOf v)) := rfl
  have k' : 0xF3 ≤ rawOp v := of_decide_eq_true k
  rw [q, wordOf_fields] at e
  obtain rfl := Option.some.inj e
  rw [← opOf_toNat] at k'
  have l := (opOf v).isLt
  unfold decodeWord
  generalize (opOf v).toNat = n at *
  exact decodeOp_hint _ _ _ _ k' l
theorem kvPutProvisional (h : Hdr) (f : FK) : Statement (.kvPutProvisional h f) := by
  intro k w e
  have k' : (kvNode f != 0) = true := k
  have q : encodeWord (.kvPutProvisional h f) = some (wordOf 0x64#8 h f.toBody) := rfl
  rw [q] at e
  obtain rfl := Option.some.inj e
  rw [decodeWord_wordOf]
  generalize wordOf 0x64#8 h f.toBody = v
  refine (decodeOp_kvPut v h f.toBody).trans ?_
  rw [FK.of_toBody, if_neg (bne_iff_ne.mp k')]
theorem packetDecode : Statement .packetDecode := of_none rfl
theorem queueDispatch (w : Who) : Statement (.queueDispatch w) := of_none rfl
theorem queueWordRetire (w : Who) (q : QName) : Statement (.queueWordRetire w q) := of_none rfl
theorem tokenPush (w : Who) : Statement (.tokenPush w) := of_none rfl
theorem beltDrop (w : Who) : Statement (.beltDrop w) := of_none rfl
theorem postedStorePerform (w : Who) : Statement (.postedStorePerform w) := of_none rfl
theorem homeSliceFill (line : BitVec 46) : Statement (.homeSliceFill line) := of_none rfl
theorem homeWriteThrough (line : BitVec 46) : Statement (.homeWriteThrough line) := of_none rfl
theorem patrolScrubRead (line : BitVec 46) : Statement (.patrolScrubRead line) := of_none rfl
theorem ltTick (t : Tid) : Statement (.ltTick t) := of_none rfl
theorem hostSnoop (line : BitVec 46) : Statement (.hostSnoop line) := of_none rfl
theorem hostSnoopResponse (line : BitVec 46) (data : BitVec 512) : Statement (.hostSnoopResponse line data) := of_none rfl
theorem hostCxlMemWrite (line : BitVec 46) (mask : BitVec 64) (data : BitVec 512) : Statement (.hostCxlMemWrite line mask data) := of_none rfl
theorem hostCxlMemRead (line : BitVec 46) : Statement (.hostCxlMemRead line) := of_none rfl
theorem backInvalidationResponse (line : BitVec 46) : Statement (.backInvalidationResponse line) := of_none rfl
theorem backInvalidationTimeout (line : BitVec 46) : Statement (.backInvalidationTimeout line) := of_none rfl
theorem migrationCountWindow : Statement .migrationCountWindow := of_none rfl
theorem migrationCommit (id : BitVec 49) : Statement (.migrationCommit id) := of_none rfl
theorem shootDown (t : Tid) (id : BitVec 49) : Statement (.shootDown t id) := of_none rfl
theorem shootDownAck (t : Tid) (id : BitVec 49) : Statement (.shootDownAck t id) := of_none rfl
theorem migrationPublish (id : BitVec 49) : Statement (.migrationPublish id) := of_none rfl
theorem pageWalkDone (w : Who) : Statement (.pageWalkDone w) := of_none rfl
theorem pageInComplete (ok : Bool) : Statement (.pageInComplete ok) := of_none rfl
theorem copyEntryRelease (t : Tid) (ch : Fin 8) : Statement (.copyEntryRelease t ch) := of_none rfl
theorem copyEntryComplete (t : Tid) (ch : Fin 8) (k : Nat) : Statement (.copyEntryComplete t ch k) := of_none rfl
theorem matrixChunkFold (w : Who) : Statement (.matrixChunkFold w) := of_none rfl
theorem accUncorrectableError (w : Who) (z : BitVec 4) (operand : Bool) : Statement (.accUncorrectableError w z operand) := of_none rfl
theorem pimRowComplete (w : Who) : Statement (.pimRowComplete w) := of_none rfl
theorem grant (c : Cid) (k : Fin 5) : Statement (.grant c k) := of_none rfl
theorem pwrWindowExpiry (w : Who) : Statement (.pwrWindowExpiry w) := of_none rfl
theorem smpRequestServe (w : Who) : Statement (.smpRequestServe w) := of_none rfl
theorem topkRdPush (w : Who) : Statement (.topkRdPush w) := of_none rfl
theorem kvHiddenLanding (t : Tid) : Statement (.kvHiddenLanding t) := of_none rfl
theorem kvCommitResume (w : Who) : Statement (.kvCommitResume w) := of_none rfl
theorem kvPressPublish (w : Who) : Statement (.kvPressPublish w) := of_none rfl
theorem kvFoldPublish (w : Who) : Statement (.kvFoldPublish w) := of_none rfl
theorem kvGetComplete (w : Who) : Statement (.kvGetComplete w) := of_none rfl
theorem qzCommandComplete (t : Tid) : Statement (.qzCommandComplete t) := of_none rfl
theorem collArrival (w : Who) : Statement (.collArrival w) := of_none rfl
theorem collTimeout (w : Who) : Statement (.collTimeout w) := of_none rfl
theorem apxTrainDone (c : Cid) (k : Fin 16) : Statement (.apxTrainDone c k) := of_none rfl
theorem apxSubstituteResult (w : Who) : Statement (.apxSubstituteResult w) := of_none rfl
theorem apxSubstituteWithdraw (w : Who) : Statement (.apxSubstituteWithdraw w) := of_none rfl
theorem timerExpiry (w : Who) : Statement (.timerExpiry w) := of_none rfl
theorem interruptEntry (w : Who) : Statement (.interruptEntry w) := of_none rfl
theorem trapEntry (w : Who) : Statement (.trapEntry w) := of_none rfl
theorem hostTailWrite (q : Fin 1024) (tail : BitVec 32) : Statement (.hostTailWrite q tail) := of_none rfl
theorem queueEnWrite (q : Fin 1024) (flags : BitVec 8) : Statement (.queueEnWrite q flags) := of_none rfl
theorem kickParse (q : Fin 1024) : Statement (.kickParse q) := of_none rfl
theorem renameCopyHome (k : Nat) : Statement (.renameCopyHome k) := of_none rfl
theorem controlEval (n : Nat) : Statement (.controlEval n) := of_none rfl
theorem bankNodeExec (n : Nat) : Statement (.bankNodeExec n) := of_none rfl
theorem sampleNodeExec (n : Nat) : Statement (.sampleNodeExec n) := of_none rfl
theorem hostsigNodeExec (n : Nat) : Statement (.hostsigNodeExec n) := of_none rfl
theorem triggerFire (k : Fin 64) : Statement (.triggerFire k) := of_none rfl
theorem placeInstance (w : Who) : Statement (.placeInstance w) := of_none rfl
theorem preempt (w : Who) : Statement (.preempt w) := of_none rfl
theorem schedCoreFailover : Statement .schedCoreFailover := of_none rfl
theorem heartbeatSend (t : Tid) : Statement (.heartbeatSend t) := of_none rfl
theorem heartbeat (t : Tid) (d : Dir) (flit : BitVec 128) : Statement (.heartbeat t d flit) := of_none rfl
theorem periodEndJudgement (t : Tid) : Statement (.periodEndJudgement t) := of_none rfl
theorem accuse (t : Tid) (flit : BitVec 128) : Statement (.accuse t flit) := of_none rfl
theorem withdraw (t : Tid) (flit : BitVec 128) : Statement (.withdraw t flit) := of_none rfl
theorem accusationExpiry (t : Tid) (subj : Tid) (src : Tid) : Statement (.accusationExpiry t subj src) := of_none rfl
theorem fenceNotice (dst : Option Tid) (flit : BitVec 128) : Statement (.fenceNotice dst flit) := of_none rfl
theorem fenceRemap (t : Tid) : Statement (.fenceRemap t) := of_none rfl
theorem fenceReceived (t : Tid) : Statement (.fenceReceived t) := of_none rfl
theorem selfTestDone (t : Tid) (pass : Bool) : Statement (.selfTestDone t pass) := of_none rfl
theorem appeal (t : Tid) (flit : BitVec 128) : Statement (.appeal t flit) := of_none rfl
theorem readmit (t : Tid) (flit : BitVec 128) : Statement (.readmit t flit) := of_none rfl
theorem retire (t : Tid) (flit : BitVec 128) : Statement (.retire t flit) := of_none rfl
theorem lockstepMismatch (w : Who) (lead trail : BitVec 32) : Statement (.lockstepMismatch w lead trail) := of_none rfl
theorem monitorEvent (id : BitVec 8) (reading : BitVec 64) : Statement (.monitorEvent id reading) := of_none rfl
theorem monstRead (w : Who) (c : Cid) (d : BitVec 5) : Statement (.monstRead w c d) := of_none rfl
theorem thermalThrottle (c : Cid) : Statement (.thermalThrottle c) := of_none rfl
theorem thermalRelease (c : Cid) : Statement (.thermalRelease c) := of_none rfl
theorem thermalTrip : Statement .thermalTrip := of_none rfl
theorem deviceReset : Statement .deviceReset := of_none rfl
theorem functionLevelReset : Statement .functionLevelReset := of_none rfl
theorem d3hotEntry : Statement .d3hotEntry := of_none rfl
theorem d0Return : Statement .d0Return := of_none rfl
theorem pairLinkLost : Statement .pairLinkLost := of_none rfl
theorem getVersion : Statement .getVersion := of_none rfl
theorem getCapabilities : Statement .getCapabilities := of_none rfl
theorem negotiateAlgorithms : Statement .negotiateAlgorithms := of_none rfl
theorem getDigests : Statement .getDigests := of_none rfl
theorem getCertificate (slot : BitVec 4) : Statement (.getCertificate slot) := of_none rfl
theorem challenge (nonce : BitVec 256) : Statement (.challenge nonce) := of_none rfl
theorem getMeasurements (index : BitVec 8) : Statement (.getMeasurements index) := of_none rfl
theorem resync (mb : Mailbox) (buf : BitVec 52) : Statement (.resync mb buf) := of_none rfl
theorem pageMap (mb : Mailbox) (leaf : BitVec 49) (pte : BitVec 64) : Statement (.pageMap mb leaf pte) := of_none rfl
theorem pageRemap (mb : Mailbox) (leaf : BitVec 49) (pte : BitVec 64) : Statement (.pageRemap mb leaf pte) := of_none rfl
theorem pageUnmap (mb : Mailbox) (leaf : BitVec 49) : Statement (.pageUnmap mb leaf) := of_none rfl
theorem collapseReplicas (mb : Mailbox) (leaf : BitVec 49) : Statement (.collapseReplicas mb leaf) := of_none rfl
theorem sramProtectionMode (mb : Mailbox) (t : Tid) (bankCode : Bool) : Statement (.sramProtectionMode mb t bankCode) := of_none rfl
theorem markBankFailed (mb : Mailbox) (t : Tid) (bank : BitVec 7) : Statement (.markBankFailed mb t bank) := of_none rfl
theorem kvResidentReservation (mb : Mailbox) (t : Tid) (ways : BitVec 8) : Statement (.kvResidentReservation mb t ways) := of_none rfl
theorem tileTimerPeriod (mb : Mailbox) (t : Tid) (period : BitVec 64) : Statement (.tileTimerPeriod mb t period) := of_none rfl
theorem triggerEntry (mb : Mailbox) (k : Fin 64) (tr : Trigger) : Statement (.triggerEntry mb k tr) := of_none rfl
theorem governorBudgets (mb : Mailbox) (c : Cid) (k : Fin 5) (b : BitVec 8) : Statement (.governorBudgets mb c k b) := of_none rfl
theorem readmitTile (mb : Mailbox) (t : Tid) : Statement (.readmitTile mb t) := of_none rfl
theorem keepFenced (mb : Mailbox) (t : Tid) : Statement (.keepFenced mb t) := of_none rfl
theorem postKatTask (mb : Mailbox) (t : Tid) (node : BitVec 64) (q : Fin 1024) : Statement (.postKatTask mb t node q) := of_none rfl
theorem coreReloadSelftest (mb : Mailbox) (pass : Bool) : Statement (.coreReloadSelftest mb pass) := of_none rfl
theorem resumeContext (mb : Mailbox) (w : Who) : Statement (.resumeContext mb w) := of_none rfl
theorem discardContext (mb : Mailbox) (w : Who) : Statement (.discardContext mb w) := of_none rfl
theorem discardImage (mb : Mailbox) (pa : BitVec 52) : Statement (.discardImage mb pa) := of_none rfl
theorem pairLinkRetrain (mb : Mailbox) : Statement (.pairLinkRetrain mb) := of_none rfl
theorem imageLoad (mb : Mailbox) (img : List Byte) : Statement (.imageLoad mb img) := of_none rfl
theorem errinjWrite (t : Tid) (v : BitVec 64) : Statement (.errinjWrite t v) := of_none rfl
theorem hbcfgWrite (w : Who) (v : BitVec 64) : Statement (.hbcfgWrite w v) := of_none rfl
theorem spquotaWrite (w : Who) (v : BitVec 64) : Statement (.spquotaWrite w v) := of_none rfl
theorem trapvecWrite (w : Who) (v : BitVec 64) : Statement (.trapvecWrite w v) := of_none rfl
theorem leaseWrite (w : Who) (v : BitVec 64) : Statement (.leaseWrite w v) := of_none rfl
theorem qslipWrite (w : Who) (v : BitVec 64) : Statement (.qslipWrite w v) := of_none rfl
theorem ptrootWrite (w : Who) (v : BitVec 64) : Statement (.ptrootWrite w v) := of_none rfl
theorem apxsampWrite (w : Who) (v : BitVec 64) : Statement (.apxsampWrite w v) := of_none rfl
theorem registerWrite (w : Who) (r : RegAddr) (v : BitVec 64) : Statement (.registerWrite w r v) := of_none rfl
theorem evtWaitWake (w : Who) : Statement (.evtWaitWake w) := of_none rfl
theorem wfeWake (w : Who) : Statement (.wfeWake w) := of_none rfl
theorem shadowSwapDone (w : Who) : Statement (.shadowSwapDone w) := of_none rfl
theorem pairLinkTrained : Statement .pairLinkTrained := of_none rfl
theorem partnerAccessArrival (line : BitVec 46) (mask : BitVec 64) (data : BitVec 512) : Statement (.partnerAccessArrival line mask data) := of_none rfl
theorem pairAcknowledgement (w : Who) : Statement (.pairAcknowledgement w) := of_none rfl
theorem lockstepSignatureMatch (w : Who) : Statement (.lockstepSignatureMatch w) := of_none rfl
theorem d3hotRunLimitExpiry : Statement .d3hotRunLimitExpiry := of_none rfl
theorem powerRemoval : Statement .powerRemoval := of_none rfl

end Laws.RoundTrip

end Sys2Proof
end

