-- ==== Sys2Proof/Laws/Queue.lean ====
section
/-! SUPPORT. What the head of a queue leaves when it issues. -/
namespace Sys2Proof.Machine

theorem Queues.get_set (x : Queues) (q : QName) (es : List Entry) : (x.set q es).get q = es := by cases q <;> rfl

/-- The state in which a head runs is that in which `issueLS` has popped its tokens. -/
theorem lsStart_posted (q : QName) (e : Entry) (s : State) : (lsStart q e s).curBank.posted = s.curBank.posted := by
  simp [lsStart, State.modHeadS, runM, modHead, State.curBank]

theorem postedFirst_none (w : Who) (s : State) (h : (s.bank w).posted = []) : (postedFirst w).run.run s = (.ok (), s) := by
  rw [postedFirst, run_bind_ok (run_getB w s), h]
  rfl

theorem lsWord_head (q : QName) (i : Instr) (h : Hdr) (run : Who → Entry → M Bool) (e : Entry) (s : State) (k : headOf q i e s) :
    lsWord q i h (word48 i) run s =
      if !e.guard || e.skip then lsIssued s.cur q e true (lsStart q e s)
      else match (do postedFirst s.cur; run s.cur e : M Bool).run.run (lsStart q e s) with
        | (.ok done, t) => lsIssued s.cur q e done t
        | (.error (.wait _), t) => t.modHeadS s.cur q fun e => { e with waits := true }
        | (.error x, t) => t.raiseStop s.cur x (fqOf q) 0 e.pc (t.bank s.cur).f.pc := by
  obtain ⟨⟨es, k1⟩, k2, k3, k4⟩ := k
  simp only [State.curBank] at k1 k4
  have first : lsWord q i h (word48 i) run s = s.issueLS s.cur q e run := by
    unfold lsWord
    simp only [k1, k2, if_true]
  rw [first]
  unfold State.issueLS
  rw [if_neg (not_not.mpr k3)]
  rcases p : e.popped with _ | _
  · rw [p] at k4
    simp only [Bool.false_eq_true, false_or] at k4
    obtain ⟨x, hx⟩ := Option.isSome_iff_exists.mp k4
    have st : lsStart q e s = (s.modBank s.cur fun b => { b with q := x }).modHeadS s.cur q fun e => { e with popped := true } := by
      simp only [lsStart, p, Bool.false_eq_true, if_false, State.modBank, State.bank] at hx ⊢
      simp only [State.modCtx, hx, Option.getD_some]
    simp only [Bool.false_eq_true, if_false, hx, ← st, lsIssued]
    all_goals rfl
  · have st : lsStart q e s = (s.modBank s.cur fun b => { b with q := (s.bank s.cur).q }).modHeadS s.cur q fun e => { e with popped := true } := by
      simp only [lsStart, p, if_true, State.modBank, State.modCtx, State.bank]
    simp only [if_true, ← st, lsIssued]
    all_goals rfl

/-- A head that is to run, and whose work answers, has issued. -/
theorem lsWord_runs (q : QName) (i : Instr) (h : Hdr) (run : Who → Entry → M Bool) (e : Entry) (s t : State) (done : Bool)
    (k : lsReady q i e s) (a : answers (run s.cur e) (lsStart q e s) done t) :
    lsWord q i h (word48 i) run s = lsIssued s.cur q e done t := by
  obtain ⟨k1, k2, k3⟩ := k
  rw [lsWord_head q i h run e s k1, if_neg (by simp [k2.1, k2.2]), run_bind_ok (postedFirst_none s.cur (lsStart q e s) ?_)]
  · unfold answers at a
    rw [a]
  · have p := lsStart_posted q e s
    rw [k3] at p
    exact p

/-- A head whose guard was false, or that is to be skipped, does its token actions alone (R32). -/
theorem lsWord_skipped (q : QName) (i : Instr) (h : Hdr) (run : Who → Entry → M Bool) (e : Entry) (s : State) (k : headOf q i e s)
    (n : ¬ entryRuns e) : lsWord q i h (word48 i) run s = lsIssued s.cur q e true (lsStart q e s) := by
  rw [lsWord_head q i h run e s k, if_pos]
  unfold entryRuns at n
  rcases g : e.guard <;> rcases sk : e.skip <;> simp_all

/-! ## The C queue -/

/-- The head of the C queue, ready to issue: what its issue in this C-cycle leaves. -/
theorem cWord_head (i : Instr) (h : Hdr) (lat : Regs → Option Nat) (run : Who → Entry → M CRes) (e : Entry) (s : State) (k : cReady i e s) :
    cWord i h (word48 i) lat run s = match (cStart s).tryIssue s.cur e lat run with
      | (.ok t, _) => t.endCycle s.cur
      | (.error c, t) => t.stopC s.cur e 0 (s.claimEngine s.cur) c := by
  obtain ⟨⟨⟨es, k1⟩, k2, k3, _⟩, k5, k6, k7, k8, k9, k10⟩ := k
  have kd : (((s.claimEngine s.cur).bank s.cur).c.draining && cBusy ((s.claimEngine s.cur).bank s.cur)) = false := by
    rcases k9 with x | x
    · exact (Bool.and_eq_false_iff).mpr (.inl x)
    · exact (Bool.and_eq_false_iff).mpr (.inr x)
  have first : cWord i h (word48 i) lat run s = s.issueC s.cur e lat run := by
    unfold cWord
    simp only [State.curBank, Queues.get] at k1
    simp only [k1, k2, if_true]
  rw [first]
  unfold State.issueC
  simp only [k5, k3, k6, k7, k8, kd, k10]
  rfl

/-- A head of the C queue that is to run, and whose work answers without touching the queues, has issued. -/
theorem cWord_runs (i : Instr) (h : Hdr) (lat : Regs → Option Nat) (run : Who → Entry → M CRes) (e : Entry) (s t : State) (r : CRes)
    (k : cRuns i e s) (p : e.popped = true ∨ (((cStart s).bank s.cur).q.pop .c (tkOf e.word)).isSome = true)
    (a : answers (run s.cur e) (cStart s) r t) (same : (t.bank s.cur).q = ((cStart s).bank s.cur).q) (n : r ≠ .out) :
    cWord i h (word48 i) lat run s = cIssued s.cur e r t := by
  obtain ⟨k1, kg, ks⟩ := k
  have issued : (cStart s).tryIssue s.cur e lat run = (.ok (cPlaced s.cur e r t), cPlaced s.cur e r t) := by
    unfold answers at a
    unfold State.tryIssue
    rcases pp : e.popped with _ | _
    · rw [pp] at p
      simp only [Bool.false_eq_true, false_or] at p
      obtain ⟨x, hx⟩ := Option.isSome_iff_exists.mp p
      have hx' := hx
      rw [← same] at hx'
      simp only [Bool.false_eq_true, if_false, hx, kg, ks, Bool.not_true, Bool.or_self, a]
      have e1 : cPlaced s.cur e r t = ((t.putRes s.cur e (if e.pushed then { word := e.word } else pushOf .c e.word) r).modBank s.cur fun b =>
          { b with q := { x with c := (b.q.get .c).tail, fly := b.q.fly, pend := b.q.pend } }).modBank s.cur fun b => b.noteWindow e b.c.cc := by
        simp only [cPlaced, pp, Bool.false_eq_true, if_false, hx', Option.getD_some, Queues.get]
      rw [e1]
    · simp only [if_true, kg, ks, Bool.not_true, Bool.or_self, a, Bool.false_eq_true, if_false]
      have e1 : cPlaced s.cur e r t = ((t.putRes s.cur e (if e.pushed then { word := e.word } else pushOf .c e.word) r).modBank s.cur fun b =>
          { b with q := { ((cStart s).bank s.cur).q with c := (b.q.get .c).tail, fly := b.q.fly, pend := b.q.pend } }).modBank s.cur
            fun b => b.noteWindow e b.c.cc := by
        simp only [cPlaced, pp, if_true, same, Queues.get]
      rw [e1]
  rw [cWord_head i h lat run e s k1, issued]
  rfl

end Sys2Proof.Machine
end

