-- ==== Sys2Proof/Laws/Read.lean ====
section
/-! SUPPORT. Reads at the home slices of a machine in which no error stands and no write-through waits: they give what memory holds. -/
namespace Sys2Proof.Machine

/-- `s` differs from `o`, as far as reads go, in its home slices alone, which hold what memory holds; no error stands, and no
write-through waits. -/
structure State.Calm (o s : State) : Prop where
  ctxs : s.ctxs = o.ctxs
  tiles : s.tiles = o.tiles
  mem : s.hub.mem = o.hub.mem
  flips : s.hub.flips = []
  wtq : s.hub.wtq = []
  sound : ∀ t, (s.tile t).sound = true
  held : ∀ l x, kvGet s.hub.home l = some x → x.poison = false ∧ x.data = rawLine o.hub.mem l

/-- A sound machine with empty home slices is calm. -/
theorem State.calm_self (s : State) (hf : s.hub.flips = []) (hq : s.hub.wtq = []) (hh : s.hub.home = []) (ht : ∀ t, (s.tile t).sound = true) :
    s.Calm s :=
  ⟨rfl, rfl, rfl, hf, hq, ht, fun l x h => by rw [hh] at h; exact nomatch h⟩

theorem State.overHome_sound (s : State) (l mask : Nat) (ht : ∀ t, (s.tile t).sound = true) : s.overHome l mask = s := by
  unfold State.overHome
  split
  · rw [if_pos (ht _)]
  · rfl

theorem State.homeErrors_sound (s : State) (l : Nat) (id : BitVec 16) (ht : ∀ t, (s.tile t).sound = true) : s.homeErrors l id = s := by
  unfold State.homeErrors
  split
  · rfl
  · simp only [State.meetArray, ht, if_true]; rfl

/-- A line of a calm machine is filled from memory, and it stays calm. -/
theorem State.Calm.fill {o s : State} (c : State.Calm o s) (l : Nat) (id : BitVec 16) :
    State.Calm o (s.fill l id) ∧ ∃ x, kvGet (s.fill l id).hub.home l = some x := by
  unfold State.fill State.fillFor
  split
  · rename_i x h
    exact ⟨c, x, h⟩
  · have r : lp6Read s l id 0 = (rawLine o.hub.mem l, false, s) := by simp only [lp6Read, c.flips, kvGet, c.mem]
    have q : queuedLine s.hub.wtq l = none := by rw [c.wtq]; rfl
    rw [q, r]
    simp only [State.putFilled]
    rw [State.overHome_sound (s.modHub _) _ _ fun t => c.sound t]
    refine ⟨⟨c.ctxs, c.tiles, c.mem, c.flips, c.wtq, c.sound, fun k x h => ?_⟩, _, by simp only [State.modHub, kvGet_kvPut, if_true]; rfl⟩
    simp only [State.modHub, kvGet_kvPut] at h
    split at h
    · obtain rfl := Option.some.inj h
      subst k
      exact ⟨rfl, rfl⟩
    · exact c.held k x h

/-- A read at home of a calm machine gives the line that memory holds, and it stays calm. -/
theorem State.Calm.read {o s : State} (c : State.Calm o s) (l pts : Nat) (id : BitVec 16) :
    (s.homeRead l pts id).1.poison = false ∧ (s.homeRead l pts id).1.data = rawLine o.hub.mem l ∧ State.Calm o (s.homeRead l pts id).2.2 := by
  obtain ⟨c', x, h⟩ := c.fill l id
  simp only [State.homeRead, State.meet, State.homeErrors_sound _ _ _ c'.sound]
  have e : (s.fill l id).homeLine l = x := by simp only [State.homeLine, h, Option.getD_some]
  rw [e]
  obtain ⟨p, d⟩ := c'.held l x h
  refine ⟨p, d, c'.ctxs, c'.tiles, c'.mem, c'.flips, c'.wtq, c'.sound, fun k y g => ?_⟩
  simp only [State.modHub, kvGet_kvPut] at g
  split at g
  · obtain rfl := Option.some.inj g
    subst k
    exact ⟨p, d⟩
  · exact c'.held k y g

/-! ## Bytes and numbers -/

theorem leNat_lt (l : List Byte) : leNat l < 256 ^ l.length := by
  induction l with
  | nil => exact Nat.one_pos
  | cons b l ih =>
    have := b.isLt
    simp only [leNat, List.length_cons, Nat.pow_succ]
    omega

theorem leNat_append (x y : List Byte) : leNat (x ++ y) = leNat x + 256 ^ x.length * leNat y := by
  induction x with
  | nil => simp [leNat]
  | cons b x ih => simp only [List.cons_append, leNat, ih, List.length_cons, Nat.pow_succ]; ring

theorem leBytes_leNat (l : List Byte) : leBytes (leNat l) l.length = l := by
  induction l with
  | nil => rfl
  | cons b l ih =>
    have e : leNat (b :: l) / 256 = leNat l := by have := b.isLt; simp only [leNat]; omega
    rw [List.length_cons, leBytes, e, ih]
    congr 1
    apply BitVec.eq_of_toNat_eq
    have := b.isLt
    simp only [BitVec.toNat_ofNat, leNat]
    omega

theorem memRead_length (m : Mem) (a n : Nat) : (memRead m a n).length = n := by
  induction n generalizing a with
  | zero => rfl
  | succ n ih => simp only [memRead, List.length_cons, ih]

theorem memRead_append (m : Mem) (a i j : Nat) : memRead m a (i + j) = memRead m a i ++ memRead m (a + i) j := by
  induction i generalizing a with
  | zero => simp [memRead]
  | succ i ih =>
    rw [Nat.add_right_comm]
    simp only [memRead, ih, List.cons_append, Nat.add_assoc, Nat.add_comm 1 i]

theorem memRead_drop (m : Mem) (a i j : Nat) : (memRead m a (i + j)).drop i = memRead m (a + i) j := by
  rw [memRead_append, List.drop_left' (memRead_length m a i)]

theorem memRead_take (m : Mem) (a n k : Nat) : (memRead m a n).take k = memRead m a (min k n) := by
  rcases Nat.le_total k n with h | h
  · obtain ⟨j, rfl⟩ := Nat.exists_eq_add_of_le h
    rw [memRead_append, List.take_left' (memRead_length m a k), Nat.min_eq_left h]
  · rw [List.take_of_length_le (by rw [memRead_length]; exact h), Nat.min_eq_right h]

/-- Bytes of memory that reads 0 are the number 0. -/
theorem leNat_zeros (m : Mem) (a n : Nat) (h : ∀ i, i < n → memGet m (a + i) = 0) : leNat (memRead m a n) = 0 := by
  induction n generalizing a with
  | zero => rfl
  | succ n ih =>
    have h0 : memGet m a = 0 := h 0 (by omega)
    have r := ih (a + 1) fun i hi => by rw [Nat.add_assoc, Nat.add_comm 1 i]; exact h (i + 1) (by omega)
    simp only [memRead, leNat, h0, r]
    rfl

/-- The bytes [off, off + k) of a stored line. -/
theorem lineBytes_rawLine (m : Mem) (l off k : Nat) (h : off + k ≤ 64) :
    leBytes (lineBytes (rawLine m l) off k) k = memRead m (l * 64 + off) k := by
  have e : memRead m (l * 64) 64 = memRead m (l * 64) off ++ (memRead m (l * 64 + off) k ++ memRead m (l * 64 + off + k) (64 - off - k)) := by
    rw [← memRead_append, ← memRead_append]
    congr 1
    omega
  have p (n : Nat) : (256 : Nat) ^ n = 2 ^ (8 * n) := by rw [Nat.pow_mul]
  have z : leNat (memRead m (l * 64) 64) < 2 ^ 512 := by
    have := leNat_lt (memRead m (l * 64) 64)
    rw [memRead_length, p] at this
    exact Nat.lt_of_lt_of_eq this (congrArg (2 ^ ·) (by omega : 8 * 64 = 512))
  have n : lineBytes (rawLine m l) off k = leNat (memRead m (l * 64 + off) k) := by
    have a := leNat_lt (memRead m (l * 64) off)
    have b := leNat_lt (memRead m (l * 64 + off) k)
    simp only [memRead_length, p] at a b
    rw [lineBytes, bits, rawLine, BitVec.toNat_ofNat, Nat.mod_eq_of_lt z, e, leNat_append, leNat_append]
    simp only [memRead_length, p]
    rw [Nat.add_mul_div_left _ _ (Nat.two_pow_pos _), Nat.div_eq_of_lt a, Nat.zero_add, Nat.add_mul_mod_self_left, Nat.mod_eq_of_lt b]
  rw [n]
  conv_lhs => rw [← memRead_length m (l * 64 + off) k]
  rw [memRead_length]
  have := leBytes_leNat (memRead m (l * 64 + off) k)
  rwa [memRead_length] at this

/-! ## Reads -/

/-- A read of bytes at home of a calm machine gives what memory holds; `n` lines are enough for them. -/
theorem State.Calm.bytes {o s : State} (c : State.Calm o s) (id : BitVec 16) (w : Who) (pa len n : Nat) (h : ∀ i, i < len → ∀ t, reaches t (pa + i) = true)
    (e : len ≠ 0 → pa % 64 + len ≤ 64 * n) : (s.homeBytes id w pa len n).1 = plain (memRead o.hub.mem pa len) ∧ State.Calm o (s.homeBytes id w pa len n).2 := by
  induction n generalizing s pa len with
  | zero =>
    obtain rfl : len = 0 := by omega
    exact ⟨rfl, c⟩
  | succ n ih =>
    unfold State.homeBytes
    by_cases z : len = 0
    · subst z; exact ⟨rfl, c⟩
    · rw [if_neg z]
      obtain ⟨p, d, c'⟩ := c.read (pa / 64) (s.bank w).pts id
      have r : reaches s pa = true := h 0 (by omega) s
      obtain ⟨k, kd⟩ : ∃ k, k = min len (64 - pa % 64) := ⟨_, rfl⟩
      obtain ⟨y, u⟩ := ih c' (pa + k) (len - k) (fun i hi t => by rw [Nat.add_assoc]; exact h _ (by omega) t) (by intro q; have := e z; omega)
      simp only [r, if_true, p, d, ← kd]
      refine ⟨?_, u⟩
      rw [y, lineBytes_rawLine _ _ _ _ (by omega), show pa / 64 * 64 + pa % 64 = pa by omega]
      have m : memRead o.hub.mem pa len = memRead o.hub.mem pa k ++ memRead o.hub.mem (pa + k) (len - k) := by
        rw [← memRead_append]
        congr 1
        omega
      rw [m]
      simp only [plain, List.map_append]

/-- A piece of a calm machine is read without a stop. -/
theorem State.Calm.piece {o s : State} (c : State.Calm o s) (w : Who) (pa : Nat) (info : Word) (off len : Nat)
    (h : ∀ i, i < len → ∀ t, reaches t (pa + off + i) = true) :
    ∃ t, (readPiece w pa info off len).run.run s = (.ok (off, (memRead o.hub.mem (pa + off) len).toArray), t) ∧ State.Calm o t := by
  obtain ⟨y, z⟩ := c.bytes (ctxid16 w) w (pa + off) len (len / 64 + 2) h (by intro _; omega)
  refine ⟨_, ?_, z⟩
  have q : anyPoison (plain (memRead o.hub.mem (pa + off) len)) = false := by simp [anyPoison, plain]
  have b : ∀ l, bytesOf (plain l) = l := fun l => by simp [bytesOf, plain, Function.comp_def]
  unfold readPiece
  simp only [run_bind, run_get, run_set, y, q, b]
  rfl

end Sys2Proof.Machine
end

