-- ==== Sys2Proof/Tests/Slice0.lean ====
section
/-! SUPPORT. The model's own tests: words that the checks of WellFormed refuse, words written out bit by bit, states that meet the
hypotheses of the statements, and single effects whose results are worked out from the rules. -/
set_option Elab.async false
namespace Sys2Proof.Tests
open Sys2Proof.Machine

/-! ## Small states -/

def hd : Hdr := ⟨0, 0, 0⟩
/-- GN = 1 with GP = 0: a guard that is false (R31). -/
def hdOff : Hdr := ⟨0, 1, 0⟩
def bodyS (d a b : BitVec 5) (fn : BitVec 17) : FS := ⟨d, a, b, fn⟩

/-- The part after reset with context 0 running. -/
def run0 : State := State.reset.modCtx 0 fun c => { c with status := .running }

/-- A context whose scalars hold what is listed. -/
def withS (s : State) (l : List (BitVec 5 × Word)) : State := s.modBank 0 fun b => b.modR fun r => l.foldl (fun r x => r.setS x.1 x.2) r

def priv0 (s : State) : State := s.modBank 0 fun b => { b with inst := some { node := 0, priv := true } }

/-- A 64 KiB page at physical address 0x10000, readable and writable. -/
def page : Handle := { valid := true, va := 0x50000, base := 0x10000, rd := true, w := true, id := 0x40 }

def withH (s : State) (k : BitVec 4) (x : Handle) : State := s.modBank 0 fun b => b.modR fun r => r.setH k x

def mem0 : State := withH run0 3 page

/-- A computation answers. -/
def okRun {α : Type} (m : M α) (s : State) : Bool := match m.run.run s with | (.ok _, _) => true | (.error _, _) => false

theorem answers_of_okRun {α : Type} (m : M α) (s : State) (h : okRun m s = true) : ∃ a t, answers m s a t := by
  unfold okRun at h
  unfold answers
  generalize m.run.run s = r at *
  rcases r with ⟨e | a, t⟩
  · exact Bool.noConfusion h
  · exact ⟨a, t, rfl⟩

theorem noneStalled (s : State) (h : s.tiles.any (·.stalled) = false) (t : Tid) : (s.tile t).stalled = false :=
  eq_false_of_ne_true (Vector.any_eq_false.mp h t.val t.isLt)

/-- Where no remap is pending, no tile is stalled and no tile holds another fenced, every line's request reaches its home. -/
theorem noneHeld (s : State) (w : Who) (h : (s.hub.remap.isEmpty && !s.tiles.any (·.stalled)) = true)
    (k : (List.finRange 72).all (fun x => !cutOff s x (Who.tile w) && !cutOff s (Who.tile w) x) = true) (l : Nat) : lineHeld s w l = false := by
  rw [Bool.and_eq_true, Bool.not_eq_true'] at h
  have r : homeHeld s l = false := by simp [homeHeld, homeStalls, remapPending, h.1, noneStalled s h.2]
  unfold lineHeld
  rw [r, Bool.false_or]
  split
  · rename_i x _
    have y := List.all_eq_true.mp k x (List.mem_finRange x)
    simpa using y
  · rfl

/-! ## WellFormed: an ill-formed term for each check -/

theorem test_wf_kvPut : (Instr.kvPut hd ⟨0, 0, 0, 0x10⟩).wf = false := by decide
theorem test_wf_kvPutProvisional : (Instr.kvPutProvisional hd ⟨0, 0, 0, 0x0F⟩).wf = false := by decide
theorem test_wf_unassigned : (Instr.unassignedOpcode 0x010000000000).wf = false := by decide
theorem test_wf_undefinedHint : (Instr.undefinedHint 0xF20000000000).wf = false := by decide
theorem test_wf_bank : (Instr.markBankFailed .host 0 96).wf = false := by decide
theorem test_wf_ways : (Instr.kvResidentReservation .host 0 9).wf = false := by decide
theorem test_wf_register_low : (Instr.registerWrite 0 (.hub 0x1FFFFFFFFFF) 0).wf = false := by decide
theorem test_wf_register_high : (Instr.registerWrite 0 (.hub 0x20100000000) 0).wf = false := by decide

/-! ## Words written out from the encodings of the spec -/

/-- OP 0x18, d = 9, imm27 = 0xC48D (R329). -/
theorem test_word_li : decodeWord (0b00011000_00000000_01001_000000000001100010010001101 : BitVec 48) = .li hd ⟨9, 0xC48D⟩ := by decide
/-- OP 0x01 add s1, s2, s3 with TK 0, GN 1, GP 2 (R30, R36). -/
theorem test_word_add : decodeWord (0b00000001_00001010_00001_00010_00011_00000000000000000 : BitVec 48) = .add ⟨0, 1, 2⟩ ⟨1, 2, 3, 0⟩ := by decide
/-- OP 0x21 br with offset −1 and slot 2 (R39). -/
theorem test_word_br : decodeWord (0b00100001_00000000_000_11111111111111111111111111_010 : BitVec 48) = .br hd ⟨0, 0x3FFFFFF, 2⟩ := by decide
/-- OP 0x27 ld s4 from h3 + s5 with SZ 3 and displacement 8 (R135). -/
theorem test_word_ld : decodeWord (0b00100111_00000000_00100_00011_00101_011_00000000001000 : BitVec 48) = .ld hd ⟨4, 3, 5, 0xC008⟩ := by decide
/-- OP 0x3C csrw s0, 0x180 from s7 (R339). -/
theorem test_word_csrw : decodeWord (0b00111100_00000000_00000_00111_0000000000000110000000 : BitVec 48) = .csrw hd ⟨0, 7, 0x180⟩ := by decide
/-- OP 0x40 ldsp h2, OFS s6, SPA s7, LEN 63, REP 255, FLG 1 with TK 5 (R40). -/
theorem test_word_ldsp : decodeWord (0b01000000_01010000_0010_00110_00111_111111_11111111_0001 : BitVec 48) = .ldsp ⟨5, 0, 0⟩ ⟨2, 6, 7, 63, 255, 1⟩ := by decide
/-- OP 0x64 kv.put with NODE 3 is the provisional form (R282, R284). -/
theorem test_word_kvPut : decodeWord (0b01100100_00000000_00001_00010_00011_0000000_000011_0000 : BitVec 48) = .kvPutProvisional hd ⟨1, 2, 3, 0x30⟩ := by decide
/-- OP 0x7D vfma with WN 1, ND 2, SA 3, SB 4, SC 5, ME 1, MR 6, VAR 7, FMT 8 (R36, R38). -/
theorem test_word_vfma : decodeWord (0b01111101_00000000_1_0010_00011_00100_00101_1_110_0111_1000 : BitVec 48) =
    .vfma hd ⟨1, 2, 3, 4, 5, 1, 6, 7, 8⟩ := by decide
/-- OP 0xA4 mma with Z 15, DA 1, DB 2, KC 127, VAR 3, FLG 33 (R36, R42). -/
theorem test_word_mma : decodeWord (0b10100100_00000000_1111_00001_00010_01111111_0011_100001 : BitVec 48) = .mma hd ⟨15, 1, 2, 127, 3, 33⟩ := by decide
/-- OP 0xC5 smp.draw, FV (R36). -/
theorem test_word_smpDraw : decodeWord (0b11000101_00000000_0_0001_00010_00011_00000_0_000_0000_0101 : BitVec 48) =
    .smpDraw hd ⟨0, 1, 2, 3, 0, 0, 0, 0, 5⟩ := by decide
/-- OP 0xE1 eret, OP 0xF1 hint.hot, OP 0xFF and OP 0x3A (R45, R46). -/
theorem test_word_system : decodeWord 0xE10000000000 = .eret hd 0 ∧ decodeWord 0xF100000000AB = .hintHot hd 0xAB ∧
    decodeWord 0xFF8000000001 = .undefinedHint 0xFF8000000001 ∧ decodeWord 0x3A0000000000 = .unassignedOpcode 0x3A0000000000 := by decide
/-- A word too short is refused by name, and the bytes after a word are left. -/
theorem test_decode_bytes : decode [0, 0, 0, 0, 0] = .error .tooShort ∧ decode [0xAB, 0, 0, 0, 0, 0xF1, 7] = .ok (.hintHot hd 0xAB, [7]) := by decide

/-! ## States that meet the hypotheses: front-end words -/

theorem witness_FrontEndGuardFalse : (feHdr (.add hdOff (bodyS 1 2 3 0))).isSome = true ∧ guardOn hdOff State.reset = false := by decide +kernel
theorem witness_ThreeRegisterWords : guardOn hd State.reset = true ∧
    ([.add hd (bodyS 1 2 3 0), .sub hd (bodyS 1 2 3 0), .andR hd (bodyS 1 2 3 0), .orR hd (bodyS 1 2 3 0), .xorR hd (bodyS 1 2 3 0), .shl hd (bodyS 1 2 3 0),
      .shr hd (bodyS 1 2 3 0), .sra hd (bodyS 1 2 3 0), .mul hd (bodyS 1 2 3 0), .mulh hd (bodyS 1 2 3 2), .div hd (bodyS 1 2 3 1), .rem hd (bodyS 1 2 3 1),
      .minmax hd (bodyS 1 2 3 3)] : List Instr).all (fun i => (threeReg i).isSome) = true := by decide +kernel
theorem witness_ThreeRegisterWords_reserved : guardOn hd State.reset = true ∧ (bodyS 1 2 3 3).fn.toNat % 4 = 3 := by decide +kernel
theorem witness_ImmediateWords : guardOn hd State.reset = true ∧
    ([.addi hd ⟨1, 2, 0x200000⟩, .andi hd ⟨1, 2, 3⟩, .ori hd ⟨1, 2, 3⟩, .xori hd ⟨1, 2, 3⟩, .shli hd ⟨1, 2, 63⟩, .shri hd ⟨1, 2, 63⟩, .srai hd ⟨1, 2, 63⟩,
      .li hd ⟨1, 0x4000000⟩, .lsh hd ⟨1, 0, 0x3FFFFF⟩] : List Instr).all (fun i => (immReg i).isSome) = true := by decide +kernel
/-- POS + LEN = 64 is the last legal field, 65 the first illegal one. -/
theorem witness_BitFieldWords : guardOn hd State.reset = true ∧ ((bodyS 1 2 0 0xFC0).fn.toNat % 64 + ((bodyS 1 2 0 0xFC0).fn.toNat / 64 % 64 + 1) ≤ 64) ∧
    64 < (bodyS 1 2 0 0xFC1).fn.toNat % 64 + ((bodyS 1 2 0 0xFC1).fn.toNat / 64 % 64 + 1) := by decide +kernel
theorem witness_PredicateWords : guardOn hd State.reset = true ∧
    ([.cmp hd (bodyS 1 2 3 5), .cmpi hd ⟨1, 2, 0x280000⟩, .plog hd (bodyS 1 2 3 7)] : List Instr).all (fun i => (predReg i).isSome) = true ∧
    6 ≤ (bodyS 1 2 3 6).fn.toNat % 8 ∧ 6 ≤ (0x300000 : BitVec 22).toNat / 2 ^ 19 := by decide +kernel
theorem witness_SelectWord : guardOn hd State.reset = true := by decide +kernel
theorem witness_BranchWords : guardOn hd State.reset = true ∧ guardOn hdOff State.reset = false ∧ (4 : BitVec 3).toNat ≤ 4 ∧
    legalTarget (State.reset.curBank.r.sreg 31) ∧ legalTarget ((withS run0 [(2, 0x30)]).curBank.r.sreg 2) := by
  unfold legalTarget; decide +kernel
/-- lc1 at 0, 1 and 2: the counts where the clauses meet. -/
theorem witness_LoopWords : guardOn hd State.reset = true ∧ (⟨1, 0, 4⟩ : FB).cond.toNat % 4 = 1 ∧ (State.reset.curBank.r.lc[1]).toNat ≤ 1 ∧
    ((State.reset.modBank 0 fun b => b.modR fun r => { r with lc := r.lc.set 1 1 }).curBank.r.lc[1]).toNat ≤ 1 ∧
    1 < ((State.reset.modBank 0 fun b => b.modR fun r => { r with lc := r.lc.set 1 2 }).curBank.r.lc[1]).toNat ∧
    (⟨1, 0, 4⟩ : FB).slot.toNat ≤ 4 ∧ 4 < (⟨1, 0, 5⟩ : FB).slot.toNat := by decide +kernel
theorem witness_ScalarFloatWords : guardOn hd State.reset = true ∧ (bodyS 1 2 3 0x8E).fn.toNat % 32 < 15 ∧
    (Mode.ofCode ((bodyS 1 2 3 0x8E).fn.toNat / 32 % 8)).isSome = true ∧ 15 ≤ (bodyS 1 2 3 15).fn.toNat % 32 ∧ 5 ≤ (bodyS 1 2 3 0xA0).fn.toNat / 32 % 8 := by decide +kernel
theorem witness_IllegalFormsTrap : guardOn hd State.reset = true ∧
    ([.mulh hd (bodyS 1 2 3 3), .bfx hd (bodyS 1 2 0 0xFC1), .bfi hd (bodyS 1 2 0 0xFC1), .cmp hd (bodyS 1 2 3 6), .cmpi hd ⟨1, 2, 0x300000⟩, .fop hd (bodyS 1 2 3 15),
      .br hd ⟨0, 0, 5⟩, .call hd ⟨0, 0, 5⟩, .lpbrk hd ⟨0, 0, 5⟩, .ld hd (bodyS 1 2 3 0x1C000), .st hd (bodyS 1 2 3 0x10000), .evtWait hd (bodyS 1 2 3 0x40),
      .spset hd (bodyS 1 2 0 0)] : List Instr).all (fun i => (illegalForm i).isSome) = true ∧ (bodyS 4 3 5 0x80).fn.toNat / 2 ^ 6 % 4 = 2 ∧
    (bodyS 4 3 5 0xA00).fn.toNat / 2 ^ 8 % 16 = 10 ∧ (bodyS 4 3 6 0x940).fn.toNat / 2 ^ 8 % 16 = 9 ∧ (bodyS 4 3 6 0x940).fn.toNat / 2 ^ 6 % 4 = 1 ∧
    (bodyS 4 5 7 0x33).fn.toNat / 2 ^ 4 % 4 = 3 ∧ ((State.reset.nonAbortable 0).curBank.r.hreg 3).readyAt ≤ State.reset.now ∧
    (bodyS 0 4 5 3).fn.toNat % 4 = 3 ∧ (priv0 run0).curBank.priv = true := by decide +kernel
theorem witness_MisalignedTargetsTrap : guardOn hd State.reset = true ∧ ¬ legalTarget ((withS run0 [(2, 0x14)]).curBank.r.sreg 2) ∧
    ¬ legalTarget ((withS run0 [(31, 0x1000000000000000)]).curBank.r.sreg 31) := by unfold legalTarget; decide +kernel
theorem witness_CsrWords : guardOn hd State.reset = true ∧ csrAccess 0x004 = some .rw ∧ csrAccess 0x103 = some .rwp ∧ csrAccess 0x202 = some .p ∧
    csrAccess 0x02F = some .ro ∧ (priv0 run0).curBank.priv = true ∧ csrRefuses (priv0 run0) 0 0x103 384 = false ∧ csrRefuses run0 0 0x000 5 = false := by decide +kernel
theorem witness_CsrTraps : guardOn hd State.reset = true ∧ csrAccess 0x005 = none ∧ csrAccess 0x203 = none ∧ csrAccess 0x200 = some .p ∧ csrAccess 0x183 = some .rwp ∧
    State.reset.curBank.priv = false ∧ Instr.csrw hd ⟨1, 2, 0x183⟩ ≠ .csrr hd ⟨1, 2, 0x183⟩ := by decide +kernel

/-- Hardware has set no flag in this cycle; QSLIP and LEASE are brought into their ranges. -/
theorem witness_CsrReadBack : (State.reset.bank 0).hw.stamp ≠ State.reset.now + 1 := by decide +kernel

def quota0 : State := State.reset.modBank 0 fun b => b.modCsr fun c => { c with spFirst := 0, spCount := 4 }
/-- Slot 3 is the last of the quota; format 10 and layout 4 are the last codes. -/
theorem witness_TagWords : guardOn hd quota0 = true ∧
    inQuota ((withS quota0 [(5, 3)]).tile 0) (withS quota0 [(5, 3)]).curBank ((withS quota0 [(5, 3)]).curBank.r.sreg 5).toNat = true ∧
    (bodyS 5 9 0 0x4A).fn.toNat % 16 ≤ 10 ∧ (bodyS 5 9 0 0x4A).fn.toNat / 16 % 8 ≤ 4 ∧ (0 : BitVec 17).getLsbD 0 = false ∧ (1 : BitVec 17).getLsbD 0 = true := by decide +kernel

/-- The last 8 bytes of the page, and a signed byte load. -/
theorem witness_LoadWord : let s := withS mem0 [(5, 65528)]
    let f := bodyS 4 3 5 0xC000
    guardOn hd s = true ∧ f.fn.toNat / 2 ^ 14 ≤ 6 ∧ accessOk s { rd := true } 3 (offsetOf s f) 8 ∧ noWatermark s 3 (offsetOf s f) 8 ∧
      memReady s 3 (accessPa s 3 (offsetOf s f)) ∧ (lineFor s 0 (accessPa s 3 (offsetOf s f) / 64)).2 = false := by
  unfold accessOk noWatermark memReady noLstep noWatch arraysSound pairClear; decide +kernel
theorem witness_LoadWord_sz6 : let f := bodyS 4 3 0 0x18000
    f.fn.toNat / 2 ^ 14 = 6 ∧ accessOk mem0 { rd := true } 3 (offsetOf mem0 f) 4 ∧ memReady mem0 3 (accessPa mem0 3 (offsetOf mem0 f)) := by
  unfold accessOk memReady noLstep noWatch arraysSound pairClear; decide +kernel
theorem witness_StoreWord : let f := bodyS 4 3 5 0xC000
    let s := withS mem0 [(5, 65528)]
    guardOn hd s = true ∧ f.fn.toNat / 2 ^ 14 ≤ 3 ∧ accessOk s { w := true } 3 (offsetOf s f) 8 ∧ noWatermark s 3 (offsetOf s f) 8 ∧ s.curBank.posted.length < 16 ∧
      (s.curBank.r.hreg 3).mig = false ∧ pairClear s.cur s (accessPa s 3 (offsetOf s f)) := by
  unfold accessOk noWatermark pairClear; decide +kernel
theorem witness_AtomicWords : let s := withS mem0 [(5, 65528), (6, 65532)]
    let need : Need := { rd := true, w := true }
    guardOn hd s = true ∧ accessOk s need 3 65528 8 ∧ noWatermark s 3 65528 8 ∧ memReady s 3 (accessPa s 3 65528) ∧ (lineNow s (accessPa s 3 65528 / 64)).2 = false ∧
      accessOk s need 3 65532 4 ∧ (bodyS 4 3 5 0x840).fn.toNat / 2 ^ 8 % 16 < 10 ∧ (bodyS 4 3 6 0x900).fn.toNat / 2 ^ 8 % 16 = 9 ∧
      (bodyS 4 5 7 0x23).fn.toNat / 2 ^ 4 % 4 < 3 := by unfold accessOk noWatermark memReady noLstep noWatch arraysSound pairClear; decide +kernel
/-- The forms: `ld` and `st` of 8 bytes, `amo` of 8 and the operation of 4 bytes only, `cas` of 8, `evt.sig`. -/
theorem witness_ScalarAccessTraps_forms : (bodyS 4 3 5 0xC000).fn.toNat / 2 ^ 14 ≤ 3 ∧ (bodyS 4 3 5 0x840).fn.toNat / 2 ^ 6 % 4 < 2 ∧
    (bodyS 4 3 5 0x840).fn.toNat / 2 ^ 8 % 16 < 10 ∧ (bodyS 4 3 6 0x900).fn.toNat / 2 ^ 8 % 16 = 9 ∧ (bodyS 4 3 6 0x900).fn.toNat / 2 ^ 6 % 4 = 0 ∧
    (bodyS 4 3 5 0x40).fn.getLsbD 6 = true ∧ (bodyS 4 5 7 0x23).fn.toNat / 2 ^ 4 % 4 < 3 ∧ (mem0.curBank.r.hreg 3).readyAt ≤ mem0.now := by decide +kernel
theorem witness_ScalarAccessTraps : let f := bodyS 4 3 5 0xC000
    guardOn hd mem0 = true ∧ f.fn.toNat / 2 ^ 14 ≤ 6 ∧ offsetOf (withS mem0 [(5, 65533)]) f % 8 ≠ 0 ∧ (run0.curBank.r.hreg 3).valid = false ∧
      (mem0.curBank.r.hreg 3).bytes ≤ offsetOf (withS mem0 [(5, 65536)]) f ∧
      ((withH run0 3 { page with rd := false }).curBank.r.hreg 3).rd = false ∧ ((withH run0 3 { page with w := false }).curBank.r.hreg 3).w = false ∧
      offsetOf (withS mem0 [(5, 65528)]) f < (mem0.curBank.r.hreg 3).bytes := by decide +kernel
theorem witness_FenceWords : guardOn hd State.reset = true ∧ State.reset.curBank.posted = [] ∧ (bodyS 0 0 0 0x101).fn.toNat % 2 ^ 8 ≠ 0 ∧
    (bodyS 0 0 0 0x101).fn.toNat / 2 ^ 8 % 2 ^ 8 ≠ 0 ∧ (∀ k, k < 8 → pathPending State.reset 0 k = false) ∧ (∀ q, queueBusy State.reset.curBank q = false) := by
  refine ⟨by decide +kernel, by decide +kernel, by decide, by decide, by decide +kernel, ?_⟩
  intro q; cases q <;> decide +kernel

/-- A leaf of a 64 KiB page (R104): V, KIND 0, RD, W and X set. -/
def tlb0 : State := run0.modTile 0 fun t => { t with tlb1 := [{ asid := 0, vpn := 1, level := 3, leaf := 0x11F, id := 0x8000 }] }
theorem witness_HandleWords : let s := withS tlb0 [(4, 0x10000)]
    guardOn hd s = true ∧ (s.curBank.r.sreg 4).toNat < 2 ^ 60 ∧ (tlb1Find s 0 0 0x10000).isSome = true ∧ s.curBank.f.walked = false ∧
      pteMST (s.pteNow 0x8000).1 < 2 ∧ homeHeld s (ptePa 0x8000 / 64) = false ∧ s.hub.filter.contains (ptePa 0x8000 / 64) = false ∧ ptePin (((s.pteNow 0x8000).2.releaseHandle 0 3).pteNow 0x8000).1 ≠ 4095 ∧
      (run0.curBank.r.hreg 3).readyAt ≤ run0.now := by decide +kernel
theorem witness_HandleWords_leaf : ∀ e ∈ (tlb1Find tlb0 0 0 0x10000).toList,
    pteKind e.leaf ≠ 3 ∧ ptePRV e.leaf = false ∧ pteRD e.leaf = true ∧ leafW e.leaf e.level = true ∧ pteX e.leaf = true ∧ e.level = 3 := by decide +kernel
theorem witness_HandleWords_pins : ((withH run0 3 { page with pinned := true }).curBank.r.hreg 3).pinned = true ∧ (mem0.curBank.r.hreg 3).pinned = false := by decide +kernel

/-! ## System words, traps and frames -/

def shadow0 : State := (priv0 run0).modCtx 0 fun c => { c with shadow := some {} }
def alloc5 : State := withS run0 [(4, 255), (5, 0xFFFFFFFF)]

theorem witness_SystemWords : guardOn hd (priv0 run0) = true ∧ (priv0 run0).curBank.priv = true ∧ (∀ q, queueBusy (priv0 run0).curBank q = false) ∧
    (priv0 run0).curBank.posted = [] ∧ (shadow0.ctx 0).shadow.isSome = true ∧ swapReady shadow0 ∧ shadow0.curBank.priv = true ∧
    run0.curBank.q.c.all (·.issued) = true ∧ (8 : BitVec 17).getLsbD 3 = true ∧ (4 : BitVec 17).toNat % 8 < 5 ∧
    (alloc5.curBank.r.sreg 4).toNat % 2 ^ 8 ≠ 0 ∧ (alloc5.curBank.r.sreg 5).toNat % 2 ^ 32 ≠ 0 := by
  refine ⟨by decide +kernel, by decide +kernel, ?_, by decide +kernel, by decide +kernel, ?_, by decide +kernel, by decide +kernel, by decide, by decide,
    by decide +kernel, by decide +kernel⟩
  · intro q; cases q <;> decide +kernel
  · unfold swapReady; decide +kernel
theorem witness_PrivilegedWordsTrap : guardOn hd run0 = true ∧ run0.curBank.priv = false ∧ (bodyS 0 0 0 2).fn.toNat % 4 = 2 := by decide +kernel

theorem witness_ContextImageWords_save : let s := withS shadow0 [(4, 0x10000)]
    guardOn hd s = true ∧ s.curBank.priv = true ∧ s.curBank.posted = [] ∧ (∀ l, lineHeld s s.cur l = false) ∧ (s.curBank.r.sreg 4).toNat % 2 ^ 16 = 0 ∧
      isLocal (s.curBank.r.sreg 4).toNat = true ∧ (s.ctx 0).shadow = some {} ∧ shadowQuiet s 0 {} = true ∧ s.hub.filter = [] ∧ noLstep s := by
  refine ⟨by decide +kernel, by decide +kernel, by decide +kernel, noneHeld _ _ (by decide +kernel) (by decide +kernel), by decide +kernel, by decide +kernel,
    by decide +kernel, by decide +kernel, by decide +kernel, ?_⟩
  unfold noLstep; decide +kernel

/-- An image of zeros but for its version, and an empty shadow bank. -/
def image0 : State := (withS (priv0 run0) [(4, 0x10000)]).modHub fun h => { h with mem := [(0x20000, 1)] }
def text0 (off len : Nat) : Nat × Array Byte := (off, (memRead image0.hub.mem (0x10000 + off) len).toArray)
def pieces0 : Pieces := [text0 0 0x2600, text0 0x2600 0, text0 0x6600 0, text0 0x8600 0, text0 0xA600 0, text0 0x10000 0x7080]

theorem image0_mem (a : Nat) (h : a ≠ 0x20000) : memGet image0.hub.mem a = 0 := by
  have e : image0.hub.mem = [(0x20000, 1)] := rfl
  rw [e]
  unfold memGet kvGet kvGet
  rw [if_neg (fun x => h x.symm)]
  split <;> rfl

/-- Every field of the image but its version holds 0. -/
def num0 (o n : Nat) : Nat := if o = 0x10000 ∧ n ≠ 0 then 1 else 0
theorem pieces0_num (o n : Nat) : pieces0.num o n = num0 o n := by
  unfold Pieces.num num0
  split
  · rename_i p h
    have m := List.mem_of_find?_eq_some h
    have c := List.find?_some h
    simp only [Bool.and_eq_true, decide_eq_true_eq] at c
    simp only [pieces0, text0, List.mem_cons, List.not_mem_nil, or_false] at m
    have z : p.1 ≠ 0x10000 → p.1 + p.2.size ≤ 0x10000 ∧ p.2.toList = memRead image0.hub.mem (0x10000 + p.1) p.2.size := by
      intro q
      rcases m with rfl | rfl | rfl | rfl | rfl | rfl <;> simp only [List.size_toArray, memRead_length] <;>
        first | exact absurd rfl q | exact ⟨by omega, trivial⟩
    have w : p.1 = 0x10000 → p.2.toList = memRead image0.hub.mem (0x10000 + p.1) 0x7080 ∧ p.2.size = 0x7080 := by
      intro q
      rcases m with rfl | rfl | rfl | rfl | rfl | rfl <;> first | (exact absurd q (by decide)) | exact ⟨rfl, by rw [List.size_toArray, memRead_length]⟩
    have sub : (p.2.extract (o - p.1) (o - p.1 + n)).toList = memRead image0.hub.mem (0x10000 + o) (min n (p.2.size - (o - p.1))) := by
      have l : p.2.toList = memRead image0.hub.mem (0x10000 + p.1) p.2.size := by
        by_cases q : p.1 = 0x10000
        · rw [(w q).1, (w q).2]
        · exact (z q).2
      have e : p.2.size = (o - p.1) + (p.2.size - (o - p.1)) := by omega
      rw [Array.toList_extract, List.extract_eq_take_drop, l, e, memRead_drop, Nat.add_sub_cancel_left, memRead_take, ← e,
        show 0x10000 + p.1 + (o - p.1) = 0x10000 + o by omega]
    rw [sub]
    by_cases q : p.1 = 0x10000
    · have e := (w q).2
      split
      · rename_i k
        obtain ⟨j, hj⟩ : ∃ j, min n (p.2.size - (o - p.1)) = j + 1 := ⟨min n (p.2.size - (o - p.1)) - 1, by omega⟩
        rw [hj, k.1]
        have t := leNat_zeros image0.hub.mem 0x20001 j fun i _ => image0_mem _ (by omega)
        change (memGet image0.hub.mem 0x20000).toNat + 256 * leNat (memRead image0.hub.mem 0x20001 j) = 1
        rw [t]
        rfl
      · rename_i k
        refine leNat_zeros _ _ _ fun i hi => image0_mem _ fun g => k ⟨by omega, by omega⟩
    · have e := (z q).1
      rw [if_neg (by omega)]
      exact leNat_zeros _ _ _ fun i hi => image0_mem _ (by omega)
  · rename_i h
    rw [if_neg]
    rintro ⟨rfl, -⟩
    have x := List.find?_eq_none.mp h (text0 0x10000 0x7080) (by simp [pieces0])
    simp [text0, memRead_length] at x

/-- The same of the header alone. -/
theorem head0_num (o n : Nat) (h : o < 0x2600) : Pieces.num [text0 0 0x2600] o n = 0 := by
  have e : pieces0.num o n = Pieces.num [text0 0 0x2600] o n := by
    have c : (decide ((text0 0 0x2600).1 ≤ o) && decide (o < (text0 0 0x2600).1 + (text0 0 0x2600).2.size)) = true := by
      simp [text0, memRead_length, h]
    simp only [Pieces.num, pieces0, List.find?_cons, c]
  rw [← e, pieces0_num, num0, if_neg (by omega)]

theorem image0_reaches (off len : Nat) (h : off + len ≤ 0x20000) : ∀ i, i < len → ∀ t, reaches t (0x10000 + off + i) = true := by
  intro i hi t
  have q : spaceOf (0x10000 + off + i) = .die0 := by unfold spaceOf; rw [if_pos (by omega)]
  unfold reaches
  rw [q]

theorem set_banks (z : AccTile) (i j : Nat) (v : BitVec 32) : (z.set i j v).banks = z.banks := rfl

/-- No tile of the image holds a bank, no channel is in use, and no handle is valid. -/
theorem tile0 (i : Nat) : (tileOfImage pieces0 i).banks = 0 := by
  have b : pieces0.num (0x11E00 + 16 * i + 1) 1 = 0 := by rw [pieces0_num, num0, if_neg (by omega)]
  have d : pieces0.num (0x11E00 + 16 * i + 2) 1 = 0 := by rw [pieces0_num, num0, if_neg (by omega)]
  have k (l : List Nat) (f : AccTile → Nat → AccTile) (h : ∀ z n, (f z n).banks = z.banks) (z : AccTile) : (l.foldl f z).banks = z.banks := by
    induction l generalizing z with
    | nil => rfl
    | cons n l ih => rw [List.foldl_cons, ih, h]
  simp only [tileOfImage, b, d]
  split
  · rfl
  · rw [k _ _ fun z n => set_banks z _ _ _]

/-- The image is read piece by piece, with no slot and no tile after it. -/
theorem image0_read : ∃ t, (readImage 0 0x10000).run.run image0 = (.ok pieces0, t) ∧ State.Calm image0 t := by
  have c : State.Calm image0 image0 := State.calm_self _ (by decide +kernel) (by decide +kernel) (by decide +kernel) (by decide +kernel)
  obtain ⟨t1, r1, c⟩ := c.piece 0 0x10000 (w64 0x10000) 0 0x2600 (image0_reaches _ _ (by omega))
  replace r1 : (readPiece 0 0x10000 (w64 0x10000) 0 0x2600).run.run image0 = (.ok (text0 0 0x2600), t1) := r1
  obtain ⟨t2, r2, c⟩ := c.piece 0 0x10000 (w64 0x10000) 0x2600 0 (image0_reaches _ _ (by omega))
  replace r2 : (readPiece 0 0x10000 (w64 0x10000) 0x2600 0).run.run t1 = (.ok (text0 0x2600 0), t2) := r2
  obtain ⟨t3, r3, c⟩ := c.piece 0 0x10000 (w64 0x10000) 0x6600 0 (image0_reaches _ _ (by omega))
  replace r3 : (readPiece 0 0x10000 (w64 0x10000) 0x6600 0).run.run t2 = (.ok (text0 0x6600 0), t3) := r3
  obtain ⟨t4, r4, c⟩ := c.piece 0 0x10000 (w64 0x10000) 0x8600 0 (image0_reaches _ _ (by omega))
  replace r4 : (readPiece 0 0x10000 (w64 0x10000) 0x8600 0).run.run t3 = (.ok (text0 0x8600 0), t4) := r4
  obtain ⟨t5, r5, c⟩ := c.piece 0 0x10000 (w64 0x10000) 0xA600 0 (image0_reaches _ _ (by omega))
  replace r5 : (readPiece 0 0x10000 (w64 0x10000) 0xA600 0).run.run t4 = (.ok (text0 0xA600 0), t5) := r5
  obtain ⟨t6, r6, c⟩ := c.piece 0 0x10000 (w64 0x10000) 0x10000 0x7080 (image0_reaches _ _ (by omega))
  replace r6 : (readPiece 0 0x10000 (w64 0x10000) 0x10000 0x7080).run.run t5 = (.ok (text0 0x10000 0x7080), t6) := r6
  have n1 : 1024 * min 16 (Pieces.num [text0 0 0x2600] 0x25 1) = 0 := by
    rw [head0_num _ _ (by decide)]
    rfl
  have n2 : 128 * min 64 (frameCount [text0 0 0x2600] .l) = 0 ∧ 128 * min 64 (frameCount [text0 0 0x2600] .c) = 0 ∧
    128 * min 64 (frameCount [text0 0 0x2600] .s) = 0 := by
    simp only [frameCount]
    rw [head0_num _ _ (by decide), head0_num _ _ (by decide), head0_num _ _ (by decide)]
    exact ⟨rfl, rfl, rfl⟩
  refine ⟨t6, ?_, c⟩
  have f : (readFrame 0 0x10000 (w64 0x10000)).run.run image0 = (.ok (pieces0.take 5), t5) := by
    unfold readFrame
    rw [run_bind_ok r1]
    dsimp only
    rw [n1, n2.1, n2.2.1, n2.2.2, run_bind_ok r2, run_bind_ok r3, run_bind_ok r4, run_bind_ok r5]
    rfl
  unfold readImage
  rw [run_bind_ok f, run_bind_ok r6]
  have p : pieces0.take 5 ++ [text0 0x10000 0x7080] = pieces0 := rfl
  have e1 : (privCsrs pieces0 {}).spCount.toNat = 0 := by simp only [privCsrs, pieces0_num]; rfl
  have e2 : (List.range 16).filter (fun i => let z := tileOfImage pieces0 i; z.banks != 0 && !z.disc) = [] := by
    rw [List.filter_eq_nil_iff]
    intro i _
    simp [tile0 i]
  change ((do
    let slots ← ((List.range (privCsrs pieces0 {}).spCount.toNat).filter fun i =>
      let t := SlotTag.ofBits (Pieces.num pieces0 (0x14400 + 8 * ((privCsrs pieces0 {}).spFirst.toNat + i)) 8); t.v && !t.d).mapM fun i =>
        readPiece 0 0x10000 (w64 0x10000) (0x18000 + 4096 * ((privCsrs pieces0 {}).spFirst.toNat + i)) 4096
    let tiles ← ((List.range 16).filter fun i => let z := tileOfImage pieces0 i; z.banks != 0 && !z.disc).mapM fun i =>
      readPiece 0 0x10000 (w64 0x10000) (0x198000 + 16384 * i) 16384
    return pieces0 ++ slots ++ tiles : M Pieces).run.run t6) = _
  rw [e1, e2]
  rfl

theorem witness_ContextImageWords_load : guardOn hd image0 = true ∧ image0.curBank.priv = true ∧ image0.curBank.posted = [] ∧ (image0.ctx 0).shadow = none ∧
    (∀ l, lineHeld image0 0 l = false) ∧ (image0.curBank.r.sreg 4).toNat = 0x10000 ∧ ∃ t, (readImage 0 0x10000).run.run image0 = (.ok pieces0, t) ∧
      let x := savedOf t pieces0
      rangesMeet ((t.bank 0).csr.spFirst.toNat, (t.bank 0).csr.spCount.toNat) (x.bank.csr.spFirst.toNat, x.bank.csr.spCount.toNat) = false ∧
      frameOk pieces0 = true ∧ pieces0.num 0x10000 4 = 1 ∧ savedMoves t 0 x = false ∧ loadFails (t.tile 0) x = none := by
  refine ⟨by decide +kernel, by decide +kernel, by decide +kernel, by decide +kernel, noneHeld _ _ (by decide +kernel) (by decide +kernel), by decide +kernel, ?_⟩
  obtain ⟨t, r, c⟩ := image0_read
  have b : t.bank 0 = image0.bank 0 := by simp only [State.bank, State.ctx, c.ctxs]
  have k : t.tile 0 = image0.tile 0 := by simp only [State.tile, c.tiles]
  have chans : (savedOf t pieces0).chans = [] := by
    simp only [savedOf, chanOfImage, copyAt, pieces0_num]
    rfl
  have slots : (savedOf t pieces0).slots = [] := by
    simp only [savedOf, slotsOfImage, bankAt, csrsAt, privCsrs, pieces0_num]
    rfl
  have banks : (savedOf t pieces0).bank.accBanks = 0 := by
    have k (l : List AccTile) (h : ∀ z ∈ l, z.banks = 0) (a : Nat) : l.foldl (fun a z => a + z.banks) a = a := by
      induction l generalizing a with
      | nil => rfl
      | cons z l ih => rw [List.foldl_cons, h z (List.mem_cons_self ..), ih fun y hy => h y (List.mem_cons_of_mem _ hy)]; rfl
    refine k _ (fun z hz => ?_) 0
    obtain ⟨i, rfl⟩ := Vector.mem_ofFn.mp (Vector.mem_toList_iff.mp hz)
    exact tile0 _
  refine ⟨t, r, ?_, ?_, pieces0_num _ _, ?_, ?_⟩
  · rw [b]
    simp only [savedOf, bankAt, csrsAt, privCsrs, pieces0_num]
    decide +kernel
  · simp only [frameOk, badFields, pieces0_num, frameCount, badEntry]
    decide +kernel
  · have q : (savedOf t pieces0).bank.q.l = [] ∧ (savedOf t pieces0).bank.q.c = [] ∧ (savedOf t pieces0).bank.q.s = [] := by
      simp only [savedOf, bankAt, entriesAt, frameCount, pieces0_num]
      exact ⟨rfl, rfl, rfl⟩
    have f : ((savedOf t pieces0).bank.tf.map TfSave.handles).getD [] = [] := by
      simp only [savedOf, bankAt, csrsAt, privCsrs, pieces0_num]
      rfl
    have hs : ((savedOf t pieces0).bank.r.h.toList ++ [(savedOf t pieces0).bank.h15save]).all (fun h => !h.valid) = true := by
      simp only [savedOf, bankAt, regsAt, handleOfAttr, pieces0_num]
      decide +kernel
    simp only [savedMoves, chans, q.1, q.2.1, q.2.2, f, List.flatMap_nil, List.append_nil, List.any_nil, Bool.or_false]
    rw [List.any_eq_false]
    intro h m
    have v := List.all_eq_true.mp hs h m
    rw [Bool.not_eq_true'] at v
    rw [v, Bool.false_and]
    exact Bool.false_ne_true
  · unfold loadFails
    rw [slots, banks, chans]
    rfl

/-- A queue with ring 0x20000, 8 entries, enabled. -/
def queue0 : State := (withS (withH run0 3 page) [(5, 128), (6, 256)]).modQd 7 fun d => { d with ring := 0x20000, size := 3, en := true, devok := true, tail := 7, head := 1 }
theorem witness_TaskAndEventWords_post : let d := queue0.qdesc 7
    guardOn hd queue0 = true ∧ d.en = true ∧ d.devok = true ∧ d.asid = queue0.curBank.csr.asid ∧ (queue0.curBank.r.sreg 5).toNat % 128 = 0 ∧
      accessOk queue0 { rd := true } 3 128 1 ∧ (d.tail.toNat + 1) % 2 ^ d.size.toNat ≠ d.head.toNat ∧ queue0.curBank.posted = [] ∧ queue0.hub.filter = [] ∧
      linesOpen queue0 (d.ring.toNat + 32 * d.tail.toNat) 32 ∧ noLstep queue0 := by
  unfold accessOk linesOpen noLstep; decide +kernel
theorem witness_TaskAndEventWords_quiet : apxOpen run0.curBank = false ∧ run0.curBank.smpOut = [] ∧ (∀ x ∈ ownChans run0 0, x.2.st ≠ .run ∧ x.2.st ≠ .fault) ∧
    run0.curBank.z.all (·.banks == 0) = true ∧ yieldsTo run0 0 = false ∧ run0.curBank.posted = [] := by decide +kernel
/-- A compute node of priority 3 that waits for a context, and a running instance of priority 0. -/
def pool0 : State :=
  (run0.modBank 0 fun b => { b with inst := some { node := 0 } }).modHub fun h =>
    { h with
      table := [{ id := 5, record := 0x800, queue := 0, body := BitVec.ofNat 1024 ((3 + 1 * 2 ^ 3) * 2 ^ (8 * 108)), st := .ready, total := 1 }]
      pool := [{ node := 5, index := 0, since := 0 }] }
theorem witness_TaskAndEventWords_yield : apxOpen pool0.curBank = false ∧ yieldsTo pool0 0 = true := by decide +kernel
theorem witness_TaskAndEventWords_wait : let s := mem0
    accessOk s { rd := true } 3 0 8 ∧ memReady s 3 (accessPa s 3 0) ∧ (lineFor (s.raisePts 0 (s.curBank.pts + s.curBank.csr.lease.toNat)) 0 (accessPa s 3 0 / 64)).2 = false ∧
      evtCond 0 (valueIn (lineFor (s.raisePts 0 (s.curBank.pts + s.curBank.csr.lease.toNat)) 0 (accessPa s 3 0 / 64)).1 (accessPa s 3 0) 8) 0 = true := by
  unfold accessOk memReady noLstep noWatch arraysSound pairClear; decide +kernel
theorem witness_TaskAndEventWords_wfe : mem0.curBank.f.sleep = none ∧ mem0.curBank.posted = [] ∧ (linesOf (accessPa mem0 3 8) 8).all (fun l => !lineHeld mem0 0 l) = true ∧ (wfeOver (mem0.modHub fun h => h) 0 { pa := 0x10000, since := 0, checked := 0, line := false } = true ∨
    wfeOver { mem0 with now := 2 ^ 40 } 0 { pa := 0x10000, since := 0, checked := 0, line := false } = true) := by decide +kernel

/-- A trap that waits, with a handler and a frame page that the tile's TLB holds. -/
def trap0 : State :=
  (((run0.modCtx 0 fun c => { c with status := .trapping }).modBank 0 fun b =>
    { b with
      trap := some { cls := 1, code := 0x40, info := 7, fq := 4, fidx := 0, fpc := 0x100, pc := 0x104, time := 0 }
      csr := { b.csr with trapvec := 0x200, framebase := 2 } }).modTile 0 fun t =>
    { t with tlb1 := [{ asid := 0, vpn := 2, level := 3, leaf := 0x0000000000020000#64 ||| 0x11F#64, id := 0x8000 }] })
theorem witness_TrapEntry : (trap0.ctx 0).status = .trapping ∧ (trap0.ctx 0).preempt = false ∧ (trap0.bank 0).trap.isSome = true ∧ (trap0.bank 0).csr.inh = false ∧
    drained (trap0.bank 0) 4 = true ∧ (trap0.bank 0).posted = [] ∧ (trap0.bank 0).csr.trapvec ≠ 0 ∧ (trap0.bank 0).csr.framebase ≠ 0 ∧
    (trap0.framePage 0).1.isSome = true ∧ (trap0.bank 0).c.mats = [] ∧ (trap0.bank 0).c.accOut = none ∧ (trap0.bank 0).pimRuns = [] ∧
    trap0.hub.filter = [] ∧ (((trap0.bank 0).inst.map (·.lstep)).getD false) = false ∧ ∀ l, lineHeld trap0 0 l = false := by
  iterate 14 refine ⟨by decide +kernel, ?_⟩
  exact noneHeld _ _ (by decide +kernel) (by decide +kernel)

/-- A handler's context, with a frame page of zeros. -/
def handler0 : State := (trap0.modCtx 0 fun c => { c with status := .running }).modBank 0 fun b => { b with trap := none, csr := { b.csr with inh := true } }
theorem witness_EretWord : handler0.curBank.csr.inh = true ∧ handler0.curBank.posted = [] ∧ (handler0.framePage 0).1.isSome = true ∧
    (linesOf (((handler0.framePage 0).1.map (·.1)).getD 0) 0xC600).all (fun l => !lineHeld (handler0.framePage 0).2.2 0 l) = true ∧ handler0.curBank.csr.mck = false ∧ run0.curBank.csr.inh = false := by decide +kernel
theorem witness_EretWord_frame :
    okRun (do let ps ← readFrame 0 0x20000 0; if frameOk ps ∧ ps.num 0x10 8 % 4 = 0 ∧ ps.num 0x10 8 % 32 < 20 then pure () else throw (.wait .other)) handler0 = true := by decide +kernel

/-! ## Queue words -/

/-- An entry of a word that is to run, with captured scalars and copies of one handle. -/
def ent (i : Instr) (a b c d : Word) (h : Handle := page) : Entry :=
  { word := word48 i, guard := true, sc := #v[a, b, c, d], cp := [(3, h), (3, h)] }

/-- The entry alone in its queue. -/
def qd (s : State) (q : QName) (e : Entry) : State := s.modBank 0 fun b => { b with q := b.q.set q [e] }

theorem headOf_of (q : QName) (i : Instr) (e : Entry) (s : State) (h : (s.curBank.q.get q).head? = some e)
    (k : e.word = word48 i ∧ e.pf = 0 ∧ (e.popped = true ∨ (s.curBank.q.pop q (tkOf e.word)).isSome = true)) : headOf q i e s :=
  ⟨by rcases List.head?_eq_some_iff.mp h with ⟨es, x⟩; exact ⟨es, x⟩, k⟩

theorem lsReady_of (q : QName) (i : Instr) (e : Entry) (s : State) (h : (s.curBank.q.get q).head? = some e)
    (k : e.word = word48 i ∧ e.pf = 0 ∧ (e.popped = true ∨ (s.curBank.q.pop q (tkOf e.word)).isSome = true))
    (n : e.guard = true ∧ e.skip = false ∧ s.curBank.posted = []) : lsReady q i e s := ⟨headOf_of q i e s h k, ⟨n.1, n.2.1⟩, n.2.2⟩

def moveW : Instr := .ldsp hd ⟨3, 0, 0, 0, 0, 0⟩
def offE : Entry := { ent moveW 0 0 0 0 with guard := false }
theorem witness_QueueWords_dispatch : queueOf moveW = some .l ∧ ((qd run0 .l (ent (.lnop hd 0) 0 0 0 0)).curBank.q.get .l).head? = some (ent (.lnop hd 0) 0 0 0 0) ∧
    (ent (.lnop hd 0) 0 0 0 0).word ≠ word48 moveW ∧ admitted (qd run0 .l (ent (.lnop hd 0) 0 0 0 0)) 0 .l moveW 1 = true ∧
    (qd run0 .l (ent (.lnop hd 0) 0 0 0 0)).apxGate 0 (word48 moveW) = none := by decide +kernel
theorem witness_QueueWords_skipped : headOf .l moveW offE (qd run0 .l offE) ∧ ¬ entryRuns offE := by
  refine ⟨headOf_of _ _ _ _ (by decide +kernel) (by decide +kernel), ?_⟩
  unfold entryRuns; decide
theorem witness_QueueWords_nop : headOf .l (.lnop hd 0) (ent (.lnop hd 0) 0 0 0 0) (qd run0 .l (ent (.lnop hd 0) 0 0 0 0)) ∧ run0.curBank.posted = [] :=
  ⟨headOf_of _ _ _ _ (by decide +kernel) (by decide +kernel), by decide +kernel⟩

/-- A context of ASID 0 whose quota is slots 0 to 3. -/
def lineS (_ : Instr) (q : QName) (e : Entry) : State := qd ((withH quota0 3 page).modCtx 0 fun c => { c with status := .running }) q e
def fillW : Instr := .spfill hd ⟨0, 1, 2, 0, 1, 0⟩
theorem witness_RunLengthWords : lsReady .l fillW (ent fillW 7 0 0 0) (lineS fillW .l (ent fillW 7 0 0 0)) ∧ (fmWord fillW).isSome = true ∧
    (repeatsRun .l (spfillRepeat 0 (ent fillW 7 0 0 0) ⟨0, 1, 2, 0, 1, 0⟩) 0 [0, 1]
      (lsStart .l (ent fillW 7 0 0 0) (lineS fillW .l (ent fillW 7 0 0 0)))).isSome = true :=
  ⟨lsReady_of _ _ _ _ (by decide +kernel) (by decide +kernel) (by decide +kernel), by decide +kernel, by decide +kernel⟩
theorem witness_LineMoves : let s := lineS moveW .l (ent moveW 0 0 0 0)
    let e := ent moveW 0 0 0 0
    let f : FM := ⟨3, 0, 0, 0, 0, 0⟩
    fmSpad e 0 = ((0 : Nat) : Int) ∧ spReady s 0 (fmBytes f) ∧ memClear s (copyPa e 0 (fmOffset e 0)) (fmBytes f) ∧
      watermarkHolds (s.tile 0) 0 true (vaOf (e.handle 0).2 (fmOffset e 0)) (fmBytes f) = false ∧ copyOk e 0 { rd := true } (fmOffset e 0) (fmBytes f) ∧
      copyOk e 0 { w := true } (fmOffset e 0) (fmBytes f) ∧ inPair (copyPa e 0 (fmOffset e 0)) = false ∧ (s.tile 0).l1 = [] := by
  unfold spReady spReadyAt memClear copyOk linesOpen noLstep noWatch arraysSound pairClear; decide +kernel

theorem ready_one (q : QName) (i : Instr) (e : Entry) (h : (((lineS i q e).curBank.q.get q).head? == some e) = true) (k : (e.word == word48 i && e.pf == 0) = true)
    (p : ((lineS i q e).curBank.q.pop q (tkOf e.word)).isSome = true) (n : (lineS i q e).curBank.posted.isEmpty = true) (g : (e.guard && !e.skip) = true) :
    lsReady q i e (lineS i q e) :=
  lsReady_of _ _ _ _ (eq_of_beq h) ⟨eq_of_beq (Bool.and_eq_true_iff.mp k).1, eq_of_beq (Bool.and_eq_true_iff.mp k).2, .inr p⟩
    (by simp only [Bool.and_eq_true, Bool.not_eq_true'] at g; exact ⟨g.1, g.2, List.isEmpty_iff.mp n⟩)

/-! Every form of the run-length words at its first repeat, in a quota of slots 0 to 3: lines in slots 1 and 2, an index table in slot 3. -/
def fmE (i : Instr) (ofs spa ix : Word) : Entry := ent i ofs spa 0 ix
def ldW : Instr := .ldsp hd ⟨3, 0, 0, 0, 0, 0⟩
def stW : Instr := .stsp hd ⟨3, 0, 0, 0, 0, 0⟩
def gaW : Instr := .ldspG hd ⟨3, 0, 0, 0, 0, 0⟩
def scW : Instr := .stspS hd ⟨3, 0, 0, 0, 0, 0⟩
def ltW : Instr := .ldspT hd ⟨3, 0, 0, 0, 0, 0⟩
def swW : Instr := .stspT hd ⟨3, 0, 0, 0, 0, 1⟩
def adW : Instr := .stspAdd hd ⟨3, 0, 0, 0, 0, 1⟩
def cyW : Instr := .spcopy hd ⟨0, 1, 2, 0, 0, 0⟩
def pfW : Instr := .prf hd ⟨3, 0, 0, 0, 0, 0⟩
theorem witness_RunLengthWords_ready : lsReady .l ldW (fmE ldW 0xFFC0 0x1FC0 0) (lineS ldW .l (fmE ldW 0xFFC0 0x1FC0 0)) ∧
    lsReady .s stW (fmE stW 0 0x1000 0) (lineS stW .s (fmE stW 0 0x1000 0)) ∧ lsReady .l gaW (fmE gaW 0 0x1000 0x3000) (lineS gaW .l (fmE gaW 0 0x1000 0x3000)) ∧
    lsReady .s scW (fmE scW 0 0x1000 0x3000) (lineS scW .s (fmE scW 0 0x1000 0x3000)) ∧ lsReady .l ltW (fmE ltW 0 0x1000 0) (lineS ltW .l (fmE ltW 0 0x1000 0)) ∧
    lsReady .s swW (fmE swW 0 0x1000 0) (lineS swW .s (fmE swW 0 0x1000 0)) ∧ lsReady .s adW (fmE adW 0 0x1000 0) (lineS adW .s (fmE adW 0 0x1000 0)) ∧
    lsReady .l cyW (fmE cyW 0x2000 0x1000 0) (lineS cyW .l (fmE cyW 0x2000 0x1000 0)) ∧ lsReady .l pfW (fmE pfW 0 0 0) (lineS pfW .l (fmE pfW 0 0 0)) := by
  refine ⟨?_, ?_, ?_, ?_, ?_, ?_, ?_, ?_, ?_⟩ <;>
    exact ready_one _ _ _ (by decide +kernel) (by decide +kernel) (by decide +kernel) (by decide +kernel) (by decide +kernel)
/-- The last line of the page and the last of slot 1. -/
theorem witness_RunLengthWords_move : let e := fmE ldW 0xFFC0 0x1FC0 0
    let f : FM := ⟨3, 0, 0, 0, 0, 0⟩
    moveReady e f { rd := true } (lineS ldW .l e) (fmOffset e 0) (fmSpad e 0) ∧ moveReady e f { w := true } (lineS stW .s e) (fmOffset e 0) (fmSpad e 0) := by
  unfold moveReady spReady spReadyAt memClear copyOk linesOpen noLstep noWatch arraysSound pairClear
  exact ⟨⟨by decide +kernel, by decide +kernel, by decide +kernel, by decide +kernel, 0x1FC0, by decide +kernel⟩,
    ⟨by decide +kernel, by decide +kernel, by decide +kernel, by decide +kernel, 0x1FC0, by decide +kernel⟩⟩
/-- An index of 0 names row 0, and 0xFFFF_FFFF names none. -/
theorem witness_RunLengthWords_gather : let e := fmE gaW 0 0x1000 0x3000
    let f : FM := ⟨3, 0, 0, 0, 0, 0⟩
    let s := lineS gaW .l e
    let t := s.modTile 0 fun x => { x with sp := memWrite x.sp 0x3000 [255, 255, 255, 255] }
    indexReady e s 0 ∧ indexNow s e 0 = 0 ∧ moveReady e f { rd := true, w := true } s (rowOffset e (indexNow s e 0)) (packedSpad e f 0) ∧
      indexReady e t 0 ∧ indexNow t e 0 = 0xFFFFFFFF ∧ spReady t (packedSpad e f 0) (fmBytes f) ∧ indexAddr e 0 / 4096 ∉ slotsOf (packedSpad e f 0) (fmBytes f) := by
  unfold moveReady indexReady spReady spReadyAt memClear copyOk linesOpen noLstep noWatch arraysSound pairClear
  exact ⟨by decide +kernel, by decide +kernel, ⟨by decide +kernel, by decide +kernel, by decide +kernel, by decide +kernel, 0x1000, by decide +kernel⟩,
    by decide +kernel, by decide +kernel, by decide +kernel, by decide +kernel⟩
/-- Lines, and the last layout. -/
theorem witness_RunLengthWords_tile : let e := fmE ltW 0 0x1000 0
    let s := lineS ltW .l e
    tileReady e ⟨3, 0, 0, 0, 0, 0⟩ { rd := true, w := true } s 0 ∧ tileReady e ⟨3, 0, 0, 0, 0, 2⟩ { rd := true, w := true } s 0 := by
  unfold tileReady spReady spReadyAt memClear copyOk linesOpen noLstep noWatch arraysSound pairClear
  exact ⟨⟨by decide, by decide, by decide +kernel, by decide +kernel, ⟨0x1000, by decide +kernel⟩, by decide +kernel⟩,
    ⟨by decide, by decide, by decide +kernel, by decide +kernel, ⟨0x1000, by decide +kernel⟩, by decide +kernel⟩⟩
theorem witness_RunLengthWords_add : let e := fmE adW 0 0x1000 0
    let s := lineS adW .s e
    moveReady e ⟨3, 0, 0, 0, 0, 1⟩ { rd := true, w := true } s (fmOffset e 0) (fmSpad e 0) ∧ checkSpFail (s.tile 0) s.curBank 0x1000 64 none (some 6) = none := by
  unfold moveReady spReady spReadyAt memClear copyOk linesOpen noLstep noWatch arraysSound pairClear
  exact ⟨⟨by decide +kernel, by decide +kernel, by decide +kernel, by decide +kernel, 0x1000, by decide +kernel⟩, by decide +kernel⟩

def chk (b : Bool) : M Unit := if b then pure () else throw (.wait .other)
/-- Memory that lists these bytes. -/
def memS (s : State) (l : Mem) : State := s.modHub fun h => { h with mem := l }

/-- A record of one entry at the start of the page: N = 1 (R175), and an entry of handle 3, one row of one line (R176). -/
def cpW : Instr := .cpLaunch hd ⟨3, 0, 0, 0⟩
def cpE : Entry := ent cpW 0 0 0 0
def cpS : State := memS (lineS cpW .l cpE) [(0x10000, 1), (0x1004C, 3)]
theorem witness_CopyWords_launch : lsReady .l cpW cpE cpS ∧ (cpS.chan 0 0).st = .idle ∧ okRun (do
    let x ← launchRecord 0 cpE
    chk (x.2.foldl (fun n x => n + cpEntryRows x * cpEntryLines x * 64) 0 ≤ 65536)) (lsStart .l cpE cpS) = true :=
  ⟨lsReady_of _ _ _ _ (by decide +kernel) (by decide +kernel) (by decide +kernel), by decide +kernel, by decide +kernel⟩
/-- Restart of a faulted channel with an entry left, and the words that change a channel: low and high of a watermark equal. -/
def cpRe : Instr := .cpLaunch hd ⟨3, 0, 0, 128⟩
theorem witness_CopyWords_others : let s := (lineS cpRe .l (ent cpRe 0 0 0 0)).modChan 0 0 fun c => { c with st := .fault, entries := [3] }
    lsReady .l cpRe (ent cpRe 0 0 0 0) s ∧ (s.chan 0 0).st = .fault ∧ (s.chan 0 0).next < (s.chan 0 0).entries.length :=
  ⟨lsReady_of _ _ _ _ (by decide +kernel) (by decide +kernel) (by decide +kernel), by decide +kernel, by decide +kernel⟩
theorem lsReady_one (q : QName) (i : Instr) (a b c d : Word) (h : (((lineS i q (ent i a b c d)).curBank.q.get q).head? == some (ent i a b c d)) = true)
    (k : ((lineS i q (ent i a b c d)).curBank.q.pop q (tkOf (word48 i))).isSome = true) (n : (lineS i q (ent i a b c d)).curBank.posted.isEmpty = true) :
    lsReady q i (ent i a b c d) (lineS i q (ent i a b c d)) :=
  lsReady_of _ _ _ _ (eq_of_beq h) ⟨rfl, rfl, .inr k⟩ ⟨rfl, rfl, List.isEmpty_iff.mp n⟩
theorem witness_CopyWords_adv : lsReady .l (.cpAdv hd ⟨0, 0, 0, 8⟩) (ent (.cpAdv hd ⟨0, 0, 0, 8⟩) 0 0 0 0) (lineS moveW .l (ent (.cpAdv hd ⟨0, 0, 0, 8⟩) 0 0 0 0)) :=
  lsReady_one _ _ _ _ _ _ (by decide +kernel) (by decide +kernel) (by decide +kernel)
theorem witness_CopyWords_advs : lsReady .s (.cpAdvs hd ⟨0, 0, 0, 8⟩) (ent (.cpAdvs hd ⟨0, 0, 0, 8⟩) 0 0 0 0) (lineS moveW .s (ent (.cpAdvs hd ⟨0, 0, 0, 8⟩) 0 0 0 0)) :=
  lsReady_one _ _ _ _ _ _ (by decide +kernel) (by decide +kernel) (by decide +kernel)
theorem witness_CopyWords_arm : lsReady .l (.cpArm hd ⟨0, 0, 0, 0⟩) (ent (.cpArm hd ⟨0, 0, 0, 0⟩) 64 64 0 0) (lineS moveW .l (ent (.cpArm hd ⟨0, 0, 0, 0⟩) 64 64 0 0)) ∧
    ((ent (.cpArm hd ⟨0, 0, 0, 0⟩) 64 64 0 0).s 0).toNat ≤ ((ent (.cpArm hd ⟨0, 0, 0, 0⟩) 64 64 0 0).s 1).toNat :=
  ⟨lsReady_one _ _ _ _ _ _ (by decide +kernel) (by decide +kernel) (by decide +kernel), by decide +kernel⟩
theorem witness_CopyWords_cancel : lsReady .l (.cpCancel hd ⟨0, 0, 0, 8⟩) (ent (.cpCancel hd ⟨0, 0, 0, 8⟩) 0 0 0 0) (lineS moveW .l (ent (.cpCancel hd ⟨0, 0, 0, 8⟩) 0 0 0 0)) :=
  lsReady_one _ _ _ _ _ _ (by decide +kernel) (by decide +kernel) (by decide +kernel)

/-! A sequence of one layer, one head and dimension 16 (R272): descriptor at the start of the page, table at 0x18000, pool at 0x19000
with one free curd and one free wheel. -/
def seqMem : Mem := [(0x10001, 0x80), (0x10002, 1), (0x1000C, 1), (0x1000E, 1), (0x1000F, 1), (0x10011, 0x90), (0x10012, 1), (0x18010, 4), (0x19000, 1), (0x19004, 1), (0x19008, 1),
  (0x1900C, 1), (0x19011, 0xA0), (0x19012, 1), (0x19019, 0xB0), (0x1901A, 1), (0x1A001, 0xC0), (0x1A002, 1), (0x1B001, 0xD0), (0x1B002, 1)]
/-- The same with 512 positions in a wheel sealed and one not: LEN = 512, W = 1. -/
def longMem : Mem := [(0x10001, 0x80), (0x10002, 1), (0x1000C, 1), (0x1000E, 1), (0x1000F, 1), (0x10011, 0x90), (0x10012, 1), (0x18001, 2), (0x18003, 1), (0x18010, 4),
  (0x19000, 1), (0x19004, 1), (0x19008, 1), (0x1900C, 1), (0x19011, 0xA0), (0x19012, 1), (0x19019, 0xB0), (0x1901A, 1), (0x1A001, 0xC0), (0x1A002, 1), (0x1B001, 0xD0), (0x1B002, 1)]
def kvE (i : Instr) (b c : Word) : Entry := ent i 0 b c 0
def kvS (m : Mem) (i : Instr) (q : QName) (b c : Word) : State := memS (lineS i q (kvE i b c)) m

theorem witness_KeyValueWords : kvQuiet (kvS seqMem moveW .s 0 0) ∧ noLstep (kvS seqMem moveW .s 0 0) := by unfold kvQuiet noLstep; decide +kernel
/-- 64 positions of a wheel: the clause's ranges lie in slots 0 to 3. -/
def getI : Instr := .kvGet hd ⟨3, 0, 0, 0⟩
theorem witness_KeyValueWords_get : lsReady .l getI (kvE getI (0x1000 * 2 ^ 21 + 0x3000 * 2 ^ 42) (64 * 2 ^ 48)) (kvS longMem getI .l (0x1000 * 2 ^ 21 + 0x3000 * 2 ^ 42) (64 * 2 ^ 48)) ∧
    okRun (kvGetBody ⟨3, 0, 0, 0⟩ (word48 getI) 0 (kvE getI (0x1000 * 2 ^ 21 + 0x3000 * 2 ^ 42) (64 * 2 ^ 48)))
      (lsStart .l (kvE getI (0x1000 * 2 ^ 21 + 0x3000 * 2 ^ 42) (64 * 2 ^ 48)) (kvS longMem getI .l (0x1000 * 2 ^ 21 + 0x3000 * 2 ^ 42) (64 * 2 ^ 48))) = true :=
  ⟨lsReady_of _ _ _ _ (by decide +kernel) (by decide +kernel) (by decide +kernel), by decide +kernel⟩
def putI : Instr := .kvPut hd ⟨3, 0, 0, 0⟩
theorem witness_KeyValueWords_put : lsReady .s putI (kvE putI 0 0) (kvS seqMem putI .s 0 0) ∧
    okRun (kvPutBody ⟨3, 0, 0, 0⟩ (word48 putI) 0 (kvE putI 0 0)) (lsStart .s (kvE putI 0 0) (kvS seqMem putI .s 0 0)) = true :=
  ⟨lsReady_of _ _ _ _ (by decide +kernel) (by decide +kernel) (by decide +kernel), by decide +kernel⟩
def provI : Instr := .kvPutProvisional hd ⟨3, 0, 0, 0x10⟩
theorem witness_KeyValueWords_provisional : lsReady .s provI (kvE provI 0 0) (kvS seqMem provI .s 0 0) ∧ okRun (do
    let x ← putChecks ⟨3, 0, 0, 0x10⟩ (word48 provI) true 0 (kvE provI 0 0)
    chk (x.1.closing == false)
    setPend 0 x.1 (x.1.pend + 1)) (lsStart .s (kvE provI 0 0) (kvS seqMem provI .s 0 0)) = true :=
  ⟨lsReady_of _ _ _ _ (by decide +kernel) (by decide +kernel) (by decide +kernel), by decide +kernel⟩
def squashI : Instr := .kvSquash hd ⟨3, 0, 0, 0⟩
theorem witness_KeyValueWords_squash : lsReady .s squashI (kvE squashI 0 0) (kvS seqMem squashI .s 0 0) ∧ okRun (do
    let d ← descChecks 0 .s { w := true } 3 page 0
    setClosing 0 d true
    cancelHidden (BitVec.ofNat 52 d.pa) []
    let d' ← readDesc 0 d.pa
    chk (d'.pend == 0)
    setSid 0 d' ((d'.sid + 1) % 2 ^ 32)
    setClosing 0 d' false) (lsStart .s (kvE squashI 0 0) (kvS seqMem squashI .s 0 0)) = true :=
  ⟨lsReady_of _ _ _ _ (by decide +kernel) (by decide +kernel) (by decide +kernel), by decide +kernel⟩
def pressI : Instr := .kvPress hd ⟨3, 0, 0, 0⟩
/-- Wheel 1 of 256 to 511 can be pressed where it is the one expected, and not where wheel 0 is. -/
theorem witness_KeyValueWords_press : lsReady .l pressI (kvE pressI 0x10000 0) (kvS longMem pressI .l 0x10000 0) ∧ okRun (do
    let d ← descChecks 0 .l { w := true } 3 page 0
    let t := d.table 0
    chk ((← kvNum 0 (t + 13) 1) % 2 == 0 && (← dcnt 0 t) ≤ 16)
    let st ← readState 0 t
    chk (st.w == pressExpected ((kvE pressI 0x10000 0).s 1) && st.w != pressExpected 0 && 256 * st.w + 256 ≤ st.len && st.w < (← wcap 0 t) && (← freeBlocks 0 d true) != 0)
    let _ ← popBlock 0 d true
    kvSet 0 (t + 13) 1 1) (lsStart .l (kvE pressI 0x10000 0) (kvS longMem pressI .l 0x10000 0)) = true :=
  ⟨lsReady_of _ _ _ _ (by decide +kernel) (by decide +kernel) (by decide +kernel), by decide +kernel⟩
def foldI : Instr := .kvFold hd ⟨3, 0, 0, 0⟩
theorem witness_KeyValueWords_fold : lsReady .l foldI (kvE foldI 0 0) (kvS longMem foldI .l 0 0) ∧ okRun (do
    let d ← descChecks 0 .l { w := true } 3 page 0
    chk ((← dcnt 0 (d.table 0)) ≤ 31)
    let st ← readState 0 (d.table 0)
    chk (st.fw == pressExpected 0 && st.fw < st.w)) (lsStart .l (kvE foldI 0 0) (kvS longMem foldI .l 0 0)) = true :=
  ⟨lsReady_of _ _ _ _ (by decide +kernel) (by decide +kernel) (by decide +kernel), by decide +kernel⟩

/-! ## Words of the bank engines, quantisation, collectives, events and tasks -/

def lsE (i : Instr) (q : QName) (a b c : Word) (m : Mem) : Entry × State := (ent i a b c 0, memS (lineS i q (ent i a b c 0)) m)

def pimI : Instr := .pimCfg hd ⟨0, 0, 0, 0⟩
/-- K = 4096 is the last of an 8-bit format; 48 elements in planes fit. -/
theorem witness_EngineWords_pimCfg : lsReady .l pimI (ent pimI 0 4096 0 0) (lineS pimI .l (ent pimI 0 4096 0 0)) ∧ pimKOk 0 0 4096 = true ∧ pimKOk 0 0 4097 = false ∧
    pimKOk 3 8 48 = true ∧ spReady (lineS pimI .l (ent pimI 0 4096 0 0)) 0 8192 ∧
    checkSpFail ((lineS pimI .l (ent pimI 0 4096 0 0)).tile 0) (lineS pimI .l (ent pimI 0 4096 0 0)).curBank 0 8192 (some 0) (some 3) = none := by
  refine ⟨lsReady_of _ _ _ _ (by decide +kernel) (by decide +kernel) (by decide +kernel), by decide, by decide, by decide, ?_, by decide +kernel⟩
  unfold spReady spReadyAt; decide +kernel
def mvI : Instr := .pimMv hd ⟨3, 0, 0, 0⟩
def mvE : Entry := ent mvI 0 0 2 0 { page with size := 1 }
def mvS : State := (lineS mvI .l mvE).modBank 0 fun b => { b with pim := { b.pim with valid := true, k := 1 } }
theorem witness_EngineWords_pimMv : lsReady .l mvI mvE mvS ∧ okRun (do
    mvChecks ⟨3, 0, 0, 0⟩ (word48 mvI) 0 mvE
    mvPin 0 mvE
    discard <| askGrant 0 1 (mvUnits (copyPa mvE 0 0) 2)) (lsStart .l mvE mvS) = true :=
  ⟨lsReady_of _ _ _ _ (by decide +kernel) (by decide +kernel) (by decide +kernel), by decide +kernel⟩
/-- A descriptor: FP32 in scratchpad to INT8, blocks of 16, one row of 16. -/
def qzMem0 : Mem := [(0x10001, 8), (0x10002, 16), (0x10004, 1), (0x10006, 16), (0x1000D, 1), (0x10011, 16), (0x10019, 1), (0x10021, 32)]
def qzI : Instr := .qzRun hd ⟨3, 0, 0, 0⟩
def qzS : State := (memS (lineS qzI .l (ent qzI 0 0 0 0)) qzMem0).modTile 0 fun t => { t with tags := t.tags.set 0 { t.tags[0] with v := true, fmt := 1 } }
theorem witness_EngineWords_qzRun : lsReady .l qzI (ent qzI 0 0 0 0) qzS ∧ okRun (do
    let pa ← translateRange { rd := true } 3 page 0 64
    let d := BitVec.ofNat 512 (leNat (← recordRead 0 page false 0 pa 1))
    chk (qzBad d == none)
    let fp32 ← qzSource 0 d
    let (r, n) := qzShape d ((← getB 0).tileZ 0)
    discard <| qzDests 0 d r n
    qzWaits 0 d fp32 r n
    requestUnits 0 4 1
    discard <| takeUnits 0 4 1) (lsStart .l (ent qzI 0 0 0 0) qzS) = true :=
  ⟨lsReady_of _ _ _ _ (by decide +kernel) (by decide +kernel) (by decide +kernel), by decide +kernel⟩
def barI : Instr := .collBar hd ⟨3, 0, 0, 0⟩
theorem witness_EngineWords_collBar : lsReady .l barI (ent barI 0 0 0 0) (memS (lineS barI .l (ent barI 0 0 0 0)) [(0x10000, 2)]) ∧ okRun (do
    let pa ← translateRange { rd := true, w := true } 3 page 0 64
    let nr ← collField 0 (BitVec.ofNat 52 pa) 0 4
    chk (decide (1 ≤ nr ∧ nr ≤ 512))
    requestUnits 0 3 1
    discard <| takeUnits 0 3 1) (lsStart .l (ent barI 0 0 0 0) (memS (lineS barI .l (ent barI 0 0 0 0)) [(0x10000, 2)])) = true :=
  ⟨lsReady_of _ _ _ _ (by decide +kernel) (by decide +kernel) (by decide +kernel), by decide +kernel⟩
theorem witness_EngineWords_released : lsReady .l barI { ent barI 0 0 0 0 with mpc := 1 } (lineS barI .l { ent barI 0 0 0 0 with mpc := 1 }) :=
  lsReady_of _ _ _ _ (by decide +kernel) (by decide +kernel) (by decide +kernel)
def sumI : Instr := .collBsum hd ⟨3, 0, 0, 0⟩
theorem witness_EngineWords_collBsum : let e := ent sumI 0 (0x1000 * 2 ^ 21) 1 0
    bsumN e = 1 ∧ spReadyAt 0 (lineS sumI .l e) (bsumSrc e) (256 * bsumN e) ∧ okRun (bsumChecks 0 (word48 sumI) e) (lsStart .l e (lineS sumI .l e)) = true := by
  unfold spReadyAt; decide +kernel
def sigI : Instr := .evtSigs hd ⟨3, 0, 0, 0x10⟩
theorem witness_EngineWords_evtSigs : let e := ent sigI 65528 1 0 0
    let s := lineS sigI .s e
    lsReady .s sigI e s ∧ s.curBank.q.fly.any (fun x => x.q == .s && !x.done) = false ∧ copyOk e 0 { rd := true, w := true } 65528 8 ∧
      memClear s (copyPa e 0 65528) 8 ∧ (lineNow s (copyPa e 0 65528 / 64)).2 = false := by
  refine ⟨lsReady_of _ _ _ _ (by decide +kernel) (by decide +kernel) (by decide +kernel), by decide +kernel, ?_, ?_, by decide +kernel⟩
  · unfold copyOk; decide +kernel
  · unfold memClear linesOpen noLstep noWatch arraysSound pairClear; decide +kernel
def postI : Instr := .taskPosts hd ⟨3, 0, 0, 0x70⟩
def postS : State := (lineS postI .s (ent postI 128 1 0 0)).modQd 7 fun d => { d with ring := 0x20000, size := 3, en := true, devok := true, tail := 6, head := 0 }
theorem witness_EngineWords_taskPosts : lsReady .s postI (ent postI 128 1 0 0) postS ∧ (postS.qdesc 7).en = true ∧ (postS.qdesc 7).devok = true ∧
    (postS.qdesc 7).asid = postS.curBank.csr.asid ∧ ((postS.qdesc 7).tail.toNat + 1) % 2 ^ (postS.qdesc 7).size.toNat ≠ (postS.qdesc 7).head.toNat ∧
    copyOk (ent postI 128 1 0 0) 0 { rd := true } 128 1 ∧ postS.hub.filter = [] ∧ noLstep postS ∧
    linesOpen postS ((postS.qdesc 7).ring.toNat + 32 * (postS.qdesc 7).tail.toNat) 32 := by
  refine ⟨lsReady_of _ _ _ _ (by decide +kernel) (by decide +kernel) (by decide +kernel), by decide +kernel, by decide +kernel, by decide +kernel, by decide +kernel, ?_, by decide +kernel, ?_, ?_⟩
  · unfold copyOk; decide +kernel
  · unfold noLstep; decide +kernel
  · unfold linesOpen; decide +kernel

/-! ## Words of the C queue -/

/-- Named registers n0 to n2 of FP32, n3 to n5 of INT32, n6 of UINT8, n7 of INT16, n8 of IDX, n9 of BF16. -/
def regsC (b : Bank) : Bank :=
  b.modR fun r => ([(0, Tag.fp32), (1, .fp32), (2, .fp32), (3, .int32), (4, .int32), (5, .int32), (6, .uint8), (7, .int16), (8, .idx), (9, .bf16)] : List (BitVec 4 × Tag)).foldl
    (fun r x => r.setN x.1 { bits := 0x3F8000003F800000, tag := x.2 }) r
def cS (e : Entry) : State := qd ((withH quota0 3 page).modCtx 0 fun c => { c with status := .running, b := regsC c.b }) .c e
def cReg : Regs := (regsC State.reset.curBank).r
def fv (a b c va fm : Nat) : FV := ⟨0, 1, BitVec.ofNat 5 (16 + a), BitVec.ofNat 5 (16 + b), BitVec.ofNat 5 (16 + c), 0, 0, BitVec.ofNat 4 va, BitVec.ofNat 4 fm⟩

theorem cReady_of (i : Instr) (e : Entry) (s : State) (h : (s.curBank.q.get .c).head? = some e)
    (k : e.word = word48 i ∧ e.pf = 0 ∧ (e.popped = true ∨ (s.curBank.q.pop .c (tkOf e.word)).isSome = true))
    (n : let z := s.claimEngine s.cur
      let b := z.bank s.cur
      b.c.phase = .alone ∧ z.cFrozen s.cur = false ∧ b.c.vhold = 0 ∧ b.c.accOut = none ∧ (b.c.draining = false ∨ cBusy b = false) ∧
        replayFirst b e = false) : cReady i e s := ⟨headOf_of .c i e s h k, n⟩

def addI : Instr := .vadd hd (fv 0 1 0 0 0)
theorem witness_ArithmeticLanes : cRuns addI (ent addI 0 0 0 0) (cS (ent addI 0 0 0 0)) :=
  ⟨cReady_of _ _ _ (by decide +kernel) (by decide +kernel) (by decide +kernel), rfl, rfl⟩
theorem witness_ArithmeticLanes_table : ([.vadd hd (fv 0 1 0 0 0), .vsub hd (fv 3 4 0 1 0), .vmul hd (fv 9 9 0 0 0), .vfma hd (fv 0 1 2 0 0), .vfma hd (fv 3 4 5 0 0), .vmin hd (fv 6 6 0 0 0),
    .vmax hd (fv 8 8 0 0 0), .vclamp hd (fv 3 4 5 0 0), .vabs hd (fv 3 0 0 0 0), .vneg hd (fv 0 0 0 0 0), .vrnd hd (fv 0 0 0 4 0)] : List Instr).all
    (fun i => (arithLane i cReg).isSome) = true := by decide +kernel
theorem witness_BitwiseLanes_table : ([.vand hd (fv 0 1 0 1 0), .vor hd (fv 3 4 0 0 0), .vxor hd (fv 6 6 0 0 0), .vshl hd (fv 3 4 0 0 0), .vshr hd (fv 6 6 0 0 0), .vsra hd (fv 7 7 0 0 0),
    .vperm hd (fv 0 1 8 0 0), .vshuf hd (fv 0 1 0 5 0)] : List Instr).all (fun i => (bitLane i cReg).isSome) = true := by decide +kernel
theorem witness_FunctionLanes_table : ([.vrcp hd (fv 0 0 0 0 0), .vrsqrt hd (fv 9 0 0 0 0), .vsqrt hd (fv 0 0 0 0 0), .vexp2 hd (fv 0 0 0 0 0), .vlog2 hd (fv 0 0 0 0 0), .vsig hd (fv 0 0 0 0 0),
    .vtanh hd (fv 0 0 0 0 0), .linFeat hd (fv 0 0 0 0 0), .vscale hd (fv 0 3 0 12 0), .vpack hd (fv 3 4 0 0 0), .vpack hd (fv 7 7 0 1 0), .vunpk hd (fv 7 0 0 1 0), .vunpk hd (fv 6 0 0 0 0),
    .vclass hd (fv 9 0 0 0 0)] : List Instr).all (fun i => (functionLane i cReg).isSome) = true := by decide +kernel
theorem witness_AttentionWords_table : ([.smxResc hd (fv 0 1 2 0 0), .linPart hd (fv 0 9 0 0 0), .rope hd (fv 0 1 2 0 0)] : List Instr).all
    (fun i => (attentionLane i cReg).isSome) = true := by decide +kernel
def offC : Entry := { ent addI 0 0 0 0 with guard := false }
theorem witness_SkippedWords : cReady addI offC (cS offC) ∧ ¬ entryRuns offC ∧ skipLatency addI (cRegs (cS offC)) = some (some 4) := by
  refine ⟨cReady_of _ _ _ (by decide +kernel) (by decide +kernel) (by decide +kernel), ?_, by decide +kernel⟩
  unfold entryRuns; decide
/-- Any C word at the head of the queue of an idle context, with tokens of class 0, is to run. -/
theorem cRuns_one (i : Instr) (a b c d : Word) (h : ((cS (ent i a b c d)).curBank.q.get .c).head? = some (ent i a b c d))
    (k : ((cS (ent i a b c d)).curBank.q.pop .c (tkOf (word48 i))).isSome = true)
    (n : let z := (cS (ent i a b c d)).claimEngine 0
      let c := (z.bank 0).c
      c.phase = .alone ∧ z.cFrozen 0 = false ∧ c.vhold = 0 ∧ c.accOut = none ∧ (c.draining = false ∨ cBusy (z.bank 0) = false))
    (r : replayFirst (((cS (ent i a b c d)).claimEngine 0).bank 0) (ent i a b c d) = false) :
    cRuns i (ent i a b c d) (cS (ent i a b c d)) :=
  ⟨cReady_of _ _ _ h ⟨rfl, rfl, .inr k⟩ ⟨n.1, n.2.1, n.2.2.1, n.2.2.2.1, n.2.2.2.2, r⟩, rfl, rfl⟩

theorem cReg_now : let r := cRegs (cS (ent addI 0 0 0 0))
    (r.vec 16).tag = .fp32 ∧ (r.vec 17).tag = .fp32 ∧ (r.vec 19).tag = .int32 ∧ (r.vec 20).tag = .int32 ∧ (r.vec 22).tag = .uint8 ∧ (r.vec 24).tag = .idx ∧
      (r.vec 31).tag = .empty := by decide +kernel

/-- `vsel`, `vcmp` with the last condition, `mset` with the last function, `vcvt` narrowing to its last part. -/
theorem witness_BitwiseLanes_words : cRuns (.vsel hd (fv 0 1 0 0 0)) (ent (.vsel hd (fv 0 1 0 0 0)) 0 0 0 0) (cS (ent (.vsel hd (fv 0 1 0 0 0)) 0 0 0 0)) ∧
    cRuns (.vcmp hd (fv 0 1 0 6 9)) (ent (.vcmp hd (fv 0 1 0 6 9)) 0 0 0 0) (cS (ent (.vcmp hd (fv 0 1 0 6 9)) 0 0 0 0)) ∧
    cRuns (.mset hd (fv 0 1 0 7 1)) (ent (.mset hd (fv 0 1 0 7 1)) 0 0 0 0) (cS (ent (.mset hd (fv 0 1 0 7 1)) 0 0 0 0)) ∧ (fv 0 1 0 7 1).me = 0 ∧ (fv 0 1 0 6 9).var.toNat ≤ 6 :=
  ⟨cRuns_one _ _ _ _ _ (by decide +kernel) (by decide +kernel) (by decide +kernel) (by decide +kernel),
    cRuns_one _ _ _ _ _ (by decide +kernel) (by decide +kernel) (by decide +kernel) (by decide +kernel),
    cRuns_one _ _ _ _ _ (by decide +kernel) (by decide +kernel) (by decide +kernel) (by decide +kernel), by decide, by decide⟩
def cvtF : FV := { fv 3 0 0 8 5 with sc := 0 }
theorem witness_FunctionLanes_convert : cRuns (.vcvt hd cvtF) (ent (.vcvt hd cvtF) 0 0 0 0) (cS (ent (.vcvt hd cvtF) 0 0 0 0)) ∧
    (Mode.ofCode (cvtF.var.toNat % 8)).isSome = true ∧ (Tag.ofCode cvtF.fmt.toNat).isSome = true ∧ anyData (cReg.vec cvtF.sa).tag = true :=
  ⟨cRuns_one _ _ _ _ _ (by decide +kernel) (by decide +kernel) (by decide +kernel) (by decide +kernel), by decide +kernel, by decide +kernel, by decide +kernel⟩
theorem witness_ReducingWords : tagArith (cReg.vec 16).tag = true ∧ (cReg.vec 22).tag.width = 8 ∧ (cReg.vec 19).tag = .int32 ∧ tagFloat3 (cReg.vec 25).tag = true ∧
    cRuns (.vredsum hd (fv 0 0 0 0 0)) (ent (.vredsum hd (fv 0 0 0 0 0)) 0 0 0 0) (cS (ent (.vredsum hd (fv 0 0 0 0 0)) 0 0 0 0)) ∧
    cRuns (.vdot4 hd (fv 6 6 3 0 0)) (ent (.vdot4 hd (fv 6 6 3 0 0)) 0 0 0 0) (cS (ent (.vdot4 hd (fv 6 6 3 0 0)) 0 0 0 0)) ∧
    cRuns (.argmax hd (fv 8 0 0 0 0)) (ent (.argmax hd (fv 8 0 0 0 0)) 0 0 0 0) (cS (ent (.argmax hd (fv 8 0 0 0 0)) 0 0 0 0)) :=
  ⟨by decide +kernel, by decide +kernel, by decide +kernel, by decide +kernel,
    cRuns_one _ _ _ _ _ (by decide +kernel) (by decide +kernel) (by decide +kernel) (by decide +kernel),
    cRuns_one _ _ _ _ _ (by decide +kernel) (by decide +kernel) (by decide +kernel) (by decide +kernel),
    cRuns_one _ _ _ _ _ (by decide +kernel) (by decide +kernel) (by decide +kernel) (by decide +kernel)⟩
def fetI : Instr := .vfetch hd (fv 0 0 0 0 1)
theorem witness_BeltWords_fetch : cRuns fetI (ent fetI 0 0 0 0) (cS (ent fetI 0 0 0 0)) ∧ spReadyAt 0 (cStart (cS (ent fetI 0 0 0 0))) 0 256 ∧
    bankClash (cStart (cS (ent fetI 0 0 0 0))).curBank 0 256 = none := by
  refine ⟨cRuns_one _ _ _ _ _ (by decide +kernel) (by decide +kernel) (by decide +kernel) (by decide +kernel), ?_, by decide +kernel⟩
  unfold spReadyAt; decide +kernel
def storeI : Instr := .vput hd (fv 0 0 0 15 0)
theorem witness_BeltWords_put : cRuns storeI (ent storeI 0 0 0 0) (cS (ent storeI 0 0 0 0)) ∧ spReadyAt 0 (cStart (cS (ent storeI 0 0 0 0))) 0xF00 256 ∧
    checkSpFail ((cStart (cS (ent storeI 0 0 0 0))).tile 0) (cStart (cS (ent storeI 0 0 0 0))).curBank 0xF00 256 none (some Tag.fp32.code) = none ∧
    bankClash (cStart (cS (ent storeI 0 0 0 0))).curBank 0xF00 256 = none := by
  refine ⟨cRuns_one _ _ _ _ _ (by decide +kernel) (by decide +kernel) (by decide +kernel) (by decide +kernel), ?_, by decide +kernel, by decide +kernel⟩
  unfold spReadyAt; decide +kernel
/-- `vpop` of an empty queue that does not wait, `vbcast` of lane 63, `vimm` of 19 bits, and the words that make no value. -/
theorem witness_BeltWords_make : cRuns (.vpop hd (fv 0 0 0 9 0)) (ent (.vpop hd (fv 0 0 0 9 0)) 0 0 0 0) (cS (ent (.vpop hd (fv 0 0 0 9 0)) 0 0 0 0)) ∧
    cRuns (.vbcast hd (fv 0 0 0 1 0)) (ent (.vbcast hd (fv 0 0 0 1 0)) 63 0 0 0) (cS (ent (.vbcast hd (fv 0 0 0 1 0)) 63 0 0 0)) ∧
    cRuns (.vimm hd (fv 15 15 15 0 6)) (ent (.vimm hd (fv 15 15 15 0 6)) 0 0 0 0) (cS (ent (.vimm hd (fv 15 15 15 0 6)) 0 0 0 0)) ∧
    cRuns (.vnop hd ⟨0, 3⟩) (ent (.vnop hd ⟨0, 3⟩) 0 0 0 0) (cS (ent (.vnop hd ⟨0, 3⟩) 0 0 0 0)) ∧
    cRuns (.rng hd (fv 0 0 0 1 0)) (ent (.rng hd (fv 0 0 0 1 0)) 5 0 0 0) (cS (ent (.rng hd (fv 0 0 0 1 0)) 5 0 0 0)) ∧ (63 : Word).toNat % 256 < Tag.fp32.lanes :=
  ⟨cRuns_one _ _ _ _ _ (by decide +kernel) (by decide +kernel) (by decide +kernel) (by decide +kernel),
    cRuns_one _ _ _ _ _ (by decide +kernel) (by decide +kernel) (by decide +kernel) (by decide +kernel),
    cRuns_one _ _ _ _ _ (by decide +kernel) (by decide +kernel) (by decide +kernel) (by decide +kernel),
    cRuns_one _ _ _ _ _ (by decide +kernel) (by decide +kernel) (by decide +kernel) (by decide +kernel),
    cRuns_one _ _ _ _ _ (by decide +kernel) (by decide +kernel) (by decide +kernel) (by decide +kernel), by decide⟩
/-- `smx.max`, `smx.exp` with a pair, `smx.merge`, `tmask` of node 63. -/
theorem witness_AttentionWords : cRuns (.smxExp hd (fv 0 1 0 2 0)) (ent (.smxExp hd (fv 0 1 0 2 0)) 0 0 0 0) (cS (ent (.smxExp hd (fv 0 1 0 2 0)) 0 0 0 0)) ∧
    cRuns (.smxMax hd (fv 0 1 0 0 0)) (ent (.smxMax hd (fv 0 1 0 0 0)) 0 0 0 0) (cS (ent (.smxMax hd (fv 0 1 0 0 0)) 0 0 0 0)) ∧
    pairLegal (fv 0 1 0 2 0) 16 = true ∧ cReg.belt = State.reset.curBank.r.belt ∧ parentsOk ((List.range 256).map fun _ => 255) = true :=
  ⟨cRuns_one _ _ _ _ _ (by decide +kernel) (by decide +kernel) (by decide +kernel) (by decide +kernel),
    cRuns_one _ _ _ _ _ (by decide +kernel) (by decide +kernel) (by decide +kernel) (by decide +kernel), by decide +kernel, by decide +kernel, by decide +kernel⟩
/-- A list of 64 entries is the longest. -/
theorem witness_SelectionWords_topk : cRuns (.topk hd (fv 0 8 0 1 0)) (ent (.topk hd (fv 0 8 0 1 0)) (64 * 2 ^ 32) 0 0 0) (cS (ent (.topk hd (fv 0 8 0 1 0)) (64 * 2 ^ 32) 0 0 0)) ∧
    (64 * 2 ^ 32 : Word).toNat / 2 ^ 32 % 2 ^ 7 = 64 ∧ (cReg.vec 16).tag ∈ [Tag.fp32, .fp16, .bf16, .int32] ∧ (cReg.vec 24).tag = .idx :=
  ⟨cRuns_one _ _ _ _ _ (by decide +kernel) (by decide +kernel) (by decide +kernel) (by decide +kernel), by decide, by decide +kernel, by decide +kernel⟩
theorem witness_SelectionWords_read : let i : Instr := .topkRd hd (fv 15 15 15 0 0)
    let s := (cS (ent i 0 0 0 0)).modBank 0 fun b => { b with topk := { tag := .fp32, k := 1, entries := [] } }
    (cStart s).curBank.topk.tag ≠ .empty ∧ (cStart s).curBank.topkQ.length + 2 * (cStart s).curBank.topkRd.length ≤ 6 ∧ (fv 15 15 15 0 0).me = 0 := by decide +kernel
/-- Temperature and p of 1.0; a draw of one positive lane. -/
theorem witness_SelectionWords_sample : posFP32 0x3F800000 = true ∧ Machine.Num.lt (Machine.Num.ofInt 1) (fmtFP32.value 0x3F800000) = false ∧
    drawLanes false 1 0x3F800000 0 ≠ [] ∧ (∀ j ∈ drawLanes false 1 0x3F800000 0, fmtFP32.value (elem (0x3F800000 : BitVec 2048) 32 j) ≠ .inf false) := by decide +kernel
theorem witness_SelectionWords_acc : siblings 0 0 = [] ∧ distOk 1 { bits := 0x3F800000, tag := .fp32 } = true ∧ sumList (accOperand 1 0x3F800000) ≠ 0 := by decide +kernel

/-- Accumulator tile 0 of 16 × 16 FP32 in one bank. -/
def accS (i : Instr) (a b c d : Word) : State :=
  (cS (ent i a b c d)).modBank 0 fun b => b.modZ 0 fun _ => { cols := 1, rows := 1, banks := 1, tag := .fp32 }
theorem witness_AccumulatorWords_tcfg : let i : Instr := .tcfg hd ⟨0, 0, 0, 0⟩
    let s := cStart (accS i 5 0 0 0)
    s.curBank.c.mats = [] ∧ s.qzReads 0 false = false ∧ (∀ k, k < 16 → tcfgFail s.curBank (tcfgByte 5 0 k) k = none) ∧
      cRuns i (ent i 5 0 0 0) (cS (ent i 5 0 0 0)) :=
  ⟨by decide +kernel, by decide +kernel, by decide +kernel, cRuns_one _ _ _ _ _ (by decide +kernel) (by decide +kernel) (by decide +kernel) (by decide +kernel)⟩
/-- Eight banks are the most that one tile takes. -/
theorem witness_AccumulatorWords_alloc : let i : Instr := .accAlloc hd ⟨0, 0, 0, 0x81⟩
    let s := cStart (cS (ent i 0 0 0 0))
    (0x81 : BitVec 17).toNat / 2 ^ 4 % 16 = 8 ∧ (s.curBank.tileZ 1).banks = 0 ∧ 8 ≤ (s.tile 0).accFree ∧
      cRuns i (ent i 0 0 0 0) (cS (ent i 0 0 0 0)) :=
  ⟨by decide, by decide +kernel, by decide +kernel, cRuns_one _ _ _ _ _ (by decide +kernel) (by decide +kernel) (by decide +kernel) (by decide +kernel)⟩
/-- Row 15 is the last of the tile, and row 16 none of it. -/
theorem witness_AccumulatorWords_rows : let s := cStart (accS addI 15 0 0 0)
    let z := s.curBank.tileZ 0
    z.configured = true ∧ 15 < z.nrows ∧ ¬ 16 < z.nrows ∧ z.tag.width = 32 ∧ (s.curBank.r.vec 16).tag = z.fmt ∧ (∀ k ∈ maskTiles 1, (s.curBank.tileZ k).configured = true) ∧
      s.curBank.c.latches = [] ∧ (s.tile 0).sound = true ∧ s.qzReads 0 false = false := by decide +kernel
theorem witness_AccumulatorWords_kat : let s := (cS (ent (.katcmp hd 7) 0 0 0 0)).modBank 0 fun b => b.modC fun c => { c with katCrc := some 7 }
    (cStart s).curBank.c.katCrc = some 7 ∧ (cStart s).curBank.c.mats = [] := by decide +kernel
def outI : Instr := .accOut hd ⟨0, 0, 0, 0x10⟩
/-- No signature to compare. -/
theorem witness_AccumulatorWords_unsigned : let s := cS (ent (.katcmp hd 7) 0 0 0 0)
    (cStart s).curBank.c.katCrc = none ∧ (cStart s).curBank.c.mats = [] ∧ (8 : BitVec 32) ≠ 7 := by decide +kernel
/-- Sixteen elements of FP32 fill one line, which is the pitch. -/
theorem witness_AccumulatorWords_out : let s := cStart (accS outI 0 64 0 0)
    let z := s.curBank.tileZ 0
    z.ncols * Tag.fp32.width / 8 = 64 ∧ (∀ k, k < z.nrows → checkSpFail (s.tile 0) s.curBank (k * 64) 64 (some 0) (some Tag.fp32.code) = none) ∧
      okRun (accOutRow 0 { entry := ent outI 0 64 0 0, row := 0, flags := 0, push := {}, pos := 0 }) s = true := by decide +kernel

/-- K = 16 of BF16: A in bank group 0, B in bank group 1 (R257). -/
def mmaI : Instr := .mma hd ⟨0, 0, 0, 0, 0, 0⟩
def mmaA : Word := 3 * 2 ^ 21 + 2 * 2 ^ 25
def mmaB : Word := 0x80000 + 3 * 2 ^ 21 + 2 * 2 ^ 25
def mmaS : State := (accS mmaI mmaA mmaB 0 0).modBank 0 fun b => b.modCsr fun c => { c with spCount := 384 }
theorem witness_MatrixWords : let r : MatRun := { word := word48 mmaI, da := mmaA, db := mmaB }
    okRun (matChecks 0 r.word r) (cStart mmaS) = true ∧ okRun (do discard <| matGrant 0 r) (cStart mmaS) = true ∧ matUsesAux r ((cStart mmaS).curBank.tileZ 0) = false ∧
      (cStart mmaS).curBank.c.prep = none ∧ streamOf ((cStart mmaS).bank 0) = none ∧ ((cStart mmaS).tile 0).engine = none ∧ (cStart mmaS).curBank.c.mskip = 0 ∧
      (∀ a ∈ r.aNow ++ r.bNow, watermarkHolds ((cStart mmaS).tile 0) 0 false a 64 = false) := by decide +kernel
/-- The AUX lines of a scaled word are read ahead: one of 128 bytes' two lines still to come is not enough. -/
def bpI : Instr := .mmaBp hd ⟨0, 0, 0, 2, 0, 0⟩
def bpB : Word := 0x80000 + 8 * 2 ^ 21 + 3 * 2 ^ 25 + 4 * 2 ^ 28 + 4 * 2 ^ 32 + 0x100000 * 2 ^ 36
theorem witness_MatrixWords_aux : let r : MatRun := { word := word48 bpI, da := mmaA, db := bpB }
    matUsesAux r ((cStart mmaS).curBank.tileZ 0) = true ∧ okRun (matChecks 0 r.word r) (cStart mmaS) = true ∧ (linesOf (descAux r.db) (matBytesAux r)).length = 2 := by decide +kernel
theorem witness_MatrixWords_runs : cRuns mmaI (ent mmaI mmaA mmaB 0 0) (cS (ent mmaI mmaA mmaB 0 0)) ∧
    cRuns (.kat hd ⟨0, 0, 0, 0⟩) (ent (.kat hd ⟨0, 0, 0, 0⟩) 0 0 0 0) (cS (ent (.kat hd ⟨0, 0, 0, 0⟩) 0 0 0 0)) :=
  ⟨cRuns_one _ _ _ _ _ (by decide +kernel) (by decide +kernel) (by decide +kernel) (by decide +kernel),
    cRuns_one _ _ _ _ _ (by decide +kernel) (by decide +kernel) (by decide +kernel) (by decide +kernel)⟩

/-! ## Events -/

def hot : HomeLine := { data := 0x1234 }
def lineMem (s : State) : State := s.modHub fun h => { h with home := [(0x400, hot)] }

/-- The state after reset with a word placed enters its packet and dispatches or executes its word; the word is that of R172's list. -/
def placed : State := State.reset.withFetchWord 48 0x18004800C48D
theorem witness_StepRunsWord : placed.hub.power ≠ .off ∧ placed.sched = [{ dt := 1, what := .front 0 }] ∧ (placed.ctx 0).status = .running ∧ (placed.ctx 0).preempt = false ∧
    (placed.tile 0).timerPeriod = 0 ∧ irqDue placed 0 = false ∧ placed.curBank.f.wait ≠ .sleep ∧ frontWord ((placed.enterPacket 0).bank 0) = some 0x18004800C48D ∧
    queueOf (decodeWord 0x18004800C48D) = none ∧
    (((placed.enterPacket 0).modBank 0 fun b => b.modF fun f => { f with wait := .none }).regionStops 0 = false) := by decide +kernel
theorem witness_StepRunsWord_fetch : (match (lookup placed 0 0 0 0).1 with
    | .leaf e level _ => pteKind e != 3 && pteX e && !ptePRV e && leafFrame e level 0 % 32 == 0 && isLocal (leafFrame e level 0) && reaches placed (leafFrame e level 0)
    | _ => false) = true := by decide +kernel
theorem witness_StepRunsWord_event : encodeWord (.ltTick 0) = none ∧ queueOf (.ltTick 0) = none := by decide +kernel
/-- The packet placed at the reset PC is fetched, and its form is legal. -/
theorem witness_PipelineEvents_fetch : (match (fetchAddr 0 (pcPacket placed.curBank.f.pc).toNat).run.run placed with
    | (.ok (pa, h), s1) =>
      let x := (if hasCode s1 0 pa then s1 else s1.countMig 0 h pa).ctxRead 0 pa 32 2
      let bytes := BitVec.ofNat 256 (numOf x.1)
      (linesOf pa 32).all (fun l => !lineHeld s1 0 l) && !anyPoison x.1 && !(x.2.meetCode 0 pa).1 && bytes.toNat % 8 ≤ 4 &&
        pcSlot placed.curBank.f.pc ≤ bytes.toNat % 8 && packetPairs bytes (pcSlot placed.curBank.f.pc) (bytes.toNat % 8) != none
    | _ => false) = true ∧ placed.curBank.f.packet = none := by decide +kernel
theorem witness_PipelineEvents_push : let s := run0.modBank 0 fun b => { b with q := { b.q with pend := [(.l, { down := true })] } }
    (s.bank 0).q.pend = [(.l, { down := true })] ∧ ((s.bank 0).q.tryPush .l { down := true }).1 ≠ { down := true } := by decide +kernel
/-- A sleep of `wfe` that is over, and an interrupt where there is no handler. -/
theorem witness_PipelineEvents_wfe : let x : Sleep := { pa := 0x10000, since := 0, checked := 0, line := true, written := true }
    let s := run0.modBank 0 fun b => { b with f := { b.f with wait := .sleep, sleep := some x } }
    (s.bank 0).f.sleep = some x ∧ wfeOver s 0 x = true := by decide +kernel
theorem witness_PipelineEvents_masked : let s := run0.modBank 0 fun b => { b with irq := { b.irq with timer := true } }
    irqDue s 0 = true ∧ (nextIrq s 0).isSome = true ∧ (s.bank 0).csr.trapvec = 0 := by decide +kernel
theorem witness_PipelineEvents_sleep : let s := run0.modBank 0 fun b => { b with f := { b.f with wait := .sleep, sleep := some { pa := 0x10000, since := 0, checked := 0, line := false, written := true } } }
    (s.ctx 0).status = .running ∧ (s.bank 0).f.wait = .sleep := by decide +kernel
theorem witness_PipelineEvents_irq : let s := (trap0.modCtx 0 fun c => { c with status := .running }).modBank 0 fun b => { b with trap := none, irq := { b.irq with timer := true } }
    irqDue s 0 = true ∧ (nextIrq s 0).isSome = true ∧ (s.bank 0).csr.trapvec ≠ 0 ∧ (s.bank 0).csr.framebase ≠ 0 := by decide +kernel
theorem witness_PipelineEvents_retire : let s := run0.modBank 0 fun b => { b with q := { b.q with fly := [{ q := .l, pos := 0, done := true }] } }
    (s.ctx 0).status = .running ∧ ((s.bank 0).q.fly.find? (·.q == .l)) = some { q := .l, pos := 0, done := true } := by decide +kernel
theorem witness_PipelineEvents_dispatch : let s := State.reset.withFetchWord 48 (word48 moveW).toNat
    let u := s.enterPacket 0
    (u.ctx 0).status = .running ∧ frontWord (u.bank 0) = some (word48 moveW) ∧ frontBreach (u.bank 0) = none ∧ pairsNext (u.bank 0) = false ∧
      queueOf (decodeWord (word48 moveW)) = some .l ∧ admitted u 0 .l (decodeWord (word48 moveW)) 1 = true := by decide +kernel
theorem witness_PipelineEvents_posted : let s := (lineMem run0).modBank 0 fun b => { b with posted := [{ pa := 0x10038, bytes := [1, 2, 3, 4, 5, 6, 7, 8] }] }
    (kvGet s.hub.home (0x10038 / 64)).isSome = true ∧ 0x10038 % 64 + 8 ≤ 64 ∧ reaches s 0x10038 = true ∧ s.hub.filter = [] ∧ homeHeld s (0x10038 / 64) = false ∧
      (linesOf 0x10038 8).all (fun l => !lineHeld s 0 l) = true ∧ noWatch s ∧ arraysSound s ∧ kvGet run0.hub.home (0x10038 / 64) = none := by
  unfold noWatch arraysSound; decide +kernel
theorem witness_PipelineEvents_idle : let s := run0.modBank 0 fun b => b.modC fun c => { c with draining := true }
    mayIdle (s.bank 0) = true ∧ (s.claimEngine 0).cFrozen 0 = false ∧ ((s.claimEngine 0).bank 0).c.accOut = none := by decide +kernel
/-- The same with a matrix word whose engine is its own. -/
theorem witness_PipelineEvents_fold : let s := (run0.modBank 0 fun b => b.modC fun c => { c with draining := true, mats := [{ word := 0xA40000000000 }] }).modTile 0 fun t => { t with engine := some 0 }
    mayIdle (s.bank 0) = true ∧ (s.bank 0).c.mats ≠ [] ∧ ((s.claimEngine 0).bank 0).c.accOut = none := by decide +kernel
theorem witness_PipelineEvents_swap : let s := (run0.modCtx 0 fun c => { c with status := .swapping 0, shadow := some {} })
    ({ s with now := 96 } : State).now = 96 ∧ (s.ctx 0).status = .swapping 0 ∧ (s.ctx 0).shadow.isSome = true ∧ (s.ctx 0).preempt = false := by decide +kernel
theorem witness_PipelineEvents_timer : let s := (run0.modBank 0 fun b => { b with timer := .runsFrom 0 }).modTile 0 fun t => { t with timerPeriod := 5 }
    (s.bank 0).timer = .runsFrom 0 ∧ 0 + (s.tile 0).timerPeriod.toNat ≤ ({ s with now := 5 } : State).now := by decide +kernel

theorem witness_MemoryEvents_lines : homeServes run0 0x400 = true ∧ homeHeld run0 0x400 = false ∧ isLocal (0x400 * 64) = true ∧ kvGet (lineMem run0).hub.home 0x400 = some hot ∧ spaceOf (0x200000000000 * 64) = .host ∧ (0x200000000000 : Nat) < 2 ^ 46 ∧
    (List.finRange 144).all (fun v => (run0.bank v).posted == []) = true ∧
    (run0.modHub fun h => { h with wtq := [{ line := 0x400, data := 1 }] }).hub.wtq.any (·.line == 0x400) = true := by decide +kernel
theorem witness_MemoryEvents_filter : let s := run0.modHub fun h => { h with filter := [0x400], backInv := [{ line := 0x400, since := 0 }] }
    s.hub.filter.contains 0x400 = true ∧ s.hub.backInv.any (·.line == 0x400) = true ∧ reaches s (0x400 * 64) = true ∧ s.hub.remap = [] ∧ s.hub.unpins = [] ∧
      (List.finRange 144).all (fun v => (s.bank v).posted == []) = true := by decide +kernel
/-- A host line that a snoop has reached and whose leases have ended; a line whose write-through has landed in part. -/
theorem witness_MemoryEvents_host : let s := run0.modHub fun h => { h with home := [(0x200000000000, { hot with snoop := true })] }
    (kvGet s.hub.home 0x200000000000).map (·.snoop) = some true ∧ hot.leaseEnd ≤ s.now := by decide +kernel
theorem witness_MemoryEvents_atoms : noWatch run0 ∧ arraysSound run0 ∧ run0.hub.filter.length < 1048576 ∧ (run0.modHub fun h => { h with pair := true }).hub.pair = true := by
  unfold noWatch arraysSound; decide +kernel
/-- A tick of the tile's time, and a window of the counts, are due. -/
theorem witness_MemoryEvents_time : ({ run0 with now := 64 } : State).tiles = run0.tiles ∧ (run0.tile 0).ticked < 64 / 64 ∧ run0.hub.migWindow < ({ run0 with now := 2 ^ 40 } : State).sched16 / 2 ^ 20 := by
  decide +kernel
theorem witness_MemoryEvents_late : ({ run0 with now := 2 ^ 40 } : State).sched16 ≥ 2 ^ 21 := by decide +kernel
theorem witness_MemoryEvents_scrub : let s := run0.modHub fun h => { h with flips := [(0x400, 1)] }
    scrubs s 0x400 = true ∧ kvGet s.hub.flips 0x400 = some 1 ∧ lp6Decode 1 = .ce 0 [1, 0, 0] := by decide +kernel
/-- A move of the page whose leaf lies at 0x8000 × 8, copied and not yet committed, with no pins. -/
def move0 : Move := { id := 0x8000, repl := false, oldBase := 0, newBase := 0, pte := some 0x11F }
def moving0 : State := run0.modHub fun h =>
  { h with
    mem := [(0x40000, 0x1F), (0x40001, 5)], shots := [(0x8000, [0])]
    moves := [move0] }
theorem witness_MemoryEvents_commit : moving0.hub.moves.any (fun m => m.id == 0x8000 && !m.committed) = true ∧ pteMST (moving0.pteNow 0x8000).1 = 1 ∧
    ptePin (moving0.pteNow 0x8000).1 = 0 ∧ (moving0.snoopLines (moveLines move0 (List.range 1024))).1 = true ∧
    pagesHeld (moving0.snoopLines (moveLines move0 (List.range 1024))).2 = false := by decide +kernel
theorem witness_MemoryEvents_shootdown : moving0.hub.shots.any (fun x => x.1 == 0x8000 && x.2.contains 0) = true ∧ (moving0.tile 0).shots.contains 0x8000 = false := by decide +kernel
theorem witness_MemoryEvents_ack : let s := moving0.modTile 0 fun t => { t with shots := [0x8000] }
    (s.tile 0).shots.contains 0x8000 = true ∧ s.hub.moves.all (fun m => !frameBusy s 0 m.oldBase.toNat && !frameBusy s 0 (m.oldBase.toNat + 0x3000000000)) = true := by decide +kernel
/-- The front end waits for a walk of an `xlat` whose leaf the first-level TLB holds. -/
theorem witness_MemoryEvents_walk : let s := tlb0.modBank 0 fun b => { b with f := { b.f with wait := .walk, packet := some (0, BitVec.ofNat 256 (0x2B00 * 2 ^ 40)) } }
    let f := FS.ofBody (bodyOf (packetWord (BitVec.ofNat 256 (0x2B00 * 2 ^ 40)) (pcSlot (s.bank 0).f.pc)))
    (s.bank 0).f.wait = .walk ∧ (lookup s 0 (s.bank 0).csr.asid (s.bank 0).csr.ptroot ((s.bank 0).r.sreg f.a).toNat).1 ≠ .moving := by decide +kernel
theorem witness_MemoryEvents_publish : let s := moving0.modHub fun h => { h with shots := [(0x8000, [])], moves := h.moves.map fun m => { m with committed := true } }
    (s.hub.moves.find? (fun m => m.id == 0x8000 && m.committed)).isSome = true ∧ s.hub.shots.any (fun x => x.1 == 0x8000 && !x.2.isEmpty) = false ∧
      (s.snoopLines (moveLines { move0 with committed := true } ({ move0 with committed := true } : Move).lines)).1 = true ∧
      pagesHeld (s.snoopLines (moveLines { move0 with committed := true } ({ move0 with committed := true } : Move).lines)).2 = false := by decide +kernel
/-- A channel that runs, with an entry to release and one in flight. -/
def chan0 : State := mem0.modChan 0 0 fun c => { c with st := .run, entries := [3 * 2 ^ 96, 3 * 2 ^ 96], next := 1, fly := [{ idx := 0, rows := [0x10000] }], caps := c.caps.set 3 page }
theorem witness_MemoryEvents_copy : let c := chan0.chan 0 0
    c.st = .run ∧ c.next = 1 ∧ c.entries.length = 2 ∧ cpEntryStage (3 * 2 ^ 96) ≤ c.sc ∧ c.again = false ∧ inFlight (chan0.tile 0) < 64 ∧ nextChan (chan0.tile 0) = some 0 ∧
      (match releaseChecks chan0 0 c (3 * 2 ^ 96) with | .ok rows => rows == [0x10000] | _ => false) = true ∧
      (match releaseChecks chan0 0 c (2 * 2 ^ 96) with | .error _ => true | _ => false) = true ∧ (linesOf 0x10000 64).all (fun l => !lineHeld chan0 0 l) = true ∧
      okRun (cpTransfer 0 (c.caps.get (cpEntryHandle (3 * 2 ^ 96))) (3 * 2 ^ 96) [0x10000]) chan0 = true := by decide +kernel
theorem witness_MemoryEvents_pageIn : let s := run0.modHub fun h => { h with pageIns := [{ va := 0, asid := 0, pool := { node := 5, index := 0, since := 0 }, unplaced := true }], table := pool0.hub.table }
    s.hub.pageIns.length = 1 ∧ (s.node? 5).isSome = true := by decide +kernel

theorem witness_EngineEvents_window : let s := { (run0.modBank 0 fun b => { b with pwr := some { serial := 1, cls := 0, n := 4, len := 8, held := true, ends := 5 } }) with now := 5 }
    (s.bank 0).pwr.isSome = true ∧ 5 ≤ s.now := by decide +kernel
def waitC : CollRun := { bsum := false, pa := 0x10000, timeout := 9, since := 0, entry := ent barI 0 0 0 0 }
theorem witness_EngineEvents_timeout : let s : State := { (run0.modBank 0 fun b => { b with coll := some waitC }) with now := 9 }
    (s.bank 0).coll = some waitC ∧ waitC.timeout ≠ 0 ∧ waitC.since + waitC.timeout.toNat ≤ s.now := by decide +kernel
def hid0 : HiddenCopy := { who := 0, desc := 0x10000, sid := 0, node := 1, layer := 0, data := List.replicate 64 0, pos := none, released := true }
theorem witness_EngineEvents_landing : let s := memS ((withH run0 3 page).modTile 0 fun t => { t with hidden := [hid0] }) (seqMem.take 6 ++ [(0x1001C, 1)] ++ seqMem.drop 7)
    ((s.modTile 0 Tile.releaseHidden).tile 0).hidden = [hid0] ∧ okRun (landHidden 0 hid0) (s.modTile 0 Tile.releaseHidden) = true := by decide +kernel
def runOf (i : Instr) (b c : Word) : KvRun := { word := word48 i, entry := kvE i b c, desc := 0x10000 }
theorem witness_EngineEvents_squash : okRun (commitGo 0 (runOf squashI 0 0) (runNodes (runOf squashI 0 0))) (kvS seqMem squashI .s 0 0) = true ∧
    (opOf (word48 squashI)).toNat = 0x66 := by decide +kernel
def getR : KvRun := { runOf getI (0x1000 * 2 ^ 21 + 0x3000 * 2 ^ 42) (64 * 2 ^ 48) with samp := [512 + 2 ^ 24, 0, 0, 0, 0] }
theorem witness_EngineEvents_get : okRun (finishGet 0 getR) (kvS longMem getI .l (0x1000 * 2 ^ 21 + 0x3000 * 2 ^ 42) (64 * 2 ^ 48)) = true := by decide +kernel
def pimR : PimRun := { cfg := { valid := true, k := 1, vec := [0] }, acc := false, mem := false, hw := page, hd := {}, base := 0, dst := 0, rows := 2, grant := some { cls := 1, units := 1, win := 0 } }
theorem witness_EngineEvents_row : let s := mem0.modBank 0 fun b => { b with pimRuns := [pimR] }
    ((s.bank 0).pimRuns.find? (·.grant.isSome)) = some pimR ∧ okRun (pimRowStep 0 pimR) s = true := by decide +kernel
def collR : CollRun := { bsum := false, pa := 0x10000, timeout := 0, since := 0, entry := ent barI 0 0 0 0 }
theorem witness_EngineEvents_arrival : let s := memS (mem0.modBank 0 fun b => { b with coll := some collR }) [(0x10000, 2)]
    (s.bank 0).coll = some collR ∧ collR.arrived = false ∧ okRun (collArrive 0 collR) s = true := by decide +kernel
def qzC : QzCmd := { who := 0, desc := BitVec.ofNat 512 (8 * 2 ^ 8 + 16 * 2 ^ 16 + 2 ^ 32 + 16 * 2 ^ 48 + 2 ^ 104 + 0x1000 * 2 ^ 128), fp32 := true, data := 0x1000, scale := 0x2000, event := 0, wait := false, pos := 0, grant := none }
theorem witness_EngineEvents_qz : okRun (qzComplete 0) (mem0.modTile 0 fun t => { t with qz := [qzC] }) = true := by decide +kernel
/-- A region of one word, which writes n1 from n0 (R417). -/
def begI : Instr := .apxBeg hd ⟨0, 1, 0, 0⟩
def regionS : State := (cS (ent begI 0 0 0 0)).modBank 0 fun b => { b with q := b.q.set .c [ent begI 0 0 0 0, ent (.vneg hd ⟨1, 1, 16, 16, 16, 0, 0, 0, 0⟩) 0 0 0 0, ent (.apxEnd hd 0) 0 0 0 0] }
def begF : FK := FK.ofBody (bodyOf (word48 begI))
theorem witness_EngineEvents_region : apxI begF ≠ apxO begF ∧ holdsSubst regionS.curBank = false ∧ (cStart regionS).curBank.c.latches = [] ∧
    ((cStart regionS).curBank.r.n.get (apxI begF).toFin).tag = .fp32 ∧
    (match scanRegion begF (cStart regionS).curBank.q.c.tail 1 false with | .upTo 3 true true => true | _ => false) = true ∧
    cRuns (.apxEnd hd 0) (ent (.apxEnd hd 0) 0 0 0 0) (cS (ent (.apxEnd hd 0) 0 0 0 0)) :=
  ⟨by decide +kernel, by decide +kernel, by decide +kernel, by decide +kernel, by decide +kernel,
    cRuns_one _ _ _ _ _ (by decide +kernel) (by decide +kernel) (by decide +kernel) (by decide +kernel)⟩
theorem engReady_of (s : State) (w : Who) (h : (s.hub.remap.isEmpty && !s.tiles.any (·.stalled)) = true)
    (k : (List.finRange 72).all (fun x => !cutOff s x (Who.tile w) && !cutOff s (Who.tile w) x) = true)
    (f : s.hub.filter.isEmpty = true) (l : ((s.bank w).inst.map (·.lstep)).getD false = false) : engReady w s :=
  ⟨noneHeld s w h k, List.isEmpty_iff.mp f, l, noneStalled s (by simpa using (Bool.and_eq_true_iff.mp h).2)⟩
def runS (r : KvRun) : State := (kvS longMem getI .l 0 0).modBank 0 fun b => { b with kvRuns := [r] }
def pressR : KvRun := { runOf pressI 0x10000 0 with samp := [0x1A000 * 2 ^ 16] }
def foldR : KvRun := runOf foldI 0 0
/-- The engine's steps of each key-value word find their run, and wait for nothing. -/
theorem witness_KeyValueWords_runs : ((runS getR).bank 0).kvRuns.find? (fun r => [0x48].contains (opOf r.word).toNat) = some getR ∧ engReady 0 (runS getR) ∧
    ((runS pressR).bank 0).kvRuns.find? (fun r => [0x4E].contains (opOf r.word).toNat) = some pressR ∧ engReady 0 (runS pressR) ∧ okRun (pressGrant 0 pressR) (runS pressR) = true ∧
    ((runS foldR).bank 0).kvRuns.find? (fun r => [0x4F].contains (opOf r.word).toNat) = some foldR ∧ engReady 0 (runS foldR) ∧
    ((runS (runOf squashI 0 0)).bank 0).kvRuns.find? (fun r => [0x65, 0x66].contains (opOf r.word).toNat) = some (runOf squashI 0 0) ∧ engReady 0 (runS (runOf squashI 0 0)) := by
  refine ⟨by decide +kernel, ?_, by decide +kernel, ?_, by decide +kernel, by decide +kernel, ?_, by decide +kernel, ?_⟩ <;>
    exact engReady_of _ _ (by decide +kernel) (by decide +kernel) (by decide +kernel) (by decide +kernel)
/-- The descriptor of that run has nothing pending. -/
theorem witness_KeyValueWords_resume : okRun (do
    let d ← readDesc 0 0x10000
    chk (d.pend == 0)) (runS (runOf squashI 0 0)) = true := by decide +kernel
/-- A request that the budget admits, one sampling request, and the entries that `topk.rd` asks for. -/
theorem witness_EngineEvents_units : let s := run0.modCluster 0 fun x => x.modGov 0 fun g => { g with reqs := [{ who := 0, units := 1 }] }
    ((s.cluster 0).govAt 0).reqs = [{ who := 0, units := 1 }] ∧ (s.cluster 0).throttled = false ∧ 0 < ((s.cluster 0).govAt 0).budget ∧ ((s.cluster 0).govAt 0).used = 0 ∧
      ((run0.modBank 0 fun b => { b with smpOut := [.cfg 63 1 2 0x3F800000 0x3F800000 false], topkRd := [true] }).bank 0).smpOut.length = 1 := by decide +kernel
theorem witness_EngineEvents_error : ((accS addI 0 0 0 0).ctx 0).status = .running ∧ (((accS addI 0 0 0 0).bank 0).tileZ 0).configured = true ∧
    ((accS addI 0 0 0 0).bank 0).c.window = none := by decide +kernel
theorem witness_EngineEvents_train : ((run0.modCluster 0 fun z => { z with fit := z.fit.set 15 { st := .train } }).cluster 0).fit.get 15 = { st := .train } := by decide +kernel
/-- A substituted execution at its first and last cycle for a result, which is the first at which it is withdrawn. -/
def substS (n : Nat) : State := regionS.modBank 0 fun b => { b with apx := some { subst := true }, c := { b.c with cc := n } }
theorem witness_EngineEvents_substituted : ((substS 64).ctx 0).status = .running ∧ ((substS 64).bank 0).apx = some { subst := true } ∧ holdsSubst ((substS 64).bank 0) = true ∧
    (((substS 24).cIdle 0).bank 0).c.cc ≠ ((substS 24).bank 0).c.cc ∧ (((substS 64).cIdle 0).bank 0).c.cc ≠ ((substS 64).bank 0).c.cc := by decide +kernel

/-! Queue 0 translates 32 TB at address 0 one to one: a root entry at 0x100000 and a leaf of level 1 at 0x110000. -/
def tables : Mem := [(0x100000, 1), (0x100002, 0x11), (0x110000, 0x1F)]
/-- A node of kind `k` of priority 0 in cluster 0, whose ENTRY and CTL are 0x20000 and ARGS 0x30000. -/
def node0 (k : Nat) (st : NodeSt) : NodeEnt :=
  { id := 5, record := 0x800, queue := 0, st
    body := BitVec.ofNat 1024 (0x20000 + 0x30000 * 2 ^ 128 + 0x20000 * 2 ^ 192 + (8 + k * 2 ^ 21) * 2 ^ 864 + 2 ^ 768) }
def graph (k : Nat) (st : NodeSt) (m : Mem) : State :=
  (State.reset.modQd 0 fun d => { d with ptroot := 0x100000, ring := 0x40000, size := 3, en := true, tail := 1 }).modHub fun h =>
    { h with mem := m, table := [node0 k st], kick := 1, power := .d0 }

theorem witness_TaskEvents_kick : let s := graph 0 .done []
    scheduling s = true ∧ s.hub.kick.getLsbD 0 = true ∧ (s.qdesc 0).en = true ∧ (s.qdesc 0).head.toNat ≠ (s.qdesc 0).tail.toNat % 2 ^ (s.qdesc 0).size.toNat ∧
      (s.hubRead 0x40000 32 2).2.1 = false ∧ watchFull s 0 0 = false ∧ s.hub.table.length < 4096 ∧ s.hub.remap = [] ∧ homeStalls s (0x40000 / 64) = false ∧ nodeMoving (s.hubRead 0x40000 32 2).2.2 0 0 0 0 = false := by decide +kernel
theorem witness_TaskEvents_control : let s := graph 2 .eval ((0x20000, 1) :: tables)
    s.node? 5 = some (node0 2 .eval) ∧ (node0 2 .eval).ctl % 8 = 0 ∧ (node0 2 .eval).kind = 2 ∧ (s.hubTranslate 0 0x20000 { rd := true }).1 = some 0x20000 ∧
      (s.hubRead 0x20000 8 2).2.1 = false ∧ leNat (s.hubRead 0x20000 8 2).1 = 1 ∧ ((node0 2 .eval).succ 0).isSome = true ∧
      hubMoving s 0 0x20000 = false ∧ ((List.range 3).filterMap (node0 2 .eval).succ).all (fun va => !nodeMoving s 0 va 0 0) = true := by decide +kernel
/-- The same with the other kinds, and with a word of 0. -/
theorem witness_TaskEvents_controls : (let s := graph 1 .eval tables
    s.node? 5 = some (node0 1 .eval) ∧ (node0 1 .eval).kind = 1 ∧ (s.hubRead 0x20000 8 2).2.1 = false ∧ leNat (s.hubRead 0x20000 8 2).1 = 0) ∧
    (graph 2 .eval tables).node? 5 = some (node0 2 .eval) ∧ (graph 3 .eval tables).node? 5 = some (node0 3 .eval) ∧ (node0 3 .eval).kind = 3 := by decide +kernel
/-- One row of 16 FP8 elements for a bank node; one positive lane for a sample node. -/
def bankMem : Mem := [(0x30009, 0x50), (0x3000A, 3), (0x30011, 0x60), (0x30012, 3), (0x30018, 16), (0x3001C, 1)] ++ tables
def sampleMem : Mem := [(0x30001, 0x10), (0x30002, 3), (0x30009, 0x20), (0x3000A, 3), (0x30011, 0x60), (0x30012, 3), (0x31002, 0x80), (0x31003, 0x3F)] ++ tables
theorem witness_TaskEvents_bank : let s := graph 4 .ready bankMem
    let blk := leNat ((s.hubReadVa 0 0x30000 32 2).1.getD [])
    readyNode s 5 4 = some (node0 4 .ready) ∧ (node0 4 .ready).argsOf = 0x30000 ∧ bankLegal blk = true ∧ firstCluster (node0 4 .ready) = some 0 ∧
      (s.hubReadVa 0 0 32 130).1.isSome = true ∧ (s.hubAddrs 0 { rd := true } [0x35000]).1 = some [0x35000] ∧
      (s.hubAddrs 0 { w := true } [0x36000]).1 = some [0x36000] ∧ ([0x35000, 0x36000].all isLocal) = true ∧ (s.nodeUnits 0 5 1).1 = true ∧ (s.snoopLines [0x36000 / 64]).1 = true := by decide +kernel
theorem witness_TaskEvents_sample : let s := graph 5 .ready sampleMem
    let x := BitVec.ofNat 2048 (leNat ((s.hubReadVa 0 0x31000 256 6).1.getD []))
    readyNode s 5 5 = some (node0 5 .ready) ∧ (s.hubReadVa 0 0x30000 32 2).1.isSome = true ∧ drawLanes false (BitVec.allOnes 256) x 0 ≠ [] ∧
      ((drawLanes false (BitVec.allOnes 256) x 0).any fun i => fmtFP32.value (elem x 32 i) == .inf false) = false ∧
      (s.hubAddrs 0 { w := true } ((resultParts 0x36000).map (·.1))).1.isSome = true ∧ (s.hubReadVa 0 0x32000 256 6).1.isSome = true ∧
      (s.snoopLines [0x36000 / 64]).1 = true := by decide +kernel
theorem witness_TaskEvents_hostsig : let s := graph 6 .ready tables
    readyNode s 5 6 = some (node0 6 .ready) ∧ (node0 6 .ready).entry % 8 = 0 ∧ (s.hubTranslate 0 0x20000 { w := true }).1 = some 0x20000 ∧
      (s.snoopLines [0x20000 / 64]).1 = true := by decide +kernel
theorem witness_TaskEvents_rename : let v : Rename := { queue := 0, asid := 0, node := 3, range := { page := 0, npg := 1 }, chunk := 0x80000, chunks := 1 }
    let s := (graph 0 .done tables).modHub fun h => { h with renames := [v] }
    s.hub.renames[0]? = some v ∧ scheduling s = true ∧ copyHomeDue s 0 v = true ∧ (s.snoopLines (s.homeLines v)).1 = true := by decide +kernel
theorem witness_TaskEvents_trigger : let t : Trigger := { src := .idleQueue 3, threshold := 0, node := 0x800, queue := 3, armed := true }
    let s := (graph 0 .done []).modHub fun h => { h with triggers := [(63, t)] }
    kvGet s.hub.triggers 63 = some t ∧ scheduling s = true ∧ triggerDue s t = true ∧ nodeMoving s t.queue t.node.toNat 0 0 = false := by decide +kernel
/-- A node of no argument that waits for a context. -/
def pooled : State := (graph 0 .ready tables).modHub fun h => { h with pool := [{ node := 5, index := 0, since := 0 }] }
theorem witness_TaskEvents_place : chooseNext pooled (poolOrder pooled) 0 = some (.one (node0 0 .ready, { node := 5, index := 0, since := 0 }), 0) ∧
    suits pooled 0 0 (node0 0 .ready, { node := 5, index := 0, since := 0 }) = true ∧
    (match (pooled.argPage 0 (node0 0 .ready)).1 with | .page _ => true | _ => false) = true := by decide +kernel
/-- The same, where every other context is stopped and context 0 runs a node of priority 0. -/
def crowded : State :=
  let s : State := { pool0 with ctxs := pool0.ctxs.map fun c => { c with status := .stopped } }
  (s.modCtx 0 fun c => { c with status := .running }).modHub fun h => { h with power := .d0 }
theorem witness_TaskEvents_preempt : (poolOrder crowded).any (preempts crowded 0) = true ∧ scheduling crowded = true := by decide +kernel
theorem witness_TaskEvents_cores : State.reset.hub.cores.halted = false ∧ (State.reset.hub.cores.standby = false ∨ State.reset.hub.cores.standby = true) := by decide +kernel

def on0 : State := (run0.modHub fun h => { h with power := .d0 })
theorem witness_VotingEvents_send : let s : State := { on0 with now := sendCycle on0 71 }
    meshPowered s = true ∧ meshLive s 71 = true ∧ (s.tile 71).stalled = false ∧ (s.tile 71).sentFor < s.hub.periodEnd ∧ s.now = sendCycle s 71 := by decide +kernel
theorem witness_VotingEvents_end : let s : State := { on0 with now := on0.hub.periodEnd }
    meshPowered s = true ∧ s.hub.periodEnd ≤ s.now ∧ (s.tile 0).judgedAt < s.hub.periodEnd ∧ meshLive s 0 = true ∧ (s.tile 0).stalled = false := by decide +kernel
theorem witness_VotingEvents_flits : wellFormedFlit (mkFlit 1 1 1 0 0 31) = true ∧ flitSrc (mkFlit 1 1 1 0 0 31) = 1 ∧ flitType (mkFlit 1 1 1 0 0 31) = 1 ∧
    nbr 0 1 = some 1 ∧ portOpen on0 0 1 = true ∧ wellFormedFlit 0 = false ∧ wellFormedFlit (mkFlit 2 2 1 0 0 0) = true ∧ (neighboursOf 1).contains 2 = true ∧
    dirOf 0 1 = some 1 ∧ hbEn on0 = true ∧ (on0.tile 0).knownFenced.contains 2 = false ∧ meshLive on0 2 = true ∧ wellFormedFlit (mkFlit 7 1 1 0 0 0) = true := by decide +kernel
/-- A FENCE flit that has reached the tile it names. -/
theorem witness_VotingEvents_received : let z : Flit := { dst := some 0, bits := mkFlit 4 1 0 0 0 0, due := 0 }
    let s := on0.modHub fun h => { h with flits := [z] }
    fenceFlit s 0 = some z ∧ (s.tile 0).tested = false ∧ ((s.modTile 0 fun x => { x with selfTest := true }).tile 0).selfTest = true := by decide +kernel
theorem witness_VotingEvents_retired : let s := on0.modHub fun h => { h with retired := [1], fcnts := h.fcnts.set 1 2 }
    s.hub.retired.contains 1 = true ∧ 2 ≤ s.hub.fcnts.get 1 ∧ dirOf 0 1 = some 1 ∧ meshLive (on0.modHub fun h => { h with fcnts := h.fcnts.set 1 2 }) 1 = true := by decide +kernel
theorem witness_VotingEvents_readmit : let s := (on0.modHub fun h => { h with probation := [1] }).setView 0 1 .fenced
    s.hub.probation.contains 1 = true ∧ (viewOf s 0 1).st = .fenced ∧ wellFormedFlit (mkFlit 6 1 1 0 0 0) = true ∧ wellFormedFlit (mkFlit 5 1 1 0 0 1) = true := by decide +kernel
/-- D cycles after a comparison began, with the trailing copy at the partner of context 0. -/
theorem witness_VotingEvents_compared : let i : Inst := { node := 5, lstep := true, abt := true }
    let s := (on0.modBank 0 fun b => { b with inst := some i, cmpFrom := some 0 }).modCtx ((partnerOf 0).getD 1) fun c => { c with status := .mirror 0 }
    (s.bank 0).inst = some i ∧ compared { s with now := lockDelay 0 } 0 = true ∧ (1 : BitVec 32) ≠ 2 := by decide +kernel
/-- The same with both signatures formed, and equal. -/
theorem witness_VotingEvents_match : let v := (partnerOf 0).getD 1
    let s := (((on0.modBank 0 fun b => { b with inst := some { node := 5, lstep := true }, cmpFrom := some 0, effSig := some 7 }).modCtx v fun c =>
      { c with status := .mirror 0 }).modBank v fun b => { b with effSig := some 7 })
    partnerOf 0 = some v ∧ signaturesMatch { s with now := lockDelay 0 } 0 = true := by decide +kernel
theorem witness_VotingEvents_judge : (viewOf on0 0 1).st = .ok ∧ (viewOf on0 0 1).goodBeat = false ∧ (viewOf on0 0 1).partly = false ∧ nbr 0 1 = some 1 ∧
    hbMiss on0 ≤ min 7 ((viewOf ((on0.modView 0 1 fun v => { v with missed := 6 })) 0 1).missed + 1) := by decide +kernel
theorem witness_VotingEvents_fenced : let s := on0.modHub fun h => { h with fenced := [1], remap := [1] }
    s.hub.remap.contains 1 = true ∧ s.hub.fenced.contains 1 = true ∧ s.hub.appealed.contains 1 = false ∧
      ((liveTiles (s.modTile 0 fun x => x)).all fun x => ((s.tile x).knownFenced.contains 1 || x != 1)) = true := by decide +kernel
theorem witness_VotingEvents_lockstep : let s := on0.modBank 0 fun b => { b with inst := some { node := 5, lstep := true } }
    ((s.bank 0).inst.map (·.lstep)) = some true ∧ (∀ l : Who, (s.ctx 0).status ≠ .mirror l) := by
  refine ⟨by decide +kernel, ?_⟩
  intro l h
  have k : (match ((on0.modBank 0 fun b => { b with inst := some { node := 5, lstep := true } }).ctx 0).status with | .mirror _ => true | _ => false) = false := by decide +kernel
  rw [h] at k
  exact Bool.noConfusion k

/-- Sensor 1 of cluster 17 and the supply of cluster 17 have the last identifiers. -/
theorem witness_PowerAndRegisterEvents : (35 : BitVec 8).toNat = 2 * (17 : Cid).val + 1 ∧ (0x51 : BitVec 8).toNat = 0x40 + (17 : Cid).val ∧
    ((priv0 run0).bank 0).priv = true ∧ (run0.bank 0).priv = false ∧ csrRefuses (priv0 run0) 0 0x103 384 = false ∧ legalPc (w64 0x210) = true ∧ csrAccess 0x000 = some .rw ∧
    ((State.reset.cluster 0).temps.all (· ≤ releaseAt)) = true := by decide +kernel
theorem witness_PowerAndRegisterEvents_hot : ((State.reset.modCluster 0 fun x => (x.sensor 0 (BitVec.ofInt 16 throttleAt)).2).cluster 0).temps.any (throttleAt ≤ ·) = true ∧
    tripAt ≤ sext (BitVec.ofInt 16 tripAt).toNat 16 := by decide +kernel
theorem witness_PowerAndRegisterEvents_sleep : allQuiet State.reset = true ∧ allQuiet run0 = false ∧
    on0.hub.power = .d0 ∧ (on0.modHub fun h => { h with power := .d3entry 0 }).hub.power = .d3entry 0 ∧ ({ on0 with now := 2 ^ 40 } : State).sched16 ≥ 2 ^ 24 ∧ (∃ s : State, s.hub.power = .d3hot) ∧ (∃ s : State, s.hub.pair = true ∧ s.hub.training = true) ∧
    ∃ s : State, s.hub.power = .off ∧ s.sched = [{ dt := 0, what := .powerGood true }] := by
  refine ⟨by decide +kernel, by decide +kernel, by decide +kernel, by decide +kernel, by decide +kernel, ⟨run0.modHub fun h => { h with power := .d3hot }, by decide +kernel⟩,
    ⟨run0.modHub fun h => { h with pair := true, training := true }, by decide +kernel⟩,
    ⟨{ run0.modHub fun h => { h with power := .off } with sched := [{ dt := 0, what := .powerGood true }] }, by decide +kernel⟩⟩

theorem witness_MailboxCommands : mailboxOpen on0 = true ∧ leafThere on0 0x8000 = true ∧ pteV (on0.pteNow 0x8000).1 = false ∧
    (tileFree on0 1 && shadowsFree on0 1) = true ∧ (tileFree (priv0 on0) 0 && shadowsFree (priv0 on0) 0) = false ∧ (95 : BitVec 7).toNat < 96 ∧ 96 ≤ (96 : BitVec 7).toNat ∧
    (8 : BitVec 8).toNat ≤ 8 ∧ 8 < (9 : BitVec 8).toNat ∧ (on0.hub.fenced.contains 1 && on0.hub.appealed.contains 1) = false := by decide +kernel
theorem witness_MailboxCommands_present : let s := memS on0 [(0x40000, 0x1F)]
    pteV (s.pteNow 0x8000).1 = true ∧ ptePin (s.pteNow 0x8000).1 = 0 ∧ pteMST (s.pteNow 0x8000).1 < 2 ∧ pteREP (memS on0 [(0x40000, 0x1F), (0x40001, 0x10)] |>.pteNow 0x8000).1 = true ∧
      ptePin (memS on0 [(0x40000, 0x1F), (0x40006, 0x10)] |>.pteNow 0x8000).1 = 1 := by decide +kernel
theorem witness_MailboxCommands_tiles : let s := on0.modHub fun h => { h with fenced := [1], appealed := [1], probation := [1] }
    s.hub.fenced.contains 1 = true ∧ s.hub.appealed.contains 1 = true ∧ s.hub.probation.contains 1 = true ∧ s.hub.table.length < 4096 ∧ scheduling s = true := by decide +kernel
theorem witness_MailboxCommands_stopped : ((on0.modCtx 0 fun c => { c with status := .stopped }).ctx 0).status = .stopped ∧ (on0.ctx 0).status ≠ .stopped := by decide +kernel
theorem witness_MailboxCommands_image : (on0.hubRead 0x20200 1024 18).2.1 = false ∧ ((on0.hubRead 0x20200 1024 18).2.2.hubRead 0x20058 24 3).2.1 = false ∧ isLocal 0x10000 = true ∧
    (on0.snoopLines (linesOf 0x8000000000000 512)).1 = true ∧ spaceOf 0x8000000000000 = .host ∧ pagesHeld on0 = false ∧ (on0.pteFree 0x8000).1 = true ∧
    nodeMoving on0 0 0x800 0 0 = false := by decide +kernel

/-! ## The whole machine -/

theorem witness_EncodedBytesDecode : (Instr.mma hd ⟨15, 1, 2, 127, 3, 33⟩).wf = true ∧ (encodeWord (.mma hd ⟨15, 1, 2, 127, 3, 33⟩)).isSome = true ∧
    encodeWord (.ltTick 0) = none := by decide
theorem witness_StepKeepsMemoryForm : Mem.wf placed.hub.mem = true ∧ placed.hub.mem ≠ [] ∧
    (match step placed with | .next t => Mem.wf t.hub.mem | _ => false) = true := by decide +kernel
theorem test_reset_mem : Mem.wf State.reset.hub.mem = true := by decide

/-! ## Single effects, with results worked out by hand from the rules -/

/-- The scalar `d` after one word of the current context. -/
def after (i : Instr) (s : State) (d : BitVec 5) : Word := match exec i s with
  | .next t => t.curBank.r.sreg d
  | _ => 0
def pred (i : Instr) (s : State) (d : BitVec 3) : Bool := match exec i s with
  | .next t => t.curBank.r.preg d
  | _ => false
def pcOf (i : Instr) (s : State) : BitVec 60 := match exec i s with
  | .next t => t.curBank.f.pc
  | _ => 0
def at0 (l : List (BitVec 5 × Word)) : State := withS run0 l

/-- 2^64 − 1 plus 2 is 1 (R328). -/
theorem test_add_wraps : after (.add hd (bodyS 1 2 3 0)) (at0 [(2, 0xFFFFFFFFFFFFFFFF), (3, 2)]) 1 = 1 := by decide +kernel
/-- A destination that is also a source. -/
theorem test_sub_self : after (.sub hd (bodyS 2 3 2 0)) (at0 [(2, 5), (3, 3)]) 2 = 0xFFFFFFFFFFFFFFFE := by decide +kernel
/-- The signed high half of −1 × 2 is −1, the unsigned 1, and signed × unsigned −1 (R328). -/
theorem test_mulh : after (.mulh hd (bodyS 1 2 3 0)) (at0 [(2, 0xFFFFFFFFFFFFFFFF), (3, 2)]) 1 = 0xFFFFFFFFFFFFFFFF ∧
    after (.mulh hd (bodyS 1 2 3 1)) (at0 [(2, 0xFFFFFFFFFFFFFFFF), (3, 2)]) 1 = 1 ∧
    after (.mulh hd (bodyS 1 2 3 2)) (at0 [(2, 0xFFFFFFFFFFFFFFFF), (3, 2)]) 1 = 0xFFFFFFFFFFFFFFFF := by decide +kernel
/-- −7 / 2 truncates to −3 with rest −1; a division by 0 gives all ones and the dividend (R328). -/
theorem test_div : after (.div hd (bodyS 1 2 3 0)) (at0 [(2, 0xFFFFFFFFFFFFFFF9), (3, 2)]) 1 = 0xFFFFFFFFFFFFFFFD ∧
    after (.rem hd (bodyS 1 2 3 0)) (at0 [(2, 0xFFFFFFFFFFFFFFF9), (3, 2)]) 1 = 0xFFFFFFFFFFFFFFFF ∧
    after (.div hd (bodyS 1 2 3 0)) (at0 [(2, 9)]) 1 = 0xFFFFFFFFFFFFFFFF ∧ after (.rem hd (bodyS 1 2 3 1)) (at0 [(2, 9)]) 1 = 9 := by decide +kernel
/-- The shift amount is taken modulo 64 (R328). -/
theorem test_shift : after (.sra hd (bodyS 1 2 3 0)) (at0 [(2, 0x8000000000000000), (3, 67)]) 1 = 0xF000000000000000 ∧
    after (.shl hd (bodyS 1 2 3 0)) (at0 [(2, 3), (3, 64)]) 1 = 3 := by decide +kernel
/-- `li` takes 27 signed bits, `lsh` appends 22 (R329). -/
theorem test_constants : after (.li hd ⟨1, 0x4000000⟩) run0 1 = 0xFFFFFFFFFC000000 ∧ after (.lsh hd ⟨1, 0, 5⟩) (at0 [(1, 3)]) 1 = 3 * 2 ^ 22 + 5 := by decide +kernel
/-- 0xABCD: the field of 8 bits at 4 is 0xBC; inserted at 8 it is 0xBCxx (R330). -/
theorem test_fields : after (.bfx hd (bodyS 1 2 0 (4 + 7 * 64))) (at0 [(2, 0xABCD)]) 1 = 0xBC ∧ after (.bfi hd (bodyS 1 2 0 (8 + 7 * 64))) (at0 [(1, 0x1234), (2, 0xBC)]) 1 = 0xBC34 := by decide +kernel
/-- −1 is below 1 as a signed number and not as an unsigned one (R331). -/
theorem test_cmp : pred (.cmp hd (bodyS 1 2 3 2)) (at0 [(2, 0xFFFFFFFFFFFFFFFF), (3, 1)]) 1 = true ∧ pred (.cmp hd (bodyS 1 2 3 4)) (at0 [(2, 0xFFFFFFFFFFFFFFFF), (3, 1)]) 1 = false := by decide +kernel
/-- p0 is true whatever is written (R31), and a branch of one packet forward to slot 2 (R39). -/
theorem test_control : pred (.plog hd ⟨0, 0, 0, 7⟩) run0 0 = true ∧ pcOf (.br hd ⟨0, 1, 2⟩) run0 = 0x28 := by decide +kernel
/-- A signed byte: 0x80 loads as −128, and a byte of the same address as 128 (R135). -/
theorem test_load : (let s := memS mem0 [(0x10008, 0x80)]
    after (.ld hd (bodyS 4 3 5 (4 * 2 ^ 14 + 8))) s 4 = 0xFFFFFFFFFFFFFF80 ∧ after (.ld hd (bodyS 4 3 5 8)) s 4 = 0x80) := by decide +kernel
/-- 1.0 + 2^−24 is a tie, to even 1.0, inexact; 1.0 + 1.5 × 2^−24 rounds up (R215). -/
theorem test_round : (roundFlagged .fp32 (Machine.Num.add (fmtFP32.value 0x3F800000) (fmtFP32.value 0x33800000))).1 = 0x3F800000 ∧
    (roundFlagged .fp32 (Machine.Num.add (fmtFP32.value 0x3F800000) (fmtFP32.value 0x33C00000))).1 = 0x3F800001 ∧
    (roundFlagged .fp32 (Machine.Num.add (fmtFP32.value 0x3F800000) (fmtFP32.value 0x33800000))).2 ≠ 0 := by decide +kernel
/-- 100 + 100 at INT8 saturates at 127, and wraps to −56 (R225). -/
theorem test_int8 : (reduceInt .int8 true 200).1 = 127 ∧ (reduceInt .int8 false 200).1 = 200 := by decide +kernel
/-- CRC-32 of the nine digits is the check value of that polynomial (R267). -/
theorem test_crc : crc32 [0x31, 0x32, 0x33, 0x34, 0x35, 0x36, 0x37, 0x38, 0x39] = 0xCBF43926 := by decide +kernel
/-- The example of R14: tile 51 is position 1 of cluster 13, at column 9 and row 2. -/
theorem test_tile : tileAt 13 1 = 51 ∧ Tid.cluster 51 = 13 ∧ Tid.pos 51 = 1 ∧ Tid.col 51 = 9 ∧ Tid.row 51 = 2 := by decide
/-- The example of R96: the row at 0x1_0000_0000 lies in channel 16. -/
theorem test_channel : channelOf 0x100000000 = 16 ∧ channelOf 0x100001000 = 17 := by decide
/-- The example of R302: 3.0, 5.0, 5.0 and NaN from base 100, then (5.0, 102) and (4.0, 7). -/
theorem test_topk : let l := ({ tag := .fp32, k := 4 } : TopkList).feed 0xF { bits := 0x7FC0000040A0000040A0000040400000, tag := .fp32 } 100
    l.entries = [(0x40A00000, 101), (0x40A00000, 102), (0x40400000, 100)] ∧
      (l.merge 3 { bits := 0x4080000040A00000, tag := .fp32 } { bits := 0x0000000700000066, tag := .idx }).entries =
        [(0x40A00000, 101), (0x40A00000, 102), (0x40800000, 7), (0x40400000, 100)] := by decide +kernel
/-- `vexp2` of 3.0 is 8.0 exactly (R215). -/
theorem test_exp2 : roundFP32 (exp2Num (fmtFP32.value 0x40400000)) = (0x41000000, 0) := by decide +kernel

/-- R160: a line is rebuilt while at most two lines of its row are in error or in failed banks; bank 0 of group B has number 32. -/
theorem test_row_rebuilds :
    rowRebuilds { bad := [(0, true), (64, true)] } 0 = true ∧ rowRebuilds { bad := [(0, true)], failedBanks := [1, 2] } 0 = false ∧
      rowRebuilds { bad := [(0, true)], failedBanks := [32, 33, 1] } 0 = true ∧ rowRebuilds { bad := [(0x80000, true)], failedBanks := [33, 34] } 0x80000 = false := by
  decide +kernel
/-- R414: an error armed for the read of a home slice word waits for that word, and is met once. -/
theorem test_inject_region :
    let t : Tile := { errinj := 0xD400000000000040 }
    (t.injectIn 2 0x40 8 true).errs = [{ arr := 2, addr := 0x40, ue := true }] ∧ bit (t.injectIn 2 0x40 8 true).errinj.toNat 63 = false ∧
      t.injectIn 2 0x48 8 true = t ∧ t.injectIn 2 0x40 8 false = t ∧ t.inject 0x40 8 true = t := by decide +kernel

end Sys2Proof.Tests
end

section
/-! PROOFS. Words without effect (R46, R337): they belong to no queue and no pair class, and only advance the front end. -/
namespace Sys2Proof.Machine

/-! ## Hint opcodes belong to no queue and no pair class -/

theorem coClass_hint {op : Nat} (h : 0xF0 ≤ op) : coClass op = none := by
  have beyondC : 0xDF < op := by omega
  simp [coClass, beyondC]

theorem queueOfOp_hint {op : Nat} (h : 0xF0 ≤ op) : queueOfOp op = none := by
  have notL : ¬ op ≤ 0x5F := by omega
  have notS : ¬ op ≤ 0x6F := by omega
  have notC : ¬ op ≤ 0xDF := by omega
  simp [queueOfOp, notL, notS, notC]

/-! ## A skipped word keeps the registers and falls through -/

theorem word48_undefinedHint (w : BitVec 48) : word48 (.undefinedHint w) = w := wordOf_fields w

theorem skipWord_word48 (i : Instr) (s : State) : skipWord (word48 i) s = regsDone s i s.curBank.r := by
  rw [skipWord, plain_frontDone, regsDone, fallThrough_eq]

/-- An instruction whose meaning is to skip its own word leaves every register, whatever its guard. -/
theorem exec_of_skipWord {i : Instr} {w : BitVec 48} {s : State} (skips : exec i s = .next (skipWord w s)) (own : word48 i = w) :
    exec i s = .next (regsDone s i s.curBank.r) := by
  rw [skips, ← own, skipWord_word48]

/-- Settles O10: the opcode ranges give the first part, and each of the five words skips its own word. -/
theorem wordsWithoutEffect : Obligations.WordsWithoutEffect := by
  refine ⟨fun op h => ⟨coClass_hint h, queueOfOp_hint h⟩, fun h x s => ⟨?nop, ?hintPf, ?hintHot, ?hintLoop⟩, fun w s => ?undefinedHint⟩
  case nop => exact exec_of_skipWord (w := wordOf 0x00 h x) rfl rfl
  case hintPf => exact exec_of_skipWord (w := wordOf 0xF0 h x) rfl rfl
  case hintHot => exact exec_of_skipWord (w := wordOf 0xF1 h x) rfl rfl
  case hintLoop => exact exec_of_skipWord (w := wordOf 0xF2 h x) rfl rfl
  case undefinedHint => exact exec_of_skipWord rfl (word48_undefinedHint w)

end Sys2Proof.Machine
end

section
/-! PROOFS. Front-end words of the scalar registers, predicates and branches (R328 to R335): what their operations answer, and the word's end. -/
namespace Sys2Proof.Machine

/-! ## A word of the front end that runs, traps, or is guarded off -/

theorem wordInfo_eq (w : BitVec 48) : wordInfo w = w.setWidth 64 := BitVec.ofNat_toNat 64 w

/-- A word of registers whose guard holds and whose operation answers `r`. -/
theorem exec_regsDone {i : Instr} {h : Hdr} {op : Regs → Except Stop Regs} {s : State} {r : Regs} (on : guardOn h s = true)
    (meaning : exec i s = .next (feRegs h (word48 i) op s)) (answer : op s.curBank.r = .ok r) : exec i s = .next (regsDone s i r) := by
  rw [meaning, feRegs_ok h i op s r on answer]

/-- A word of registers whose guard holds and whose operation refuses the word as illegal. -/
theorem exec_illegal {i : Instr} {h : Hdr} {op : Regs → Except Stop Regs} {s : State} (on : guardOn h s = true)
    (meaning : exec i s = .next (feRegs h (word48 i) op s))
    (answer : op s.curBank.r = .error (.trap Cause.illegalInstruction (wordInfo (word48 i)))) :
    exec i s = .next (s.trapHere Cause.illegalInstruction (wordAsInfo i)) := by
  rw [meaning, feRegs_trap h _ op s _ _ on answer, wordInfo_eq]
  rfl

/-- A word whose guard is false falls through, whatever it would do. -/
theorem exec_guardOff {i : Instr} {h : Hdr} {run : Who → M (Front → Front)} {s : State} (off : guardOn h s = false)
    (meaning : exec i s = .next (feWordGo h (word48 i) run s)) : exec i s = .next (regsDone s i s.curBank.r) :=
  exec_of_skipWord (w := word48 i) (by rw [meaning, feWordGo_off h _ run s off]; rfl) rfl

/-- A word whose guard holds and that goes to `target`, its bank changed by `upd`. -/
theorem exec_goTo {i : Instr} {h : Hdr} {run : Who → M (Front → Front)} {s : State} {upd : Bank → Bank} {target : BitVec 60}
    (on : guardOn h s = true) (meaning : exec i s = .next (feWordGo h (word48 i) run s))
    (runs : (run s.cur).run.run s = (.ok fun x => x.jump target, s.modBank s.cur upd)) :
    exec i s = .next (frontDone s i { upd s.curBank with f := goTo (upd s.curBank).f target }) := by
  rw [meaning, feWordGo_ok h _ run s _ _ on runs, modBank_frontDone, goTo_eq]

/-! ## Values of the three-register words (R328) -/

/-- Bit `k` of a number, as its bits are read. -/
theorem bit_eq_testBit (x k : Nat) : bit x k = x.testBit k := Nat.testBit_eq_decide_div_mod_eq.symm

theorem bit_toNat {n : Nat} (x : BitVec n) (k : Nat) : bit x.toNat k = x.getLsbD k := bit_eq_testBit x.toNat k

/-- A three-register word writes what its operation answers for s[a] and s[b]; `e` names its fields and the value `g` of the table. -/
theorem exec_of_alu3 {i : Instr} {op : BitVec 8} {h h' : Hdr} {f f' : FS} {v g g' : Word → Word → Word} {s : State}
    (on : guardOn h s = true) (e : some (h', f', g') = some (h, f, g))
    (meaning : exec i s = .next (alu3 op h' f' v s)) (own : word48 i = wordOf op h' f'.toBody) (value : ∀ a b, v a b = g' a b) :
    exec i s = .next (regsDone s i (s.curBank.r.setS f.d (g (s.curBank.r.sreg f.a) (s.curBank.r.sreg f.b)))) := by
  cases e
  rw [alu3, ← own] at meaning
  exact exec_regsDone on meaning (by rw [value])

theorem ofInt_sub_toNat (a b : Word) : BitVec.ofInt 64 ((a.toNat : Int) - b.toNat) = a - b := by
  rw [Int.sub_eq_add_neg, BitVec.ofInt_add, BitVec.ofInt_neg, BitVec.ofInt_natCast, BitVec.ofInt_natCast]
  simp [BitVec.sub_eq_add_neg]

theorem shiftLeft_eq_ofNat (a : Word) (n : Nat) : a <<< n = BitVec.ofNat 64 (a.toNat * 2 ^ n) := by
  apply BitVec.eq_of_toNat_eq
  rw [BitVec.toNat_shiftLeft, Nat.shiftLeft_eq, BitVec.toNat_ofNat]

theorem ushiftRight_eq_ofNat (a : Word) (n : Nat) : a >>> n = BitVec.ofNat 64 (a.toNat / 2 ^ n) := by
  rw [← Nat.shiftRight_eq_div_pow, ← BitVec.toNat_ushiftRight, BitVec.ofNat_toNat, BitVec.setWidth_eq]

theorem sshiftRight_eq_ofInt (a : Word) (n : Nat) : a.sshiftRight n = BitVec.ofInt 64 (a.toInt / 2 ^ n) := by
  rw [BitVec.sshiftRight, Int.shiftRight_eq_div_pow, Nat.cast_pow, Nat.cast_ofNat]

theorem mul_eq_ofNat (a b : Word) : a * b = BitVec.ofNat 64 (a.toNat * b.toNat) := by
  apply BitVec.eq_of_toNat_eq
  rw [BitVec.toNat_mul, BitVec.toNat_ofNat]

theorem mulHigh_unsigned (a b : Word) : mulHigh 1 a b = BitVec.ofNat 64 (a.toNat * b.toNat / 2 ^ 64) := by
  rw [← BitVec.ofInt_natCast]
  simp [mulHigh]

theorem ofNat_toNat_same (a : Word) : BitVec.ofNat 64 a.toNat = a := by simp

/-- The smaller of two words, as a reading of words orders them. -/
theorem word_min {α : Type} [LinearOrder α] {read : Word → α} {word : α → Word} (back : ∀ x, word (read x) = x) (a b : Word) :
    word (min (read a) (read b)) = if read a < read b then a else b := by
  split
  next less => rw [min_eq_left less.le, back]
  next less => rw [min_eq_right (not_lt.mp less), back]

/-- The larger of two words, as a reading of words orders them. -/
theorem word_max {α : Type} [LinearOrder α] {read : Word → α} {word : α → Word} (back : ∀ x, word (read x) = x) (a b : Word) :
    word (max (read a) (read b)) = if read a < read b then b else a := by
  split
  next less => rw [max_eq_right less.le, back]
  next less => rw [max_eq_left (not_lt.mp less), back]

/-- Codes 0 and 1 compare as signed numbers, 2 and 3 as unsigned ones. -/
theorem minmaxWord_eq (k : Nat) (a b : Word) (legal : k < 4) : minmaxWord k a b =
    if k = 0 then BitVec.ofInt 64 (min a.toInt b.toInt)
    else if k = 1 then BitVec.ofInt 64 (max a.toInt b.toInt)
    else if k = 2 then BitVec.ofNat 64 (min a.toNat b.toNat)
    else BitVec.ofNat 64 (max a.toNat b.toNat) := by
  rw [word_min fun x => BitVec.ofInt_toInt, word_max fun x => BitVec.ofInt_toInt, word_min ofNat_toNat_same, word_max ofNat_toNat_same]
  interval_cases k <;> simp [minmaxWord]

/-- Settles O2: the words of `alu3` by the value of each operation, and `mulh` by its three legal codes. -/
theorem threeRegisterWords : Obligations.ThreeRegisterWords := by
  refine ⟨fun i h f g s => ?_, fun h f s on code => ?reserved⟩
  case reserved => exact exec_illegal on rfl (if_pos code)
  fun_cases threeReg i <;> intro e on
  case case1 => exact exec_of_alu3 on e rfl rfl BitVec.add_def
  case case2 => exact exec_of_alu3 on e rfl rfl fun a b => (ofInt_sub_toNat a b).symm
  case case3 | case4 | case5 => exact exec_of_alu3 on e rfl rfl fun _ _ => rfl
  case case6 => exact exec_of_alu3 on e rfl rfl fun a b => shiftLeft_eq_ofNat a (amt b)
  case case7 => exact exec_of_alu3 on e rfl rfl fun a b => ushiftRight_eq_ofNat a (amt b)
  case case8 => exact exec_of_alu3 on e rfl rfl fun a b => sshiftRight_eq_ofInt a (amt b)
  case case9 => exact exec_of_alu3 on e rfl rfl mul_eq_ofNat
  case case10 code => obtain ⟨⟩ := e; exact exec_regsDone on rfl (by simp [code, mulHigh])
  case case11 code => obtain ⟨⟩ := e; exact exec_regsDone on rfl (by simp [code, mulHigh_unsigned])
  case case12 code => obtain ⟨⟩ := e; exact exec_regsDone on rfl (by simp [code, mulHigh])
  case case14 => exact exec_of_alu3 on e rfl rfl fun _ _ => by simp only [divWord, bit_toNat]; rfl
  case case15 => exact exec_of_alu3 on e rfl rfl fun _ _ => by simp only [remWord, bit_toNat]; rfl
  case case16 => exact exec_of_alu3 on e rfl rfl fun a b => minmaxWord_eq _ a b (Nat.mod_lt _ (by decide))
  case case13 | case17 => nomatch e

end Sys2Proof.Machine
end

section
/-! PROOFS. The immediate words, the predicate words and `sel` (R329, R331 to R333). -/
namespace Sys2Proof.Machine

/-! ## Values of the immediate words (R329) -/

/-- An immediate word writes what its operation answers for s[a] and the immediate; `e` names its destination and the value `g` of the table. -/
theorem exec_of_aluI {i : Instr} {op : BitVec 8} {h h' : Hdr} {d : BitVec 5} {f : FI} {v : Word → BitVec 22 → Word} {g g' : Regs → Word}
    {s : State} (on : guardOn h s = true) (e : some (h', f.d, g') = some (h, d, g))
    (meaning : exec i s = .next (aluI op h' f v s)) (own : word48 i = wordOf op h' f.toBody) (value : ∀ r, v (r.sreg f.a) f.imm = g' r) :
    exec i s = .next (regsDone s i (s.curBank.r.setS d (g s.curBank.r))) := by
  cases e
  rw [aluI, ← own] at meaning
  exact exec_regsDone on meaning (by rw [value])

theorem add_sx22_eq_ofInt (a : Word) (imm : BitVec 22) : a + sx22 imm = BitVec.ofInt 64 (a.toInt + imm.toInt) := by
  rw [BitVec.ofInt_add, BitVec.ofInt_toInt, sx22, BitVec.signExtend]

/-- 22 bits appended below a word. -/
theorem append22_eq_ofNat (a : Word) (imm : BitVec 22) :
    (a <<< 22) ||| imm.zeroExtend 64 = BitVec.ofNat 64 (a.toNat * 2 ^ 22 + imm.toNat) := by
  have below : imm.toNat < 2 ^ 22 := imm.isLt
  have above : a.toNat * 2 ^ 22 % 2 ^ 64 = 2 ^ 22 * (a.toNat % 2 ^ 42) := by
    rw [Nat.mul_comm, ← Nat.mul_mod_mul_left, ← Nat.pow_add]
  apply BitVec.eq_of_toNat_eq
  calc ((a <<< 22) ||| imm.zeroExtend 64).toNat
      = 2 ^ 22 * (a.toNat % 2 ^ 42) ||| imm.toNat := by
        rw [BitVec.toNat_or, BitVec.toNat_shiftLeft, Nat.shiftLeft_eq, above, BitVec.zeroExtend, BitVec.toNat_setWidth_of_le (by decide)]
    _ = a.toNat * 2 ^ 22 % 2 ^ 64 + imm.toNat := by rw [above, Nat.two_pow_add_eq_or_of_lt below]
    _ = (BitVec.ofNat 64 (a.toNat * 2 ^ 22 + imm.toNat)).toNat := by
        rw [BitVec.toNat_ofNat]
        omega

/-- Settles O3: the words of `aluI` by the value of each operation, `li` and `lsh` on their own. -/
theorem immediateWords : Obligations.ImmediateWords := by
  intro i h d g s
  fun_cases immReg i <;> intro e on
  case case1 => exact exec_of_aluI on e rfl rfl fun r => add_sx22_eq_ofInt _ _
  case case2 | case3 | case4 => exact exec_of_aluI on e rfl rfl fun _ => rfl
  case case5 => exact exec_of_aluI on e rfl rfl fun r => shiftLeft_eq_ofNat _ _
  case case6 => exact exec_of_aluI on e rfl rfl fun r => ushiftRight_eq_ofNat _ _
  case case7 => exact exec_of_aluI on e rfl rfl fun r => sshiftRight_eq_ofInt _ _
  case case8 => obtain ⟨⟩ := e; exact exec_regsDone on rfl rfl
  case case9 => obtain ⟨⟩ := e; exact exec_regsDone on rfl (by rw [append22_eq_ofNat])
  case case10 => nomatch e

/-! ## Conditions and predicates (R331, R332) -/

/-- `sext` reads the low `n` bits as a signed number. -/
theorem sext_eq_toInt (x n : Nat) : sext x n = (BitVec.ofNat n x).toInt := by
  have halves : 2 * (x % 2 ^ n) < 2 ^ n ↔ x % 2 ^ n < 2 ^ (n - 1) := by
    cases n with
    | zero => simp
    | succ m => rw [Nat.pow_succ', Nat.mul_lt_mul_left (by decide), Nat.add_sub_cancel]
  simp only [sext, BitVec.toInt, BitVec.toNat_ofNat, halves, Nat.cast_pow, Nat.cast_ofNat]

/-- The legal condition codes, and what they say. -/
theorem cond_says {c : Nat} {k : Word → Word → Bool} (e : predReg.cond c = some k) : c < 6 ∧ ∀ x y, condHolds c x y = k x y := by
  revert e
  fun_cases predReg.cond c <;> rintro ⟨⟩ <;> exact ⟨by decide, fun _ _ => rfl⟩

theorem cmpRegs_legal {c : Nat} {k : Word → Word → Bool} (e : predReg.cond c = some k) (word : BitVec 48) (d : BitVec 5)
    (x y : Regs → Word) (r : Regs) : cmpRegs word c d x y r = .ok (r.setP (BitVec.ofNat 3 d.toNat) (k (x r) (y r))) := by
  obtain ⟨legal, sound⟩ := cond_says e
  rw [cmpRegs, if_neg (not_le.mpr legal), sound]

theorem cmpRegs_reserved {c : Nat} (reserved : 6 ≤ c) (word : BitVec 48) (d : BitVec 5) (x y : Regs → Word) (r : Regs) :
    cmpRegs word c d x y r = .error (.trap Cause.illegalInstruction (wordInfo word)) := if_pos reserved

/-- The condition of `cmpi` is the whole of its immediate above bit 18. -/
theorem cmpi_code (imm : BitVec 22) : bits imm.toNat 19 3 = imm.toNat / 2 ^ 19 := by
  rw [bits, Nat.mod_eq_of_lt (by omega)]

/-- Settles O5: a compare by the condition of its code, `plog` by its table. -/
theorem predicateWords : Obligations.PredicateWords := by
  refine ⟨fun i h d g s => ?legal, fun h s on => ⟨fun f code => ?cmp, fun f code => ?cmpi⟩⟩
  case cmp => exact exec_illegal on rfl (cmpRegs_reserved code ..)
  case cmpi => exact exec_illegal on rfl (cmpRegs_reserved (by rwa [cmpi_code]) ..)
  case legal =>
    fun_cases predReg i <;> intro e on
    case case1 =>
      obtain ⟨k, code, ⟨⟩⟩ := Option.map_eq_some_iff.mp e
      exact exec_regsDone on rfl (cmpRegs_legal code ..)
    case case2 =>
      obtain ⟨k, code, ⟨⟩⟩ := Option.map_eq_some_iff.mp e
      rw [← cmpi_code] at code
      exact exec_regsDone on rfl (by rw [cmpRegs_legal code, sext_eq_toInt, w64i])
    case case3 => obtain ⟨⟩ := e; exact exec_regsDone on rfl rfl
    case case4 => nomatch e

/-- Settles O6: the meaning of `sel` chooses by p[PS] and N, which is bit 3 of the function. -/
theorem selectWord : Obligations.SelectWord := by
  intro h f s on
  exact exec_regsDone on rfl (by rw [bit_toNat])

end Sys2Proof.Machine
end

section
/-! PROOFS. `bitop`, `bfx` and `bfi`, bit by bit (R330). -/
namespace Sys2Proof.Machine

/-! ## Leading and trailing zeros, and the number of ones -/

theorem w64_toNat {x : Nat} (small : x < 2 ^ 64) : (w64 x).toNat = x := by
  rw [w64, BitVec.toNat_ofNat, Nat.mod_eq_of_lt small]

/-- The position of the highest one bit gives the leading zeros. -/
theorem bitop_leadingZeros (x : Word) : bitopSays 0 x (bitopWord 0 x) := by
  by_cases zero : x = 0
  · exact .inl ⟨zero, if_pos zero⟩
  · have positive : x.toNat ≠ 0 := fun empty => zero (BitVec.eq_of_toNat_eq empty)
    have top : x.toNat.log2 < 64 := (Nat.log2_lt positive).mpr x.isLt
    have count : (bitopWord 0 x).toNat = 63 - x.toNat.log2 := by
      rw [bitopWord, if_neg zero, w64_toNat (by omega)]
    refine .inr ?_
    rw [count, show 63 - (63 - x.toNat.log2) = x.toNat.log2 by omega, show 64 - (63 - x.toNat.log2) = x.toNat.log2 + 1 by omega]
    exact ⟨by omega, Nat.log2_self_le positive, Nat.lt_log2_self⟩

/-- The bits below the first one are zero. -/
theorem mod_two_pow_eq_zero {x n : Nat} (zeros : ∀ i < n, x.testBit i = false) : x % 2 ^ n = 0 := by
  apply Nat.eq_of_testBit_eq
  intro i
  rw [Nat.testBit_mod_two_pow, Nat.zero_testBit]
  by_cases below : i < n
  · rw [zeros i below, Bool.and_false]
  · rw [decide_eq_false below, Bool.false_and]

/-- The place of the first one bit of a word, 64 where it has none. -/
def firstOne (x : Word) : Nat := (List.range 64).findIdx fun i => x.getLsbD i

theorem firstOne_le (x : Word) : firstOne x ≤ 64 := by
  simpa [firstOne] using List.findIdx_le_length (xs := List.range 64) (p := fun i => x.getLsbD i)

theorem firstOne_says (x : Word) (found : firstOne x < 64) : x.getLsbD (firstOne x) = true ∧ ∀ i < firstOne x, x.getLsbD i = false := by
  simpa using (List.findIdx_eq (p := fun i => x.getLsbD i) (xs := List.range 64) (found.trans_eq List.length_range.symm)).mp rfl

theorem eq_zero_of_firstOne (x : Word) (absent : firstOne x = 64) : x = 0 := by
  have zeros : ∀ i ∈ List.range 64, x.getLsbD i = false := List.findIdx_eq_length.mp (absent.trans List.length_range.symm)
  exact BitVec.eq_of_getLsbD_eq fun i within => (zeros i (List.mem_range.mpr within)).trans BitVec.getLsbD_zero.symm

theorem trailingZeros_eq_firstOne (x : Word) : bitopWord 1 x = w64 (firstOne x) := by
  simp only [bitopWord, bit_toNat, List.takeWhile_eq_take_findIdx_not, Bool.not_not, List.length_take, List.length_range]
  exact congrArg w64 (Nat.min_eq_left (firstOne_le x))

theorem bitop_trailingZeros (x : Word) : bitopSays 1 x (bitopWord 1 x) := by
  rw [trailingZeros_eq_firstOne]
  rcases (firstOne_le x).lt_or_eq with found | absent
  · obtain ⟨one, zeros⟩ := firstOne_says x found
    refine .inr ?_
    rw [w64_toNat (by omega)]
    exact ⟨found, mod_two_pow_eq_zero zeros, by simpa [bit] using (bit_toNat x _).trans one⟩
  · exact .inl ⟨eq_zero_of_firstOne x absent, by rw [absent]; rfl⟩

theorem bitop_ones (x : Word) : bitopSays 2 x (bitopWord 2 x) := by
  have few : ((List.range 64).filter fun k => x.getLsbD k).length ≤ 64 := by
    simpa using List.length_filter_le (fun k => x.getLsbD k) (List.range 64)
  simp only [bitopSays, bitopWord, bit_toNat]
  exact w64_toNat (by omega)

/-! ## The mirror image -/

/-- The first `n` steps of the sum leave a number of `n` bits in reverse order at the top of the word. -/
theorem mirror_sum (x n : Nat) (fits : n ≤ 64) : ∃ c,
    (List.range n).foldl (fun a i => a + flag (bit x i) (63 - i)) 0 = 2 ^ (64 - n) * c ∧
    ∀ j, c.testBit j = (decide (j < n) && x.testBit (n - 1 - j)) := by
  induction n with
  | zero => exact ⟨0, rfl, fun j => by simp⟩
  | succ n ih =>
    obtain ⟨c, sum, mirrored⟩ := ih (by omega)
    refine ⟨2 ^ 1 * c + (bit x n).toNat, ?_, fun j => ?_⟩
    · rw [List.range_succ, List.foldl_append, sum, show 64 - n = (64 - (n + 1)) + 1 by omega, show 64 - (n + 1) = 63 - n by omega]
      cases one : bit x n <;> simp [flag, one] <;> ring
    · rw [Nat.testBit_two_pow_mul_add _ (by cases bit x n <;> decide)]
      cases j with
      | zero => cases one : x.testBit n <;> simp [bit_eq_testBit, one]
      | succ j => simp [mirrored, show n - 1 - j = n - (j + 1) by omega]

theorem bitop_mirror (x : Word) (k : Nat) (within : k < 64) : (bitopWord 3 x).getLsbD k = x.getLsbD (63 - k) := by
  obtain ⟨c, sum, mirrored⟩ := mirror_sum x.toNat 64 le_rfl
  rw [Nat.sub_self, Nat.pow_zero, Nat.one_mul] at sum
  simp only [bitopWord]
  rw [sum, w64, BitVec.getLsbD_ofNat, mirrored, decide_eq_true within, Bool.true_and, Bool.true_and]
  rfl

theorem bitopWord_says (code : Nat) (legal : code < 4) (x : Word) : bitopSays code x (bitopWord code x) := by
  match code, legal with
  | 0, _ => exact bitop_leadingZeros x
  | 1, _ => exact bitop_trailingZeros x
  | 2, _ => exact bitop_ones x
  | 3, _ => exact bitop_mirror x

/-! ## Fields -/

theorem testBit_bits (x lo n k : Nat) : (bits x lo n).testBit k = (decide (k < n) && x.testBit (lo + k)) := by
  rw [bits, Nat.testBit_mod_two_pow, Nat.testBit_div_two_pow, Nat.add_comm]

theorem bfPos_eq (f : FS) : bfPos f = f.fn.toNat % 64 := by simp [bfPos, bits]
theorem bfLen_eq (f : FS) : bfLen f = f.fn.toNat / 64 % 64 + 1 := by simp [bfLen, bits]

/-- The field of `n` bits at `lo`, zero-extended. -/
theorem getLsbD_field (x : Word) (lo n k : Nat) (within : k < 64) :
    (w64 (bits x.toNat lo n)).getLsbD k = if k < n then x.getLsbD (lo + k) else false := by
  rw [w64, BitVec.getLsbD_ofNat, testBit_bits]
  simp [within, BitVec.getLsbD]

/-- The field of `n` bits at `lo`, sign-extended. -/
theorem getLsbD_signedField (x : Word) (lo n k : Nat) (wide : 0 < n) (within : k < 64) :
    (w64i (sext (bits x.toNat lo n) n)).getLsbD k = if k < n then x.getLsbD (lo + k) else x.getLsbD (lo + n - 1) := by
  rw [sext_eq_toInt, w64i, ← BitVec.signExtend, BitVec.getLsbD_signExtend, BitVec.msb_eq_getLsbD_last]
  simp only [BitVec.getLsbD_ofNat, testBit_bits, within]
  split
  next low => simp [low, BitVec.getLsbD]
  next => simp [wide, BitVec.getLsbD, Nat.add_sub_assoc wide]

/-- A number with its field of `n` bits at `lo` replaced by `x`. -/
theorem insert_eq (old x lo n : Nat) :
    old - bits old lo n * 2 ^ lo + x * 2 ^ lo = 2 ^ lo * (2 ^ n * (old / 2 ^ (lo + n)) + x) + old % 2 ^ lo := by
  have split : old = 2 ^ lo * (2 ^ n * (old / 2 ^ (lo + n)) + bits old lo n) + old % 2 ^ lo := by
    rw [bits, Nat.pow_add, ← Nat.div_div_eq_div_mul, Nat.div_add_mod, Nat.div_add_mod]
  rw [Nat.mul_comm x, Nat.mul_comm (bits old lo n)]
  generalize bits old lo n = field at *
  rw [Nat.mul_add] at *
  omega

theorem getLsbD_insert (old x : Word) (lo n k : Nat) (within : k < 64) :
    (w64 (old.toNat - bits old.toNat lo n * 2 ^ lo + x.toNat % 2 ^ n * 2 ^ lo)).getLsbD k =
      if lo ≤ k ∧ k < lo + n then x.getLsbD (k - lo) else old.getLsbD k := by
  have low : old.toNat % 2 ^ lo < 2 ^ lo := Nat.mod_lt _ (Nat.two_pow_pos lo)
  have field : x.toNat % 2 ^ n < 2 ^ n := Nat.mod_lt _ (Nat.two_pow_pos n)
  rw [insert_eq, w64, BitVec.getLsbD_ofNat, Nat.testBit_two_pow_mul_add _ low, Nat.testBit_two_pow_mul_add _ field]
  simp only [Nat.testBit_mod_two_pow, Nat.testBit_div_two_pow, within, BitVec.getLsbD]
  rcases lt_or_ge k lo with below | above
  · simp [below, not_le.mpr below]
  · have inside : k - lo < n ↔ k < lo + n := Nat.sub_lt_iff_lt_add' above
    by_cases inField : k < lo + n
    · simp [not_lt.mpr above, above, inside, inField]
    · simp [not_lt.mpr above, inside, inField, show k - lo - n + (lo + n) = k by omega]

/-! ## The words -/

/-- What `bfx` extracts from `x` (R330). -/
def bfxWord (f : FS) (x : Word) : Word :=
  let field := bits x.toNat (bfPos f) (bfLen f)
  if bit f.fn.toNat 12 then w64i (sext field (bfLen f)) else w64 field

/-- What `bfi` makes of `old` and the low bits of `x` (R330). -/
def bfiWord (f : FS) (old x : Word) : Word :=
  w64 (old.toNat - bits old.toNat (bfPos f) (bfLen f) * 2 ^ bfPos f + x.toNat % 2 ^ bfLen f * 2 ^ bfPos f)

theorem getLsbD_bfxWord (f : FS) (x : Word) (k : Nat) (within : k < 64) : (bfxWord f x).getLsbD k =
    if k < bfLen f then x.getLsbD (bfPos f + k) else f.fn.getLsbD 12 && x.getLsbD (bfPos f + bfLen f - 1) := by
  rw [bfxWord, bit_toNat]
  cases f.fn.getLsbD 12 with
  | true => exact getLsbD_signedField x _ _ k (Nat.succ_pos _) within
  | false => exact getLsbD_field x _ _ k within

theorem exec_bfx {h : Hdr} {f : FS} {s : State} (on : guardOn h s = true) (fits : bfPos f + bfLen f ≤ 64) :
    exec (.bfx h f) s = .next (regsDone s (.bfx h f) (s.curBank.r.setS f.d (bfxWord f (s.curBank.r.sreg f.a)))) :=
  exec_regsDone on rfl (if_neg (not_lt.mpr fits))

theorem exec_bfi {h : Hdr} {f : FS} {s : State} (on : guardOn h s = true) (fits : bfPos f + bfLen f ≤ 64) :
    exec (.bfi h f) s =
      .next (regsDone s (.bfi h f) (s.curBank.r.setS f.d (bfiWord f (s.curBank.r.sreg f.d) (s.curBank.r.sreg f.a)))) :=
  exec_regsDone on rfl (if_neg (not_lt.mpr fits))

theorem exec_bitop {h : Hdr} {f : FS} {s : State} (on : guardOn h s = true) : exec (.bitop h f) s =
    .next (regsDone s (.bitop h f) (s.curBank.r.setS f.d (bitopWord (f.fn.toNat % 4) (s.curBank.r.sreg f.a)))) :=
  exec_regsDone on rfl rfl

/-- Settles O4: `bitop` by its four codes, a field bit by bit where it fits, and the trap where it does not. -/
theorem bitFieldWords : Obligations.BitFieldWords := by
  intro h f s on
  simp only [← bfPos_eq, ← bfLen_eq]
  refine ⟨⟨_, bitopWord_says _ (Nat.mod_lt _ (by decide)) _, exec_bitop on⟩,
    fun fits => ⟨⟨_, exec_bfx on fits, ?bfx⟩, ⟨_, exec_bfi on fits, ?bfi⟩⟩, fun passes => ⟨?bfxTrap, ?bfiTrap⟩⟩
  case bfx => exact fun k => getLsbD_bfxWord f _ k
  case bfi => exact fun k => getLsbD_insert _ _ _ _ k
  case bfxTrap => exact exec_illegal on rfl (if_pos passes)
  case bfiTrap => exact exec_illegal on rfl (if_pos passes)

end Sys2Proof.Machine
end

section
/-! PROOFS. The transfers of control and `adr` (R335), with the targets of R39 and R334. -/
namespace Sys2Proof.Machine

/-! ## Targets and return PCs -/

theorem packetAddr_toNat (pc : BitVec 60) : (packetAddr pc).toNat = pc.toNat - pc.toNat % 32 := by
  rw [packetAddr, BitVec.toNat_ofNat]
  omega

/-- The low bits of a field, read as signed, are the field read as signed. -/
theorem sext_toNat {n : Nat} (x : BitVec n) : sext x.toNat n = x.toInt := by
  rw [sext_eq_toInt, BitVec.ofNat_toNat, BitVec.setWidth_eq]

theorem fbTarget_eq (pc : BitVec 60) (f : FB) : fbTarget pc f = fbGoal pc f := by
  rw [fbTarget, fbGoal, packetAddr_toNat, sext_toNat]

theorem legalPc_of_legalTarget {t : Word} (legal : legalTarget t) : legalPc t = true := by
  obtain ⟨small, aligned, slot⟩ := legal
  simp only [legalPc, Bool.and_eq_true, decide_eq_true_eq]
  exact ⟨⟨small, aligned⟩, by omega⟩

/-- The PC of the next word, as `call` and `jr` save it. -/
theorem next_eq_followPc (f : Front) : w64 f.next.toNat = (followPc f).setWidth 64 := by
  rw [followPc_eq, w64, BitVec.ofNat_toNat]

/-! ## The steps of a transfer -/

theorem run_takeFb {f : FB} (slot : f.slot.toNat ≤ 4) (w : Who) (word : BitVec 48) (s : State) :
    (takeFb w word f).run.run s = (.ok fun x => x.jump (fbGoal (s.bank w).f.pc f), s) := by
  rw [← fbTarget_eq, takeFb, if_neg (not_lt.mpr slot)]
  rfl

theorem run_takeReg {t : Word} (legal : legalTarget t) (s : State) :
    (takeReg t).run.run s = (.ok fun x => x.jump (t.setWidth 60), s) := by
  rw [takeReg, run_bind_ok (run_ensure_ok (legalPc_of_legalTarget legal) _ _ s), BitVec.ofNat_toNat]
  rfl

theorem run_getB_cur (s : State) : (getB s.cur).run.run s = (.ok s.curBank, s) := rfl

/-! ## The words -/

theorem exec_br {h : Hdr} {f : FB} {s : State} (on : guardOn h s = true) (slot : f.slot.toNat ≤ 4) : exec (.br h f) s =
    .next (frontDone s (.br h f) { s.curBank with f := goTo s.curBank.f (fbGoal s.curBank.f.pc f) }) :=
  exec_goTo (upd := id) on rfl (by rw [run_takeFb slot, State.modBank_same s s.cur id rfl]; rfl)

theorem exec_call {h : Hdr} {f : FB} {s : State} (on : guardOn h s = true) (slot : f.slot.toNat ≤ 4) : exec (.call h f) s =
    .next (frontDone s (.call h f) { s.curBank with
      r := s.curBank.r.setS 31 ((followPc s.curBank.f).setWidth 64), f := goTo s.curBank.f (fbGoal s.curBank.f.pc f) }) := by
  refine exec_goTo (upd := fun b => { b with r := b.r.setS 31 ((followPc b.f).setWidth 64) }) on rfl ?_
  rw [run_bind_ok (run_takeFb slot s.cur _ s)]
  simp only [← next_eq_followPc]
  rfl

/-- The bank of a context after `jr` has saved its return PC, where LINK asks for it. -/
def linked (f : FS) (b : Bank) : Bank :=
  { b with r := if f.fn.getLsbD 0 then b.r.setS f.d ((followPc b.f).setWidth 64) else b.r }

theorem linked_on {f : FS} (link : f.fn.getLsbD 0 = true) : linked f = fun b => b.modR fun r => r.setS f.d (w64 b.f.next.toNat) := by
  funext b
  rw [linked, if_pos link, next_eq_followPc]
  rfl

theorem linked_off {f : FS} (plain : f.fn.getLsbD 0 = false) (b : Bank) : linked f b = b := by
  simp only [linked, plain, Bool.false_eq_true, if_false]

theorem exec_jr {h : Hdr} {f : FS} {s : State} (on : guardOn h s = true) (legal : legalTarget (s.curBank.r.sreg f.a)) :
    exec (.jr h f) s = .next (frontDone s (.jr h f)
      { linked f s.curBank with f := goTo s.curBank.f ((s.curBank.r.sreg f.a).setWidth 60) }) := by
  refine exec_goTo (upd := linked f) on rfl ?_
  rw [run_bind_ok (run_getB_cur s), run_bind_ok (run_takeReg legal s)]
  cases link : f.fn.getLsbD 0 with
  | true => rw [linked_on link, bit_toNat, link]; rfl
  | false => rw [State.modBank_same s s.cur _ (linked_off link _), bit_toNat, link]; rfl

theorem exec_retR {h : Hdr} {f : FS} {s : State} (on : guardOn h s = true) (legal : legalTarget (s.curBank.r.sreg 31)) :
    exec (.retR h f) s = .next (frontDone s (.retR h f) { s.curBank with f := goTo s.curBank.f ((s.curBank.r.sreg 31).setWidth 60) }) := by
  refine exec_goTo (upd := id) on rfl ?_
  rw [run_bind_ok (run_getB_cur s), run_takeReg legal s, State.modBank_same s s.cur id rfl]

theorem exec_adr {h : Hdr} {f : FL} {s : State} (on : guardOn h s = true) : exec (.adr h f) s =
    .next (regsDone s (.adr h f) (s.curBank.r.setS f.d
      (BitVec.ofInt 64 (((s.curBank.f.pc.toNat - s.curBank.f.pc.toNat % 32 : Nat) : Int) + f.imm.toInt * 4)))) := by
  have meaning : exec (.adr h f) s = .next (feWord h (word48 (.adr h f)) (fun w =>
    modB w fun b => b.modR fun r => r.setS f.d (w64i ((packetAddr b.f.pc).toNat + sext f.imm.toNat 27 * 4))) s) := rfl
  rw [meaning, feWord_ok h _ _ s _ on (run_modB s.cur _ s), modBank_frontDone, regsDone, fallThrough_eq, ← packetAddr_toNat, ← sext_toNat]
  rfl

/-- Settles O7: each word by its transfer, and one that its guard holds back by the skip of its word. -/
theorem branchWords : Obligations.BranchWords := by
  refine ⟨fun h s i off which => ?off, fun h s on => ⟨fun f => exec_adr on, fun f slot => ⟨exec_br on slot, exec_call on slot⟩,
    fun f legal => exec_jr on legal, fun f legal => exec_retR on legal⟩⟩
  obtain ⟨f, g, k, rfl | rfl | rfl | rfl | rfl⟩ := which <;> exact exec_guardOff off rfl

end Sys2Proof.Machine
end
